-- ==== Sys2Proof/Word.lean ====
section
/-!
DEFINITION. The word types of the Ziliovex Z4: bytes, 32-bit registers, 64-bit values and the 96-bit instruction word (R191, R198, R217).
-/
namespace Sys2Proof

/-- One byte of memory. -/
abbrev Byte := BitVec 8

/-- The contents of one register, latch or bypass entry (R217). -/
abbrev Word := BitVec 32

/-- The contents of a register pair, a program counter or a special register (R194, R222). -/
abbrev DWord := BitVec 64

/-- One instruction word (R191, R198). -/
abbrev IWord := BitVec 96

end Sys2Proof
end

