-- ==== Sys2Proof/Syntax.lean ====
section
/-!
DEFINITION. The instructions and events of the Ziliovex Z4 as syntax: one constructor of `Instr` for each row of the opcode table.
An instruction carries its decoded operand fields; an event carries its message.
-/
namespace Sys2Proof

/-- The TYPE field of MOD (R210). -/
inductive Ty where
  | none | i8 | n8 | i16 | n16 | i32 | n32 | i64 | n64 | f32 | f16 | bf16 | e4m3 | e5m2 | e2m1x | q64
  deriving DecidableEq, Repr

/-- The special operands (R202), in specifier order. -/
inductive Special where
  | tix | lane | gix | cix | cn | core | die | dev | arg | tls | spw | frm
  deriving DecidableEq, Repr

/-- A source operand (R201); `none` is a field the instruction does not use. -/
inductive Src where
  | none
  | v (n : BitVec 7)
  | k (n : BitVec 6)
  | p (n : BitVec 3)
  | sp (x : Special)
  | imm
  | latch (n : BitVec 3)
  deriving DecidableEq, Repr

/-- A destination operand (R201); `none` is a field the instruction does not use, or one that WBS suppresses. -/
inductive Dst where
  | none
  | v (n : BitVec 7)
  | k (n : BitVec 6)
  | p (n : BitVec 3)
  deriving DecidableEq, Repr

/-- The fields of an instruction word after decoding (R198). -/
structure Ops where
  guardNeg  : Bool
  guardPred : BitVec 3
  ty   : Ty
  x2   : Bool
  flag : Bool
  wbs  : Bool
  dst  : Dst
  sa   : Src
  sb   : Src
  sc   : Src
  aux  : BitVec 6
  imm  : BitVec 32
  deriving DecidableEq, Repr

/-- The names of the instructions, in the order of the opcode map (R209). REGX, REGION, MMA, RNG and SQPLAY have two forms each. -/
inductive Opc where
  | nop | bra | brx | call | callx | ret | exit | syncg | yield | prio | bkpt
  | iadd | isub | imul | imulh | imad | idiv | irem | imin | imax | iabs | ineg | icmp
  | isel | and | or | xor | not | andn | shl | shr | sar | rotl | bfx | bfi
  | popc | clz | ctz | brev | lea | mov | movi | movh | idot4
  | fadd | fsub | fmul | ffma | fmin | fmax | fcmp | frcp | frsq | fsqrt | fdiv | fexp2
  | flog2 | fsin | fcos | ftanh | fclass | frnd | fscalb | fdot2 | fdot4 | cvt | pack | unpack
  | plop | pmov | vote | shfl | gred | gscan
  | ld | st | lds | sts | ldk | pref | atom | atomc | red | give | take | waitw
  | cwb | cinv
  | spawn | await | pollf | fret | stealpt | cbar | nbar | qpush | qpop | tfetch | regxGet | regxPut
  | kset
  | symq | resolve | trap | eret | getsr | setsr | regionB | regionE
  | mmaSolo | mmaPair | mzero | mload | msave | mdrain | mstat | rfma | rscl | rred | rexp | rcvt
  | cpy | rngEngine | rngRegister
  | sqload | sqlegal | sqplay | sqplayList | squndo | sqscore | sqread | sqsave | sqcheck | sqcommit
  deriving DecidableEq, Repr

/-- The obtained coherence modes (R35). -/
inductive Mode where
  | coh | self | nc
  deriving DecidableEq, Repr

/-- The operation code (R211) and element type of a gather line (R83). -/
structure RedKind where
  op : Nat
  ty : Ty
  deriving DecidableEq, Repr

/-- Bytes of a line with their offsets: a write-back, a merge or a captured read. -/
abbrev LineBytes := List (Nat × Byte)

/-- What completes a load: the waiting thread, its late value, the bytes it needs and those taken from L1 at issue. -/
structure LoadDone where
  tids  : List Nat       -- core * 1024 + thread slot; several for LDK
  late  : Nat
  off   : Nat            -- offset within the line
  width : Nat            -- bytes
  got   : LineBytes
  ty    : Ty
  x2    : Bool
  ea    : Nat
  deriving DecidableEq, Repr

/-- An L1 miss on its way: the line to fill, its translation's marks (R37, R43) and the load it serves. -/
structure Fill where
  core  : Nat
  asid  : Nat
  vline : Nat
  line  : Nat
  mode  : Mode
  hint  : Nat
  r     : Bool
  w     : Bool           -- W = 1 and D = 1
  red   : Bool
  load  : Option LoadDone
  deriving DecidableEq, Repr

/-- What a core asks of an RDC slice or of a home slice. -/
inductive LineWork where
  | fill (f : Fill)
  | write (core : Nat) (bytes : LineBytes)
  | flush (core : Nat) (k : RedKind) (delta : List Byte)
  deriving DecidableEq, Repr

/-- The operations performed at a cell's point of serialisation (R139, R393 to R401; frames R275 to R282). -/
inductive CellKind where
  | atom (op : Nat)
  | atomc
  | red (op : Nat)
  | give
  | take
  | waitw (cmp : Nat)
  | await
  | pollf
  | fret
  | finish (x : Nat)     -- performed already with this value read; its invalidations are acknowledged (R152)
  deriving DecidableEq, Repr

/-- Where a cell or an access is: scratchpad of a core, or memory by its global physical address (device HBM, host, peer). -/
inductive Place where
  | scratch (core off : Nat)
  | mem (ga : Nat)
  deriving DecidableEq, Repr

/-- A cell operation of one thread on its way to the point of serialisation. -/
structure CellOp where
  tid   : Nat
  kind  : CellKind
  ty    : Ty
  place : Place
  mode  : Mode
  ea    : Nat
  a     : Nat            -- operand, expected value or value given
  b     : Nat            -- new value of ATOMC
  late  : Option Nat     -- the pending destination
  dst   : Dst            -- the known destination of WAITW and POLLF
  slot  : Nat            -- result slot of AWAIT and FRET
  giving : Bool
  taking : Bool
  total : Bool
  sent  : Bool           -- the die's write-through before it has been sent (R143)
  seq   : Nat            -- the order of issue (R125, R387)
  deriving DecidableEq, Repr

/-- A peer-window access (R23, R67). -/
inductive PeerKind where
  | load (l : LoadDone)
  | store (width value : Nat)
  | red (op : Nat) (ty : Ty) (value : Nat)
  | cell (c : CellOp)
  deriving DecidableEq, Repr

/-- Requests between an RDC and a home that may be refused with Retry (R95, R97). -/
inductive ReqKind where
  | rds | rdm | upg
  | rdg (k : RedKind)
  | rdsU
  deriving DecidableEq, Repr

/-- What Yareot Link carries (R153, R507). -/
inductive LinkReq where
  | fetch (die line : Nat)                                   -- an RDC's read of a peer line
  | write (die line : Nat) (bytes : LineBytes)               -- WbM(U) of a peer line
  | cell (c : CellOp)                                        -- a cell operation on a peer's word
  | red (tid ga : Nat) (op : Nat) (ty : Ty) (value : Nat)    -- a RED carried to the peer
  | inRead (dev line : Nat)                                  -- a peer reads a line of this package
  | inWrite (dev line : Nat) (bytes : LineBytes)
  | inAtom (dev ga : Nat) (op : Nat) (ty : Ty) (value : Nat)
  | inCas (dev ga : Nat) (ty : Ty) (expected value : Nat)
  | wake (tid : Nat) (value : Nat)                           -- a monitor wake from a peer
  deriving DecidableEq, Repr

/-- One entry write of a MAP command or of firmware: level, virtual address and entry value (R31). -/
structure EntryWrite where
  level : Nat
  va    : Nat
  entry : Nat
  deriving DecidableEq, Repr

/-- Who met a firmware-first fault: a parked thread, or a suspended engine operation (R315, R425). -/
inductive Faulter where
  | thread (tid : Nat)
  | op (n : Nat)
  deriving DecidableEq, Repr

/-- What firmware decides on a firmware-first fault (R315). -/
inductive FwChoice where
  | resolve (entries : List EntryWrite)   -- write entries, then resume
  | reread                           -- the uncorrectable unit was read again correctly
  | forward
  | endContext
  deriving DecidableEq, Repr

/-- The array in which an error is found (R74, R177, R516): a line at its home or in die 0's host section, a core's L1 line, an RDC line, a core's scratchpad, or a die's spoil list. -/
inductive ErrAt where
  | home (line : Nat)
  | l1 (core key : Nat)
  | rdc (die line : Nat)
  | spad (core : Nat)
  | spoil (die : Nat)
  deriving DecidableEq, Repr

/-- A firmware image offered for download (R511, R512). -/
structure Image where
  size     : Nat
  digest   : Nat        -- SHA-384 measurement of the image
  header   : Nat        -- size of the image header
  svn      : Nat
  raiseSvn : Bool
  sigRsa   : Nat
  sigSlh   : Nat
  deriving DecidableEq, Repr

/-- A mailbox command's envelope (R505): its tag, and whether a reserved bit is set. -/
structure Mbox where
  tag      : Nat
  reserved : Bool
  deriving DecidableEq, Repr

/-- The machine's instructions and events: one constructor for each row of the opcode table. -/
inductive Instr where
  -- Control instructions (R231).
  | nop (o : Ops)
  | bra (o : Ops)
  | brx (o : Ops)
  | call (o : Ops)
  | callx (o : Ops)
  | ret (o : Ops)
  | exit (o : Ops)
  | syncg (o : Ops)
  | yield (o : Ops)
  | prio (o : Ops)
  | bkpt (o : Ops)
  -- Integer and logic instructions (R353).
  | iadd (o : Ops)
  | isub (o : Ops)
  | imul (o : Ops)
  | imulh (o : Ops)
  | imad (o : Ops)
  | idiv (o : Ops)
  | irem (o : Ops)
  | imin (o : Ops)
  | imax (o : Ops)
  | iabs (o : Ops)
  | ineg (o : Ops)
  | icmp (o : Ops)
  | isel (o : Ops)
  | and (o : Ops)
  | or (o : Ops)
  | xor (o : Ops)
  | not (o : Ops)
  | andn (o : Ops)
  | shl (o : Ops)
  | shr (o : Ops)
  | sar (o : Ops)
  | rotl (o : Ops)
  | bfx (o : Ops)
  | bfi (o : Ops)
  | popc (o : Ops)
  | clz (o : Ops)
  | ctz (o : Ops)
  | brev (o : Ops)
  | lea (o : Ops)
  | mov (o : Ops)
  | movi (o : Ops)
  | movh (o : Ops)
  | idot4 (o : Ops)
  -- Floating-point and conversion instructions (R366).
  | fadd (o : Ops)
  | fsub (o : Ops)
  | fmul (o : Ops)
  | ffma (o : Ops)
  | fmin (o : Ops)
  | fmax (o : Ops)
  | fcmp (o : Ops)
  | frcp (o : Ops)
  | frsq (o : Ops)
  | fsqrt (o : Ops)
  | fdiv (o : Ops)
  | fexp2 (o : Ops)
  | flog2 (o : Ops)
  | fsin (o : Ops)
  | fcos (o : Ops)
  | ftanh (o : Ops)
  | fclass (o : Ops)
  | frnd (o : Ops)
  | fscalb (o : Ops)
  | fdot2 (o : Ops)
  | fdot4 (o : Ops)
  | cvt (o : Ops)
  | pack (o : Ops)
  | unpack (o : Ops)
  -- Predicate and lane instructions (R240).
  | plop (o : Ops)
  | pmov (o : Ops)
  | vote (o : Ops)
  | shfl (o : Ops)
  | gred (o : Ops)
  | gscan (o : Ops)
  -- Memory, atomic and cell instructions (R385).
  | ld (o : Ops)
  | st (o : Ops)
  | lds (o : Ops)
  | sts (o : Ops)
  | ldk (o : Ops)
  | pref (o : Ops)
  | atom (o : Ops)
  | atomc (o : Ops)
  | red (o : Ops)
  | give (o : Ops)
  | take (o : Ops)
  | waitw (o : Ops)
  | cwb (o : Ops)
  | cinv (o : Ops)
  -- Frames, crews, queues and register blocks (R246, R266).
  | spawn (o : Ops)
  | await (o : Ops)
  | pollf (o : Ops)
  | fret (o : Ops)
  | stealpt (o : Ops)
  | cbar (o : Ops)
  | nbar (o : Ops)
  | qpush (o : Ops)
  | qpop (o : Ops)
  | tfetch (o : Ops)
  | regxGet (o : Ops)
  | regxPut (o : Ops)
  | kset (o : Ops)
  -- Pending values and system (R262, R264, R331).
  | symq (o : Ops)
  | resolve (o : Ops)
  | trap (o : Ops)
  | eret (o : Ops)
  | getsr (o : Ops)
  | setsr (o : Ops)
  | regionB (o : Ops)
  | regionE (o : Ops)
  -- Matrix, region, copy and RNG engines (R416).
  | mmaSolo (o : Ops)
  | mmaPair (o : Ops)
  | mzero (o : Ops)
  | mload (o : Ops)
  | msave (o : Ops)
  | mdrain (o : Ops)
  | mstat (o : Ops)
  | rfma (o : Ops)
  | rscl (o : Ops)
  | rred (o : Ops)
  | rexp (o : Ops)
  | rcvt (o : Ops)
  | cpy (o : Ops)
  | rngEngine (o : Ops)
  | rngRegister (o : Ops)
  -- The Square (R468, R490).
  | sqload (o : Ops)
  | sqlegal (o : Ops)
  | sqplay (o : Ops)
  | sqplayList (o : Ops)
  | squndo (o : Ops)
  | sqscore (o : Ops)
  | sqread (o : Ops)
  | sqsave (o : Ops)
  | sqcheck (o : Ops)
  | sqcommit (o : Ops)
  -- The machine's events (95_what_each_step_holds.md); each carries its message.
  -- cores and fetch
  | issueClock (core : Nat)
  | fetchLineReturn (core asid vline : Nat)
  | regroup (core : Nat)
  | pendingValueArrival (tids : List Nat) (late value : Nat) (bad : Option Nat)
  | scrubberVisit (core : Nat)
  | pageWalk (core asid : Nat) (pc : DWord) (need : Nat) (reqs : List (Nat × List Nat))
  -- cells, monitors and windows
  | cellOperationRequest (c : CellOp)
  | spoilListHeldRegistration (c : CellOp)
  | peerWindowRequest (tid ctx core off : Nat) (k : PeerKind)
  | illTimedReport (tid : Nat)
  -- homes and RDCs
  | homeDieAccess (line : Nat) (w : LineWork) (served : Bool)
  | hbmReadReturn (line : Nat)
  | rds (die line : Nat) (served : Bool)
  | rdm (die line : Nat) (served : Bool)
  | upg (die line : Nat) (served : Bool)
  | rdg (die line : Nat) (k : RedKind) (served : Bool)
  | wbm (die line : Nat) (bytes : LineBytes)
  | inv (die line : Nat) (owner : Bool)
  | invAck (die line : Nat) (bytes : Option LineBytes)
  | gatherRecall (die line : Nat)
  | gatherData (die line : Nat) (delta : Option (RedKind × List Byte)) (asked : Bool)
  | data (die line : Nat) (bytes : List Byte) (m : Bool)
  | grant (die line : Nat) (m : Bool)
  | wbAck (die line : Nat)
  | retry (die line : Nat) (k : ReqKind)
  | retryBackoffExpiry (die line : Nat)
  | rdsU (die line : Nat)
  | wbmU (die line : Nat) (bytes : LineBytes)
  | gatherDataU (die line : Nat) (k : RedKind) (delta : List Byte)
  -- host and fabric
  | hostSnoop (line : Nat)
  | hostCacheData (line : Nat) (bytes : List Byte) (m : Bool)
  | hostMemrd (line : Nat) (snoop : Nat)
  | hostMemwr (line : Nat) (bytes : LineBytes)
  | birsp (line : Nat) (bytes : Option LineBytes)
  | peerLinkRequest (r : LinkReq)
  | flitReplay (port : Nat)
  | portDown (port : Nat)
  | peerUnreachableTimeout (dev : Nat)
  -- engines
  | engineOperationStart (op : Nat)
  | engineOperationEnd (op : Nat)
  | engineOperationResume (op : Nat)
  -- crews and dispatch
  | crewLaunchDrain (crew : Nat)
  | crewFirstIssueGrant (crew : Nat)
  | granuleRelease (crew : Nat)
  | dispatchCrewStart (core : Nat)
  | skipAgeLimitReached (core : Nat)
  | affinityAgeingExpiry (crew : Nat)
  | crewSteal (core : Nat)
  | continuationResume (core cont : Nat)
  | crewEnd (crew : Nat)
  | shelveGroup (core : Nat)
  | unshelveGroup (core shelf : Nat)
  | remoteBarrierArrival (tid : Nat) (handle : Nat) (id count : Nat)
  | remoteQueueRequest (tid : Nat) (handle queue : Nat) (push : Option Nat) (dst : Dst) (wide nb : Bool) (pred : Nat)
  | regxBlockGrant (core : Nat)
  | dispenserStealRequest (launch lot thief victim : Nat)
  | dispenserStealReply (launch lot thief victim : Nat) (coords : List Nat) (left : Nat)
  -- pre-emption and contexts
  | discardPreemption (crew : Nat)
  | savePreemption (crew : Nat)
  | crewResume (crew : Nat)
  | contextSwitch (out inc : Nat)
  | contextEnd (ctx : Nat)
  | firmwareFirstTrapEvent (who : Faulter) (choice : FwChoice)
  | parkedSubgroupResume (core group : Nat)
  | matrixFirstUse (core : Nat)
  | shootdown (asid va len : Nat)
  | pageMigration (asid va frame : Nat)
  | frameModeChange (frame mode : Nat)
  -- firmware
  | firmwareEventRun (fwcore : Nat)
  | firmwareEventContinuation (ev : Nat)
  | watchdogExpiry (fwcore : Nat)
  -- queues and packets
  | tailWordWake (queue : Nat)
  | commandProcessorPrefetch (queue : Nat)
  | packetNop (queue : Nat)
  | packetLaunch (queue : Nat)
  | packetWaitsig (queue : Nat)
  | waitsigWake (queue : Nat)
  | packetSignal (queue : Nat)
  | packetCopy (queue : Nat)
  | packetFetchfence (queue : Nat)
  | packetIndirect (queue : Nat)
  | packetPlan (queue : Nat)
  | packetComplete (queue : Nat)
  | lotEnqueue (launch lot : Nat)
  | launchEnd (launch : Nat)
  -- plans and registers
  | planFlip (ctx id : Nat)
  | planRetire (ctx id : Nat)
  | phaseRegisterWrite (die value : Nat)
  | firmwareRegisterWrite (pa value : Nat)
  -- mailbox
  | queueStart (m : Mbox) (ctx base taila heada logn : Nat)
  | queueStop (m : Mbox) (queue : Nat)
  | queueRestart (m : Mbox) (queue : Nat)
  | contextCreate (m : Mbox) (asid root msave : Nat) (tl : List EntryWrite)
  | contextRelease (m : Mbox) (ctx : Nat)
  | setPartition (m : Mbox) (ctx pfirst pcount : Nat)
  | setPerm (m : Mbox) (ctx perm0 perm1 perm2 : Nat)
  | setPlayer (m : Mbox) (ctx budget cap : Nat)
  | setTiming (m : Mbox) (ctx ageing skip : Nat) (steal : Bool)
  | map (m : Mbox) (ctx va len : Nat) (entries : List EntryWrite)
  | readCounters (m : Mbox) (die : Nat)
  | checkpoint (m : Mbox) (dev base : Nat)
  | restore (m : Mbox) (dev base : Nat)
  | attest (m : Mbox) (nonce : Nat)
  | powerCap (m : Mbox) (watts : Nat)
  | download (m : Mbox) (size : Nat) (image : Image)
  | setFabric (m : Mbox) (dev table : Nat)
  -- bring-up, power and errors
  | powerUp
  | powerSample (watts : Nat)
  | patrolScrub (place : ErrAt) (n : Nat) (correctable : Bool)
  | hostWriteAck (line core : Nat)
  deriving DecidableEq, Repr

/-- The instruction of a given name with given operands. -/
def Opc.mk : Opc → Ops → Instr
  | .nop, o => .nop o
  | .bra, o => .bra o
  | .brx, o => .brx o
  | .call, o => .call o
  | .callx, o => .callx o
  | .ret, o => .ret o
  | .exit, o => .exit o
  | .syncg, o => .syncg o
  | .yield, o => .yield o
  | .prio, o => .prio o
  | .bkpt, o => .bkpt o
  | .iadd, o => .iadd o
  | .isub, o => .isub o
  | .imul, o => .imul o
  | .imulh, o => .imulh o
  | .imad, o => .imad o
  | .idiv, o => .idiv o
  | .irem, o => .irem o
  | .imin, o => .imin o
  | .imax, o => .imax o
  | .iabs, o => .iabs o
  | .ineg, o => .ineg o
  | .icmp, o => .icmp o
  | .isel, o => .isel o
  | .and, o => .and o
  | .or, o => .or o
  | .xor, o => .xor o
  | .not, o => .not o
  | .andn, o => .andn o
  | .shl, o => .shl o
  | .shr, o => .shr o
  | .sar, o => .sar o
  | .rotl, o => .rotl o
  | .bfx, o => .bfx o
  | .bfi, o => .bfi o
  | .popc, o => .popc o
  | .clz, o => .clz o
  | .ctz, o => .ctz o
  | .brev, o => .brev o
  | .lea, o => .lea o
  | .mov, o => .mov o
  | .movi, o => .movi o
  | .movh, o => .movh o
  | .idot4, o => .idot4 o
  | .fadd, o => .fadd o
  | .fsub, o => .fsub o
  | .fmul, o => .fmul o
  | .ffma, o => .ffma o
  | .fmin, o => .fmin o
  | .fmax, o => .fmax o
  | .fcmp, o => .fcmp o
  | .frcp, o => .frcp o
  | .frsq, o => .frsq o
  | .fsqrt, o => .fsqrt o
  | .fdiv, o => .fdiv o
  | .fexp2, o => .fexp2 o
  | .flog2, o => .flog2 o
  | .fsin, o => .fsin o
  | .fcos, o => .fcos o
  | .ftanh, o => .ftanh o
  | .fclass, o => .fclass o
  | .frnd, o => .frnd o
  | .fscalb, o => .fscalb o
  | .fdot2, o => .fdot2 o
  | .fdot4, o => .fdot4 o
  | .cvt, o => .cvt o
  | .pack, o => .pack o
  | .unpack, o => .unpack o
  | .plop, o => .plop o
  | .pmov, o => .pmov o
  | .vote, o => .vote o
  | .shfl, o => .shfl o
  | .gred, o => .gred o
  | .gscan, o => .gscan o
  | .ld, o => .ld o
  | .st, o => .st o
  | .lds, o => .lds o
  | .sts, o => .sts o
  | .ldk, o => .ldk o
  | .pref, o => .pref o
  | .atom, o => .atom o
  | .atomc, o => .atomc o
  | .red, o => .red o
  | .give, o => .give o
  | .take, o => .take o
  | .waitw, o => .waitw o
  | .cwb, o => .cwb o
  | .cinv, o => .cinv o
  | .spawn, o => .spawn o
  | .await, o => .await o
  | .pollf, o => .pollf o
  | .fret, o => .fret o
  | .stealpt, o => .stealpt o
  | .cbar, o => .cbar o
  | .nbar, o => .nbar o
  | .qpush, o => .qpush o
  | .qpop, o => .qpop o
  | .tfetch, o => .tfetch o
  | .regxGet, o => .regxGet o
  | .regxPut, o => .regxPut o
  | .kset, o => .kset o
  | .symq, o => .symq o
  | .resolve, o => .resolve o
  | .trap, o => .trap o
  | .eret, o => .eret o
  | .getsr, o => .getsr o
  | .setsr, o => .setsr o
  | .regionB, o => .regionB o
  | .regionE, o => .regionE o
  | .mmaSolo, o => .mmaSolo o
  | .mmaPair, o => .mmaPair o
  | .mzero, o => .mzero o
  | .mload, o => .mload o
  | .msave, o => .msave o
  | .mdrain, o => .mdrain o
  | .mstat, o => .mstat o
  | .rfma, o => .rfma o
  | .rscl, o => .rscl o
  | .rred, o => .rred o
  | .rexp, o => .rexp o
  | .rcvt, o => .rcvt o
  | .cpy, o => .cpy o
  | .rngEngine, o => .rngEngine o
  | .rngRegister, o => .rngRegister o
  | .sqload, o => .sqload o
  | .sqlegal, o => .sqlegal o
  | .sqplay, o => .sqplay o
  | .sqplayList, o => .sqplayList o
  | .squndo, o => .squndo o
  | .sqscore, o => .sqscore o
  | .sqread, o => .sqread o
  | .sqsave, o => .sqsave o
  | .sqcheck, o => .sqcheck o
  | .sqcommit, o => .sqcommit o

/-- The name and operands of an instruction; none for an event. -/
def Instr.view : Instr → Option (Opc × Ops)
  | .nop o => some (.nop, o)
  | .bra o => some (.bra, o)
  | .brx o => some (.brx, o)
  | .call o => some (.call, o)
  | .callx o => some (.callx, o)
  | .ret o => some (.ret, o)
  | .exit o => some (.exit, o)
  | .syncg o => some (.syncg, o)
  | .yield o => some (.yield, o)
  | .prio o => some (.prio, o)
  | .bkpt o => some (.bkpt, o)
  | .iadd o => some (.iadd, o)
  | .isub o => some (.isub, o)
  | .imul o => some (.imul, o)
  | .imulh o => some (.imulh, o)
  | .imad o => some (.imad, o)
  | .idiv o => some (.idiv, o)
  | .irem o => some (.irem, o)
  | .imin o => some (.imin, o)
  | .imax o => some (.imax, o)
  | .iabs o => some (.iabs, o)
  | .ineg o => some (.ineg, o)
  | .icmp o => some (.icmp, o)
  | .isel o => some (.isel, o)
  | .and o => some (.and, o)
  | .or o => some (.or, o)
  | .xor o => some (.xor, o)
  | .not o => some (.not, o)
  | .andn o => some (.andn, o)
  | .shl o => some (.shl, o)
  | .shr o => some (.shr, o)
  | .sar o => some (.sar, o)
  | .rotl o => some (.rotl, o)
  | .bfx o => some (.bfx, o)
  | .bfi o => some (.bfi, o)
  | .popc o => some (.popc, o)
  | .clz o => some (.clz, o)
  | .ctz o => some (.ctz, o)
  | .brev o => some (.brev, o)
  | .lea o => some (.lea, o)
  | .mov o => some (.mov, o)
  | .movi o => some (.movi, o)
  | .movh o => some (.movh, o)
  | .idot4 o => some (.idot4, o)
  | .fadd o => some (.fadd, o)
  | .fsub o => some (.fsub, o)
  | .fmul o => some (.fmul, o)
  | .ffma o => some (.ffma, o)
  | .fmin o => some (.fmin, o)
  | .fmax o => some (.fmax, o)
  | .fcmp o => some (.fcmp, o)
  | .frcp o => some (.frcp, o)
  | .frsq o => some (.frsq, o)
  | .fsqrt o => some (.fsqrt, o)
  | .fdiv o => some (.fdiv, o)
  | .fexp2 o => some (.fexp2, o)
  | .flog2 o => some (.flog2, o)
  | .fsin o => some (.fsin, o)
  | .fcos o => some (.fcos, o)
  | .ftanh o => some (.ftanh, o)
  | .fclass o => some (.fclass, o)
  | .frnd o => some (.frnd, o)
  | .fscalb o => some (.fscalb, o)
  | .fdot2 o => some (.fdot2, o)
  | .fdot4 o => some (.fdot4, o)
  | .cvt o => some (.cvt, o)
  | .pack o => some (.pack, o)
  | .unpack o => some (.unpack, o)
  | .plop o => some (.plop, o)
  | .pmov o => some (.pmov, o)
  | .vote o => some (.vote, o)
  | .shfl o => some (.shfl, o)
  | .gred o => some (.gred, o)
  | .gscan o => some (.gscan, o)
  | .ld o => some (.ld, o)
  | .st o => some (.st, o)
  | .lds o => some (.lds, o)
  | .sts o => some (.sts, o)
  | .ldk o => some (.ldk, o)
  | .pref o => some (.pref, o)
  | .atom o => some (.atom, o)
  | .atomc o => some (.atomc, o)
  | .red o => some (.red, o)
  | .give o => some (.give, o)
  | .take o => some (.take, o)
  | .waitw o => some (.waitw, o)
  | .cwb o => some (.cwb, o)
  | .cinv o => some (.cinv, o)
  | .spawn o => some (.spawn, o)
  | .await o => some (.await, o)
  | .pollf o => some (.pollf, o)
  | .fret o => some (.fret, o)
  | .stealpt o => some (.stealpt, o)
  | .cbar o => some (.cbar, o)
  | .nbar o => some (.nbar, o)
  | .qpush o => some (.qpush, o)
  | .qpop o => some (.qpop, o)
  | .tfetch o => some (.tfetch, o)
  | .regxGet o => some (.regxGet, o)
  | .regxPut o => some (.regxPut, o)
  | .kset o => some (.kset, o)
  | .symq o => some (.symq, o)
  | .resolve o => some (.resolve, o)
  | .trap o => some (.trap, o)
  | .eret o => some (.eret, o)
  | .getsr o => some (.getsr, o)
  | .setsr o => some (.setsr, o)
  | .regionB o => some (.regionB, o)
  | .regionE o => some (.regionE, o)
  | .mmaSolo o => some (.mmaSolo, o)
  | .mmaPair o => some (.mmaPair, o)
  | .mzero o => some (.mzero, o)
  | .mload o => some (.mload, o)
  | .msave o => some (.msave, o)
  | .mdrain o => some (.mdrain, o)
  | .mstat o => some (.mstat, o)
  | .rfma o => some (.rfma, o)
  | .rscl o => some (.rscl, o)
  | .rred o => some (.rred, o)
  | .rexp o => some (.rexp, o)
  | .rcvt o => some (.rcvt, o)
  | .cpy o => some (.cpy, o)
  | .rngEngine o => some (.rngEngine, o)
  | .rngRegister o => some (.rngRegister, o)
  | .sqload o => some (.sqload, o)
  | .sqlegal o => some (.sqlegal, o)
  | .sqplay o => some (.sqplay, o)
  | .sqplayList o => some (.sqplayList, o)
  | .squndo o => some (.squndo, o)
  | .sqscore o => some (.sqscore, o)
  | .sqread o => some (.sqread, o)
  | .sqsave o => some (.sqsave, o)
  | .sqcheck o => some (.sqcheck, o)
  | .sqcommit o => some (.sqcommit, o)
  | _ => none

end Sys2Proof
end

