-- ==== Sys2Proof/Machine/Formats.lean ====
section
/-!
DEFINITION. The encoding tables: for every instruction its major opcode, pairing class and blocking mark (R209), the TYPE, X2 and FLAG values it accepts, the kinds of its operands and the roles of AUX and IMM32 (R210 to R213, R231, R240, R246, R262, R264, R266, R331, R353, R366, R385, R416, R468, R490).
-/
namespace Sys2Proof

/-- The pairing class of an instruction (R196). -/
inductive Cls where
  | a | m | c
  deriving DecidableEq, Repr

/-- The major opcode (R209). -/
def Opc.maj : Opc → BitVec 8
  | .nop => 0x00
  | .bra => 0x01
  | .brx => 0x02
  | .call => 0x03
  | .callx => 0x04
  | .ret => 0x05
  | .exit => 0x06
  | .syncg => 0x07
  | .yield => 0x08
  | .prio => 0x09
  | .bkpt => 0x0A
  | .iadd => 0x10
  | .isub => 0x11
  | .imul => 0x12
  | .imulh => 0x13
  | .imad => 0x14
  | .idiv => 0x15
  | .irem => 0x16
  | .imin => 0x17
  | .imax => 0x18
  | .iabs => 0x19
  | .ineg => 0x1A
  | .icmp => 0x1B
  | .isel => 0x1C
  | .and => 0x1D
  | .or => 0x1E
  | .xor => 0x1F
  | .not => 0x20
  | .andn => 0x21
  | .shl => 0x22
  | .shr => 0x23
  | .sar => 0x24
  | .rotl => 0x25
  | .bfx => 0x26
  | .bfi => 0x27
  | .popc => 0x28
  | .clz => 0x29
  | .ctz => 0x2A
  | .brev => 0x2B
  | .lea => 0x2C
  | .mov => 0x2D
  | .movi => 0x2E
  | .movh => 0x2F
  | .idot4 => 0x30
  | .fadd => 0x38
  | .fsub => 0x39
  | .fmul => 0x3A
  | .ffma => 0x3B
  | .fmin => 0x3C
  | .fmax => 0x3D
  | .fcmp => 0x3E
  | .frcp => 0x3F
  | .frsq => 0x40
  | .fsqrt => 0x41
  | .fdiv => 0x42
  | .fexp2 => 0x43
  | .flog2 => 0x44
  | .fsin => 0x45
  | .fcos => 0x46
  | .ftanh => 0x47
  | .fclass => 0x48
  | .frnd => 0x49
  | .fscalb => 0x4A
  | .fdot2 => 0x4B
  | .fdot4 => 0x4C
  | .cvt => 0x4D
  | .pack => 0x4E
  | .unpack => 0x4F
  | .plop => 0x58
  | .pmov => 0x59
  | .vote => 0x5A
  | .shfl => 0x5B
  | .gred => 0x5C
  | .gscan => 0x5D
  | .ld => 0x60
  | .st => 0x61
  | .lds => 0x62
  | .sts => 0x63
  | .ldk => 0x64
  | .pref => 0x65
  | .atom => 0x66
  | .atomc => 0x67
  | .red => 0x68
  | .give => 0x69
  | .take => 0x6A
  | .waitw => 0x6B
  | .cwb => 0x6C
  | .cinv => 0x6D
  | .spawn => 0x70
  | .await => 0x71
  | .pollf => 0x72
  | .fret => 0x73
  | .stealpt => 0x74
  | .cbar => 0x75
  | .nbar => 0x76
  | .qpush => 0x77
  | .qpop => 0x78
  | .tfetch => 0x79
  | .regxGet => 0x7A
  | .regxPut => 0x7A
  | .kset => 0x7B
  | .symq => 0x80
  | .resolve => 0x81
  | .trap => 0x82
  | .eret => 0x83
  | .getsr => 0x84
  | .setsr => 0x85
  | .regionB => 0x86
  | .regionE => 0x86
  | .mmaSolo => 0x88
  | .mmaPair => 0x88
  | .mzero => 0x89
  | .mload => 0x8A
  | .msave => 0x8B
  | .mdrain => 0x8C
  | .mstat => 0x8D
  | .rfma => 0x90
  | .rscl => 0x91
  | .rred => 0x92
  | .rexp => 0x93
  | .rcvt => 0x94
  | .cpy => 0x95
  | .rngEngine => 0x96
  | .rngRegister => 0x96
  | .sqload => 0x98
  | .sqlegal => 0x99
  | .sqplay => 0x9A
  | .sqplayList => 0x9A
  | .squndo => 0x9B
  | .sqscore => 0x9C
  | .sqread => 0x9D
  | .sqsave => 0x9E
  | .sqcheck => 0x9F
  | .sqcommit => 0xA0

/-- The pairing class (R209): control 0x00 to 0x0A, arithmetic 0x10 to 0x5D, memory and engine from 0x60. -/
def Opc.cls (c : Opc) : Cls :=
  if c.maj.toNat < 0x10 then .c else if c.maj.toNat < 0x60 then .a else .m

/-- The blocking class B (R209). -/
def Opc.blocking (c : Opc) : Bool :=
  match c.maj.toNat with
  | 0x06 | 0x07 | 0x08 | 0x09 | 0x0A => true
  | 0x72 | 0x73 | 0x7B | 0x80 | 0x84 | 0x8D => false
  | n => decide (0x66 ≤ n)

/-- The class of a major opcode: none where it is unused (R209). -/
def clsOfMaj (m : BitVec 8) : Option Cls :=
  let n := m.toNat
  if n ≤ 0x0A then some .c
  else if (0x10 ≤ n && n ≤ 0x30) || (0x38 ≤ n && n ≤ 0x4F) || (0x58 ≤ n && n ≤ 0x5D) then some .a
  else if (0x60 ≤ n && n ≤ 0x6D) || (0x70 ≤ n && n ≤ 0x7B) || (0x80 ≤ n && n ≤ 0x86)
      || (0x88 ≤ n && n ≤ 0x8D) || (0x90 ≤ n && n ≤ 0x96) || (0x98 ≤ n && n ≤ 0xA0) then some .m
  else none

/-- The instruction a major opcode names, given AUX for the opcodes of two forms (R209, R246, R331, R416, R468). -/
def opcOf (m : BitVec 8) (aux : BitVec 6) : Option Opc :=
  match m.toNat with
  | 0x00 => some .nop
  | 0x01 => some .bra
  | 0x02 => some .brx
  | 0x03 => some .call
  | 0x04 => some .callx
  | 0x05 => some .ret
  | 0x06 => some .exit
  | 0x07 => some .syncg
  | 0x08 => some .yield
  | 0x09 => some .prio
  | 0x0A => some .bkpt
  | 0x10 => some .iadd
  | 0x11 => some .isub
  | 0x12 => some .imul
  | 0x13 => some .imulh
  | 0x14 => some .imad
  | 0x15 => some .idiv
  | 0x16 => some .irem
  | 0x17 => some .imin
  | 0x18 => some .imax
  | 0x19 => some .iabs
  | 0x1A => some .ineg
  | 0x1B => some .icmp
  | 0x1C => some .isel
  | 0x1D => some .and
  | 0x1E => some .or
  | 0x1F => some .xor
  | 0x20 => some .not
  | 0x21 => some .andn
  | 0x22 => some .shl
  | 0x23 => some .shr
  | 0x24 => some .sar
  | 0x25 => some .rotl
  | 0x26 => some .bfx
  | 0x27 => some .bfi
  | 0x28 => some .popc
  | 0x29 => some .clz
  | 0x2A => some .ctz
  | 0x2B => some .brev
  | 0x2C => some .lea
  | 0x2D => some .mov
  | 0x2E => some .movi
  | 0x2F => some .movh
  | 0x30 => some .idot4
  | 0x38 => some .fadd
  | 0x39 => some .fsub
  | 0x3A => some .fmul
  | 0x3B => some .ffma
  | 0x3C => some .fmin
  | 0x3D => some .fmax
  | 0x3E => some .fcmp
  | 0x3F => some .frcp
  | 0x40 => some .frsq
  | 0x41 => some .fsqrt
  | 0x42 => some .fdiv
  | 0x43 => some .fexp2
  | 0x44 => some .flog2
  | 0x45 => some .fsin
  | 0x46 => some .fcos
  | 0x47 => some .ftanh
  | 0x48 => some .fclass
  | 0x49 => some .frnd
  | 0x4A => some .fscalb
  | 0x4B => some .fdot2
  | 0x4C => some .fdot4
  | 0x4D => some .cvt
  | 0x4E => some .pack
  | 0x4F => some .unpack
  | 0x58 => some .plop
  | 0x59 => some .pmov
  | 0x5A => some .vote
  | 0x5B => some .shfl
  | 0x5C => some .gred
  | 0x5D => some .gscan
  | 0x60 => some .ld
  | 0x61 => some .st
  | 0x62 => some .lds
  | 0x63 => some .sts
  | 0x64 => some .ldk
  | 0x65 => some .pref
  | 0x66 => some .atom
  | 0x67 => some .atomc
  | 0x68 => some .red
  | 0x69 => some .give
  | 0x6A => some .take
  | 0x6B => some .waitw
  | 0x6C => some .cwb
  | 0x6D => some .cinv
  | 0x70 => some .spawn
  | 0x71 => some .await
  | 0x72 => some .pollf
  | 0x73 => some .fret
  | 0x74 => some .stealpt
  | 0x75 => some .cbar
  | 0x76 => some .nbar
  | 0x77 => some .qpush
  | 0x78 => some .qpop
  | 0x79 => some .tfetch
  | 0x7A => some (if aux.getLsbD 0 then .regxPut else .regxGet)
  | 0x7B => some .kset
  | 0x80 => some .symq
  | 0x81 => some .resolve
  | 0x82 => some .trap
  | 0x83 => some .eret
  | 0x84 => some .getsr
  | 0x85 => some .setsr
  | 0x86 => some (if aux.getLsbD 0 then .regionE else .regionB)
  | 0x88 => some (if aux.getLsbD 0 then .mmaPair else .mmaSolo)
  | 0x89 => some .mzero
  | 0x8A => some .mload
  | 0x8B => some .msave
  | 0x8C => some .mdrain
  | 0x8D => some .mstat
  | 0x90 => some .rfma
  | 0x91 => some .rscl
  | 0x92 => some .rred
  | 0x93 => some .rexp
  | 0x94 => some .rcvt
  | 0x95 => some .cpy
  | 0x96 => some (if aux.getLsbD 0 then .rngEngine else .rngRegister)
  | 0x98 => some .sqload
  | 0x99 => some .sqlegal
  | 0x9A => some (if aux.getLsbD 1 then .sqplayList else .sqplay)
  | 0x9B => some .squndo
  | 0x9C => some .sqscore
  | 0x9D => some .sqread
  | 0x9E => some .sqsave
  | 0x9F => some .sqcheck
  | 0xA0 => some .sqcommit
  | _ => none

/-- The code of a TYPE (R210). -/
def Ty.code : Ty → BitVec 4
  | .none => 0x0 | .i8 => 0x1 | .n8 => 0x2 | .i16 => 0x3 | .n16 => 0x4 | .i32 => 0x5 | .n32 => 0x6 | .i64 => 0x7
  | .n64 => 0x8 | .f32 => 0x9 | .f16 => 0xA | .bf16 => 0xB | .e4m3 => 0xC | .e5m2 => 0xD | .e2m1x => 0xE | .q64 => 0xF

/-- The TYPE of a code (R210). -/
def Ty.ofCode (c : BitVec 4) : Ty :=
  match c.toNat with
  | 0x1 => .i8 | 0x2 => .n8 | 0x3 => .i16 | 0x4 => .n16 | 0x5 => .i32 | 0x6 => .n32 | 0x7 => .i64
  | 0x8 => .n64 | 0x9 => .f32 | 0xA => .f16 | 0xB => .bf16 | 0xC => .e4m3 | 0xD => .e5m2 | 0xE => .e2m1x | 0xF => .q64
  | _ => .none

/-- The width of a TYPE in bits, packed forms apart (R210). A type of no width counts as 32. -/
def Ty.bits : Ty → Nat
  | .i8 | .n8 | .e4m3 | .e5m2 => 8
  | .i16 | .n16 | .f16 | .bf16 => 16
  | .i64 | .n64 | .q64 => 64
  | .e2m1x => 4
  | .none | .i32 | .n32 | .f32 => 32

/-- Whether a TYPE is 64 bits wide. -/
def Ty.is64 : Ty → Bool
  | .i64 | .n64 | .q64 => true
  | _ => false

/-- Whether a TYPE is a signed integer (.i and .q64; R211, R356). -/
def Ty.signed : Ty → Bool
  | .i8 | .i16 | .i32 | .i64 | .q64 => true
  | _ => false

/-- Whether a TYPE is a floating-point format. -/
def Ty.isFloat : Ty → Bool
  | .f32 | .f16 | .bf16 | .e4m3 | .e5m2 | .e2m1x => true
  | _ => false

/-- Whether a TYPE is an integer (.i or .n), .q64 apart. -/
def Ty.isInt : Ty → Bool
  | .i8 | .n8 | .i16 | .n16 | .i32 | .n32 | .i64 | .n64 => true
  | _ => false

/-- The kinds a source operand accepts. -/
structure SKind where
  used  : Bool := true
  v     : Bool := false
  k     : Bool := false
  latch : Bool := false
  sp    : Bool := false
  imm   : Bool := false
  p     : Bool := false
  p7    : Bool := false
  wide  : Bool := false   -- a 64-bit operand: an even register, else WHY 0x6 (R203)
  oddKind : Bool := false -- an odd register is of a kind not accepted, WHY 0x3 (src64, R348)
  quad  : Bool := false   -- a range vN to vN+3: N a multiple of 4, else WHY 0x6 (R384)
  k8    : Bool := false   -- a descriptor base: a multiple of 8, else WHY 0x3 (R416)
  low   : Bool := false   -- v0 to v31 only
  deriving DecidableEq, Repr

/-- The kinds a destination operand accepts. -/
inductive DKind where
  | unused          -- must be zero
  | v               -- v0 to v127
  | v64             -- an even v
  | quad            -- v at a multiple of 4
  | p               -- p0 to p6
  | k               -- k0 to k63
  | k64             -- an even k
  | pOrV            -- PMOV
  deriving DecidableEq, Repr

namespace SKind
/-- A field that must be zero. -/
def unused : SKind := { used := false }
/-- The kind src of R348. -/
def src : SKind := { v := true, k := true, latch := true, sp := true, imm := true }
/-- The kind src64 of R348. -/
def src64 : SKind := { v := true, k := true, sp := true, imm := true, wide := true, oddKind := true }
/-- src or src64 by width. -/
def srcW (is64 : Bool) : SKind := if is64 then src64 else src
/-- The kind pred of R348. -/
def pred : SKind := { src with p := true, p7 := true }
/-- A predicate read. -/
def preds : SKind := { p := true, p7 := true }
/-- A predicate written through a source field: p0 to p6. -/
def predOut : SKind := { p := true }
/-- v, k, special or IMM32. -/
def vksi (is64 : Bool) : SKind := { v := true, k := true, sp := true, imm := true, wide := is64 }
/-- v, k or special. -/
def vks : SKind := { v := true, k := true, sp := true }
/-- v, k, latch or special. -/
def vkls : SKind := { v := true, k := true, latch := true, sp := true }
/-- v or k. -/
def vk : SKind := { v := true, k := true }
/-- An even v or k. -/
def vk64 : SKind := { v := true, k := true, wide := true }
/-- An even v. -/
def v64 : SKind := { v := true, wide := true }
/-- An even k. -/
def k64 : SKind := { k := true, wide := true }
/-- A k register. -/
def kOnly : SKind := { k := true }
/-- A descriptor base (R416). -/
def desc : SKind := { k := true, k8 := true }
/-- A data operand of R385. -/
def data (is64 quad : Bool) : SKind :=
  if quad then { v := true, quad := true }
  else if is64 then src64
  else vkls
end SKind

/-- The role IMM32 plays (R204). -/
inductive ImmRole where
  | operand    -- read by a source that names it; zero when none does
  | own        -- a role of its own: no source may name it
  | free       -- MOVI, BKPT, TRAP: any value
  deriving DecidableEq, Repr

/-- What an instruction accepts under given MOD, AUX and IMM32 values. -/
structure Fmt where
  modOk : Bool                    -- else WHY 0x1
  auxOk : Bool := true            -- else WHY 0x2
  dst   : DKind := .unused
  sa    : SKind := .unused
  sb    : SKind := .unused
  sc    : SKind := .unused
  role  : ImmRole := .operand
  immOk : Bool := true            -- a reserved IMM32 bit clear, else WHY 0x2
  slotOk : Bool := true           -- a branch slot of 0 to 4, else WHY 0x7
  producer : Bool := false        -- a latch producer (R205)
  deriving DecidableEq, Repr

/-- The values of MOD, AUX and IMM32 that a format depends on. -/
structure Mods where
  ty   : Ty
  x2   : Bool
  flag : Bool
  aux  : BitVec 6
  imm  : BitVec 32
  deriving DecidableEq, Repr

namespace Mods
/-- The low n bits of AUX. -/
def lo (m : Mods) (n : Nat) : Nat := m.aux.toNat % 2 ^ n
/-- AUX from bit n up. -/
def hi (m : Mods) (n : Nat) : Nat := m.aux.toNat / 2 ^ n
/-- One bit of AUX. -/
def bit (m : Mods) (n : Nat) : Bool := m.aux.getLsbD n
/-- TYPE, X2 and FLAG are all zero. -/
def plain (m : Mods) : Bool := m.ty == .none && !m.x2 && !m.flag
/-- TYPE is one of a list, X2 and FLAG clear. -/
def tyIn (m : Mods) (l : List Ty) : Bool := l.contains m.ty && !m.x2 && !m.flag
/-- HINT of a memory operand (R381). -/
def hint (m : Mods) : Nat := m.imm.toNat / 2 ^ 30
/-- The destination kind at a TYPE's width. -/
def dstW (m : Mods) : DKind := if m.ty.is64 then .v64 else .v
end Mods

/-- .i8 .n8 .i16 .n16 .i32 .n32 .i64 .n64 (R353). -/
def allInts : List Ty := [.i8, .n8, .i16, .n16, .i32, .n32, .i64, .n64]
/-- .i32 .n32 .i64 .n64. -/
def wideInts : List Ty := [.i32, .n32, .i64, .n64]
/-- .f32 .f16 .bf16 (R366). -/
def fTypes : List Ty := [.f32, .f16, .bf16]
/-- The Cell types of R385. -/
def cellTypes : List Ty := [.i32, .n32, .f32, .i64, .n64, .q64]
/-- The types of plain accesses (R385). -/
def memTypes : List Ty := allInts ++ [.f32, .f16, .bf16, .e4m3, .e5m2, .q64]

/-- TYPE is one of a list; X2 only with a 16-bit type of a second list; FLAG only where .ftz is taken. -/
def arithMod (m : Mods) (l packed : List Ty) (ftz : Bool) : Bool :=
  (if m.x2 then packed.contains m.ty else l.contains m.ty) && (ftz || !m.flag)

/-- TYPE and reduction of GRED and GSCAN combine (R245). -/
def groupRedOk (ty : Ty) (r : Nat) : Bool :=
  match ty with
  | .q64 => r == 0
  | .f32 => r == 0 || r == 4 || r == 5
  | _ => decide (r ≤ 5)

/-- TYPE and reduction of ATOM and RED combine (R385). -/
def atomRedOk (ty : Ty) (r : Nat) : Bool := groupRedOk ty r

/-- The format of each instruction under given MOD, AUX and IMM32 values. -/
def Opc.fmt (c : Opc) (m : Mods) : Fmt :=
  let w := m.ty.is64
  let quad := m.bit 1
  let quadOk := !quad || ([Ty.i32, .n32, .f32, .i64, .n64, .q64].contains m.ty && !m.x2)
  let memMod := (if m.x2 then [Ty.i16, .n16, .f16, .bf16].contains m.ty else memTypes.contains m.ty) && !m.flag
  let slotOk := decide (m.imm.toNat % 8 ≤ 4)
  let sq := decide (m.imm.toNat < 16)
  match c with
  -- control (R231)
  | .nop | .ret | .exit | .syncg | .yield => { modOk := m.plain, auxOk := m.aux == 0 }
  | .bra | .call => { modOk := m.plain, auxOk := m.aux == 0, role := .own, slotOk := slotOk }
  | .brx | .callx => { modOk := m.plain, auxOk := m.aux == 0, sa := .vk64 }
  | .prio => { modOk := m.plain, auxOk := m.aux == 0, role := .own, immOk := decide (m.imm.toNat < 4) }
  | .bkpt | .trap => { modOk := m.plain, auxOk := m.aux == 0, role := .free }
  -- integer and logic (R353)
  | .iadd | .isub | .imin | .imax =>
    { modOk := arithMod m (allInts ++ [.q64]) [.i16, .n16] false, auxOk := m.aux == 0, dst := m.dstW,
      sa := .srcW w, sb := .srcW w, producer := true }
  | .imul =>
    { modOk := arithMod m allInts [.i16, .n16] false, auxOk := m.aux == 0, dst := m.dstW,
      sa := .srcW w, sb := .srcW w, producer := true }
  | .imulh | .idiv | .irem | .and | .or | .xor | .andn =>
    { modOk := m.tyIn wideInts, auxOk := m.aux == 0, dst := m.dstW, sa := .srcW w, sb := .srcW w, producer := true }
  | .imad =>
    { modOk := m.tyIn wideInts, auxOk := m.aux == 0, dst := m.dstW, sa := .srcW w, sb := .srcW w, sc := .srcW w,
      producer := true }
  | .iabs =>
    { modOk := arithMod m [.i8, .i16, .i32, .i64, .q64] [.i16] false, auxOk := m.aux == 0, dst := m.dstW,
      sa := .srcW w, producer := true }
  | .ineg =>
    { modOk := arithMod m (allInts ++ [.q64]) [.i16, .n16] false, auxOk := m.aux == 0, dst := m.dstW,
      sa := .srcW w, producer := true }
  | .icmp =>
    { modOk := m.tyIn (allInts ++ [.q64]), auxOk := decide (m.aux.toNat ≤ 5), dst := .p,
      sa := .srcW w, sb := .srcW w, producer := true }
  | .isel =>
    { modOk := m.tyIn [.i32, .n32, .f32, .i64, .n64, .q64], auxOk := m.aux == 0, dst := m.dstW,
      sa := .srcW w, sb := .srcW w, sc := .pred, producer := true }
  | .not | .brev =>
    { modOk := m.tyIn wideInts, auxOk := m.aux == 0, dst := m.dstW, sa := .srcW w, producer := true }
  | .shl | .shr | .sar | .rotl | .bfx =>
    { modOk := m.tyIn wideInts, auxOk := m.aux == 0, dst := m.dstW, sa := .srcW w, sb := .src, producer := true }
  | .bfi =>
    { modOk := m.tyIn wideInts, auxOk := m.aux == 0, dst := m.dstW, sa := .srcW w, sb := .srcW w, sc := .src,
      producer := true }
  | .popc | .clz | .ctz =>
    { modOk := m.tyIn wideInts, auxOk := m.aux == 0, dst := .v, sa := .srcW w, producer := true }
  | .lea =>
    { modOk := m.tyIn [.n32, .n64], auxOk := !m.bit 5 || w, dst := m.dstW, sa := .srcW w,
      sb := .srcW (w && !m.bit 5), producer := true }
  | .mov =>
    { modOk := m.tyIn (.none :: allInts ++ [.f32, .f16, .bf16, .q64]), auxOk := m.aux == 0, dst := m.dstW,
      sa := .srcW w, producer := true }
  | .movi =>
    { modOk := arithMod m [.none, .i32, .n32, .f32, .i64, .n64, .q64] [.i16, .n16, .f16, .bf16] false,
      auxOk := m.aux == 0, dst := m.dstW, role := .free, producer := true }
  | .movh =>
    { modOk := m.tyIn [.none, .n64], auxOk := m.aux == 0, dst := .v64, sa := .src, role := .own, producer := true }
  | .idot4 =>
    { modOk := m.tyIn [.i8, .n8], auxOk := decide (m.aux.toNat < 2), dst := .v, sa := .src, sb := .src, sc := .src,
      producer := true }
  -- floating point and conversion (R366)
  | .fadd | .fsub | .fmul | .fdiv =>
    { modOk := arithMod m fTypes [.f16, .bf16] true, auxOk := decide (m.aux.toNat ≤ 3), dst := .v,
      sa := .src, sb := .src, producer := true }
  | .ffma =>
    { modOk := arithMod m fTypes [.f16, .bf16] true, auxOk := decide (m.aux.toNat ≤ 3), dst := .v,
      sa := .src, sb := .src, sc := .src, producer := true }
  | .fmin | .fmax =>
    { modOk := arithMod m fTypes [.f16, .bf16] true, auxOk := m.aux == 0, dst := .v, sa := .src, sb := .src,
      producer := true }
  | .fcmp =>
    { modOk := (fTypes ++ [Ty.e4m3, .e5m2]).contains m.ty && !m.x2 && (!m.flag || fTypes.contains m.ty),
      auxOk := decide (m.aux.toNat ≤ 7), dst := .p, sa := .src, sb := .src, producer := true }
  | .frcp | .frsq | .fsqrt | .fexp2 | .flog2 | .fsin | .fcos | .ftanh | .frnd =>
    { modOk := arithMod m fTypes [.f16, .bf16] true, auxOk := decide (m.aux.toNat ≤ 3), dst := .v, sa := .src,
      producer := true }
  | .fclass =>
    { modOk := m.tyIn (fTypes ++ [.e4m3, .e5m2]), auxOk := m.aux == 0, dst := .v, sa := .src, producer := true }
  | .fscalb =>
    { modOk := fTypes.contains m.ty && !m.x2, auxOk := decide (m.aux.toNat ≤ 3), dst := .v, sa := .src, sb := .src,
      producer := true }
  | .fdot2 =>
    { modOk := [Ty.f16, .bf16].contains m.ty && m.x2, auxOk := decide (m.aux.toNat ≤ 3), dst := .v,
      sa := .src, sb := .src, sc := .src, producer := true }
  | .fdot4 =>
    { modOk := [Ty.e4m3, .e5m2].contains m.ty && !m.x2, auxOk := decide (m.lo 3 ≤ 3) && decide (m.aux.toNat < 16),
      dst := .v, sa := .src, sb := .src, sc := .src, producer := true }
  | .cvt =>   -- a's width follows AUX, not TYPE, so an odd pair is WHY 0x6 (R203, R348)
    let st := Ty.ofCode (BitVec.ofNat 4 (m.lo 4))
    let rs := m.imm.getLsbD 6
    { modOk := m.ty != .none && m.ty != .e2m1x && !m.x2,
      auxOk := st != .none && st != .e2m1x && !(st == .q64 && (m.ty.isInt || m.ty == .q64)) && !(m.ty == .q64 && st.isInt)
        && (!rs || m.hi 4 == 0),
      dst := m.dstW, sa := { SKind.srcW st.is64 with oddKind := false }, sb := if rs then .kOnly else .unused, sc := if rs then .src else .unused,
      role := .own, immOk := decide (m.imm.toNat < 128) && (m.ty == .q64 || st == .q64 || m.imm.toNat % 64 == 0),
      producer := true }
  | .pack =>
    let fl := [Ty.f16, .bf16, .e4m3, .e5m2].contains m.ty
    let b8 := [Ty.e4m3, .e5m2, .i8, .n8].contains m.ty
    { modOk := [Ty.f16, .bf16, .e4m3, .e5m2, .i8, .n8, .i16, .n16].contains m.ty && !m.x2 && (!m.flag || fl),
      auxOk := (if fl then decide (m.lo 3 ≤ 3) else m.lo 3 == 0) && (b8 || !m.bit 3) && decide (m.aux.toNat < 16),
      dst := .v, sa := .src, sb := .src, sc := if b8 then .src else .unused, producer := true }
  | .unpack =>
    let lim := if m.ty == .e2m1x then 7 else if m.ty.bits == 8 then 3 else 1
    { modOk := m.tyIn [.f16, .bf16, .e4m3, .e5m2, .e2m1x, .i8, .n8, .i16, .n16], auxOk := decide (m.aux.toNat ≤ lim),
      dst := .v, sa := .src, sb := if m.ty == .e2m1x then .src else .unused, producer := true }
  -- predicate and lane (R240)
  | .plop =>
    { modOk := m.plain, auxOk := decide (m.aux.toNat ≤ 3), dst := .p, sa := .preds, sb := .preds, producer := true }
  | .pmov =>
    { modOk := m.plain, auxOk := m.aux == 0, dst := .pOrV, sa := { SKind.vksi false with p := true, p7 := true },
      producer := true }
  | .vote =>
    { modOk := m.plain, auxOk := decide (m.aux.toNat ≤ 2), dst := if m.lo 2 == 2 then .v else .p, sa := .preds,
      producer := true }
  | .shfl =>
    { modOk := m.tyIn [.i32, .n32, .f32, .i64, .n64], auxOk := decide (m.aux.toNat ≤ 3), dst := m.dstW,
      sa := { v := true, wide := w }, sb := .vksi false, producer := true }
  | .gred | .gscan =>
    { modOk := m.tyIn [.i32, .n32, .i64, .n64, .q64, .f32],
      auxOk := decide (m.aux.toNat ≤ 5) && groupRedOk m.ty m.aux.toNat, dst := m.dstW, sa := .vksi w, producer := true }
  -- memory, atomic and cell (R385)
  | .ld => { modOk := memMod, auxOk := (m.aux == 0 || m.aux == 2) && quadOk, dst := if quad then .quad else m.dstW,
             sa := .v64, role := .own }
  | .st => { modOk := memMod, auxOk := (m.aux == 0 || m.aux == 2) && quadOk, sa := .v64, sb := .data w quad, role := .own }
  | .lds => { modOk := memMod, auxOk := (m.aux == 0 || m.aux == 2) && quadOk, dst := if quad then .quad else m.dstW,
              sa := .src, role := .own, immOk := m.hint == 0 }
  | .sts => { modOk := memMod, auxOk := (m.aux == 0 || m.aux == 2) && quadOk, sa := .src, sb := .data w quad,
              role := .own, immOk := m.hint == 0 }
  | .ldk => { modOk := memMod, auxOk := m.aux == 0, dst := m.dstW, sa := .k64, role := .own, immOk := m.hint == 0 }
  | .pref => { modOk := m.plain, auxOk := m.aux == 0, sa := .v64, role := .own }
  | .atom =>
    { modOk := [Ty.i32, .n32, .i64, .n64, .q64, .f32].contains m.ty && !m.x2,
      auxOk := decide (m.lo 3 ≤ 5) && atomRedOk m.ty (m.lo 3), dst := if m.flag then m.dstW else .unused,
      sa := .v64, sb := .data w false, role := .own }
  | .atomc =>
    { modOk := m.tyIn cellTypes, auxOk := m.lo 3 == 0, dst := m.dstW, sa := .v64, sb := .data w false,
      sc := .data w false, role := .own }
  | .red =>
    { modOk := m.tyIn [.i32, .n32, .i64, .n64, .q64, .f32],
      auxOk := decide (m.lo 3 ≤ 5) && atomRedOk m.ty (m.lo 3) && m.lo 5 / 8 != 2, sa := .v64, sb := .data w false,
      role := .own }
  | .give => { modOk := m.tyIn cellTypes, auxOk := m.aux == 0, sa := .v64, sb := .data w false, role := .own,
               immOk := m.hint == 0 }
  | .take => { modOk := m.tyIn cellTypes, auxOk := m.lo 5 == 0, dst := m.dstW, sa := .v64, role := .own,
               immOk := m.hint == 0 }
  | .waitw =>
    { modOk := m.tyIn wideInts,
      auxOk := [0, 1, 2, 5].contains (m.lo 3) && [0, 2].contains (m.lo 5 / 8) && !m.bit 5, dst := m.dstW,
      sa := .v64, sb := .data w false, role := .own, immOk := m.hint == 0 }
  | .cwb | .cinv => { modOk := m.plain, auxOk := m.aux == 0, sa := .v64, sb := .src, role := .own, immOk := m.hint == 0 }
  -- frames, crews and queues (R266)
  | .spawn =>
    { modOk := m.plain, auxOk := decide (m.aux.toNat ≤ 2), dst := .v64, sa := .vk64, sb := .vks,
      sc := if m.aux == 1 then .vk64 else .unused, role := .own, immOk := m.imm.toNat % 8 == 0 }
  | .await =>
    let t0 := m.ty == .none
    { modOk := m.tyIn (.none :: cellTypes), auxOk := m.aux == 0, dst := if t0 then .unused else m.dstW, sa := .vk64,
      role := .own, immOk := if t0 then m.imm == 0 else decide (m.imm.toNat < 4) }
  | .pollf => { modOk := m.tyIn [.n64], auxOk := m.aux == 0, dst := .v64, sa := .vk64 }
  | .fret =>
    { modOk := m.tyIn (.none :: cellTypes), auxOk := m.aux == 0, sa := .vksi false,
      sb := .vksi (w || m.ty == .none) }
  | .stealpt =>
    { modOk := m.plain, auxOk := decide (m.aux.toNat ≤ 6), sa := .vk64,
      sb := if m.aux == 0 then .unused else { v := true, low := true } }
  | .cbar => { modOk := m.plain, auxOk := m.aux == 0 }
  | .nbar =>
    { modOk := m.plain, auxOk := m.bit 1 || m.hi 2 == 0, sa := if m.bit 1 then .unused else .vks, sb := .vksi false,
      sc := if m.bit 0 then .vk else .unused }
  | .qpush =>
    { modOk := [Ty.n32, .n64].contains m.ty && !m.x2, auxOk := decide (m.aux.toNat < 16),
      dst := if m.flag then .p else .unused, sa := .vksi w, sb := if m.bit 3 then .vk else .unused }
  | .qpop =>
    { modOk := [Ty.n32, .n64].contains m.ty && !m.x2, auxOk := decide (m.aux.toNat < 16), dst := m.dstW,
      sa := if m.bit 3 then .vk else .unused, sc := if m.flag then .predOut else .unused }
  | .tfetch => { modOk := m.tyIn [.none, .n64], auxOk := m.aux == 0, dst := .v64, sc := .predOut }
  | .regxGet => { modOk := m.ty == .none && !m.x2, auxOk := m.aux == 0, dst := if m.flag then .p else .unused }
  | .regxPut => { modOk := m.ty == .none && !m.x2, auxOk := m.aux == 1 && !m.flag }
  | .kset =>
    { modOk := m.tyIn (.none :: cellTypes), auxOk := m.aux == 0, dst := if w then .k64 else .k,
      sa := { v := true, sp := true, imm := true, wide := w } }
  -- pending values and system (R262, R264, R331)
  | .symq => { modOk := m.plain, auxOk := m.aux == 0, dst := .p, sa := .vk }
  | .resolve =>
    { modOk := m.plain, auxOk := decide (m.aux.toNat ≤ 3), sa := if m.lo 2 ≥ 1 then .vk else .unused,
      sb := if m.lo 2 ≥ 2 then .vk else .unused, sc := if m.lo 2 ≥ 3 then .vk else .unused }
  | .eret => { modOk := m.plain, auxOk := m.aux == 0 }
  | .getsr => { modOk := m.plain, auxOk := decide (m.aux.toNat ≤ 12) && m.aux != 7, dst := .v64 }
  | .setsr => { modOk := m.plain, auxOk := m.aux == 0 || m.aux == 2,
                sa := { v := true, k := true, imm := true, wide := true } }
  | .regionB => { modOk := m.plain, auxOk := m.aux == 0 }
  | .regionE => { modOk := m.plain, auxOk := m.aux == 1 }
  -- engines (R416)
  | .mmaSolo => { modOk := m.plain, auxOk := m.aux == 0, sa := .desc }
  | .mmaPair => { modOk := m.plain, auxOk := m.aux == 1, sa := .desc }
  | .mzero => { modOk := m.plain, auxOk := m.aux == 0 }
  | .mload => { modOk := m.plain, auxOk := m.aux == 0, sa := .vk64, role := .own, immOk := m.hint == 0 }
  | .msave => { modOk := m.plain, auxOk := m.aux == 0 || m.aux == 2, sa := .vk64,
                sb := if m.bit 1 then .vk else .unused, role := .own, immOk := m.hint == 0 }
  | .mdrain | .rfma | .rscl | .rred | .rexp | .rcvt | .cpy => { modOk := m.plain, auxOk := m.aux == 0, sa := .desc }
  | .mstat => { modOk := m.plain, auxOk := decide (m.aux.toNat < 2), dst := .v64 }
  | .rngEngine => { modOk := [Ty.none, .n32, .f32].contains m.ty && !m.x2 && !m.flag,
                    auxOk := m.aux == 1 && m.ty == .none, sa := .desc }
  | .rngRegister => { modOk := [Ty.none, .n32, .f32].contains m.ty && !m.x2 && !m.flag,
                      auxOk := m.aux == 0 && m.ty != .none, dst := .v, sa := .src, sb := .src }
  -- the Square (R468, R490)
  | .sqload => { modOk := m.plain, auxOk := m.aux == 0, dst := .v64, sa := .vk64, role := .own, immOk := sq }
  | .sqlegal => { modOk := m.plain, auxOk := m.aux == 0, dst := .v64, sa := .vk64, sb := .vk64, sc := .vkls,
                  role := .own, immOk := sq }
  | .sqplay => { modOk := m.plain, auxOk := decide (m.aux.toNat < 2), dst := .v64, sa := .vk64,
                 sb := if m.bit 0 then .vk64 else .unused, role := .own, immOk := sq }
  | .sqplayList => { modOk := m.plain, auxOk := m.aux == 2 || m.aux == 3, dst := .v64, sa := .vk64,
                     sb := if m.bit 0 then .vk64 else .unused, sc := .vkls, role := .own, immOk := sq }
  | .squndo => { modOk := m.plain, auxOk := decide (m.aux.toNat < 2), dst := .v64,
                 sb := if m.bit 0 then .vk64 else .unused, role := .own, immOk := sq }
  | .sqscore => { modOk := m.plain, auxOk := m.aux == 0, dst := .v64, role := .own, immOk := sq }
  | .sqread => { modOk := m.plain, auxOk := m.aux == 0, dst := .v64, sa := .vk64, sc := .vkls, role := .own, immOk := sq }
  | .sqsave => { modOk := m.plain, auxOk := m.aux == 0, dst := .v64, sa := .vk64, sb := .vkls, sc := .vkls,
                 role := .own, immOk := sq }
  | .sqcheck => { modOk := m.plain, auxOk := decide (m.aux.toNat < 2), dst := .v64, sa := .vk64,
                  sb := if m.bit 0 then .vk64 else .unused, sc := .vkls, role := .own, immOk := sq }
  | .sqcommit => { modOk := m.plain, auxOk := decide (m.aux.toNat < 2), dst := .v64, sa := .vk64, sb := .vkls,
                   sc := .vk64, role := .own, immOk := sq }

/-- The MOD, AUX and IMM32 values of an instruction's fields. -/
def Ops.mods (o : Ops) : Mods := ⟨o.ty, o.x2, o.flag, o.aux, o.imm⟩

/-- The format an instruction's own fields select. -/
def Opc.fmtOf (c : Opc) (o : Ops) : Fmt := c.fmt o.mods

/-- Whether an instruction's destination is written in whole pairs: a 64-bit result, or the range of a QUAD (R222, R384). -/
def Opc.pairDst (c : Opc) (o : Ops) : Bool := (c.fmtOf o).dst == .v64 || (c.fmtOf o).dst == .quad

/-- A source operand is of a kind its field accepts; a used field that names nothing is not. -/
def SKind.accepts (q : SKind) : Src → Bool
  | .none => !q.used
  | .v n => q.used && q.v && (!q.low || decide (n.toNat < 32)) && !(q.oddKind && n.toNat % 2 == 1)
  | .k n => q.used && q.k && (!q.k8 || n.toNat % 8 == 0) && !(q.oddKind && n.toNat % 2 == 1)
  | .p n => q.used && q.p && (q.p7 || n != 7)
  | .sp _ => q.used && q.sp
  | .imm => q.used && q.imm
  | .latch _ => q.used && q.latch

/-- A source register is even where the operand is 64 bits wide, and a multiple of 4 in a range (R203, R384). -/
def SKind.aligned (q : SKind) : Src → Bool
  | .v n => (!q.wide || n.toNat % 2 == 0) && (!q.quad || n.toNat % 4 == 0)
  | .k n => !q.wide || n.toNat % 2 == 0
  | _ => true

/-- A destination is of a kind its field accepts. -/
def DKind.accepts : DKind → Dst → Bool
  | .unused, .none => true
  | .v, .v _ => true
  | .v64, .v _ => true
  | .quad, .v _ => true
  | .p, .p n => n != 7
  | .k, .k _ => true
  | .k64, .k _ => true
  | .pOrV, .v _ => true
  | .pOrV, .p n => n != 7
  | _, _ => false

/-- A destination register is even, or a multiple of 4, where its kind asks for it (R203, R384). -/
def DKind.aligned : DKind → Dst → Bool
  | .v64, .v n => n.toNat % 2 == 0
  | .quad, .v n => n.toNat % 4 == 0
  | .k64, .k n => n.toNat % 2 == 0
  | _, _ => true

/-- The reasons of ILLEGAL_INSTRUCTION (R213). -/
inductive Why where
  | unusedMaj | unusedMod | reserved | source | destination | wbs | odd | slotOrImm | line | pair
  deriving DecidableEq, Repr

/-- The WHY code (R213). -/
def Why.code : Why → Nat
  | .unusedMaj => 0 | .unusedMod => 1 | .reserved => 2 | .source => 3 | .destination => 4 | .wbs => 5 | .odd => 6
  | .slotOrImm => 7 | .line => 8 | .pair => 9

/-- Some source names IMM32. -/
def Ops.namesImm (o : Ops) : Bool := o.sa == .imm || o.sb == .imm || o.sc == .imm

/-- IMM32 is zero unless a source names it or it has a role of its own (R200). -/
def immUnusedOk (role : ImmRole) (named : Bool) (imm : BitVec 32) : Bool :=
  match role with
  | .operand => named || imm == 0
  | _ => true

/-- No source names IMM32 while it holds a role of its own (R204). -/
def immRoleOk (role : ImmRole) (named : Bool) : Bool :=
  match role with
  | .operand => true
  | _ => !named

/-- STEALPT: the first saved register plus n does not exceed 32 (R266). -/
def stealptOk (c : Opc) (aux : BitVec 6) (sb : Src) : Bool :=
  match c, sb with
  | .stealpt, .v n => decide (n.toNat + aux.toNat ≤ 32)
  | _, _ => true

/-- PMOV: a v destination takes a predicate only (R242). -/
def pmovOk (c : Opc) (dst : Dst) (sa : Src) : Bool :=
  match c, dst, sa with
  | .pmov, .v _, .p _ => true
  | .pmov, .v _, _ => false
  | _, _, _ => true

end Sys2Proof
end

