-- ==== Sys2Proof/Machine/Numbers.lean ====
section
/-!
DEFINITION. Number formats and exact arithmetic: the floating-point layouts, rounding, exact sums, E2M1X, q64 and the generator (R334 to R345).
Every result is computed exactly, as an integer times a power of two, and rounded once.
-/
namespace Sys2Proof

/-- The low n bits of a number. -/
def lowBits (n x : Nat) : Nat := x % 2 ^ n

/-- Bits [lo + n - 1 : lo] of a number. -/
def bitsAt (x lo n : Nat) : Nat := (x / 2 ^ lo) % 2 ^ n

/-- The two's-complement value of the low n bits. -/
def toSigned (n x : Nat) : Int :=
  let y := lowBits n x
  if y < 2 ^ (n - 1) then (y : Int) else (y : Int) - (2 ^ n : Nat)

/-- The n-bit pattern of an integer, modulo 2^n. -/
def ofSigned (n : Nat) (x : Int) : Nat := (x % ((2 ^ n : Nat) : Int)).toNat

/-- Clamp an integer to a range. -/
def clampInt (lo hi x : Int) : Int := if x < lo then lo else if hi < x then hi else x

/-- The position of the highest set bit (0 for 0). -/
def topBit (x : Nat) : Nat := Nat.log2 x

/-- The layout of a floating-point format (R334). -/
structure FFmt where
  ebits : Nat
  mbits : Nat
  bias  : Int
  inf   : Bool       -- E4M3 has no infinity
  nan   : Nat        -- the canonical NaN
  max   : Nat        -- the code of the largest finite magnitude
  deriving DecidableEq, Repr

/-- FP32 (R334). -/
def fp32 : FFmt := ⟨8, 23, 127, true, 0x7FC00000, 0x7F7FFFFF⟩
/-- FP16 (R334). -/
def fp16 : FFmt := ⟨5, 10, 15, true, 0x7E00, 0x7BFF⟩
/-- BF16 (R334). -/
def bf16 : FFmt := ⟨8, 7, 127, true, 0x7FC0, 0x7F7F⟩
/-- E5M2 (R334). -/
def e5m2 : FFmt := ⟨5, 2, 15, true, 0x7E, 0x7B⟩
/-- E4M3 (R334). -/
def e4m3 : FFmt := ⟨4, 3, 7, false, 0x7F, 0x7E⟩

/-- The format of a floating-point TYPE; FP32 for every other TYPE. -/
def Ty.ffmt : Ty → FFmt
  | .f16 => Sys2Proof.fp16
  | .bf16 => Sys2Proof.bf16
  | .e4m3 => Sys2Proof.e4m3
  | .e5m2 => Sys2Proof.e5m2
  | _ => fp32

/-- Whether .ftz applies to a format: FP32, FP16 and BF16 only (R337). -/
def FFmt.ftzApplies (f : FFmt) : Bool := f == fp32 || f == fp16 || f == bf16

/-- The bit that holds the sign. -/
def FFmt.signBit (f : FFmt) : Nat := f.ebits + f.mbits

/-- An exact value: a NaN, an infinity, or (-1)^neg * m * 2^e. -/
inductive FVal where
  | nan
  | inf (neg : Bool)
  | fin (neg : Bool) (m : Nat) (e : Int)
  deriving DecidableEq, Repr

/-- A zero of a sign. -/
def FVal.zero (neg : Bool) : FVal := .fin neg 0 0

/-- An integer, exactly. -/
def FVal.ofInt (x : Int) : FVal := .fin (decide (x < 0)) x.natAbs 0

/-- The value of a code of a format (R334). -/
def FFmt.value (f : FFmt) (x : Nat) : FVal :=
  let neg := bitsAt x f.signBit 1 == 1
  let e := bitsAt x f.mbits f.ebits
  let m := lowBits f.mbits x
  let top := 2 ^ f.ebits - 1
  if f.inf && e == top then (if m == 0 then .inf neg else .nan)
  else if !f.inf && e == top && m == 2 ^ f.mbits - 1 then .nan
  else if e == 0 then .fin neg m (1 - f.bias - f.mbits)
  else .fin neg (2 ^ f.mbits + m) (e - f.bias - f.mbits)

/-- A subnormal or zero code. -/
def FFmt.isTiny (f : FFmt) (x : Nat) : Bool := bitsAt x f.mbits f.ebits == 0

/-- The value of a code under .ftz: a subnormal input is zero of its own sign (R337). -/
def FFmt.valueFtz (f : FFmt) (ftz : Bool) (x : Nat) : FVal :=
  if ftz && f.ftzApplies && f.isTiny x then .zero (bitsAt x f.signBit 1 == 1) else f.value x

/-- The rounding modes (R211, R343, R344): .rs carries its 16 random bits. -/
inductive Rnd where
  | rn | rz | ru | rd
  | rs (r : Nat)
  deriving DecidableEq, Repr

/-- The rounding mode of a 3-bit code; .rn for the codes that are never accepted here (R211). -/
def Rnd.ofCode : Nat → Rnd
  | 1 => .rz
  | 2 => .ru
  | 3 => .rd
  | _ => .rn

/-- Whether a magnitude whose integer part is `q` units, with remainder rem of 2^sh, is rounded away from zero (R343, R344). -/
def Rnd.away (mode : Rnd) (neg : Bool) (q rem sh : Nat) : Bool :=
  match mode with
  | .rn => decide (2 ^ sh < 2 * rem) || (2 * rem == 2 ^ sh && q % 2 == 1)
  | .rz => false
  | .ru => rem != 0 && !neg
  | .rd => rem != 0 && neg
  | .rs r => rem != 0 && decide (r < rem * 65536 / 2 ^ sh)

/-- An overflowing result (R338). -/
def FFmt.overflow (f : FFmt) (mode : Rnd) (neg : Bool) : Nat :=
  let s := if neg then 2 ^ f.signBit else 0
  let infCode := (2 ^ f.ebits - 1) * 2 ^ f.mbits
  let toInf := match mode with
    | .rn => true
    | .rz => false
    | .ru => !neg
    | .rd => neg
    | .rs _ => false
  s + (if f.inf && toInf then infCode else f.max)

/-- Round an exact magnitude m * 2^e of a sign to a format, once (R338, R343, R344). -/
def FFmt.roundMag (f : FFmt) (mode : Rnd) (neg : Bool) (m : Nat) (e : Int) : Nat :=
  let s := if neg then 2 ^ f.signBit else 0
  if m == 0 then s
  else
    let emin : Int := 1 - f.bias
    let top : Int := e + topBit m
    let q : Int := (if top < emin then emin else top) - f.mbits
    let sh : Int := q - e
    let sig := if sh ≤ 0 then m * 2 ^ (-sh).toNat else m / 2 ^ sh.toNat
    let rem := if sh ≤ 0 then 0 else m % 2 ^ sh.toNat
    let up := mode.away neg sig rem sh.toNat
    let sig2 := if up then sig + 1 else sig
    let q2 := if sig2 == 2 ^ (f.mbits + 1) then q + 1 else q
    let sig3 := if sig2 == 2 ^ (f.mbits + 1) then sig2 / 2 else sig2
    let ef : Int := if sig3 < 2 ^ f.mbits then 0 else q2 + f.mbits + f.bias
    let code := ef.toNat * 2 ^ f.mbits + sig3 % 2 ^ f.mbits
    if f.max < code then
      match mode with
      | .rs _ => s + f.max
      | md => f.overflow md neg
    else s + code

/-- Whether a code, sign apart, is below the smallest normal. -/
def FFmt.flush (f : FFmt) (ftz : Bool) (x : Nat) : Nat :=
  if ftz && f.ftzApplies && f.isTiny x then x / 2 ^ f.signBit * 2 ^ f.signBit else x

/-- Round an exact value to a format: NaNs are canonical, an infinity stays one, or in E4M3 becomes a NaN (R335, R338). -/
def FFmt.round (f : FFmt) (mode : Rnd) (ftz : Bool) (v : FVal) : Nat :=
  match v with
  | .nan => f.nan
  | .inf neg =>
    if f.inf then (if neg then 2 ^ f.signBit else 0) + (2 ^ f.ebits - 1) * 2 ^ f.mbits else f.nan
  | .fin neg m e => f.flush ftz (f.roundMag mode neg m e)

/-- The product of two exact values (R343, R368). -/
def FVal.mul : FVal → FVal → FVal
  | .nan, _ => .nan
  | _, .nan => .nan
  | .inf s, .inf t => .inf (s != t)
  | .inf s, .fin t m _ => if m == 0 then .nan else .inf (s != t)
  | .fin s m _, .inf t => if m == 0 then .nan else .inf (s != t)
  | .fin s m e, .fin t n g => .fin (s != t) (m * n) (e + g)

/-- The negation of an exact value. -/
def FVal.neg : FVal → FVal
  | .nan => .nan
  | .inf s => .inf (!s)
  | .fin s m e => .fin (!s) m e

/-- A value times a power of two. -/
def FVal.scale (k : Int) : FVal → FVal
  | .fin s m e => .fin s m (e + k)
  | v => v

/-- The signed integer a finite value contributes at a common exponent. -/
def FVal.atExp (g : Int) : FVal → Int
  | .fin s m e => let x : Int := (m * 2 ^ (e - g).toNat : Nat); if s then -x else x
  | _ => 0

/-- The least exponent among finite values. -/
def minExp : List FVal → Int → Int
  | [], g => g
  | .fin _ _ e :: r, g => minExp r (if e < g then e else g)
  | _ :: r, g => minExp r g

/-- The exact sum of terms, with the sign R343 gives an exact zero. -/
def exactSum (mode : Rnd) (ts : List FVal) : FVal :=
  if ts.contains .nan then .nan
  else if ts.contains (.inf false) then (if ts.contains (.inf true) then .nan else .inf false)
  else if ts.contains (.inf true) then .inf true
  else
    let g := minExp ts 0
    let x := ts.foldl (fun acc t => acc + t.atExp g) 0
    if x == 0 then
      let allNeg := ts.all fun t => match t with | .fin s m _ => s && m == 0 | _ => false
      .zero (allNeg || mode == .rd)
    else .fin (decide (x < 0)) x.natAbs g

/-- Compare two numbers that are not NaN: whether the first is less. -/
def FVal.lt : FVal → FVal → Bool
  | .inf true, .inf true => false
  | .inf true, _ => true
  | _, .inf true => false
  | .inf false, _ => false
  | _, .inf false => true
  | .fin s m e, .fin t n g =>
    let h := if e < g then e else g
    decide (FVal.atExp h (.fin s m e) < FVal.atExp h (.fin t n g))
  | _, _ => false

/-- Numeric equality of two numbers that are not NaN; the two zeros are equal. -/
def FVal.eqv (a b : FVal) : Bool := a != .nan && b != .nan && !a.lt b && !b.lt a

/-- The sign of a value. -/
def FVal.isNeg : FVal → Bool
  | .nan => false
  | .inf s => s
  | .fin s _ _ => s

/-- Whether a value is a zero. -/
def FVal.isZero : FVal → Bool
  | .fin _ m _ => m == 0
  | _ => false

/-- Bits kept by a quotient or a root before its sticky bit. -/
def guardBits : Nat := 64

/-- A quotient of naturals scaled by 2^guardBits with the remainder folded into an odd low bit, so that one later rounding is exact. -/
def stickyDiv (a b : Nat) : Nat :=
  let x := a * 2 ^ guardBits
  2 * (x / b) + (if x % b == 0 then 0 else 1)

/-- The quotient of two exact values, as a dyadic that rounds as the exact quotient does (R371). -/
def FVal.div : FVal → FVal → FVal
  | .nan, _ => .nan
  | _, .nan => .nan
  | .inf _, .inf _ => .nan
  | .inf s, .fin t _ _ => .inf (s != t)
  | .fin s _ _, .inf t => .zero (s != t)
  | .fin s m e, .fin t n g =>
    if n == 0 then (if m == 0 then .nan else .inf (s != t))
    else if m == 0 then .zero (s != t)
    else
      -- widen the dividend so that the quotient keeps at least guardBits bits
      let k := topBit n + 1
      .fin (s != t) (stickyDiv (m * 2 ^ k) n) (e - g - guardBits - k - 1)

/-- One bit of an integer square root, from the top down. -/
def isqrtGo : Nat → Nat → Nat → Nat
  | 0, _, r => r
  | k + 1, x, r =>
    let t := r + 2 ^ k
    isqrtGo k x (if t * t ≤ x then t else r)

/-- The integer square root. -/
def isqrt (x : Nat) : Nat := isqrtGo (topBit x / 2 + 1) x 0

/-- The square root of an exact value, as a dyadic that rounds as the exact root does (R371). -/
def FVal.sqrt : FVal → FVal
  | .nan => .nan
  | .inf s => if s then .nan else .inf false
  | .fin s m e =>
    if m == 0 then .zero s
    else if s then .nan
    else
      let odd := e % 2 != 0
      let m2 := if odd then m * 2 else m
      let e2 := if odd then e - 1 else e
      let x := m2 * 2 ^ (2 * guardBits)
      let r := isqrt x
      .fin false (2 * r + (if r * r == x then 0 else 1)) (e2 / 2 - guardBits - 1)

/-- Round an exact value to an integer under a mode (R343, R373). -/
def FVal.toInteger (mode : Rnd) : FVal → Int
  | .fin s m e =>
    let q := if 0 ≤ e then m * 2 ^ e.toNat else m / 2 ^ (-e).toNat
    let rem := if 0 ≤ e then 0 else m % 2 ^ (-e).toNat
    let r := if mode.away s q rem (if 0 ≤ e then 0 else (-e).toNat) then q + 1 else q
    if s then -(r : Int) else r
  | _ => 0

/-- A stochastic rounding whose upper neighbour leaves the range keeps the lower one (R344); then saturate (R376). -/
def FVal.toIntegerSat (mode : Rnd) (lo hi : Int) (v : FVal) : Int :=
  match v with
  | .nan => 0
  | .inf s => if s then lo else hi
  | v => clampInt lo hi (v.toInteger mode)

/-- The range of an n-bit integer TYPE. -/
def intRange (signed : Bool) (n : Nat) : Int × Int :=
  if signed then (-((2 ^ (n - 1) : Nat) : Int), ((2 ^ (n - 1) : Nat) : Int) - 1) else (0, ((2 ^ n : Nat) : Int) - 1)

/-- Convert an exact value to q64 with scale F (R342). -/
def toQ64 (mode : Rnd) (sc : Nat) (v : FVal) : Nat :=
  let r := intRange true 64
  ofSigned 64 (FVal.toIntegerSat mode r.1 r.2 (v.scale sc))

/-- The exact value of a q64 with scale F (R342). -/
def ofQ64 (sc : Nat) (x : Nat) : FVal := (FVal.ofInt (toSigned 64 x)).scale (-(sc : Int))

/-- The generator (R345). -/
def rng (key ctr : Nat) : Nat :=
  let x := Nat.xor (lowBits 32 ctr) (lowBits 32 key)
  let x := lowBits 32 (x * 0x2C1B3C6D)
  let x := Nat.xor x (x / 2 ^ 12)
  let x := lowBits 32 (x * 0x297A2D39)
  Nat.xor x (x / 2 ^ 15)

/-- The .f32 form of the generator: (x >> 8) * 2^-24, exact (R345). -/
def rngF32 (key ctr : Nat) : Nat := fp32.round .rn false (.fin false (rng key ctr / 256) (-24))

/-- The 16 random bits of a stochastic rounding (R344). -/
def rsBits (key index : Nat) : Nat := rng key index / 65536

/-- The element value of an E2M1X code other than 0b1000, in halves, with its sign (R339). -/
def e2m1Halves : Nat → Nat
  | 0 => 0 | 1 => 1 | 2 => 2 | 3 => 3 | 4 => 4 | 5 => 6 | 6 => 8 | _ => 12

/-- The element value of an E2M1X code under the block's special, without its scale (R339, R341). -/
def e2m1Value (special code : Nat) : FVal :=
  let c := code % 16
  if c == 8 then
    match e4m3.value (special % 256) with
    | .nan => .zero true
    | v => v
  else .fin (decide (8 ≤ c)) (e2m1Halves (c % 8)) (-1)

/-- The scale of an E2M1X block: 2^(s - 127), or NaN for 0xFF (R341). -/
def e2m1Scale (s : Nat) (v : FVal) : FVal := if s % 256 == 0xFF then .nan else v.scale ((s % 256 : Nat) - 127)

/-- The smaller or larger of two codes of a format, as FMIN and FMAX choose (R336). -/
def FFmt.minmax (f : FFmt) (isMax ftz : Bool) (a b : Nat) : Nat :=
  let a := f.flush ftz a
  let b := f.flush ftz b
  let x := f.value a
  let y := f.value b
  match x, y with
  | .nan, .nan => f.nan
  | .nan, _ => b
  | _, .nan => a
  | _, _ =>
    if x.isZero && y.isZero then
      (if isMax then (if x.isNeg then b else a) else (if x.isNeg then a else b))
    else if x.lt y then (if isMax then b else a)
    else if isMax then a else b

end Sys2Proof
end

