-- ==== Sys2Proof/Machine/Transc.lean ====
section
/-!
DEFINITION. The functions of R371 (2^a, log2 a, sin, cos, tanh) by series in fixed point with `fracBits` fraction bits.
A result that is not exact is returned as a dyadic whose low bit is set, far below any rounding boundary, so that one later rounding decides as the exact value does.
-/
namespace Sys2Proof

/-- Fraction bits of the fixed-point series. The smallest FP32 argument is 2^-149, whose cube still has hundreds of bits here. -/
def fracBits : Nat := 800

/-- One in fixed point. -/
def fxOne : Int := ((2 ^ fracBits : Nat) : Int)

/-- A fixed-point product. -/
def fxMul (a b : Int) : Int := (a * b) / fxOne

/-- A fixed-point quotient. -/
def fxDiv (a b : Int) : Int := (a * fxOne) / b

/-- The terms of a power series: t is the running term, the next is t * x / (a * (a + 1)) with the sign alternating when alt. -/
def seriesGo (alt : Bool) (x2 : Int) : Nat → Nat → Int → Int → Int
  | 0, _, _, acc => acc
  | n + 1, a, t, acc =>
    let t2 := fxMul t x2 / ((a * (a + 1) : Nat) : Int)
    let t3 := if alt then -t2 else t2
    seriesGo alt x2 n (a + 2) t3 (acc + t3)

/-- sin x for |x| below 2. -/
def fxSin (x : Int) : Int := seriesGo true (fxMul x x) 100 2 x x

/-- cos x for |x| below 2. -/
def fxCos (x : Int) : Int := seriesGo true (fxMul x x) 100 1 fxOne fxOne

/-- The terms of the exponential series. -/
def expGo (x : Int) : Nat → Nat → Int → Int → Int
  | 0, _, _, acc => acc
  | n + 1, a, t, acc =>
    let t2 := fxMul t x / ((a : Nat) : Int)
    expGo x n (a + 1) t2 (acc + t2)

/-- e^x for 0 ≤ x < 1. -/
def fxExp (x : Int) : Int := expGo x 180 1 fxOne fxOne

/-- The terms of the series of atanh (or of atan when alt): z^(2k+1)/(2k+1). -/
def atanGo (alt : Bool) (z2 : Int) : Nat → Nat → Int → Int → Int
  | 0, _, _, acc => acc
  | n + 1, a, t, acc =>
    let t2 := fxMul t z2
    let t3 := if alt then -t2 else t2
    atanGo alt z2 n (a + 2) t3 (acc + t3 / ((a : Nat) : Int))

/-- atanh z for |z| at most 1/3. -/
def fxAtanh (z : Int) : Int := atanGo false (fxMul z z) 260 3 z z

/-- atan z for |z| at most 1/5. -/
def fxAtan (z : Int) : Int := atanGo true (fxMul z z) 180 3 z z

/-- The natural logarithm of 2. -/
def fxLn2 : Int := 2 * fxAtanh (fxOne / 3)

/-- The terms of atan(1/n) at a wider scale, for the reduction of large arguments. -/
def atanInvGo (n : Nat) : Nat → Nat → Nat → Int → Int
  | 0, _, _, acc => acc
  | k + 1, a, t, acc =>
    let t2 := t / (n * n)
    let term : Int := ((t2 / a : Nat) : Int)
    atanInvGo n k (a + 2) t2 (if a % 4 == 3 then acc - term else acc + term)

/-- The scale of pi used by argument reduction. -/
def piBits : Nat := fracBits + 160

/-- Pi at scale 2^piBits (Machin's formula). -/
def wPi : Int :=
  let one := 2 ^ piBits
  16 * atanInvGo 5 220 3 (one / 5) ((one / 5 : Nat) : Int) - 4 * atanInvGo 239 70 3 (one / 239) ((one / 239 : Nat) : Int)

/-- Rewrite m * 2^e as fixed point with some fraction bits (exact when the value has no finer bits). -/
def fxOf (bits : Nat) (neg : Bool) (m : Nat) (e : Int) : Int :=
  let x := e + bits
  let v := if 0 ≤ x then m * 2 ^ x.toNat else m / 2 ^ (-x).toNat
  if neg then -(v : Int) else v

/-- A fixed-point result that is not exact: its low bit set, as an exact dyadic. -/
def stickyOf (x : Int) : FVal :=
  let m := x.natAbs
  .fin (decide (x < 0)) (2 * m + 1) (-(fracBits : Int) - 1)

/-- 2^a (R371). -/
def FVal.exp2 : FVal → FVal
  | .nan => .nan
  | .inf s => if s then .zero false else .inf false
  | .fin s m e =>
    if m == 0 then .fin false 1 0
    else if 13 < e + topBit m then (if s then .fin false 1 (-20000) else .fin false 1 20000)
    else
      let x := fxOf fracBits s m e
      let k := x / fxOne
      let f := x - k * fxOne
      if f == 0 then .fin false 1 k else (stickyOf (fxExp (fxMul f fxLn2))).scale k

/-- log2 a (R371). -/
def FVal.log2 : FVal → FVal
  | .nan => .nan
  | .inf s => if s then .nan else .inf false
  | .fin s m e =>
    if m == 0 then .inf true
    else if s then .nan
    else
      let t := topBit m
      let k : Int := e + t
      let x : Int := ((m * 2 ^ fracBits / 2 ^ t : Nat) : Int)
      if x == fxOne then FVal.ofInt k
      else
        let ln := 2 * fxAtanh (fxDiv (x - fxOne) (x + fxOne))
        stickyOf (k * fxOne + fxDiv ln fxLn2)

/-- An angle reduced to a quadrant count and a remainder in [0, pi/2) in fixed point. -/
def reduceAngle (m : Nat) (e : Int) : Nat × Int :=
  let x := fxOf piBits false m e
  let half := wPi / 2
  let q := x / half
  ((q % 4).toNat, (x - q * half) / ((2 ^ 160 : Nat) : Int))

/-- sin a, a in radians (R371). -/
def FVal.sin : FVal → FVal
  | .fin s m e =>
    if m == 0 then .zero s
    else
      let (q, r) := reduceAngle m e
      let v := match q with
        | 0 => fxSin r
        | 1 => fxCos r
        | 2 => -fxSin r
        | _ => -fxCos r
      stickyOf (if s then -v else v)
  | _ => .nan

/-- cos a, a in radians (R371). -/
def FVal.cos : FVal → FVal
  | .fin _ m e =>
    if m == 0 then .fin false 1 0
    else
      let (q, r) := reduceAngle m e
      let v := match q with
        | 0 => fxCos r
        | 1 => -fxSin r
        | 2 => -fxCos r
        | _ => fxSin r
      stickyOf v
  | _ => .nan

/-- tanh a (R371). -/
def FVal.tanh : FVal → FVal
  | .nan => .nan
  | .inf s => .fin s 1 0
  | .fin s m e =>
    if m == 0 then .zero s
    else if 7 ≤ e + topBit m then .fin s (2 ^ 300 - 1) (-300)
    else if e + topBit m < -60 then
      -- tanh x = x - x^3/3 + ..., just below x in magnitude
      .fin s (m * 2 ^ 400 - 1) (e - 400)
    else
      -- with y = e^(-2x): tanh x = (1 - y) / (1 + y)
      let x := fxOf fracBits false (2 * m) e
      let k := x / fxLn2
      let f := x - k * fxLn2
      let y := fxDiv fxOne (fxExp f) / ((2 ^ k.toNat : Nat) : Int)
      let v := fxDiv (fxOne - y) (fxOne + y)
      stickyOf (if s then -v else v)

end Sys2Proof
end

