-- ==== Sys2Proof/Machine/Flags.lean ====
section
/-!
DEFINITION. The predicate computations. The Z4 keeps no flags: a comparison writes a predicate register (R357, R370), and a register read as a predicate is true when its low 32 bits are nonzero (R222).
-/
namespace Sys2Proof

/-- A register read as a predicate (R222). -/
def asPred (x : Nat) : Bool := lowBits 32 x != 0

/-- A predicate as a latch or register value (R205, R242). -/
def predBits (b : Bool) : Nat := if b then 1 else 0

/-- A value of an integer TYPE as an integer: signed for .i and .q64, unsigned for .n (R211, R356). -/
def Ty.intVal (t : Ty) (x : Nat) : Int := if t.signed then toSigned t.bits x else (lowBits t.bits x : Int)

/-- Integer comparison by the codes of R211, at the width of a TYPE (R357). -/
def intCompare (t : Ty) (code : Nat) (a b : Nat) : Bool :=
  let x := t.intVal a
  let y := t.intVal b
  match code with
  | 0 => decide (x = y)
  | 1 => decide (x ≠ y)
  | 2 => decide (x < y)
  | 3 => decide (x ≤ y)
  | 4 => decide (y < x)
  | _ => decide (y ≤ x)

/-- Floating-point comparison by the codes of R211 (R370). -/
def floatCompare (f : FFmt) (ftz : Bool) (code : Nat) (a b : Nat) : Bool :=
  let x := f.valueFtz ftz (lowBits (f.signBit + 1) a)
  let y := f.valueFtz ftz (lowBits (f.signBit + 1) b)
  if x == .nan || y == .nan then code == 1 || code == 7
  else
    match code with
    | 0 => x.eqv y
    | 1 => !x.eqv y
    | 2 => x.lt y
    | 3 => !y.lt x
    | 4 => y.lt x
    | 5 => !x.lt y
    | 6 => true
    | _ => false

/-- The class mask of a code (R372). -/
def classMask (f : FFmt) (x : Nat) : Nat :=
  let c := lowBits (f.signBit + 1) x
  let neg := bitsAt c f.signBit 1 == 1
  match f.value c with
  | .nan => if bitsAt c (f.mbits - 1) 1 == 1 then 2 ^ 9 else 2 ^ 8
  | .inf _ => if neg then 2 ^ 0 else 2 ^ 7
  | .fin _ m _ =>
    if m == 0 then (if neg then 2 ^ 3 else 2 ^ 4)
    else if f.isTiny c then (if neg then 2 ^ 2 else 2 ^ 5)
    else (if neg then 2 ^ 1 else 2 ^ 6)

/-- PLOP (R241). -/
def predLogic (code : Nat) (a b : Bool) : Bool :=
  match code with
  | 0 => a && b
  | 1 => a || b
  | 2 => a != b
  | _ => a && !b

end Sys2Proof
end

