-- ==== Sys2Proof/Machine/Alu.lean ====
section
/-!
DEFINITION. What each class-A instruction computes for one thread from its operands (R354 to R378): pure functions of the operand bits.
An operand arrives as the whole register, pair, special or immediate (R204); each function reads its own width.
-/
namespace Sys2Proof

/-- A result of a TYPE as the destination register or pair holds it (R222). -/
def extendTo (t : Ty) (r : Nat) : Nat :=
  match t with
  | .i8 => ofSigned 32 (toSigned 8 r)
  | .i16 => ofSigned 32 (toSigned 16 r)
  | .n8 | .e4m3 | .e5m2 => lowBits 8 r
  | .n16 | .f16 | .bf16 => lowBits 16 r
  | .i64 | .n64 | .q64 => lowBits 64 r
  | _ => lowBits 32 r

/-- Apply a function of width-n elements to both halves of a packed operand, or to the whole at the TYPE's width (R349). -/
def lanes1 (o : Ops) (f : Nat → Nat → Nat) (a : Nat) : Nat :=
  if o.x2 then lowBits 16 (f 16 (bitsAt a 0 16)) + 2 ^ 16 * lowBits 16 (f 16 (bitsAt a 16 16))
  else extendTo o.ty (f o.ty.bits (lowBits o.ty.bits a))

/-- The two-operand form. -/
def lanes2 (o : Ops) (f : Nat → Nat → Nat → Nat) (a b : Nat) : Nat :=
  if o.x2 then
    lowBits 16 (f 16 (bitsAt a 0 16) (bitsAt b 0 16)) + 2 ^ 16 * lowBits 16 (f 16 (bitsAt a 16 16) (bitsAt b 16 16))
  else extendTo o.ty (f o.ty.bits (lowBits o.ty.bits a) (lowBits o.ty.bits b))

/-- The three-operand form. -/
def lanes3 (o : Ops) (f : Nat → Nat → Nat → Nat → Nat) (a b c : Nat) : Nat :=
  if o.x2 then
    lowBits 16 (f 16 (bitsAt a 0 16) (bitsAt b 0 16) (bitsAt c 0 16))
      + 2 ^ 16 * lowBits 16 (f 16 (bitsAt a 16 16) (bitsAt b 16 16) (bitsAt c 16 16))
  else extendTo o.ty (f o.ty.bits (lowBits o.ty.bits a) (lowBits o.ty.bits b) (lowBits o.ty.bits c))

/-! ### Integer and logic -/

/-- IADD (R354). -/
def aluIadd (o : Ops) (a b : Nat) : Nat := lanes2 o (fun n x y => lowBits n (x + y)) a b
/-- ISUB (R354). -/
def aluIsub (o : Ops) (a b : Nat) : Nat := lanes2 o (fun n x y => lowBits n (x + 2 ^ n - y)) a b
/-- INEG (R354). -/
def aluIneg (o : Ops) (a : Nat) : Nat := lanes1 o (fun n x => lowBits n (2 ^ n - x)) a
/-- IMUL (R354). -/
def aluImul (o : Ops) (a b : Nat) : Nat := lanes2 o (fun n x y => lowBits n (x * y)) a b
/-- IMAD (R354). -/
def aluImad (o : Ops) (a b c : Nat) : Nat := lanes3 o (fun n x y z => lowBits n (x * y + z)) a b c
/-- IMULH: the upper half of the product (R354). -/
def aluImulh (o : Ops) (a b : Nat) : Nat :=
  let n := o.ty.bits
  extendTo o.ty (ofSigned n ((o.ty.intVal a * o.ty.intVal b) / ((2 ^ n : Nat) : Int)))
/-- IDIV, truncating, with every case defined (R355). -/
def aluIdiv (o : Ops) (a b : Nat) : Nat :=
  let n := o.ty.bits
  let y := o.ty.intVal b
  extendTo o.ty (if y = 0 then 2 ^ n - 1 else ofSigned n (Int.tdiv (o.ty.intVal a) y))
/-- IREM, whose result takes the sign of a (R355). -/
def aluIrem (o : Ops) (a b : Nat) : Nat :=
  let n := o.ty.bits
  let y := o.ty.intVal b
  extendTo o.ty (if y = 0 then lowBits n a else ofSigned n (Int.tmod (o.ty.intVal a) y))
/-- An element as signed for .i and .q64, unsigned for .n (R356). -/
def elemVal (o : Ops) (n x : Nat) : Int := if o.ty.signed then toSigned n x else (x : Int)
/-- IMIN (R356). -/
def aluImin (o : Ops) (a b : Nat) : Nat := lanes2 o (fun n x y => if elemVal o n x ≤ elemVal o n y then x else y) a b
/-- IMAX (R356). -/
def aluImax (o : Ops) (a b : Nat) : Nat := lanes2 o (fun n x y => if elemVal o n x ≤ elemVal o n y then y else x) a b
/-- IABS; the absolute value of the least integer is itself (R356). -/
def aluIabs (o : Ops) (a : Nat) : Nat := lanes1 o (fun n x => ofSigned n ((toSigned n x).natAbs : Int)) a
/-- ICMP (R357). -/
def aluIcmp (o : Ops) (a b : Nat) : Nat := predBits (intCompare o.ty (o.aux.toNat % 8) a b)
/-- ISEL (R358). -/
def aluIsel (o : Ops) (a b c : Nat) : Nat := extendTo o.ty (if asPred c then a else b)
/-- AND (R359). -/
def aluAnd (o : Ops) (a b : Nat) : Nat := extendTo o.ty (Nat.land a b)
/-- OR (R359). -/
def aluOr (o : Ops) (a b : Nat) : Nat := extendTo o.ty (Nat.lor a b)
/-- XOR (R359). -/
def aluXor (o : Ops) (a b : Nat) : Nat := extendTo o.ty (Nat.xor a b)
/-- NOT (R359). -/
def aluNot (o : Ops) (a : Nat) : Nat := lanes1 o (fun n x => 2 ^ n - 1 - x) a
/-- ANDN: a and not b (R359). -/
def aluAndn (o : Ops) (a b : Nat) : Nat := lanes2 o (fun n x y => Nat.land x (2 ^ n - 1 - y)) a b
/-- SHL (R360). -/
def aluShl (o : Ops) (a b : Nat) : Nat :=
  let c := lowBits 32 b
  lanes1 o (fun n x => if n ≤ c then 0 else lowBits n (x * 2 ^ c)) a
/-- SHR (R360). -/
def aluShr (o : Ops) (a b : Nat) : Nat :=
  let c := lowBits 32 b
  lanes1 o (fun n x => if n ≤ c then 0 else x / 2 ^ c) a
/-- SAR (R360). -/
def aluSar (o : Ops) (a b : Nat) : Nat :=
  let c := lowBits 32 b
  lanes1 o (fun n x => ofSigned n (toSigned n x / ((2 ^ (if n ≤ c then n else c) : Nat) : Int))) a
/-- ROTL (R360). -/
def aluRotl (o : Ops) (a b : Nat) : Nat :=
  let c := lowBits 32 b
  lanes1 o (fun n x => let r := c % n; lowBits n (x * 2 ^ r) + x / 2 ^ (n - r)) a
/-- BFX (R361). -/
def aluBfx (o : Ops) (a b : Nat) : Nat :=
  let p := bitsAt b 0 8
  let l := bitsAt b 8 8
  lanes1 o (fun n x =>
    if l = 0 then 0
    else
      let w := min l n
      let e : Int := if o.ty.signed then toSigned n x else (x : Int)
      let f := ofSigned w (e / ((2 ^ p : Nat) : Int))
      if o.ty.signed then ofSigned n (toSigned w f) else f) a
/-- BFI (R361). -/
def aluBfi (o : Ops) (a b c : Nat) : Nat :=
  let p := bitsAt c 0 8
  let l := bitsAt c 8 8
  lanes2 o (fun n x fld =>
    if l = 0 ∨ n ≤ p then x
    else
      let w := min l (n - p)
      x / 2 ^ (p + w) * 2 ^ (p + w) + lowBits w fld * 2 ^ p + lowBits p x) a b
/-- Count the set bits among the low n. -/
def popGo : Nat → Nat → Nat
  | 0, _ => 0
  | n + 1, x => x % 2 + popGo n (x / 2)
/-- POPC (R362). -/
def aluPopc (o : Ops) (a : Nat) : Nat := popGo o.ty.bits a
/-- CLZ (R362). -/
def aluClz (o : Ops) (a : Nat) : Nat :=
  let n := o.ty.bits
  let x := lowBits n a
  if x = 0 then n else n - 1 - topBit x
/-- Count trailing zeros among the low n bits. -/
def ctzGo : Nat → Nat → Nat
  | 0, _ => 0
  | n + 1, x => if x % 2 = 1 then 0 else 1 + ctzGo n (x / 2)
/-- CTZ (R362). -/
def aluCtz (o : Ops) (a : Nat) : Nat := ctzGo o.ty.bits a
/-- Reverse the low n bits. -/
def brevGo : Nat → Nat → Nat → Nat
  | 0, _, acc => acc
  | n + 1, x, acc => brevGo n (x / 2) (2 * acc + x % 2)
/-- BREV (R362). -/
def aluBrev (o : Ops) (a : Nat) : Nat := brevGo o.ty.bits a 0
/-- The index of LEA, sign-extended from 32 bits with AUX[5] (R363). -/
def leaIndex (o : Ops) (b : Nat) : Nat := if o.aux.getLsbD 5 then ofSigned 64 (toSigned 32 b) else b
/-- LEA (R363). -/
def aluLea (o : Ops) (a b : Nat) : Nat :=
  extendTo o.ty (lowBits o.ty.bits (a + leaIndex o b * 2 ^ (o.aux.toNat % 32)))
/-- MOV (R364). -/
def aluMov (o : Ops) (a : Nat) : Nat := extendTo o.ty a
/-- IMM32 as a 64-bit operand of a TYPE (R204). -/
def imm64 (t : Ty) (imm : BitVec 32) : Nat :=
  match t with
  | .i64 | .q64 => ofSigned 64 (toSigned 32 imm.toNat)
  | _ => imm.toNat
/-- MOVI (R364). -/
def aluMovi (o : Ops) : Nat := if o.ty.is64 then imm64 o.ty o.imm else o.imm.toNat
/-- MOVH (R364). -/
def aluMovh (o : Ops) (a : Nat) : Nat := lowBits 32 a + 2 ^ 32 * o.imm.toNat
/-- Byte i of a dot product, signed or not. -/
def dotByte (signed : Bool) (x i : Nat) : Int :=
  let b := bitsAt x (8 * i) 8
  if signed then toSigned 8 b else (b : Int)
/-- IDOT4 (R365). -/
def aluIdot4 (o : Ops) (a b c : Nat) : Nat :=
  let sx := o.ty == .i8
  let sy := sx != o.aux.getLsbD 0
  ofSigned 32 ((lowBits 32 c : Int) + dotByte sx a 0 * dotByte sy b 0 + dotByte sx a 1 * dotByte sy b 1
    + dotByte sx a 2 * dotByte sy b 2 + dotByte sx a 3 * dotByte sy b 3)

/-! ### Floating point -/

/-- The rounding mode of AUX[2:0] (R366). -/
def Ops.rnd (o : Ops) : Rnd := Rnd.ofCode (o.aux.toNat % 8)
/-- An operand's value in the instruction's format. -/
def Ops.fv (o : Ops) (x : Nat) : FVal := o.ty.ffmt.valueFtz o.flag x
/-- A result rounded to the instruction's format. -/
def Ops.fr (o : Ops) (v : FVal) : Nat := o.ty.ffmt.round o.rnd o.flag v

/-- FADD (R368). -/
def aluFadd (o : Ops) (a b : Nat) : Nat := lanes2 o (fun _ x y => o.fr (exactSum o.rnd [o.fv x, o.fv y])) a b
/-- FSUB (R368). -/
def aluFsub (o : Ops) (a b : Nat) : Nat := lanes2 o (fun _ x y => o.fr (exactSum o.rnd [o.fv x, (o.fv y).neg])) a b
/-- FMUL (R368). -/
def aluFmul (o : Ops) (a b : Nat) : Nat := lanes2 o (fun _ x y => o.fr ((o.fv x).mul (o.fv y))) a b
/-- FFMA, one rounding (R368). -/
def aluFfma (o : Ops) (a b c : Nat) : Nat :=
  lanes3 o (fun _ x y z => o.fr (exactSum o.rnd [(o.fv x).mul (o.fv y), o.fv z])) a b c
/-- FMIN (R369). -/
def aluFmin (o : Ops) (a b : Nat) : Nat := lanes2 o (fun _ x y => o.ty.ffmt.minmax false o.flag x y) a b
/-- FMAX (R369). -/
def aluFmax (o : Ops) (a b : Nat) : Nat := lanes2 o (fun _ x y => o.ty.ffmt.minmax true o.flag x y) a b
/-- FCMP (R370). -/
def aluFcmp (o : Ops) (a b : Nat) : Nat := predBits (floatCompare o.ty.ffmt o.flag (o.aux.toNat % 8) a b)
/-- FRCP (R371). -/
def aluFrcp (o : Ops) (a : Nat) : Nat := lanes1 o (fun _ x => o.fr ((FVal.fin false 1 0).div (o.fv x))) a
/-- 1/sqrt a: the root of the exact reciprocal, with a sticky low bit (R371). -/
def FVal.rsqrt : FVal → FVal
  | .nan => .nan
  | .inf s => if s then .nan else .zero false
  | .fin s m e =>
    if m == 0 then .inf s
    else if s then .nan
    else
      let odd := e % 2 != 0
      let m2 := if odd then m * 2 else m
      let e2 := if odd then e - 1 else e
      let k := 2 * (guardBits + topBit m2)
      let r := isqrt (2 ^ k / m2)
      .fin false (2 * r + (if r * r * m2 == 2 ^ k then 0 else 1)) (-(e2 / 2) - (k / 2 : Nat) - 1)
/-- FRSQ (R371). -/
def aluFrsq (o : Ops) (a : Nat) : Nat := lanes1 o (fun _ x => o.fr (o.fv x).rsqrt) a
/-- FSQRT (R371). -/
def aluFsqrt (o : Ops) (a : Nat) : Nat := lanes1 o (fun _ x => o.fr (o.fv x).sqrt) a
/-- FDIV (R371). -/
def aluFdiv (o : Ops) (a b : Nat) : Nat := lanes2 o (fun _ x y => o.fr ((o.fv x).div (o.fv y))) a b
/-- FEXP2 (R371). -/
def aluFexp2 (o : Ops) (a : Nat) : Nat := lanes1 o (fun _ x => o.fr (o.fv x).exp2) a
/-- FLOG2 (R371). -/
def aluFlog2 (o : Ops) (a : Nat) : Nat := lanes1 o (fun _ x => o.fr (o.fv x).log2) a
/-- FSIN (R371). -/
def aluFsin (o : Ops) (a : Nat) : Nat := lanes1 o (fun _ x => o.fr (o.fv x).sin) a
/-- FCOS (R371). -/
def aluFcos (o : Ops) (a : Nat) : Nat := lanes1 o (fun _ x => o.fr (o.fv x).cos) a
/-- FTANH (R371). -/
def aluFtanh (o : Ops) (a : Nat) : Nat := lanes1 o (fun _ x => o.fr (o.fv x).tanh) a
/-- FCLASS (R372). -/
def aluFclass (o : Ops) (a : Nat) : Nat := classMask o.ty.ffmt a
/-- Round a code to an integral value of its own format (R373). -/
def roundIntegral (f : FFmt) (mode : Rnd) (ftz : Bool) (x : Nat) : Nat :=
  match f.valueFtz ftz x with
  | .nan => f.nan
  | .inf _ => x
  | .fin s m e =>
    if (f.mbits : Int) ≤ e + topBit m && m != 0 then x
    else f.roundMag .rz s (FVal.toInteger mode (.fin s m e)).natAbs 0
/-- FRND (R373). -/
def aluFrnd (o : Ops) (a : Nat) : Nat := lanes1 o (fun _ x => roundIntegral o.ty.ffmt o.rnd o.flag x) a
/-- FSCALB: a scale beyond every format's range acts as the clamp does (R374). -/
def aluFscalb (o : Ops) (a b : Nat) : Nat :=
  lanes1 o (fun _ x => o.fr ((o.fv x).scale (clampInt (-1000) 1000 (toSigned 32 b)))) a
/-- FDOT2 (R375). -/
def aluFdot2 (o : Ops) (a b c : Nat) : Nat :=
  let t (i : Nat) := (o.fv (bitsAt a (16 * i) 16)).mul (o.fv (bitsAt b (16 * i) 16))
  fp32.round o.rnd o.flag (exactSum o.rnd [fp32.valueFtz o.flag (lowBits 32 c), t 0, t 1])
/-- The other FP8 format (R375). -/
def Ty.otherFp8 : Ty → Ty
  | .e4m3 => .e5m2
  | _ => .e4m3
/-- FDOT4 (R375). -/
def aluFdot4 (o : Ops) (a b c : Nat) : Nat :=
  let fb := (if o.aux.getLsbD 3 then o.ty.otherFp8 else o.ty).ffmt
  let t (i : Nat) := (o.ty.ffmt.value (bitsAt a (8 * i) 8)).mul (fb.value (bitsAt b (8 * i) 8))
  fp32.round o.rnd o.flag (exactSum o.rnd [fp32.valueFtz o.flag (lowBits 32 c), t 0, t 1, t 2, t 3])

/-- The source type of CVT (R376). -/
def Ops.cvtSrc (o : Ops) : Ty := Ty.ofCode (BitVec.ofNat 4 (o.aux.toNat % 16))

/-- A value of a source type, exactly (R342, R376). -/
def convValue (st : Ty) (sc : Nat) (ftz : Bool) (a : Nat) : FVal :=
  match st with
  | .q64 => ofQ64 sc a
  | .f32 | .f16 | .bf16 | .e4m3 | .e5m2 => st.ffmt.valueFtz ftz (lowBits st.bits a)
  | _ => FVal.ofInt (st.intVal a)

/-- Convert an exact value to a destination type, rounded once or saturated (R342, R376). -/
def convTo (dt : Ty) (sc : Nat) (mode : Rnd) (ftz : Bool) (v : FVal) : Nat :=
  match dt with
  | .q64 => toQ64 mode sc v
  | .f32 | .f16 | .bf16 | .e4m3 | .e5m2 => dt.ffmt.round mode ftz v
  | _ =>
    let r := intRange dt.signed dt.bits
    ofSigned dt.bits (FVal.toIntegerSat mode r.1 r.2 v)

/-- CVT; key and index serve .rs only (R376). -/
def aluCvt (o : Ops) (a key index : Nat) : Nat :=
  let sc := o.imm.toNat % 64
  let mode := if o.imm.getLsbD 6 then Rnd.rs (rsBits key index) else Rnd.ofCode (o.aux.toNat / 16)
  extendTo o.ty (convTo o.ty sc mode o.flag (convValue o.cvtSrc sc o.flag a))

/-- Saturate a signed 32-bit value to an integer TYPE (R377). -/
def satTo (t : Ty) (a : Nat) : Nat :=
  let r := intRange t.signed t.bits
  ofSigned t.bits (clampInt r.1 r.2 (toSigned 32 a))

/-- Replace bytes 2h and 2h + 1 of c (R377). -/
def putPair (c h x y : Nat) : Nat :=
  lowBits (16 * h) (lowBits 32 c) + (x + 256 * y) * 2 ^ (16 * h) + lowBits 32 c / 2 ^ (16 * h + 16) * 2 ^ (16 * h + 16)

/-- PACK (R377). -/
def aluPack (o : Ops) (a b c : Nat) : Nat :=
  let h := bitsAt o.aux.toNat 3 1
  let rf (x : Nat) := o.ty.ffmt.round o.rnd o.flag (fp32.valueFtz o.flag (lowBits 32 x))
  match o.ty with
  | .f16 | .bf16 => rf a + 2 ^ 16 * rf b
  | .e4m3 | .e5m2 => putPair c h (rf a) (rf b)
  | .i16 | .n16 => satTo o.ty a + 2 ^ 16 * satTo o.ty b
  | _ => putPair c h (satTo o.ty a) (satTo o.ty b)

/-- UNPACK (R378). -/
def aluUnpack (o : Ops) (a b : Nat) : Nat :=
  let n := o.ty.bits
  let x := bitsAt a (n * (o.aux.toNat % 8)) n
  match o.ty with
  | .f16 | .bf16 | .e4m3 | .e5m2 => fp32.round .rn false (o.ty.ffmt.value x)
  | .e2m1x => fp32.round .rn false (e2m1Value b x)
  | t => extendTo t x

/-! ### Predicate and lane instructions -/

/-- PLOP (R241). -/
def aluPlop (o : Ops) (a b : Nat) : Nat := predBits (predLogic (o.aux.toNat % 4) (asPred a) (asPred b))

/-- PMOV: a truth value, whatever the source (R242). -/
def aluPmov (_o : Ops) (a : Nat) : Nat := predBits (asPred a)

/-- The reduction of two values by the codes of R211, at a TYPE (R83, R245). -/
def combine (t : Ty) (code : Nat) (a b : Nat) : Nat :=
  match t with
  | .f32 =>
    match code with
    | 4 => fp32.minmax false false a b
    | 5 => fp32.minmax true false a b
    | _ => fp32.round .rn false (exactSum .rn [fp32.value (lowBits 32 a), fp32.value (lowBits 32 b)])
  | _ =>
    let n := t.bits
    match code with
    | 0 => lowBits n (a + b)
    | 1 => lowBits n (Nat.land a b)
    | 2 => lowBits n (Nat.lor a b)
    | 3 => lowBits n (Nat.xor a b)
    | 4 => if t.intVal a ≤ t.intVal b then lowBits n a else lowBits n b
    | _ => if t.intVal a ≤ t.intVal b then lowBits n b else lowBits n a

/-- The source lane of SHFL (R244). -/
def shflLane (code lane b : Nat) : Nat :=
  match code with
  | 0 => b % 32
  | 1 => if lane < b then lane else lane - b
  | 2 => if 31 < lane + b then lane else lane + b
  | _ => Nat.xor lane (b % 32)

end Sys2Proof
end

