-- ==== Sys2Proof/Config.lean ====
section
/-!
DEFINITION. What an implementation fixes and the spec leaves open: free values, which no proof can see, and the outside functions of the boot ROM and of attestation.
-/
namespace Sys2Proof.Config

/-- A free 8-bit value of a context, by its number: a byte that the spec calls undefined (R17, R275, R404, R437). DESIGN CHOICE (log 11). -/
opaque freeByte : Nat → Nat → BitVec 8

/-- A free 32-bit value of a context, by its number: a register that the spec calls undefined (R17, R261, R283). DESIGN CHOICE (log 11). -/
opaque freeWord : Nat → Nat → BitVec 32

/-- A free truth value of a context, by its number: a predicate that the spec calls undefined (R283). DESIGN CHOICE (log 11). -/
opaque freeBit : Nat → Nat → Bool

/-- Whether the RSASSA-PSS RSA-3072/SHA-384 signature of an image verifies against the fused key (R512): digest, header fields, signature. -/
opaque rsaVerifies : Nat → Nat → Nat → Bool

/-- Whether the SLH-DSA-SHA2-192s signature of an image verifies against the fused key (R512). -/
opaque slhVerifies : Nat → Nat → Nat → Bool

/-- The attestation signature of a report under the first identity key (R513). -/
opaque rsaSign : Nat → Nat

/-- The attestation signature of a report under the second identity key (R513). -/
opaque slhSign : Nat → Nat

/-- Whether firmware exposes a frame of device HBM to the host through HDM-DB (R504): such a frame keeps its home. -/
opaque exposed : Nat → Bool

/-- The package serial number (R513). -/
opaque serial : Nat

end Sys2Proof.Config
end

