-- ==== Sys2Proof/Machine/FMap.lean ====
section
/-!
DEFINITION. Sparse maps with natural-number keys in one canonical form: a list of pairs whose keys strictly rise.
Every memory and every table of the state that is indexed by an address, a slot or a number is one of these.
-/
namespace Sys2Proof

/-- A sparse map: pairs of a key and a value, keys strictly rising in every map the model builds. -/
structure FMap (α : Type) where
  cells : List (Nat × α)
  deriving DecidableEq, Repr

/-- The map that lists nothing. -/
def FMap.empty {α : Type} : FMap α := ⟨[]⟩

/-- Lookup in a list of pairs: the first pair with the key. -/
def lookupCells {α : Type} : List (Nat × α) → Nat → Option α
  | [], _ => none
  | (k, v) :: r, a => if k = a then some v else lookupCells r a

/-- Insertion that keeps the keys rising and replaces the value at a key already listed. -/
def insertCells {α : Type} : List (Nat × α) → Nat → α → List (Nat × α)
  | [], a, x => [(a, x)]
  | (k, v) :: r, a, x =>
    if k = a then (a, x) :: r
    else if a < k then (a, x) :: (k, v) :: r
    else (k, v) :: insertCells r a x

/-- Removal of one key. -/
def eraseCells {α : Type} : List (Nat × α) → Nat → List (Nat × α)
  | [], _ => []
  | (k, v) :: r, a => if k = a then eraseCells r a else (k, v) :: eraseCells r a

/-- The value listed at a key. -/
def FMap.get? {α : Type} (m : FMap α) (a : Nat) : Option α := lookupCells m.cells a

/-- The value listed at a key, or a default. -/
def FMap.getD {α : Type} (m : FMap α) (a : Nat) (d : α) : α := (m.get? a).getD d

/-- Whether a key is listed. -/
def FMap.has {α : Type} (m : FMap α) (a : Nat) : Bool := (m.get? a).isSome

/-- List a value at a key. -/
def FMap.put {α : Type} (m : FMap α) (a : Nat) (x : α) : FMap α := ⟨insertCells m.cells a x⟩

/-- Unlist a key. -/
def FMap.del {α : Type} (m : FMap α) (a : Nat) : FMap α := ⟨eraseCells m.cells a⟩

/-- Change the value at a key, if it is listed. -/
def FMap.adjust {α : Type} (m : FMap α) (a : Nat) (f : α → α) : FMap α :=
  match m.get? a with
  | none => m
  | some x => m.put a (f x)

/-- List a value unless it equals the default, in which case the key is unlisted: the canonical form of a total map. -/
def FMap.putD {α : Type} [DecidableEq α] (m : FMap α) (a : Nat) (d x : α) : FMap α :=
  if x = d then m.del a else m.put a x

/-- Replace every value by an image of it. -/
def FMap.map {α β : Type} (m : FMap α) (f : Nat → α → β) : FMap β := ⟨m.cells.map fun p => (p.1, f p.1 p.2)⟩

/-- Keep the pairs that satisfy a test. -/
def FMap.filter {α : Type} (m : FMap α) (f : Nat → α → Bool) : FMap α := ⟨m.cells.filter fun p => f p.1 p.2⟩

/-- The listed keys, rising. -/
def FMap.keys {α : Type} (m : FMap α) : List Nat := m.cells.map Prod.fst

/-- The listed values, by rising key. -/
def FMap.vals {α : Type} (m : FMap α) : List α := m.cells.map Prod.snd

/-- The first pair that satisfies a test. -/
def FMap.find? {α : Type} (m : FMap α) (f : Nat → α → Bool) : Option (Nat × α) := m.cells.find? fun p => f p.1 p.2

/-- Whether some pair satisfies a test. -/
def FMap.any {α : Type} (m : FMap α) (f : Nat → α → Bool) : Bool := m.cells.any fun p => f p.1 p.2

/-- Whether every pair satisfies a test. -/
def FMap.all {α : Type} (m : FMap α) (f : Nat → α → Bool) : Bool := m.cells.all fun p => f p.1 p.2

/-- The number of listed pairs. -/
def FMap.size {α : Type} (m : FMap α) : Nat := m.cells.length

/-- Whether the keys of a list of pairs lie above a bound and rise. -/
def risingFrom {α : Type} : Option Nat → List (Nat × α) → Bool
  | _, [] => true
  | none, (k, _) :: r => risingFrom (some k) r
  | some b, (k, _) :: r => decide (b < k) && risingFrom (some k) r

/-- The keys strictly rise. -/
def FMap.rising {α : Type} (m : FMap α) : Bool := risingFrom none m.cells

/-- The canonical form of a total map with a default: keys rise and no listed value is the default. -/
def FMap.wf {α : Type} [DecidableEq α] (m : FMap α) (d : α) : Bool := m.rising && m.all fun _ x => decide (x ≠ d)

end Sys2Proof
end

