-- ==== Sys2Proof/Machine/SquareTypes.lean ====
section
/-!
DEFINITION. The types of the Square's state: lot tables (R448 to R451), boards and games (R457, R489), plans and changeovers (R494 to R496).
-/
namespace Sys2Proof.Machine

/-- A pitch (R454): bench, first and count. -/
structure Pitch where
  bench : Nat
  first : Nat
  count : Nat
  deriving DecidableEq, Repr

/-- A lot record (R449). -/
structure LotRec where
  ndim  : Nat
  rdims : Nat
  nvm1  : Nat
  var0  : Nat
  nacc  : Nat
  acc0  : Nat
  work  : Nat
  cal   : Nat
  ext   : List Nat
  deriving DecidableEq, Repr

/-- A variant record (R450), with the K and Q of its entry's crew record (R267). -/
structure VarRec where
  entry : Nat
  rate  : Nat
  tdef  : List Nat
  tmin  : List Nat
  xreq  : Nat
  fused : Bool
  nbuf  : Nat
  fcon  : Nat
  types : Nat
  spmin : Nat
  k     : Nat
  q     : Nat
  deriving DecidableEq, Repr

/-- A tensor record (R451). -/
structure TensorRec where
  base  : Nat
  bytes : Nat
  type  : Nat
  deriving DecidableEq, Repr

/-- An access record (R451). -/
structure AccessRec where
  tensor : Nat
  wr     : Bool
  map    : Nat
  deriving DecidableEq, Repr

/-- An edge record (R451). -/
structure EdgeRec where
  prod   : Nat
  cons   : Nat
  tensor : Nat
  deriving DecidableEq, Repr

/-- A lot table as the square unit keeps it (R448, R452). -/
structure LotTable where
  va      : Nat
  hash    : Nat
  image   : Nat
  isize   : Nat
  maxthr  : Nat
  lots    : List LotRec
  vars    : List VarRec
  tensors : List TensorRec
  accs    : List AccessRec
  edges   : List EdgeRec
  deriving DecidableEq, Repr

/-- What a Square holds for one lot (R457). `role` is 0 none, 1 producer, 2 consumer. -/
structure LotSt where
  tiles   : List Nat
  pitch   : Pitch
  variant : Nat := 0
  xbud    : Nat
  spbud   : Nat
  role    : Nat := 0
  partner : Nat := 0
  reassoc : Option (Nat × Nat) := none    -- dimension and log2 parts, while on
  deriving DecidableEq, Repr

/-- What moves change (R457, R462): lots, play order, tensor homes, and the slot mode of each pitch in use (0 is skip). -/
structure Board where
  lots  : List LotSt
  order : List Nat
  homes : List Nat
  modes : List (Pitch × Nat)
  deriving DecidableEq, Repr

/-- A game: a board with what SQLOAD fixes (R457, R471), the undo stack (R464) and the history (R489), both newest first. -/
structure Game where
  table   : LotTable
  board   : Board
  cal     : List Nat
  perms   : List Nat
  pfirst  : Nat
  pcount  : Nat
  dev     : Nat                           -- the package's own device id (R454)
  undo    : List Board := []
  hist    : List Nat := []
  histOk  : Bool := true
  deriving DecidableEq, Repr

/-- A Square (R456): its version, and its game once loaded. -/
structure Square where
  version : Nat := 0
  game    : Option Game := none
  deriving DecidableEq, Repr

/-- An installed plan (R494). -/
structure Plan where
  ctx   : Nat
  id    : Nat
  calen : Bool
  game  : Game
  void  : Bool := false                   -- a pitch lies outside the bounds (R480)
  deriving DecidableEq, Repr

/-- A changeover (R496). -/
structure Changeover where
  ctx    : Nat
  id     : Nat
  plan   : Plan
  retire : Nat                            -- the retire word's virtual address, 0 for none
  op     : Option Nat                     -- the SQCOMMIT that ends at the flip
  queue  : Option Nat                     -- the queue whose PLAN packet waits for the flip
  tag    : Option Nat := none             -- the old plan's tag, once flipped
  old    : Option Nat := none             -- the old plan's number, once flipped
  deriving DecidableEq, Repr

/-- The Squares, plan stores and learned calibration of the package. -/
structure SqState where
  squares : FMap Square := FMap.empty     -- by context * 16 + Square number
  arrived : FMap (List Nat) := FMap.empty -- operations at each Square, in order of arrival (R456)
  work    : FMap Game := FMap.empty       -- private copies of operations (R492, R493)
  snaps   : FMap (FMap Nat) := FMap.empty -- the learned values at an SQLOAD's arrival (R498)
  plans   : FMap Plan := FMap.empty       -- by the model's own number
  changes : List Changeover := []         -- in the order of their commits (R496)
  learned : FMap Nat := FMap.empty        -- learned calibration by context, hash and lot (R481)
  cursor  : FMap Nat := FMap.empty        -- the default player's CURSOR by context (R484)
  deriving DecidableEq, Repr

end Sys2Proof.Machine
end

