-- ==== Sys2Proof/Machine/State.lean ====
section
/-!
DEFINITION. The state of the machine as plain data, the reasons a step may stop, and the state after reset.
Registers keep the manual's names; every table is a sparse map with its keys rising.
-/
namespace Sys2Proof.Machine

/-! ### Pending values (R249 to R261) -/

/-- The late value a register is bound to: an operation's result part (R250, R260), a crew-uniform register, or a pair of them (R259). -/
inductive Late where
  | sym (id part : Nat)
  | kreg (crew n : Nat)
  | kpair (crew n : Nat)
  deriving DecidableEq, Repr

/-- One deferred operation of a chain: the instruction as issued, with its known operands; `none` is the pending one (R254). -/
structure Link where
  opc : Opc
  o   : Ops
  a   : Option Nat
  b   : Option Nat
  c   : Option Nat
  deriving DecidableEq, Repr

/-- The contents of one vector register of one thread (R251). `half` is 0 for a 32-bit value or the low half, 1 for the high half. -/
inductive RegVal where
  | known (w : Word)
  | int (s : Late) (n half a b : Nat)
  | chain (s : Late) (ty : Ty) (links : List Link)
  | plain (s : Late) (n half : Nat)
  deriving DecidableEq, Repr

/-! ### Threads, groups and crews (R217 to R230, R267 to R291, R328) -/

/-- Why a thread is Waiting (R219). -/
inductive WaitFor where
  | syncg
  | cbar
  | nbar (id : Nat)
  | regx
  | sending              -- a cell operation, a reconciliation or a remote message on its way
  | monitor              -- a registered WAITW
  | read                 -- a WAITW whose read is performed, until every thread of its bundle has been read (R173)
  | resolve (a b c : Src) (all : Bool)
  | acks (lines : List Nat)   -- CWB and CINV: the lines of the writes they sent
  | push (crew queue value : Nat)
  | pop (crew queue : Nat) (dst : Dst) (wide : Bool)
  | tfetch (launch lot die : Nat) (dst : Dst) (pred : Src)
  | firstUse (cores : List Nat)   -- MATRIX_FIRST_USE: the cores whose MEN it needs, until firmware replays
  deriving DecidableEq, Repr

/-- The fault of a parked thread (R48, R315): code, TVAL, and the 64 KiB page awaited. -/
structure Park where
  code : Nat
  tval : Nat
  page : Nat
  aff  : Bool := false                    -- met on the affinity address of a SPAWN (R271)
  done : Bool := false                    -- firmware has resolved it (R49)
  sub  : Nat := 0                         -- the sub-group it was split off in (R48)
  deriving DecidableEq, Repr

/-- The state of a live thread (R219). -/
inductive Status where
  | ready
  | waiting (w : WaitFor)
  | parked (p : Park)
  deriving DecidableEq, Repr

/-- The per-thread system registers and what a trap records (R328, R332). -/
structure TrapRegs where
  tvec   : DWord := 0
  tcause : DWord := 0
  tpc    : DWord := 0
  tval   : DWord := 0
  mrow   : DWord := 0
  saved  : Option (List (Option Word)) := none   -- latches recorded at trap entry (R208)
  tpcSet : Bool := false                         -- a SETSR of TPC has executed since trap entry
  deriving DecidableEq, Repr

/-- A live thread. Its key is core * 1024 + thread slot. -/
structure Thread where
  crew    : Nat
  group   : Nat                  -- group slot 0-31, or 32 + shelf
  lane    : Nat
  tix     : Nat
  pc      : DWord
  status  : Status := .ready
  regs    : FMap RegVal := FMap.empty     -- v0-v127; an unlisted register holds 0
  preds   : BitVec 7 := 0                 -- p0-p6
  latches : List (Option Word) := []      -- b0-b7; an absent or none entry is invalid
  stack   : List DWord := []              -- the return stack's top entries, most recent first, at most 8
  depth   : Nat := 0                      -- entries of the return stack, spilled ones included
  trap    : TrapRegs := {}
  joins   : List Nat := []                -- frames whose join holds the thread's memory accesses (R279)
  takes   : List Nat := []                -- taking reads whose reconciliation is not complete (R144)
  late    : Option Nat := none            -- DATA_UNCORRECTABLE to take at the next issue, with its address (R261)
  restore : Option (List (Option Word)) := none   -- recorded latches that return at the next issue (R208)
  owed    : List Nat := []                -- late values without a symbol entry that have not arrived (R256, R261)
  was     : FMap RegVal := FMap.empty     -- what the destination of a giving operation in progress held: a save issues it again (R150)
  squares : List (Nat × Nat) := []        -- the late values of Square operations whose results have not arrived, each with its Square (R470)
  sqJoin  : List (Nat × Nat) := []        -- registers that a Square result has made known, with its late value, until an instruction that names one joins (R158, R470)
  again   : List CellOp := []             -- AWAIT registrations freed by a migration, to be made again after it (R178)
  mates   : List Nat := []                -- the threads of the bundle that it last issued a WAITW in (R173)
  replay  : Bool := false                 -- an affinity fault was not resolved: place as .any (R271)
  deriving DecidableEq, Repr

/-- The bundle whose instruction runs in the next step (R220), with its pair snapshot (R197). -/
structure Issue where
  core   : Nat
  group  : Nat
  pc     : DWord
  slots  : List Nat                       -- thread keys of the bundle, ascending
  second : Bool                           -- slot j + 1 of a pair
  pair   : Bool                           -- slot j of a pair: slot j + 1 follows
  snap   : FMap Thread                    -- the group's threads as they stood before the pair
  ksnap  : FMap (FMap Word) := FMap.empty -- the crew-uniform registers of its crews as they stood before the pair
  undo   : Bool := false                  -- slot j is of class A: a wait of slot j + 1 takes it back (R197)
  sel    : Bool := false                  -- slot j was of the blocking class: a selection follows the pair (R225)
  deriving DecidableEq, Repr

/-- A group in a group slot. Its key is core * 64 + slot; shelved groups have slots 32 to 63. -/
structure Group where
  crew   : Nat                            -- the crew, or the first crew of a gather set
  gix    : Nat
  block  : Bool := false                  -- holds an extended block (R223)
  passed : FMap Nat := FMap.empty         -- passed-over counts by PC (R224)
  cont   : Option DWord := none           -- the entry that continues without selection (R225)
  last   : Option DWord := none           -- where the entry last issued from stands (R206)
  issued : Option Nat := none             -- clock of the last issue (R226)
  merged : Nat := 0                       -- interval of the last merge, plus one (R228)
  half   : Option Issue := none           -- a pair whose slot j is done and slot j + 1 stalled
  idle   : Option Nat := none             -- the clock since which it is shelvable (R284)
  deriving DecidableEq, Repr

/-- A registered condition monitor (R171 to R177). -/
inductive MonFor where
  | waitw (tid : Nat) (dst : Dst) (ea : Nat)
  | await (tid late slot : Nat) (ty : Ty) (ea : Nat)
  | tail (queue : Nat)                    -- the command processor's wait on a tail word (R294)
  | sig (queue : Nat)                     -- a WAITSIG's wait on a signal (R302)
  deriving DecidableEq, Repr

/-- The thread that a registration is for; none for the command processor's. -/
def MonFor.thread? : MonFor → Option Nat
  | .waitw tid _ _ => some tid
  | .await tid _ _ _ _ => some tid
  | _ => none

/-- A wait table, bank or spoil-list entry. -/
structure Monitor where
  place : Place
  wide  : Bool
  cmp   : Nat                             -- 0 eq, 1 ne, 2 lt signed, 3 ge signed, 4 lt unsigned, 5 ge unsigned
  oper  : Nat
  take  : Bool
  spoil : Bool                            -- on the die's spoil list
  who   : MonFor
  entry : Nat := 0                        -- the entry that the threads of one bundle share (R173)
  index : Nat := 0                        -- its entry in the die's spoil-list array (R177)
  deriving DecidableEq, Repr

/-- A crew record (R267). -/
structure CrewRec where
  k    : Nat := 0
  x    : Bool := false
  q    : Nat := 0
  spad : Nat := 0                         -- KiB
  deriving DecidableEq, Repr

/-- Where a crew may start (R271). -/
inductive Placement where
  | loc | aff | anyc
  deriving DecidableEq, Repr

/-- How far a crew has come. -/
inductive Phase where
  | queued                                -- at a dispatcher
  | draining                              -- granted: granules withdrawn, not yet zeroed (R60)
  | zeroed                                -- swept and zeroed, write-backs outstanding
  | running
  | finished                              -- no thread left; its end waits (R278)
  | saving                                -- its issue has stopped for a pre-emption (R320, R322)
  | saved
  deriving DecidableEq, Repr

/-- A named barrier's open generation (R287). -/
structure NBar where
  fixed   : Nat := 0
  arrived : Nat := 0
  remote  : Bool := false                 -- an arrival of this generation came from another core
  deriving DecidableEq, Repr

/-- A queue of a crew (R289). -/
structure CrewQueue where
  entries : List (Nat × Nat) := []        -- value and pushing core
  pushers : List (Nat × Nat) := []        -- waiting pushers: thread key and value
  poppers : List Nat := []                -- waiting poppers
  flushed : Bool := false                 -- the head entry's pushing core has sent its writes for a pop from another core (R147)
  deriving DecidableEq, Repr

/-- A crew: queued, resident or saved. Its key is the model's own number. -/
structure Crew where
  ctx     : Nat
  core    : Nat
  cslot   : Nat := 0
  gen     : Nat := 0
  entry   : DWord
  crec    : CrewRec := {}
  cn      : Nat
  cix     : Nat := 0
  frm     : DWord := 0
  args    : List (List Byte) := []
  prio    : Nat := 0
  ceil    : Nat := 0
  tag     : Nat := 0                      -- phase tag (R179)
  launch  : Nat := 0                      -- the launch it descends from
  lot     : Nat := 0
  place   : Placement := .loc
  enq     : Nat := 0                      -- an .aff crew's: the clock of its queue's core at its enqueue (R271)
  aged    : Bool := false                 -- the ageing interval has passed (R271)
  nosteal : Bool := false                 -- requeued by a discard, or obtained by a thief (R272)
  home    : Nat := 0                      -- the spawning core
  spawner : Bool := false                 -- started by SPAWN rather than by a launch
  phase   : Phase := .queued
  gset    : Nat := 0                      -- gather set: the key of its first crew (R273); itself otherwise
  kregs   : FMap Word := FMap.empty       -- written crew-uniform registers (R259)
  kgen    : FMap Nat := FMap.empty        -- crew-barrier generation of the last write (R291)
  bar     : Nat := 0                      -- crew-barrier generation
  nbars   : FMap NBar := FMap.empty
  queues  : FMap CrewQueue := FMap.empty
  codes   : Nat := 0                      -- TMASK.CODES as bits (R330)
  retired : Nat := 0
  discard : Bool := false                 -- discardable (R319)
  halt    : Bool := false                 -- its threads stop where they stand, for a discard (R320)
  coords  : List Nat := []                -- coordinates drawn since the start of the region (R290)
  remote  : Bool := false                 -- it has received a remote arrival or queue request, so that it is never discardable again (R288)
  granules : List Nat := []               -- granule map (R59)
  released : Bool := true                 -- its granules have returned to L1
  live    : Nat := 0                      -- threads not yet ended
  conts   : Nat := 0                      -- continuations offered and not ended (R278)
  cont    : Option (Place × Nat) := none  -- an offered continuation: its frame's place, and its thread's tix (R282)
  offerer : Nat := 0                      -- a continuation's: the crew whose thread offered it
  origin  : Nat := 0                      -- a continuation's: the crew whose TMASK records it (R278)
  seen    : Nat := 0                      -- the parent core that the source side of its end was started for (R148)
  edge    : Nat := 0                      -- source side of its next edge (R147): 0 done, 1 core's writes sent, 2 die's writes sent
  cores   : List Nat := []                -- cores on which it or its continuations ran
  store   : Nat := 0                      -- die whose task store holds its argument records
  saveGroups  : FMap Group := FMap.empty  -- a saved crew's groups by slot (R322); its threads stand at core 512 + crew, in their slots
  saveSpad    : LineBytes := []           -- the scratchpad copied out
  saveTls     : FMap (List Byte) := FMap.empty  -- lines of thread-local blocks copied out when another thread took the slot, by slot * 128 + line (R323)
  remoteSaved : List (Nat × Nat) := []    -- remote arrivals landed in the save area (R288): id, count
  saveMons    : List Monitor := []        -- scratchpad monitors saved with the scratchpad (R178)
  deriving DecidableEq, Repr

/-! ### A core's caches, engines and dispatcher -/

/-- A byte held in a cache, with its dirty mark (R58). -/
structure CByte where
  val   : Byte
  dirty : Bool
  deriving DecidableEq, Repr

/-- An L1 line (R37, R43, R57, R58, R83, R145). Its key is ASID * 2^50 + virtual line number. -/
structure L1Line where
  line  : Nat                             -- physical line: global physical address / 128
  mode  : Mode
  r     : Bool := true
  w     : Bool := false                   -- its translation held W = 1 and D = 1
  red   : Bool := false
  gen   : Nat := 0
  way   : Nat := 0                        -- the granule that serves the way
  used  : Nat := 0
  keep  : Bool := false
  gath  : Option RedKind := none          -- gather state: the bytes are a delta
  bytes : FMap CByte := FMap.empty
  bad   : List Nat := []                  -- its 32-bit words that are uncorrectable (R74)
  deriving DecidableEq, Repr

/-- What the fetch path holds for a line: its bytes, or the fault its fetch met (R135, R224). -/
inductive FetchEnt where
  | line (bytes : List Byte)
  | fault (code tval : Nat)
  deriving DecidableEq, Repr

/-- A fault recorded on an ACC (R425). -/
structure MFault where
  code  : Nat
  tval  : Nat
  fwd   : Bool
  krows : Nat
  crew  : Nat
  deriving DecidableEq, Repr

/-- The kinds of engine operation (R158). -/
inductive EngKind where
  | mma (pair : Bool) | mzero | mload | msave | mdrain
  | rfma | rscl | rred | rexp | rcvt | rng | cpy
  | square (opc : Opc)
  | fwCopy (queue : Nat)                  -- a COPY packet's copy (R298)
  | fwWrite (queue : Nat)                 -- a write of a head word, or of a retire word for no queue (R295, R496)
  | queueAccess (queue : Nat) (again : Instr)   -- an access of a queue that met a firmware-first fault (R297)
  deriving DecidableEq, Repr

/-- How far an operation has come. -/
inductive EngPhase where
  | queued | running | suspended
  | acking                                -- its writes are awaited (R162)
  | through                               -- its die writes through (R165)
  | ended
  deriving DecidableEq, Repr

/-- A range of crew scratchpad offsets (R166). -/
structure Range where
  lo : Nat
  hi : Nat
  deriving DecidableEq, Repr

/-- An engine operation: its descriptor as read at issue, its scoreboard ranges and its progress (R158 to R170). -/
structure EngOp where
  kind   : EngKind
  core   : Nat
  crew   : Nat
  ctx    : Nat
  tid    : Nat                            -- the elected or issuing thread
  tag    : Nat := 0
  desc   : List Nat := []                 -- the eight descriptor registers, or the operands
  ea     : Nat := 0
  table  : List (Nat × Int) := []         -- CPY's dimension table: extent and stride
  reads  : List Range := []
  write  : Option Range := none
  carried : List Nat := []                -- lines that its writes wrote (R165)
  comp   : Nat := 0                       -- completion control (R419)
  setv   : Nat := 0                       -- the value of SET
  pay    : Nat := 0                       -- payload bytes
  phase  : EngPhase := .queued
  krows  : Nat := 0                       -- progress
  pos    : Nat := 0
  fault  : Option (Nat × Nat × Bool) := none   -- code, TVAL, forwarded
  late   : Nat := 0                       -- a Square operation's late value
  square : Nat := 0
  result : Nat := 0
  buf    : List Byte := []                -- bytes read or to be written by a Square operation
  deriving DecidableEq, Repr

/-- A core. An unlisted core is as after reset. -/
structure Core where
  clk     : Nat := 0
  mown    : Nat := 0
  men     : List Nat := []                -- contexts whose MEN is 1 here (R325)
  symbols : FMap (List Nat) := FMap.empty -- symbol entries: late value to awaiting threads (R250)
  l1      : FMap L1Line := FMap.empty
  gen     : Nat := 0                      -- current L1 generation (R145)
  scrub   : Nat := 0                      -- the scrubber's position
  fetch   : FMap FetchEnt := FMap.empty   -- fetch path, keyed as L1 by 64-byte line
  lentOut : List Nat := []                -- granules 0-55 allocated to a crew
  acc     : FMap Word := FMap.empty       -- ACC element 32 i + j; unlisted is +0.0
  mfault  : Option MFault := none
  sboard  : List Nat := []                -- operations not yet ended, in issue order (R166)
  macc    : List Nat := []                -- operations on this ACC, in issue order (R168)
  queue   : List Nat := []                -- crews queued at the dispatcher, oldest first
  skip    : Nat := 0                      -- skip count of the head crew (R311)
  skipped : Bool := false                 -- the age limit was reached
  slots   : Nat := 0                      -- 0: skip mode; s: slot mode with s slots
  ageLimit : Nat := 16
  gens    : FMap Nat := FMap.empty        -- generation last used by each crew slot (R277)
  xqueue  : List Nat := []                -- threads queued for REGX.GET, oldest first
  gated   : Bool := true                  -- the cluster is not yet ungated (R510)
  marray  : Bool := false                 -- the matrix array is enabled (R510)
  inflight : List Nat := []               -- lines of writes sent and not yet acknowledged (R143)
  misses  : FMap (List Fill) := FMap.empty -- by line: the loads and prefetches that wait for its fill, oldest first (R58)
  tags    : FMap (List Nat) := FMap.empty -- by line: the phase tags of what the core has sent and not finished (R179, R180)
  tried   : List Nat := []                -- groups found stalled on this clock (R226)
  ctx     : Nat := 0                      -- the context switched onto the core, or 0 for any (R324, R480)
  deriving DecidableEq, Repr

/-! ### The memory system -/

/-- Memory as bytes: an unlisted byte reads as 0 (log 1). -/
abbrev Memory := FMap Byte

/-- Home states of a line that has a directory entry (R93). -/
inductive DirState where
  | s | e | g
  deriving DecidableEq, Repr

/-- What a home slice does once a line's transaction has collected its answers (R96 to R106). -/
inductive After where
  | idle                                  -- a write's invalidations, or a victim: the line goes to I
  | again (req : Instr)                   -- serve the request from state I
  | grantM (die : Nat)                    -- Grant(M) to an upgrading holder
  | grantG (die : Nat) (k : RedKind)
  | sendM (die : Nat)                     -- Data(M), or ownership for the host (4)
  | handoff                               -- the line is kept for the next queued request (R97)
  | host                                  -- the line is kept for a host read whose directory entry is being freed (R103, R114)
  deriving DecidableEq, Repr

/-- A transaction in progress on a line: the holders whose answers are awaited (4 is the host). -/
structure Txn where
  wait  : List Nat
  gath  : List (Nat × RedKind × List Byte) := []   -- returned deltas by die
  acks  : List Nat := []                  -- cores whose writes are acknowledged at the end (R99, R143)
  after : After
  serves : Bool := false                  -- home-die accesses are served meanwhile (R99, R103)
  fin   : List Instr := []                -- operations that are complete once the answers are here (R152)
  deriving DecidableEq, Repr

/-- A directory entry (R92) with its line's transaction and the requests queued behind it (R97). -/
structure HomeLine where
  st    : Option DirState := none         -- none: state I
  mask  : List Nat := []                  -- dies that hold copies; 4 is the host (H)
  kind  : Option RedKind := none
  used  : Nat := 0
  txn   : Option Txn := none
  queue : List Instr := []
  resv  : Bool := false                   -- a freed entry of the set is kept for the line's stalled request (R103)
  deriving DecidableEq, Repr

/-- A home cache line's tag: the data itself is memory's (log 21). -/
structure HCLine where
  dirty : Bool := false
  used  : Nat := 0
  reading : Bool := false                 -- its read of HBM has not returned: a request is outstanding (R72)
  deriving DecidableEq, Repr

/-- RDC line states (R94, R112). -/
inductive RdcSt where
  | s | m | g
  deriving DecidableEq, Repr

/-- What an RDC line waits for from its home (R97, R100). -/
inductive RdcWait where
  | data (k : ReqKind) (tries : Nat)      -- a request is at the home
  | wbAck                                 -- a WbM is at the home
  | backoff (k : ReqKind) (tries : Nat)   -- a Retry was received
  | room (k : Option ReqKind)             -- no way of its set is free yet: it then sends the request, or serves its work (R75)
  deriving DecidableEq, Repr

/-- A line of a die's RDC. Its key is die * 2^60 + line number. -/
structure RdcLine where
  st    : Option RdcSt := none            -- none: state I
  kind  : Option RedKind := none
  gen   : Nat := 0                        -- SELF and peer lines (R108)
  self  : Bool := false                   -- untracked
  used  : Nat := 0
  bytes : FMap CByte := FMap.empty
  wait  : Option RdcWait := none
  works : List LineWork := []             -- L1 requests that wait with the line
  bad   : List Nat := []                  -- its 32-byte units that are uncorrectable (R74)
  deriving DecidableEq, Repr

/-- A leaf translation held in a TLB (R39, R42). -/
structure Leaf where
  level : Nat
  entry : DWord
  addr  : Nat                             -- physical address of the entry
  tag   : Nat := 0                        -- ASID, level and virtual page
  used  : Nat := 0                        -- replacement order within a set of a cluster TLB
  deriving DecidableEq, Repr

/-- The memory system: values, directories, caches, monitors and translations. -/
structure MemSys where
  bytes   : Memory := FMap.empty          -- device HBM, host and peer memory by global physical address
  scratch : Memory := FMap.empty          -- scratchpad by core * 2^19 + physical offset
  homes   : FMap HomeLine := FMap.empty
  hcache  : FMap HCLine := FMap.empty
  rdc     : FMap RdcLine := FMap.empty
  rdcGen  : FMap Nat := FMap.empty        -- generation per die and slice (R108)
  rdcTags : FMap (List Nat) := FMap.empty -- by die * 2^60 + line: the phase tags of what an RDC slice or link port has sent and not finished (R179, R180)
  gmask   : FMap (List Nat) := FMap.empty -- gather masks per home slice (R87)
  mons    : List Monitor := []
  tlb     : FMap Leaf := FMap.empty       -- cluster TLBs, by cluster and tag
  dtlb    : FMap Leaf := FMap.empty       -- deep TLBs, by die * 2^24 + index
  deep    : FMap Nat := FMap.empty        -- the size of each die's deep TLB in entries (R42)
  poison  : List Nat := []                -- poisoned 32-byte units (R516)
  spadBad : List Nat := []                -- uncorrectable scratchpad words, by core * 2^17 + word (R74)
  held    : List CellOp := []             -- registrations held on a full spoil list (R177)
  deriving DecidableEq, Repr

/-! ### Contexts, queues, launches and firmware -/

/-- A context (R29, R325, R328, R479 to R484, R506). -/
structure Context where
  asid    : Nat
  root    : Nat
  msave   : Nat := 0
  accSaved : List Nat := []               -- cores whose ACC is saved in the MSAVE area
  pfirst  : Nat := 0
  pcount  : Nat := 512
  perm    : List Nat := [0x07FF, 0x07FF, 0x07FF]
  budget  : Nat := 64
  cap     : Nat := 256
  ageing  : Nat := 8192
  skip    : Nat := 16
  steal   : Bool := true                  -- dispenser steal enable (R506)
  hold    : Option Nat := none            -- its launches wait until this tag is quiet (R324)
  ended   : Bool := false
  deriving DecidableEq, Repr

/-- One copy of a queue control block (R295). -/
structure QCopy where
  base   : Nat := 0
  taila  : Nat := 0
  heada  : Nat := 0
  head   : Nat := 0
  logn   : Nat := 0
  state  : Nat := 0
  hcause : Nat := 0
  qfault : Nat := 0
  asid   : Nat := 0
  qval   : Nat := 0
  seq    : Nat := 0
  aborts : Nat := 0
  deriving DecidableEq, Repr

/-- One level of packet processing: the ring, or an INDIRECT buffer (R305). -/
structure Level where
  addr  : Nat
  count : Nat
  next  : Nat := 0
  fetched : List (List Nat) := []         -- prefetched packets, oldest first (R304)
  deriving DecidableEq, Repr

/-- A queue: its control block in two copies with the index word, and the command processor's processing. -/
structure Queue where
  ctx    : Nat
  a      : QCopy := {}
  b      : QCopy := {}
  index  : Nat := 0                       -- bit 0 selects the copy in force
  tail   : Nat := 0                       -- the last tail value read
  levels : List Level := []               -- open INDIRECT levels, innermost first
  fetched : List (List Nat) := []
  abort  : Bool := false                  -- aborting (R303)
  cur    : Option (List Nat) := none      -- the packet being processed
  copies : List Nat := []                 -- COPY operations not ended
  tag    : Nat := 0                       -- the tag of its last launch, which a COMPLETE that follows it carries (R179)
  deriving DecidableEq, Repr

/-- A dispenser of a PERSIST lot on one die (R309, R310). -/
structure Disp where
  coords  : List Nat := []
  reports : FMap Nat := FMap.empty        -- other dies' remaining counts as last reported
  dry     : List Nat := []                -- dies that replied with none
  asking  : Bool := false
  wait    : List Nat := []                -- threads waiting in TFETCH
  deriving DecidableEq, Repr

/-- A launch (R298, R300, R308). -/
structure Launch where
  queue  : Nat
  ctx    : Nat
  frame  : Nat                            -- handle of its launch frame
  tag    : Nat
  mode   : Nat
  prio   : Nat
  argb   : Nat
  threads : Nat
  block  : Nat
  game   : Game                           -- the plan it runs under (R494)
  calen  : Bool
  todo   : List Nat := []                 -- lots not yet enqueued
  lots   : List Nat := []                 -- lots enqueued
  done   : List Nat := []                 -- lots whose crews have all ended and reconciled
  recon  : FMap Nat := FMap.empty         -- the reconciliation of a lot that has ended (R147): 1 cores' writes sent, 2 dies' writes sent
  begun  : FMap Nat := FMap.empty         -- by lot: the clock at its first crew's grant (R482)
  started : List Nat := []                -- lot * 512 + core: cores reconciled for a lot (R147)
  disps  : FMap Disp := FMap.empty        -- by lot * 4 + die
  ended  : Bool := false
  deriving DecidableEq, Repr

/-- A firmware event in the event queue (R306, R307). -/
structure FwEvent where
  num    : Nat
  queue  : Option Nat := none             -- whose ordering lock it holds
  asid   : Option Nat := none
  tid    : Option Nat := none
  op     : Option Nat := none             -- the suspended engine operation it is about
  act    : Option Instr := none           -- what it performs when it runs; none for a firmware-first trap or a halt
  halt   : Option (Nat × Nat × Nat) := none -- a halt that the command processor hands over: HCAUSE, QFAULT and QVAL (R306)
  step   : Nat := 0                       -- how far an event that waits for hardware has come
  expiries : Nat := 0
  keep   : Nat := 0                       -- the entry that a migrating page had before (R307)
  deriving DecidableEq, Repr

/-- A frame that is taken: the thread, or the continuation's crew, that would AWAIT it, and whether it has joined (R276, R278). -/
structure FrameRec where
  ga     : Nat                            -- where the frame lies
  owner  : Option Nat                     -- the spawning thread's key
  cont   : Option Nat := none             -- the crew of the continuation that replaced it
  joined : Bool := false
  cores  : List Nat := []                 -- cores on which its children and their continuations have run (R147)
  launch : Bool := false                  -- a launch frame, freed by firmware (R300)
  deriving DecidableEq, Repr

/-- Firmware's records. -/
structure Fw where
  ctxs    : FMap Context := FMap.empty
  queues  : FMap Queue := FMap.empty
  launches : FMap Launch := FMap.empty
  events  : List FwEvent := []            -- oldest first
  running : FMap FwEvent := FMap.empty    -- by Rololnov core
  waiting : FMap FwEvent := FMap.empty    -- events that wait for hardware, by number
  regs    : FMap Nat := FMap.empty        -- other firmware registers, by physical address
  dirbi   : FMap Nat := FMap.empty        -- per die (R104)
  ce      : FMap Nat := FMap.empty        -- per die (R516)
  ue      : FMap Nat := FMap.empty
  cur     : FMap Nat := FMap.empty        -- CUR per die (R181)
  frames  : FMap FrameRec := FMap.empty   -- frames taken, by ASID * 2^57 + handle (R276)
  drain   : Bool := false                 -- a checkpoint holds packets and the host's accesses (R509)
  deriving DecidableEq, Repr

/-- The package's outside: mailbox, bring-up, fabric and power (R504 to R516). -/
structure Dev where
  step    : Nat := 1                      -- step of R510 reached
  status  : Nat := 0                      -- mailbox status word (R505)
  command : Nat := 0                      -- mailbox command word
  payload : List Nat := []                -- what the last command returned
  busy    : Option Nat := none            -- tag of the unfinished command
  minSvn  : Nat := 0                      -- fused minimum
  svn     : Nat := 0
  measure : Nat := 0                      -- measurement of the running image
  id      : Nat := 0                      -- own device id
  routes  : FMap Nat := FMap.empty        -- routing table: device id to port mask
  fabric  : Bool := false                 -- a SET_FABRIC has been accepted
  down    : List Nat := []                -- ports taken down
  replays : FMap Nat := FMap.empty        -- consecutive replays per port
  cap     : Nat := 3000
  samples : List Nat := []                -- the last eight 1 ms samples
  throttle : Nat := 0                     -- issue-rate steps withheld
  throttled : Nat := 0                    -- intervals spent throttled
  image   : FMap Memory := FMap.empty     -- checkpoint images at safe-tier devices, by device and base
  deriving DecidableEq, Repr

/-- The machine. The last six fields are the model's own (logs 9 to 12). -/
structure State where
  threads : FMap Thread
  groups  : FMap Group
  crews   : FMap Crew
  cores   : FMap Core
  mem     : MemSys
  ops     : FMap EngOp
  fw      : Fw
  dev     : Dev
  sq      : SqState
  due     : List Instr                    -- events in flight, oldest first
  picks   : List Nat                      -- which event in flight is taken next
  cur     : Option Issue                  -- the instruction that runs in the next step
  free    : FMap Nat                      -- free values drawn, by context
  fresh   : Nat                           -- the next unused number of a late value, crew, operation or event
  turn    : Nat                           -- whose turn it is when no pick is listed
  deriving DecidableEq, Repr

/-- Why a run stops. -/
inductive Fault where
  /-- Raised by no meaning today: every fault of the spec is a trap, a retirement or a queue halt and so a next state. Safe. -/
  | unused
  deriving DecidableEq, Repr

/-- Why a step is refused. -/
inductive Refusal where
  /-- Raised by an arm of `exec` that has no meaning yet. Safe: nothing is claimed of it. -/
  | notModelled (mnemonic : String)
  deriving DecidableEq, Repr

/-- The machine right after reset: power has been applied, the link trains (R510 step 1), nothing is resident anywhere. -/
def State.reset : State :=
  { threads := FMap.empty, groups := FMap.empty, crews := FMap.empty, cores := FMap.empty,
    mem := {}, ops := FMap.empty, fw := {}, dev := {}, sq := {}, due := [.powerUp], picks := [], cur := none,
    free := FMap.empty, fresh := 1, turn := 0 }

end Sys2Proof.Machine
end

