-- ==== Sys2Proof/Machine/Ops.lean ====
section
/-!
DEFINITION. The named operations over the state: cores, groups, crews and threads; registers and latches; program counters; taking a trap, retiring, ending and parking a thread (R205 to R208, R217 to R236, R278, R286, R315 to R318, R332).
-/
namespace Sys2Proof.Machine

/-- The outcome of every meaning. -/
abbrev Out := Host.Outcome State Fault Refusal

/-! ### Numbers of units -/

/-- The core of a thread key. -/
def coreOf (tid : Nat) : Nat := tid / 1024
/-- The thread slot of a thread key. -/
def slotOf (tid : Nat) : Nat := tid % 1024
/-- The die of a core (R2). -/
def dieOf (core : Nat) : Nat := core / 128
/-- The cluster of a core (R2). -/
def clusterOf (core : Nat) : Nat := core / 8
/-- The key of a group slot of a core. -/
def gkey (core g : Nat) : Nat := core * 64 + g

/-! ### Reading and writing the tables -/

/-- A core; an unlisted one is as after reset. -/
def State.core (s : State) (c : Nat) : Core := s.cores.getD c {}
/-- Change a core. -/
def State.updCore (s : State) (c : Nat) (f : Core → Core) : State := { s with cores := s.cores.put c (f (s.core c)) }
/-- Change a live thread. -/
def State.updThread (s : State) (tid : Nat) (f : Thread → Thread) : State := { s with threads := s.threads.adjust tid f }
/-- Change a group. -/
def State.updGroup (s : State) (k : Nat) (f : Group → Group) : State := { s with groups := s.groups.adjust k f }
/-- Change a crew. -/
def State.updCrew (s : State) (c : Nat) (f : Crew → Crew) : State := { s with crews := s.crews.adjust c f }
/-- Change the memory system. -/
def State.updMem (s : State) (f : MemSys → MemSys) : State := { s with mem := f s.mem }
/-- Change firmware's records. -/
def State.updFw (s : State) (f : Fw → Fw) : State := { s with fw := f s.fw }
/-- Put an event in flight, behind those already there. -/
def State.post (s : State) (e : Instr) : State := { s with due := s.due ++ [e] }
/-- Put an event in flight unless it already is. -/
def State.postOnce (s : State) (e : Instr) : State := if s.due.contains e then s else s.post e
/-- Put an event in front of the first one that satisfies a test, or last. -/
def insertBefore (f : Instr → Bool) (e : Instr) : List Instr → List Instr
  | [] => [e]
  | x :: r => if f x then e :: x :: r else x :: insertBefore f e r
/-- Put an event that must be tried again back in flight, ahead of the later ones of its kind. -/
def State.repost (s : State) (f : Instr → Bool) (e : Instr) : State := { s with due := insertBefore f e s.due }
/-- The free values that a context has drawn (R17). -/
def State.freeOf (s : State) (ctx : Nat) : Nat := s.free.getD ctx 0
/-- Count free values of a context as drawn. -/
def State.useFree (s : State) (ctx n : Nat) : State := { s with free := s.free.put ctx (s.freeOf ctx + n) }
/-- Draw a fresh number. -/
def State.draw (s : State) : State × Nat := ({ s with fresh := s.fresh + 1 }, s.fresh)
/-- The thread keys of a group, ascending. -/
def State.members (s : State) (core g : Nat) : List Nat :=
  (s.threads.filter fun k t => coreOf k == core && t.group == g).keys
/-- The crew of a thread. -/
def State.crewOf (s : State) (t : Thread) : Option Crew := s.crews.get? t.crew
/-- The context a thread runs in. -/
def State.ctxOf (s : State) (t : Thread) : Nat := ((s.crewOf t).map (·.ctx)).getD 0
/-- A context's record. -/
def State.ctx? (s : State) (c : Nat) : Option Context := s.fw.ctxs.get? c
/-- The ASID a thread runs under; 0 is firmware's. -/
def State.asidOf (s : State) (t : Thread) : Nat := ((s.ctx? (s.ctxOf t)).map (·.asid)).getD 0

/-! ### Program counters (R194) -/

/-- The line address of a program counter. -/
def lineOf (pc : DWord) : Nat := pc.toNat / 64 * 64
/-- The slot of a program counter. -/
def slotNo (pc : DWord) : Nat := pc.toNat % 8
/-- The step after an instruction (R194). -/
def nextPc (pc : DWord) : DWord :=
  if slotNo pc < 4 then pc + 1 else BitVec.ofNat 64 (lineOf pc + 64)
/-- A well-formed program counter: canonical, bits [5:3] zero, slot 0 to 4 (R317). -/
def validPc (pc : DWord) : Bool := decide (pc.toNat < 2 ^ 57) && pc.toNat / 8 % 8 == 0 && decide (slotNo pc ≤ 4)
/-- The target of a branch immediate (R195). -/
def immTarget (pc : DWord) (imm : BitVec 32) : DWord :=
  BitVec.ofInt 64 ((lineOf pc : Int) + (toSigned 32 imm.toNat / 8) * 64 + (imm.toNat % 8 : Nat))

/-! ### Registers, predicates and latches (R201, R205 to R208, R217, R222) -/

/-- The contents of a vector register. -/
def Thread.reg (t : Thread) (n : Nat) : RegVal := t.regs.getD n (.known 0)
/-- Put contents into a vector register. -/
def Thread.setReg (t : Thread) (n : Nat) (v : RegVal) : Thread := { t with regs := t.regs.putD n (.known 0) v }
/-- Write a known 32-bit value. -/
def Thread.setWord (t : Thread) (n x : Nat) : Thread := t.setReg n (.known (BitVec.ofNat 32 x))
/-- Write a known 64-bit value to a pair (R222). -/
def Thread.setPair (t : Thread) (n x : Nat) : Thread := (t.setWord n x).setWord (n + 1) (x / 2 ^ 32)
/-- A predicate; p7 reads true. -/
def Thread.pred (t : Thread) (n : Nat) : Bool := if n = 7 then true else t.preds.getLsbD n
/-- Write a predicate. -/
def Thread.setPred (t : Thread) (n : Nat) (b : Bool) : Thread :=
  { t with preds := if b then t.preds ||| BitVec.ofNat 7 (2 ^ n) else t.preds &&& ~~~(BitVec.ofNat 7 (2 ^ n)) }
/-- A latch; none when invalid. -/
def Thread.latch (t : Thread) (n : Nat) : Option Word := (t.latches[n]?).getD none
/-- Shift the latches: b7 is lost and b0 receives the new entry (R205). -/
def Thread.shift (t : Thread) (x : Option Word) : Thread := { t with latches := (x :: t.latches).take 8 }
/-- Invalidate every latch (R206). -/
def Thread.clearLatches (t : Thread) : Thread := { t with latches := [] }
/-- Invalidate every latch of a group (R206). -/
def State.clearLatches (s : State) (core g : Nat) : State :=
  { s with threads := s.threads.map fun k t => if coreOf k == core && t.group == g then t.clearLatches else t }

/-- Whether a register is bound to a late value. -/
def RegVal.late? : RegVal → Option Late
  | .known _ => none
  | .int s _ _ _ _ => some s
  | .chain s _ _ => some s
  | .plain s _ _ => some s

/-- The symbol that a late value is a part of: the parts of one operation's result are one symbol (R250). -/
def Late.symbol : Late → Late
  | .sym id _ => .sym id 0
  | l => l

/-- The symbol that a register's form makes live (R250): a plain-pending register takes no symbol. -/
def RegVal.live? : RegVal → Option Late
  | .int s _ _ _ _ => some s.symbol
  | .chain s _ _ => some s.symbol
  | _ => none

/-! ### Guards and bundles (R199, R220) -/

/-- The thread whose registers an instruction reads: the one from before the pair in slot j + 1 (R197). -/
def Issue.view (iss : Issue) (tid : Nat) (t : Thread) : Thread := if iss.second then (iss.snap.get? tid).getD t else t

/-- Whether a thread's guard is true. -/
def guardHolds (o : Ops) (t : Thread) : Bool := t.pred o.guardPred.toNat != o.guardNeg

/-- The executing threads of the bundle: Ready, at the instruction, guard true (R220). -/
def State.executing (s : State) (iss : Issue) (o : Ops) : List (Nat × Thread) :=
  iss.slots.filterMap fun tid =>
    match s.threads.get? tid with
    | some t => if t.status = .ready ∧ t.pc = iss.pc ∧ guardHolds o (iss.view tid t) then some (tid, t) else none
    | none => none

/-! ### Barriers that wait for every live thread (R236, R286) -/

/-- A thread waits at SYNCG. -/
def Thread.atSyncg (t : Thread) : Bool := t.status == .waiting .syncg
/-- A thread waits at CBAR. -/
def Thread.atCbar (t : Thread) : Bool := t.status == .waiting .cbar
/-- A thread whose read of a WAITW is to come. -/
def Thread.unread (t : Thread) : Bool := t.status == .waiting .sending || t.status == .waiting .monitor
/-- Let a Waiting thread continue at the step after its instruction. -/
def Thread.go (t : Thread) : Thread := { t with status := .ready, pc := nextPc t.pc }

/-- Release a group's SYNCG waiters when every live thread of the group waits there (R236). -/
def State.checkSyncg (s : State) (core g : Nat) : State :=
  let ms := s.threads.filter fun k t => coreOf k == core && t.group == g
  if ms.size != 0 && ms.all (fun _ t => t.atSyncg) then
    { s with threads := s.threads.map fun k t => if coreOf k == core && t.group == g then t.go else t }
  else s

/-- Release the crew barrier when every live thread of the crew waits at CBAR (R286). -/
def State.checkCbar (s : State) (crew : Nat) : State :=
  let ms := s.threads.filter fun _ t => t.crew == crew
  if ms.size != 0 && ms.all (fun _ t => t.atCbar) then
    let s := { s with threads := s.threads.map fun _ t => if t.crew == crew then t.go else t }
    s.updCrew crew fun c => { c with bar := c.bar + 1 }
  else s

/-! ### Ending a thread (R219, R235, R318) -/

/-- Free a thread's symbols: its late values are discarded (R235, R250). -/
def State.dropSymbols (s : State) (tid : Nat) : State :=
  s.updCore (coreOf tid) fun c =>
    { c with symbols := ((c.symbols.map fun _ l => l.filter (· != tid)).filter fun _ l => !l.isEmpty) }

/-- A crew's thread ended: the crew is finished at its last thread, and its end is due (R235, R278). -/
def State.crewThreadGone (s : State) (crew : Nat) : State :=
  match s.crews.get? crew with
  | none => s
  | some c =>
    let live := c.live - 1
    let s := s.updCrew crew fun c => { c with live := live, phase := if live = 0 then .finished else c.phase }
    if live = 0 then (s.postOnce (.granuleRelease crew)).postOnce (.crewEnd crew) else s

/-- Whether a frame that is taken becomes FREE: it has joined, and the thread that spawned it, or the continuation that replaced it, has ended (R278). -/
def FrameRec.over (f : FrameRec) : Bool := f.joined && !f.launch && f.owner.isNone && f.cont.isNone

/-! ### Places of lines and the tables of monitors (R27, R71, R172, R176) -/

/-- The line of a global physical address. -/
def lineNo (ga : Nat) : Nat := ga / 128
/-- The home die of a device HBM line (R27). -/
def homeDie (line : Nat) : Nat := line / 2 ^ 33 % 4
/-- The home slice of a line (R71, R75). -/
def sliceOf (line : Nat) : Nat :=
  let pa := line * 128
  Nat.xor (Nat.xor (Nat.xor (Nat.xor (bitsAt pa 7 6) (bitsAt pa 13 6)) (bitsAt pa 19 6)) (bitsAt pa 25 6)) (bitsAt pa 31 6)

/-- A line of device HBM. -/
def isHbm (line : Nat) : Bool := decide (line < 2 ^ 45)
/-- A line of host memory. -/
def isHost (line : Nat) : Bool := line / 2 ^ 45 == 1
/-- A line of a peer device. -/
def isPeer (line : Nat) : Bool := decide (2 ≤ line / 2 ^ 45)
/-- The device id of a peer line. -/
def peerOf (line : Nat) : Nat := line / 2 ^ 45 - 2

/-- A wait table set within a slice: the slice and PA[15:13] (R172). -/
def waitSet (ga : Nat) : Nat := sliceOf (lineNo ga) * 8 + bitsAt ga 13 3

/-- The wait table set or bank an entry belongs to: a home slice's set, a set of die 0's host section, a set of the peer's home slice, or a bank (R172). -/
def Monitor.bucket (m : Monitor) : Nat :=
  match m.place with
  | .mem ga =>
    let line := lineNo ga
    if isHbm line then homeDie line * 512 + waitSet ga
    else if isHost line then 2 ^ 12 + waitSet ga
    else 2 ^ 22 + (peerOf line * 4 + homeDie line) * 512 + waitSet ga
  | .scratch core off => 2 ^ 20 + core * 64 + off / 4 % 64

/-- The table whose capacity an entry takes: a set of a slice, or a core's sixteen entries (R172). -/
def Monitor.table (m : Monitor) : Nat :=
  match m.place with
  | .mem _ => m.bucket
  | .scratch core _ => 2 ^ 21 + core

/-- The die whose spoil list takes an overflowing entry; a peer's lists are its own (R172). -/
def Monitor.die (m : Monitor) : Nat :=
  match m.place with
  | .mem ga =>
    let line := lineNo ga
    if isHbm line then homeDie line else if isHost line then 0 else 4 + peerOf line * 4 + homeDie line
  | .scratch core _ => dieOf core

/-- The capacity of a table (R172). -/
def Monitor.room (m : Monitor) : Nat := match m.place with | .mem _ => 8 | .scratch _ _ => 16

/-- The entries of a die's spoil list (R177). -/
def spoilRoom : Nat := 1048576

/-- The number of entries that satisfy a test; the threads that share one count once (R173). -/
def entriesOf (l : List Monitor) (f : Monitor → Bool) : Nat := ((l.filter f).map (·.entry)).eraseDups.length

/-- Whether the table of an entry has room. -/
def State.monRoom (s : State) (m : Monitor) : Bool := decide (entriesOf s.mem.mons (fun x => !x.spoil && x.table == m.table) < m.room)

/-- Whether the spoil list of an entry's die has room (R177). -/
def State.spoilFree (s : State) (m : Monitor) : Bool := decide (entriesOf s.mem.mons (fun x => x.spoil && x.die == m.die) < spoilRoom)

/-- The monitor of a WAITW or an AWAIT (R171, R279, R401). -/
def cellMonitor (c : CellOp) : Monitor :=
  match c.kind with
  | .waitw cmp => { place := c.place, wide := c.ty.is64, cmp := cmp, oper := c.a, take := c.taking, spoil := false, who := .waitw c.tid c.dst c.ea }
  | _ => { place := c.place, wide := false, cmp := 0, oper := 0, take := false, spoil := false, who := .await c.tid (c.late.getD 0) c.slot c.ty c.ea }

/-- Move the head entry of a bucket of the spoil list into the table (R176). -/
def refill (bucket : Nat) (l : List Monitor) : List Monitor :=
  match l.find? fun m => m.spoil && m.bucket == bucket with
  | some h => l.map fun m => if m.entry = h.entry then { m with spoil := false } else m
  | none => l

/-- Take one registration out of the list, wherever it is held: an entry may have moved from the spoil list since. -/
def dropMonitor (m : Monitor) : List Monitor → List Monitor
  | [] => []
  | x :: r => if { x with spoil := m.spoil } = m then r else x :: dropMonitor m r

/-- The oldest registration held on a full spoil list that has room now (R177, log 130). -/
def State.heldNext (s : State) : Option CellOp :=
  s.mem.held.find? fun c => s.monRoom (cellMonitor c) || s.spoilFree (cellMonitor c)

/-- End one registration. With its entry's last thread a table entry is freed, and the head of the matching spoil-list bucket moves into the table (R176); a held registration may then proceed (R177). -/
def State.unregister (s : State) (m : Monitor) : State :=
  let listed := s.mem.mons.any fun x => x.entry == m.entry && !x.spoil
  let l := dropMonitor m s.mem.mons
  let s := s.updMem fun x => { x with mons := if listed && !(l.any fun y => y.entry == m.entry) then refill m.bucket l else l }
  match s.heldNext with
  | none => s
  | some c => (s.updMem fun x => { x with held := x.held.erase c }).post (.spoilListHeldRegistration c)

/-- Let the threads of a WAITW's bundle go on once every one of them that still waits there has had its read performed (R173). -/
def State.checkMates (s : State) (l : List Nat) : State :=
  if l.any fun k => (s.threads.get? k).any fun t => t.mates == l && t.unread then s
  else { s with threads := s.threads.map fun k t => if l.contains k && t.mates == l && t.status == .waiting .read then t.go else t }

/-- The same for the bundle of a thread. -/
def State.checkMatesOf (s : State) (tid : Nat) : State := s.checkMates (((s.threads.get? tid).map (·.mates)).getD [])

/-- Take a thread out of the machine with its slot, its symbols, its place in the queue for blocks, its frames' owner and its monitors (R178, R235, R278). -/
def State.forgetThread (s : State) (tid : Nat) : State :=
  let s := { s with threads := s.threads.del tid }.dropSymbols tid
  let s := s.updCore (coreOf tid) fun c => { c with xqueue := c.xqueue.filter (· != tid) }
  let s := s.updFw fun w => { w with frames := w.frames.map fun _ f => if f.owner = some tid then { f with owner := none } else f }
  let s := (s.mem.mons.filter fun x => x.who.thread? == some tid).foldl (fun (s : State) m => s.unregister m) s
  { s with crews := s.crews.map fun _ c => { c with saveMons := c.saveMons.filter fun x => x.who.thread? != some tid } }

/-- What a thread that has left leaves behind: its group ends with its last thread, and what waits for it looks again (R173, R235, R236, R247, R286). -/
def State.afterThread (s : State) (core : Nat) (t : Thread) : State :=
  let s := if (s.members core t.group).isEmpty then { s with groups := s.groups.del (gkey core t.group) } else s
  let s := ((s.checkSyncg core t.group).checkCbar t.crew).checkMates t.mates
  if s.groups.has (gkey core t.group) then s else s.postOnce (.regxBlockGrant core)

/-- Remove a live thread from the machine (R235, R236, R286). -/
def State.removeThread (s : State) (tid : Nat) : State :=
  match s.threads.get? tid with
  | none => s
  | some t => (s.forgetThread tid).afterThread (coreOf tid) t

/-- End a thread by EXIT (R235). -/
def State.endThread (s : State) (tid : Nat) : State :=
  match s.threads.get? tid with
  | none => s
  | some t => (s.removeThread tid).crewThreadGone t.crew

/-- Record a fault code in a crew's TMASK, counting a retired thread (R317, R330). -/
def Crew.record (c : Crew) (code : Nat) : Crew :=
  { c with codes := Nat.lor c.codes (2 ^ code), retired := min 1024 (c.retired + 1) }

/-- The crew whose TMASK records a crew's faults: that of the offering thread for a continuation (R278). -/
def State.maskCrew (s : State) (crew : Nat) : Nat :=
  match s.crews.get? crew with
  | some c => if c.origin = 0 then crew else c.origin
  | none => crew

/-- End a thread by retirement, or switch it OFF, with a code recorded (R68, R317, R318). -/
def State.retire (s : State) (tid code : Nat) : State :=
  match s.threads.get? tid with
  | none => s
  | some t => (s.updCrew (s.maskCrew t.crew) (Crew.record · code)).endThread tid

/-! ### Taking an exception (R313 to R317) and returning from one (R332) -/

/-- TCAUSE after a trap: CODE, INH set, FWD (R329). -/
def causeWord (code : Nat) (fwd : Bool) : DWord := BitVec.ofNat 64 (code % 256 + 256 + (if fwd then 512 else 0))
/-- TCAUSE.INH (R329). -/
def Thread.inh (t : Thread) : Bool := t.trap.tcause.getLsbD 8
/-- TCAUSE.CODE (R329). -/
def Thread.code (t : Thread) : Nat := t.trap.tcause.toNat % 256

/-- The thread that has entered its handler (R317). -/
def Thread.trapped (t : Thread) (code : Nat) (tpc tval : DWord) (fwd : Bool) : Thread :=
  { t with
    status := .ready, pc := t.trap.tvec, latches := [], restore := none
    trap := { t.trap with tcause := causeWord code fwd, tpc := tpc, tval := tval, saved := some (t.restore.getD t.latches), tpcSet := false } }

/-- A thread whose fault retires it: a handler runs, no handler is set, or its address is not a valid PC (R317). -/
def Thread.retires (t : Thread) : Bool := t.inh || t.trap.tvec == 0 || !validPc t.trap.tvec

/-- take_trap (R317): a user trap ends discardability (R319). -/
def State.takeTrap (s : State) (tid code : Nat) (tpc tval : DWord) (fwd : Bool) : State :=
  match s.threads.get? tid with
  | none => s
  | some t =>
    let s := s.updCrew t.crew fun c => { c with discard := false, coords := [] }
    if t.retires then s.retire tid code
    else s.updThread tid fun t => { t.trapped code tpc tval fwd with replay := false }

/-- A fault of an instruction: the code and the TVAL. -/
structure Flt where
  code : Nat
  tval : Nat
  deriving DecidableEq, Repr

/-- ILLEGAL_INSTRUCTION (R213). -/
def Flt.illegal (y : Why) : Flt := ⟨0x01, y.code⟩
/-- ILLEGAL_TARGET (R195). -/
def Flt.target (pc : DWord) : Flt := ⟨0x02, pc.toNat⟩
/-- LINE_PARITY (R193). -/
def Flt.parity (line : Nat) : Flt := ⟨0x03, line⟩
/-- LATCH_INVALID (R207). -/
def Flt.latch (n : Nat) : Flt := ⟨0x04, n⟩
/-- REG_EXT_ABSENT (R223). -/
def Flt.regExt (spec : Nat) : Flt := ⟨0x05, spec⟩
/-- REG_EXT_ABSENT of a REGX.GET in a crew declared with x = 0 (R223). -/
def Flt.xzero : Flt := ⟨0x05, 512⟩
/-- A translation fault's TVAL (R45). -/
def transTval (va level reason : Nat) : Nat := va % 2 ^ 57 + level * 2 ^ 57 + reason * 2 ^ 60
/-- ACCESS (R46). -/
def Flt.access (va level reason : Nat) : Flt := ⟨0x08, transTval va level reason⟩
/-- PAGE_FAULT (R46). -/
def Flt.page (va level reason : Nat) : Flt := ⟨0x07, transTval va level reason⟩
/-- MISALIGNED (R313). -/
def Flt.misaligned (a : Nat) : Flt := ⟨0x0A, a⟩
/-- ATOM_UNSUPPORTED (R394). -/
def Flt.atom (ea : Nat) : Flt := ⟨0x0B, ea⟩
/-- CELL_MODE (R393). -/
def Flt.cellMode (ea : Nat) : Flt := ⟨0x13, ea⟩
/-- RETURN_STACK (R234). -/
def Flt.stack (full : Bool) : Flt := ⟨0x12, if full then 1 else 0⟩

/-! ### The Rololnov complex (R306, R307) -/

/-- The tag that launches take: CUR of die 0; the four dies carry the same (R181). -/
def State.curTag (s : State) : Nat := s.fw.cur.getD 0 0

/-- The lowest firmware core that runs no event. -/
def State.idleFw (s : State) : Option Nat := (List.range 12).find? fun k => !s.fw.running.has k

/-- An idle firmware core, if any, looks for an event. -/
def State.pokeFw (s : State) : State := match s.idleFw with | some k => s.postOnce (.firmwareEventRun k) | none => s

/-- Queue a firmware event (R306). -/
def State.fwEvent (s : State) (f : Nat → FwEvent) : State :=
  let (s, n) := s.draw
  (s.updFw fun w => { w with events := w.events ++ [f n] }).pokeFw

/-- The running event that performs an action. -/
def State.fwRunning (s : State) (i : Instr) : Option (Nat × FwEvent) := s.fw.running.find? fun _ e => e.act == some i

/-- The run of an event is complete. -/
def State.fwDone (s : State) (i : Instr) : State :=
  match s.fwRunning i with
  | some (k, _) => (s.updFw fun w => { w with running := w.running.del k }).pokeFw
  | none => s

/-- An event ends its run to wait for hardware, and continues when the hardware reports completion (R307). -/
def State.fwWait (s : State) (i : Instr) (step : Nat) : State :=
  match s.fwRunning i with
  | some (k, e) =>
    ((s.updFw fun w => { w with
      running := w.running.del k
      waiting := w.waiting.put e.num { e with step := step, expiries := 0 } }).post (.firmwareEventContinuation e.num)).pokeFw
  | none => s

/-- Perform an action of firmware as the event it is: it is queued, unless it is the event that runs. -/
def State.viaFw (s : State) (i : Instr) (queue asid : Option Nat) (body : State → FwEvent → State) : State :=
  match s.fwRunning i with
  | some (_, e) => body s e
  | none =>
    if s.fw.events.any (fun e => e.act == some i) || s.fw.waiting.any (fun _ e => e.act == some i) then s
    else s.fwEvent fun n => { num := n, queue := queue, asid := asid, act := some i }

/-- Park a thread on a firmware-first fault, in a sub-group: its PC and registers stand, and firmware receives an event (R48, R208, R315). -/
def State.park (s : State) (tid : Nat) (f : Flt) (sub : Nat := 0) : State :=
  let sub := if sub = 0 then s.fresh else sub
  let s := s.updThread tid fun t =>
    { t with status := .parked ⟨f.code, f.tval, f.tval % 2 ^ 57 / 65536, false, false, sub⟩, late := none, restore := some t.latches }
  s.fwEvent fun n => { num := n, tid := some tid }

/-- Raise a fault on a thread at an instruction: firmware-first faults park it, user faults trap (R313, R315). -/
def State.raise (s : State) (tid : Nat) (pc : DWord) (f : Flt) (sub : Nat := 0) : State :=
  if f.code = 0x07 ∨ f.code = 0x0D then s.park tid f sub
  else s.takeTrap tid f.code pc (BitVec.ofNat 64 f.tval) false

/-- Raise faults on several threads of a bundle, in order: those that park form one sub-group (R48). -/
def State.raiseAll (s : State) (pc : DWord) (l : List (Nat × Flt)) : State :=
  let sub := s.fresh
  l.foldl (fun s p => s.raise p.1 pc p.2 sub) s

/-! ### After an instruction (R194, R206, R225) -/

/-- Move the threads that stand at an instruction, Ready, to the step after it (R194). -/
def State.advance (s : State) (iss : Issue) : State :=
  { s with threads := s.threads.map fun k t =>
      if iss.slots.contains k ∧ t.status = .ready ∧ t.pc = iss.pc then { t with pc := nextPc iss.pc } else t }

/-- The second slot of a pair, for the threads that slot j left Ready at it (R197). -/
def State.secondOf (s : State) (iss : Issue) : Option Issue :=
  if iss.pair then
    let pc := nextPc iss.pc
    let l := iss.slots.filter fun k =>
      match s.threads.get? k with | some t => t.status = .ready ∧ t.pc = pc | none => false
    if l.isEmpty then none else some { iss with pc := pc, slots := l, second := true, pair := false }
  else none

/-- End an issue: the next slot of a pair, the entry that continues, a selection point, and the latches on leaving the line (R206, R225). -/
def State.finish (s : State) (iss : Issue) (select : Bool) : State :=
  let nx := nextPc iss.pc
  let leaves := lineOf nx != lineOf iss.pc
  let select := select || iss.sel
  let s := { s with cur := s.secondOf { iss with sel := select } }
  let s := if leaves then s.clearLatches iss.core iss.group else s
  let s := s.updGroup (gkey iss.core iss.group) fun g =>
    { g with cont := if select || leaves then none else some nx, last := some nx, half := none, issued := some (s.core iss.core).clk }
  s.updCore iss.core fun c => { c with tried := [] }

/-- Take back slot j of a pair, whose slot j + 1 must wait: the bundle's threads, and the latches of their group, are as before the pair (R197). A thread that slot j has made fault stays as it is. -/
def State.undoPair (s : State) (iss : Issue) : State :=
  { s with threads := s.threads.map fun k t =>
      match iss.snap.get? k with
      | some u =>
        if iss.slots.contains k then u
        else if t.pc = u.pc ∧ t.status = u.status ∧ t.group = u.group then { t with latches := u.latches } else t
      | none => t }

/-- Leave an instruction unissued: nothing has happened, and it is tried again (R197, R219). A wait of slot j + 1 takes slot j back; where slot j cannot be taken back, slot j + 1 alone is tried again (log 138). -/
def State.stall (s : State) (iss : Issue) : State :=
  let s := { s with cur := none }
  let s := if iss.second && iss.undo then
      (s.undoPair iss).updGroup (gkey iss.core iss.group) fun g => { g with cont := some (iss.pc - 1), last := some (iss.pc - 1), half := none }
    else s.updGroup (gkey iss.core iss.group) fun g =>
      { g with cont := some iss.pc, half := if iss.second then some iss else g.half }
  s.updCore iss.core fun c => { c with tried := c.tried ++ [iss.group] }

end Sys2Proof.Machine
end

