-- ==== Sys2Proof/Machine/Operands.lean ====
section
/-!
DEFINITION. Operand forms: reading a source in every kind, the faults an operand raises before an instruction's own, pending forms and their transforms, and writing a destination (R201 to R208, R222, R223, R249 to R259, R268).
-/
namespace Sys2Proof.Machine

/-! ### Specials (R202, R220, R273) -/

/-- The base of a thread's thread-local block (R24). -/
def tlsOf (tid : Nat) : Nat := 0x0100_0000_0000_0000 + coreOf tid * 0x0200_0000 + slotOf tid * 0x4000

/-- gix: the group's own, or tix / 32 for a thread of a gathering crew (R273). -/
def State.gixOf (s : State) (tid : Nat) (t : Thread) : Nat :=
  match s.crewOf t with
  | some c => if c.crec.k = 0 ∧ c.cont.isNone then t.tix / 32 else ((s.groups.get? (gkey (coreOf tid) t.group)).map (·.gix)).getD 0
  | none => 0

/-- The value of a special (R202). -/
def State.special (s : State) (tid : Nat) (t : Thread) : Special → Nat
  | .tix => t.tix
  | .lane => t.lane
  | .gix => s.gixOf tid t
  | .cix => ((s.crewOf t).map (·.cix)).getD 0
  | .cn => ((s.crewOf t).map (·.cn)).getD 0
  | .core => coreOf tid
  | .die => dieOf (coreOf tid)
  | .dev => s.dev.id
  | .arg => tlsOf tid + 0x440
  | .tls => tlsOf tid
  | .spw => 0x01FF_FE00_0000_0000 + coreOf tid * 0x10_0000
  | .frm => ((s.crewOf t).map (·.frm.toNat)).getD 0

/-! ### Reading an operand -/

/-- What a source reads as: a value, a form that may be transformed, or a value that must be waited for. -/
inductive Opnd where
  | known (x : Nat)
  | int (s : Late) (n a b : Nat)
  | chain (s : Late) (ty : Ty) (links : List Link)
  | stuck
  deriving DecidableEq, Repr

/-- Whether an operand is known. -/
def Opnd.isKnown : Opnd → Bool
  | .known _ => true
  | _ => false

/-- The value of a known operand. -/
def Opnd.val : Opnd → Nat
  | .known x => x
  | _ => 0

/-- A 32-bit read of a register; one register of a 64-bit form is not transformable (R255). -/
def RegVal.read32 : RegVal → Opnd
  | .known w => .known w.toNat
  | .int s n _ a b => if n = 32 then .int s 32 a b else .stuck
  | .chain s ty l => .chain s ty l
  | .plain _ _ _ => .stuck

/-- A 64-bit read of a pair: two known halves, or one 64-bit form (R255). -/
def read64 (lo hi : RegVal) : Opnd :=
  match lo, hi with
  | .known x, .known y => .known (x.toNat + 2 ^ 32 * y.toNat)
  | .int s 64 0 a b, .int s' 64 1 a' b' => if s = s' ∧ a = a' ∧ b = b' then .int s 64 a b else .stuck
  | _, _ => .stuck

/-- A 32-bit read of a crew-uniform register: unwritten, it is a symbol of the crew (R259). -/
def Crew.readK (c : Crew) (crew n : Nat) : Opnd :=
  match c.kregs.get? n with
  | some w => .known w.toNat
  | none => .int (.kreg crew n) 32 1 0

/-- A 64-bit read of a pair of crew-uniform registers (R259). -/
def Crew.readK64 (c : Crew) (crew n : Nat) : Opnd :=
  match c.kregs.get? n, c.kregs.get? (n + 1) with
  | some x, some y => .known (x.toNat + 2 ^ 32 * y.toNat)
  | none, none => .int (.kpair crew n) 64 1 0
  | _, _ => .stuck

/-- The crew whose registers an instruction reads: as they stood before the pair in slot j + 1 (R197). -/
def State.viewCrew (s : State) (iss : Issue) (t : Thread) : Option Crew :=
  (s.crewOf t).map fun c => if iss.second then { c with kregs := iss.ksnap.getD t.crew c.kregs } else c

/-- Read a source operand of a thread; `wide` is its width, `ty` extends IMM32 (R204). A latch is read only when valid. -/
def State.readSrc (s : State) (crew : Option Crew) (tid : Nat) (t : Thread) (wide : Bool) (ty : Ty) (imm : BitVec 32) : Src → Opnd
  | .none => .known 0
  | .v n => if wide then read64 (t.reg n.toNat) (t.reg (n.toNat + 1)) else (t.reg n.toNat).read32
  | .k n =>
    match crew with
    | some c => if wide then c.readK64 t.crew n.toNat else c.readK t.crew n.toNat
    | none => .known 0
  | .p n => .known (predBits (t.pred n.toNat))
  | .sp x => .known (if wide then s.special tid t x else lowBits 32 (s.special tid t x))
  | .imm => .known (if wide then imm64 ty imm else imm.toNat)
  | .latch n => .known (((t.latch n.toNat).map (·.toNat)).getD 0)

/-- The three operands of an instruction for a thread, read as they stood before a pair (R197). -/
def State.operands (s : State) (iss : Issue) (c : Opc) (o : Ops) (tid : Nat) (t : Thread) : Opnd × Opnd × Opnd :=
  let f := c.fmtOf o
  let v := iss.view tid t
  let k := s.viewCrew iss t
  (s.readSrc k tid v f.sa.wide o.ty o.imm o.sa, s.readSrc k tid v f.sb.wide o.ty o.imm o.sb,
    s.readSrc k tid v f.sc.wide o.ty o.imm o.sc)

/-! ### Faults of operands (R203, R207, R223, R268) -/

/-- Whether a thread's group holds an extended block. -/
def State.hasBlock (s : State) (tid : Nat) (t : Thread) : Bool :=
  ((s.groups.get? (gkey (coreOf tid) t.group)).map (·.block)).getD false

/-- The number of crew-uniform registers of a thread's crew. -/
def State.kCount (s : State) (t : Thread) : Nat := ((s.crewOf t).map (·.crec.k)).getD 0

/-- A vector register that the thread's group does not hold: its specifier (R223). -/
def State.vAbsent (s : State) (tid : Nat) (t : Thread) (n : Nat) : Option Nat :=
  if 32 ≤ n ∧ !s.hasBlock tid t then some n else none

/-- A crew-uniform register that the crew does not declare: its specifier (R268). -/
def State.kAbsent (s : State) (t : Thread) (n : Nat) (wide : Bool) : Option Nat :=
  if s.kCount t ≤ n then some (0x80 + n) else if wide ∧ s.kCount t ≤ n + 1 then some (0x80 + n) else none

/-- A source operand that is absent. -/
def State.srcAbsent (s : State) (tid : Nat) (t : Thread) (wide : Bool) : Src → Option Nat
  | .v n => s.vAbsent tid t n.toNat
  | .k n => s.kAbsent t n.toNat wide
  | _ => none

/-- A destination operand that is absent. -/
def State.dstAbsent (s : State) (tid : Nat) (t : Thread) (wide : Bool) : Dst → Option Nat
  | .v n => s.vAbsent tid t n.toNat
  | .k n => s.kAbsent t n.toNat wide
  | _ => none

/-- The first descriptor register kd to k(d+7) that the crew does not declare (R416). -/
def State.descAbsent (s : State) (t : Thread) : Src → Option Nat
  | .k d => (List.range 8).findSome? fun j => s.kAbsent t (d.toNat + j) false
  | _ => none

/-- REG_EXT_ABSENT: the first absent operand in the order DST, SA, SB, SC (R223). -/
def State.extFault (s : State) (c : Opc) (o : Ops) (tid : Nat) (t : Thread) : Option Flt :=
  let f := c.fmtOf o
  let sa := if f.sa.k8 then s.descAbsent t o.sa else s.srcAbsent tid t f.sa.wide o.sa
  ((((s.dstAbsent tid t (f.dst == .k64) o.dst).or sa).or (s.srcAbsent tid t f.sb.wide o.sb)).or
    (s.srcAbsent tid t f.sc.wide o.sc)).map Flt.regExt

/-- A latch source that is invalid. -/
def Thread.latchBad (t : Thread) : Src → Option Nat
  | .latch n => if (t.latch n.toNat).isNone then some n.toNat else none
  | _ => none

/-- LATCH_INVALID: the first invalid latch read (R207). -/
def latchFault (o : Ops) (v : Thread) : Option Flt :=
  (((v.latchBad o.sa).or (v.latchBad o.sb)).or (v.latchBad o.sc)).map Flt.latch

/-- A late uncorrectable value is taken at the thread's next issue (R261). -/
def Thread.lateFault (t : Thread) : Option Flt := t.late.map fun va => ⟨0x0D, va⟩

/-- The faults that precede an instruction's own (R214): a late uncorrectable value, REG_EXT_ABSENT, LATCH_INVALID. -/
def State.preFault (s : State) (iss : Issue) (c : Opc) (o : Ops) (tid : Nat) (t : Thread) : Option Flt :=
  (t.lateFault.or (s.extFault c o tid t)).or (latchFault o (iss.view tid t))

/-! ### Pending forms and their transforms (R250 to R256) -/

/-- The symbols live in a group (R250, R259). -/
def State.liveSyms (s : State) (core g : Nat) : List Late :=
  ((s.threads.cells.filter fun p => coreOf p.1 == core && p.2.group == g).flatMap fun p =>
    p.2.regs.vals.filterMap RegVal.live?).eraseDups

/-- A result that stays pending. -/
inductive Form where
  | int (s : Late) (n a b : Nat)
  | chain (s : Late) (ty : Ty) (links : List Link)
  deriving DecidableEq, Repr

/-- The late value of a form. -/
def Form.late : Form → Late
  | .int s _ _ _ => s
  | .chain s _ _ => s

/-- Whether a TYPE transforms at a width: whole 32- and 64-bit integers (R252). -/
def xformWidth (o : Ops) (n : Nat) : Bool := !o.x2 && (o.ty.isInt || o.ty == .q64) && o.ty.bits == n

/-- The integer transforms of R252. -/
def intForm (c : Opc) (o : Ops) (a b d : Opnd) : Option Form :=
  let md (n x : Nat) : Nat := x % 2 ^ n
  let ok (n : Nat) : Bool := xformWidth o n
  match c, a, b, d with
  | .iadd, .int s n p q, .known k, _ => if ok n then some (.int s n p (md n (q + k))) else none
  | .iadd, .known k, .int s n p q, _ => if ok n then some (.int s n p (md n (q + k))) else none
  | .iadd, .int s n p q, .int s' n' p' q', _ =>
    if s = s' ∧ n = n' ∧ ok n then some (.int s n (md n (p + p')) (md n (q + q'))) else none
  | .isub, .int s n p q, .known k, _ => if ok n then some (.int s n p (md n (q + 2 ^ n - md n k))) else none
  | .isub, .known k, .int s n p q, _ => if ok n then some (.int s n (md n (2 ^ n - p)) (md n (k + 2 ^ n - q))) else none
  | .imul, .int s n p q, .known k, _ => if ok n then some (.int s n (md n (p * k)) (md n (q * k))) else none
  | .imul, .known k, .int s n p q, _ => if ok n then some (.int s n (md n (p * k)) (md n (q * k))) else none
  | .shl, .int s n p q, .known k, _ =>
    if ok n ∧ o.sb = .imm ∧ k < n then some (.int s n (md n (p * 2 ^ k)) (md n (q * 2 ^ k))) else none
  | .imad, .int s n p q, .known k, .known m => if ok n then some (.int s n (md n (p * k)) (md n (q * k + m))) else none
  | .imad, .known k, .int s n p q, .known m => if ok n then some (.int s n (md n (p * k)) (md n (q * k + m))) else none
  | .imad, .known k, .known m, .int s n p q => if ok n then some (.int s n p (md n (q + k * m))) else none
  | .lea, .known k, .int s n p q, _ =>
    if ok n ∧ !o.aux.getLsbD 5 then
      let w := 2 ^ (o.aux.toNat % 32)
      some (.int s n (md n (p * w)) (md n (q * w + k)))
    else none
  | .lea, .int s n p q, .known k, _ =>
    if ok n then some (.int s n p (md n (q + leaIndex o k * 2 ^ (o.aux.toNat % 32)))) else none
  | .ineg, .int s n p q, _, _ => if ok n then some (.int s n (md n (2 ^ n - p)) (md n (2 ^ n - q))) else none
  | _, _, _, _ => none

/-- The instructions that append a link to a chain (R254). -/
def isChainOp : Opc → Bool
  | .fadd | .fsub | .fmul | .ffma => true
  | _ => false

/-- An operand as the start of a chain of a type: the identity form of width 32, or a chain of that type (R254). -/
def Opnd.asChain (t : Ty) : Opnd → Option (Late × List Link)
  | .int s 32 1 0 => some (s, [])
  | .chain s ty l => if ty = t then some (s, l) else none
  | _ => none

/-- A known operand of a link; none for the pending one. -/
def Opnd.known? : Opnd → Option Nat
  | .known x => some x
  | _ => none

/-- The floating-point transforms of R254: exactly one pending operand, fewer than four links. -/
def chainForm (c : Opc) (o : Ops) (a b d : Opnd) : Option Form :=
  if isChainOp c ∧ !o.x2 then
    let pend := [a, b, d].filter fun x => !x.isKnown
    match pend with
    | [p] =>
      match p.asChain o.ty with
      | some (s, l) =>
        if l.length < 4 then some (.chain s o.ty (l ++ [⟨c, o, a.known?, b.known?, d.known?⟩])) else none
      | none => none
    | _ => none
  else none

/-- What an instruction gives a thread: a value, a form, or a wait. -/
inductive LaneOut where
  | value (x : Nat)
  | form (f : Form)
  | wait
  deriving DecidableEq, Repr

/-- A form may be taken unless it would make a crew-uniform symbol the seventeenth live one (R256). -/
def State.formRoom (s : State) (core g : Nat) (f : Form) : Bool :=
  match f.late with
  | .sym _ _ => true
  | l => (s.liveSyms core g).contains l || decide ((s.liveSyms core g).length < 16)

/-- A write to one register of a pair that holds a 64-bit form waits (R255); `wide` says that the destination is written in whole pairs. -/
def Thread.halfBusy (t : Thread) (wide : Bool) : Dst → Bool
  | .v n =>
    !wide && (match t.reg n.toNat with
      | .int _ m _ _ _ => m == 64
      | _ => false)
  | _ => false

/-- Compute an arithmetic instruction for one thread: its value, its transformed form, or a wait (R252 to R255, R351). -/
def State.lane (s : State) (iss : Issue) (c : Opc) (o : Ops) (f : Nat → Nat → Nat → Nat) (tid : Nat) (t : Thread) : LaneOut :=
  let (a, b, d) := s.operands iss c o tid t
  if t.halfBusy (c.pairDst o) o.dst then .wait
  else
    match a, b, d with
    | .known x, .known y, .known z => .value (f x y z)
    | _, _, _ =>
      match (intForm c o a b d).or (chainForm c o a b d) with
      | some g => if s.formRoom iss.core iss.group g then .form g else .wait
      | none => .wait

/-! ### Writing a destination (R222) -/

/-- Write a known result. -/
def Thread.putDst (t : Thread) (wide : Bool) (d : Dst) (x : Nat) : Thread :=
  match d with
  | .v n => if wide then t.setPair n.toNat x else t.setWord n.toNat x
  | .p n => t.setPred n.toNat (asPred x)
  | .k _ => t
  | .none => t

/-- Write a form. -/
def Thread.putForm (t : Thread) (d : Dst) (f : Form) : Thread :=
  match d, f with
  | .v n, .int s 64 a b => (t.setReg n.toNat (.int s 64 0 a b)).setReg (n.toNat + 1) (.int s 64 1 a b)
  | .v n, .int s m a b => t.setReg n.toNat (.int s m 0 a b)
  | .v n, .chain s ty l => t.setReg n.toNat (.chain s ty l)
  | _, _ => t

/-- The latch entry of a result (R205). -/
def latchEntry : LaneOut → Option Word
  | .value x => some (BitVec.ofNat 32 x)
  | _ => none

/-- Write a lane's outcome and shift its latches (R205, R222). -/
def Thread.putLane (t : Thread) (wide : Bool) (d : Dst) (r : LaneOut) : Thread :=
  let t' := match r with
    | .value x => t.putDst wide d x
    | .form f => t.putForm d f
    | .wait => t
  t'.shift (latchEntry r)

/-- A group's thread after a latch producer: its own outcome, or an invalid latch entry (R205, R221). -/
def Thread.putOut (t : Thread) (wide : Bool) (d : Dst) (r : Option LaneOut) : Thread :=
  match r with
  | some r => t.putLane wide d r
  | none => t.shift none

/-- Change every thread of a group. -/
def State.mapGroup (s : State) (core g : Nat) (f : Nat → Thread → Thread) : State :=
  { s with threads := s.threads.map fun k t => if coreOf k == core && t.group == g then f k t else t }

/-! ### Pending destinations (R249 to R256) -/

/-- Bind a destination to a new late value: identity forms, one for each 32-bit register or 64-bit pair; plain-pending, and owed, when no symbol is free (R251, R256). -/
def Thread.bind (t : Thread) (symbol : Bool) (wide quad : Bool) (d : Dst) (id : Nat) : Thread :=
  let t := if symbol then t else { t with owed := id :: t.owed }
  match d with
  | .v n =>
    let n := n.toNat
    let one (t : Thread) (r part : Nat) : Thread :=
      t.setReg r (if symbol then .int (.sym id part) 32 0 1 0 else .plain (.sym id part) 32 0)
    let two (t : Thread) (r part : Nat) : Thread :=
      (t.setReg r (if symbol then .int (.sym id part) 64 0 1 0 else .plain (.sym id part) 64 0)).setReg (r + 1)
        (if symbol then .int (.sym id part) 64 1 1 0 else .plain (.sym id part) 64 1)
    if quad then
      (if wide then two (two t n 0) (n + 2) 1 else one (one (one (one t n 0) (n + 1) 1) (n + 2) 2) (n + 3) 3)
    else if wide then two t n 0
    else one t n 0
  | _ => t

/-- Take a symbol entry for a bundle's producer, unless the core or the group has none left (R250, R256). -/
def State.takeSymbol (s : State) (core g id : Nat) (tids : List Nat) : State × Bool :=
  if (s.core core).symbols.size < 256 ∧ (s.liveSyms core g).length < 16 then
    (s.updCore core fun c => { c with symbols := c.symbols.put id tids }, true)
  else (s, false)

/-- Replay one link on the value before it (R254). -/
def Link.replay (l : Link) (x : Nat) : Nat :=
  let a := l.a.getD x
  let b := l.b.getD x
  let c := l.c.getD x
  match l.opc with
  | .fadd => aluFadd l.o a b
  | .fsub => aluFsub l.o a b
  | .fmul => aluFmul l.o a b
  | _ => aluFfma l.o a b c

/-- The part of an arrived value that a register is bound to. -/
def partOf (value part n : Nat) : Nat := bitsAt value (n * part) n

/-- A register once its late value has arrived (R257); `x` is the value of its part. -/
def RegVal.resolve (r : RegVal) (x : Nat) : RegVal :=
  match r with
  | .known w => .known w
  | .int _ n half a b => .known (BitVec.ofNat 32 ((a * x + b) % 2 ^ n / 2 ^ (32 * half)))
  | .chain _ _ links => .known (BitVec.ofNat 32 (links.foldl (fun v l => l.replay v) x))
  | .plain _ _ half => .known (BitVec.ofNat 32 (x / 2 ^ (32 * half)))

/-- The width of the part a register is bound to. -/
def RegVal.width : RegVal → Nat
  | .int _ n _ _ _ => n
  | .plain _ n _ => n
  | _ => 32

/-- A register's contents once a late value has arrived. -/
def RegVal.arrive (r : RegVal) (id value : Nat) : RegVal :=
  match r.late? with
  | some (.sym k part) => if k = id then r.resolve (partOf value part r.width) else r
  | _ => r

/-- Whether a register names a late value. -/
def RegVal.boundTo (r : RegVal) (id : Nat) : Bool := match r.late? with | some (.sym k _) => k == id | _ => false

/-- A late value arrives for a thread: every register bound to it becomes known (R257); those of a Square operation's result wait for its join (R470). -/
def Thread.arrive (t : Thread) (id value : Nat) : Thread :=
  { t with
    owed := t.owed.erase id
    squares := t.squares.filter fun p => p.1 != id
    sqJoin := if t.squares.any fun p => p.1 == id then t.sqJoin ++ (t.regs.filter fun _ r => r.boundTo id).keys.map fun n => (n, id) else t.sqJoin
    was := t.was.map fun _ r => r.arrive id value
    regs := t.regs.map fun _ r => r.arrive id value }

/-- Whether a register of the thread is bound to a late value. -/
def Thread.awaits (t : Thread) (id : Nat) : Bool :=
  t.regs.any fun _ r => match r.late? with | some (.sym k _) => k == id | _ => false

/-! ### The common part of every other instruction -/

/-- The descriptor registers kd to k(d+7) of a thread's crew (R416). -/
def State.descOf (s : State) (t : Thread) (o : Ops) : List (Option Word) :=
  match o.sa, s.crewOf t with
  | .k d, some c => (List.range 8).map fun j => c.kregs.get? (d.toNat + j)
  | _, _ => []

/-- Whether a descriptor has a register that is not yet written (R417). -/
def State.descPending (s : State) (c : Opc) (o : Ops) (t : Thread) : Bool := (c.fmtOf o).sa.k8 && (s.descOf t o).any Option.isNone

/-- How an instruction starts: no issue is in hand, a pending operand makes the bundle wait, or it goes (R197, R214, R255). -/
inductive Prep where
  | idle
  | wait (iss : Issue)
  | go (iss : Issue) (ex : List (Nat × Thread)) (flt : List (Nat × Flt))
  deriving DecidableEq, Repr

/-- The executing threads with the faults that precede the instruction's own, and whether a source is pending. -/
def State.prep (s : State) (c : Opc) (o : Ops) : Prep :=
  match s.cur with
  | none => .idle
  | some iss =>
    let ex := s.executing iss o
    let flt := ex.filterMap fun p => (s.preFault iss c o p.1 p.2).map fun f => (p.1, f)
    let go := ex.filter fun p => (s.preFault iss c o p.1 p.2).isNone
    let waits := go.any fun p =>
      let (a, b, d) := s.operands iss c o p.1 p.2
      !a.isKnown || !b.isKnown || !d.isKnown || p.2.halfBusy (c.pairDst o) o.dst || s.descPending c o p.2
    if waits then .wait iss else .go iss go flt

/-- The known operands of a thread. -/
def State.vals (s : State) (iss : Issue) (c : Opc) (o : Ops) (tid : Nat) (t : Thread) : Nat × Nat × Nat :=
  let (a, b, d) := s.operands iss c o tid t
  (a.val, b.val, d.val)

/-- Move the bundle's threads, apart from those that faulted or stay, to the next step (R194). -/
def State.moveOn (s : State) (iss : Issue) (stay : List Nat) : State :=
  s.advance { iss with slots := iss.slots.filter fun k => !stay.contains k }

/-- Complete an instruction: threads that stay at it are named, faults are raised with the latches as they stood before it (R208), and the issue ends. A blocking-class instruction invalidates the group's latches (R206). -/
def State.complete (s : State) (iss : Issue) (c : Opc) (stay : List Nat) (flt : List (Nat × Flt)) : State :=
  let s := s.moveOn iss (stay ++ flt.map Prod.fst)
  let s := s.raiseAll iss.pc flt
  let s := if c.blocking then s.clearLatches iss.core iss.group else s
  s.finish iss c.blocking

/-- Complete a latch producer: faults are raised first, so that they record the latches as they stood before it (R208), then results are written and every latch of the group shifts (R205, R221). -/
def State.completeOut (s : State) (iss : Issue) (c : Opc) (o : Ops) (outs : List (Nat × LaneOut)) (flt : List (Nat × Flt)) : State :=
  let wide := (c.fmtOf o).dst == .v64
  ((s.raiseAll iss.pc flt).mapGroup iss.core iss.group fun k t => t.putOut wide o.dst (outs.lookup k)).complete iss c (flt.map Prod.fst) []

/-- Run an arithmetic instruction: the executing threads compute, every latch of the group shifts, operand faults are raised (R205, R221, R350). -/
def State.runAlu (s : State) (c : Opc) (o : Ops) (f : Nat → Nat → Nat → Nat) : State :=
  match s.cur with
  | none => s
  | some iss =>
    let ex := s.executing iss o
    let flt := ex.filterMap fun p => (s.preFault iss c o p.1 p.2).map fun f => (p.1, f)
    let outs := (ex.filter fun p => (s.preFault iss c o p.1 p.2).isNone).map fun p => (p.1, s.lane iss c o f p.1 p.2)
    if outs.any (fun p => p.2 == .wait) then s.stall iss else s.completeOut iss c o outs flt

end Sys2Proof.Machine
end

