-- ==== Sys2Proof/Machine/Arith.lean ====
section
/-!
DEFINITION. The arithmetic instructions of MAJ 0x10 to 0x4F: each computes in registers and nothing else (R347 to R378).
-/
namespace Sys2Proof.Machine

/-- IADD (R354). -/
def execIadd (o : Ops) (s : State) : Out := .next (s.runAlu .iadd o fun a b _ => aluIadd o a b)

/-- ISUB (R354). -/
def execIsub (o : Ops) (s : State) : Out := .next (s.runAlu .isub o fun a b _ => aluIsub o a b)

/-- IMUL (R354). -/
def execImul (o : Ops) (s : State) : Out := .next (s.runAlu .imul o fun a b _ => aluImul o a b)

/-- IMULH (R354). -/
def execImulh (o : Ops) (s : State) : Out := .next (s.runAlu .imulh o fun a b _ => aluImulh o a b)

/-- IMAD (R354). -/
def execImad (o : Ops) (s : State) : Out := .next (s.runAlu .imad o fun a b d => aluImad o a b d)

/-- IDIV (R355). -/
def execIdiv (o : Ops) (s : State) : Out := .next (s.runAlu .idiv o fun a b _ => aluIdiv o a b)

/-- IREM (R355). -/
def execIrem (o : Ops) (s : State) : Out := .next (s.runAlu .irem o fun a b _ => aluIrem o a b)

/-- IMIN (R356). -/
def execImin (o : Ops) (s : State) : Out := .next (s.runAlu .imin o fun a b _ => aluImin o a b)

/-- IMAX (R356). -/
def execImax (o : Ops) (s : State) : Out := .next (s.runAlu .imax o fun a b _ => aluImax o a b)

/-- IABS (R356). -/
def execIabs (o : Ops) (s : State) : Out := .next (s.runAlu .iabs o fun a _ _ => aluIabs o a)

/-- INEG (R354). -/
def execIneg (o : Ops) (s : State) : Out := .next (s.runAlu .ineg o fun a _ _ => aluIneg o a)

/-- ICMP (R357). -/
def execIcmp (o : Ops) (s : State) : Out := .next (s.runAlu .icmp o fun a b _ => aluIcmp o a b)

/-- ISEL (R358). -/
def execIsel (o : Ops) (s : State) : Out := .next (s.runAlu .isel o fun a b d => aluIsel o a b d)

/-- AND (R359). -/
def execAnd (o : Ops) (s : State) : Out := .next (s.runAlu .and o fun a b _ => aluAnd o a b)

/-- OR (R359). -/
def execOr (o : Ops) (s : State) : Out := .next (s.runAlu .or o fun a b _ => aluOr o a b)

/-- XOR (R359). -/
def execXor (o : Ops) (s : State) : Out := .next (s.runAlu .xor o fun a b _ => aluXor o a b)

/-- NOT (R359). -/
def execNot (o : Ops) (s : State) : Out := .next (s.runAlu .not o fun a _ _ => aluNot o a)

/-- ANDN (R359). -/
def execAndn (o : Ops) (s : State) : Out := .next (s.runAlu .andn o fun a b _ => aluAndn o a b)

/-- SHL (R360). -/
def execShl (o : Ops) (s : State) : Out := .next (s.runAlu .shl o fun a b _ => aluShl o a b)

/-- SHR (R360). -/
def execShr (o : Ops) (s : State) : Out := .next (s.runAlu .shr o fun a b _ => aluShr o a b)

/-- SAR (R360). -/
def execSar (o : Ops) (s : State) : Out := .next (s.runAlu .sar o fun a b _ => aluSar o a b)

/-- ROTL (R360). -/
def execRotl (o : Ops) (s : State) : Out := .next (s.runAlu .rotl o fun a b _ => aluRotl o a b)

/-- BFX (R361). -/
def execBfx (o : Ops) (s : State) : Out := .next (s.runAlu .bfx o fun a b _ => aluBfx o a b)

/-- BFI (R361). -/
def execBfi (o : Ops) (s : State) : Out := .next (s.runAlu .bfi o fun a b d => aluBfi o a b d)

/-- POPC (R362). -/
def execPopc (o : Ops) (s : State) : Out := .next (s.runAlu .popc o fun a _ _ => aluPopc o a)

/-- CLZ (R362). -/
def execClz (o : Ops) (s : State) : Out := .next (s.runAlu .clz o fun a _ _ => aluClz o a)

/-- CTZ (R362). -/
def execCtz (o : Ops) (s : State) : Out := .next (s.runAlu .ctz o fun a _ _ => aluCtz o a)

/-- BREV (R362). -/
def execBrev (o : Ops) (s : State) : Out := .next (s.runAlu .brev o fun a _ _ => aluBrev o a)

/-- LEA (R363). -/
def execLea (o : Ops) (s : State) : Out := .next (s.runAlu .lea o fun a b _ => aluLea o a b)

/-- MOV (R364). -/
def execMov (o : Ops) (s : State) : Out := .next (s.runAlu .mov o fun a _ _ => aluMov o a)

/-- MOVI: it reads no register (R364). -/
def execMovi (o : Ops) (s : State) : Out := .next (s.runAlu .movi o fun _ _ _ => aluMovi o)

/-- MOVH (R364). -/
def execMovh (o : Ops) (s : State) : Out := .next (s.runAlu .movh o fun a _ _ => aluMovh o a)

/-- IDOT4 (R365). -/
def execIdot4 (o : Ops) (s : State) : Out := .next (s.runAlu .idot4 o fun a b d => aluIdot4 o a b d)

/-- FADD (R368). -/
def execFadd (o : Ops) (s : State) : Out := .next (s.runAlu .fadd o fun a b _ => aluFadd o a b)

/-- FSUB (R368). -/
def execFsub (o : Ops) (s : State) : Out := .next (s.runAlu .fsub o fun a b _ => aluFsub o a b)

/-- FMUL (R368). -/
def execFmul (o : Ops) (s : State) : Out := .next (s.runAlu .fmul o fun a b _ => aluFmul o a b)

/-- FFMA (R368). -/
def execFfma (o : Ops) (s : State) : Out := .next (s.runAlu .ffma o fun a b d => aluFfma o a b d)

/-- FMIN (R369). -/
def execFmin (o : Ops) (s : State) : Out := .next (s.runAlu .fmin o fun a b _ => aluFmin o a b)

/-- FMAX (R369). -/
def execFmax (o : Ops) (s : State) : Out := .next (s.runAlu .fmax o fun a b _ => aluFmax o a b)

/-- FCMP (R370). -/
def execFcmp (o : Ops) (s : State) : Out := .next (s.runAlu .fcmp o fun a b _ => aluFcmp o a b)

/-- FRCP (R371). -/
def execFrcp (o : Ops) (s : State) : Out := .next (s.runAlu .frcp o fun a _ _ => aluFrcp o a)

/-- FRSQ (R371). -/
def execFrsq (o : Ops) (s : State) : Out := .next (s.runAlu .frsq o fun a _ _ => aluFrsq o a)

/-- FSQRT (R371). -/
def execFsqrt (o : Ops) (s : State) : Out := .next (s.runAlu .fsqrt o fun a _ _ => aluFsqrt o a)

/-- FDIV (R371). -/
def execFdiv (o : Ops) (s : State) : Out := .next (s.runAlu .fdiv o fun a b _ => aluFdiv o a b)

/-- FEXP2 (R371). -/
def execFexp2 (o : Ops) (s : State) : Out := .next (s.runAlu .fexp2 o fun a _ _ => aluFexp2 o a)

/-- FLOG2 (R371). -/
def execFlog2 (o : Ops) (s : State) : Out := .next (s.runAlu .flog2 o fun a _ _ => aluFlog2 o a)

/-- FSIN (R371). -/
def execFsin (o : Ops) (s : State) : Out := .next (s.runAlu .fsin o fun a _ _ => aluFsin o a)

/-- FCOS (R371). -/
def execFcos (o : Ops) (s : State) : Out := .next (s.runAlu .fcos o fun a _ _ => aluFcos o a)

/-- FTANH (R371). -/
def execFtanh (o : Ops) (s : State) : Out := .next (s.runAlu .ftanh o fun a _ _ => aluFtanh o a)

/-- FCLASS (R372). -/
def execFclass (o : Ops) (s : State) : Out := .next (s.runAlu .fclass o fun a _ _ => aluFclass o a)

/-- FRND (R373). -/
def execFrnd (o : Ops) (s : State) : Out := .next (s.runAlu .frnd o fun a _ _ => aluFrnd o a)

/-- FSCALB (R374). -/
def execFscalb (o : Ops) (s : State) : Out := .next (s.runAlu .fscalb o fun a b _ => aluFscalb o a b)

/-- FDOT2 (R375). -/
def execFdot2 (o : Ops) (s : State) : Out := .next (s.runAlu .fdot2 o fun a b d => aluFdot2 o a b d)

/-- FDOT4 (R375). -/
def execFdot4 (o : Ops) (s : State) : Out := .next (s.runAlu .fdot4 o fun a b d => aluFdot4 o a b d)

/-- CVT (R376). -/
def execCvt (o : Ops) (s : State) : Out := .next (s.runAlu .cvt o fun a b d => aluCvt o a b d)

/-- PACK (R377). -/
def execPack (o : Ops) (s : State) : Out := .next (s.runAlu .pack o fun a b d => aluPack o a b d)

/-- UNPACK (R378). -/
def execUnpack (o : Ops) (s : State) : Out := .next (s.runAlu .unpack o fun a b _ => aluUnpack o a b)

end Sys2Proof.Machine
end

