-- ==== Sys2Proof/Machine/Pages.lean ====
section
/-!
DEFINITION. Addresses, bytes of memory, and page tables: entries, leaves and their checks, the walk of a table, and the leaves that a table holds (R14, R26, R27, R29 to R36, R44).
A global physical address is a device HBM address below 2^52, a host address plus 2^52, or a peer's address plus (device id + 2) * 2^52.
-/
namespace Sys2Proof.Machine

/-! ### Addresses and lines -/

/-- A global physical address of a host byte. -/
def hostGa (pa : Nat) : Nat := 2 ^ 52 + pa
/-- A global physical address of a peer's byte. -/
def peerGa (dev pa : Nat) : Nat := (dev + 2) * 2 ^ 52 + pa
/-- The directory set of a line within its slice (R92). -/
def dirSet (line : Nat) : Nat := bitsAt (line * 128) 13 10
/-- The home cache set of a line within its slice (R71). -/
def hcSet (line : Nat) : Nat := bitsAt (line * 128) 13 12
/-- The RDC set of a line within its slice (R75). -/
def rdcSet (line : Nat) : Nat := bitsAt (line * 128) 13 9
/-- Whether a physical address is populated device HBM (R26). -/
def populated (pa : Nat) : Bool := decide (pa < 2 ^ 42) && decide (pa % 2 ^ 40 < 0x18_0000_0000)
/-- The key of a scratchpad byte. -/
def scratchKey (core off : Nat) : Nat := core * 2 ^ 19 + off
/-- The bytes of scratchpad a core has (R56). -/
def scratchSize : Nat := 458752

/-! ### Bytes -/

/-- What a byte reads as that nothing has written (log 1). -/
def emptyByte : Byte := 0

/-- Read one byte of memory. -/
def Memory.read (m : Memory) (a : Nat) : Byte := FMap.getD m a emptyByte
/-- Write one byte of memory, keeping the canonical form. -/
def Memory.write (m : Memory) (a : Nat) (b : Byte) : Memory := FMap.putD m a emptyByte b
/-- The canonical form of a memory: addresses rise and no byte reads as an unlisted one does. -/
def Memory.wf (m : Memory) : Bool := FMap.wf m emptyByte
/-- Read n bytes. -/
def Memory.readN (m : Memory) (a n : Nat) : List Byte := (List.range n).map fun i => m.read (a + i)
/-- Write bytes at rising addresses. -/
def Memory.writeN (m : Memory) (a : Nat) : List Byte → Memory
  | [] => m
  | b :: r => (m.write a b).writeN (a + 1) r
/-- Write bytes at given offsets from a base. -/
def Memory.writeAt (m : Memory) (base : Nat) (l : LineBytes) : Memory :=
  l.foldl (fun m p => m.write (base + p.1) p.2) m

/-- Little-endian bytes as a number (R14). -/
def natOf : List Byte → Nat
  | [] => 0
  | b :: r => b.toNat + 256 * natOf r
/-- The n little-endian bytes of a number. -/
def bytesOf : Nat → Nat → List Byte
  | 0, _ => []
  | n + 1, x => BitVec.ofNat 8 x :: bytesOf n (x / 256)
/-- Replace a field of a word. -/
def withBits (x lo n v : Nat) : Nat := x - bitsAt x lo n * 2 ^ lo + v % 2 ^ n * 2 ^ lo

/-- Attach offsets to bytes. -/
def withOff (off : Nat) : List Byte → LineBytes
  | [] => []
  | b :: r => (off, b) :: withOff (off + 1) r

/-! ### The page table entry (R31 to R35) -/

/-- The accesses that R36 tells apart. -/
inductive Acc where
  | load | store | atom | red | fetch | pref
  | aff   -- an affinity address: translated, never read (R271)
  deriving DecidableEq, Repr

/-- Whether an access writes, so that D must be set (R43). -/
def Acc.writes : Acc → Bool
  | .store | .atom | .red => true
  | _ => false

/-- The number an access has in a PAGE_WALK request. -/
def Acc.code : Acc → Nat
  | .load => 0 | .store => 1 | .atom => 2 | .red => 3 | .fetch => 4 | .pref => 5 | .aff => 6

/-- The access of a PAGE_WALK request. -/
def Acc.ofCode : Nat → Acc
  | 0 => .load | 1 => .store | 2 => .atom | 3 => .red | 4 => .fetch | 5 => .pref | _ => .aff

/-- V. -/
def pteV (e : Nat) : Bool := e.testBit 0
/-- LEAF. -/
def pteLeaf (e : Nat) : Bool := e.testBit 1
/-- TGT. -/
def pteTgt (e : Nat) : Nat := bitsAt e 2 2
/-- MODE. -/
def pteMode (e : Nat) : Nat := bitsAt e 4 2
/-- PFN. -/
def ptePfn (e : Nat) : Nat := bitsAt e 16 36
/-- D. -/
def pteD (e : Nat) : Bool := e.testBit 10

/-- The bits that a level's page offset has (R34). -/
def pageBits (level : Nat) : Nat := if level = 1 then 40 else if level = 2 then 28 else 16

/-- The table index of a virtual address at a level (R30). -/
def tableIndex (level va : Nat) : Nat :=
  match level with
  | 0 => bitsAt va 52 5
  | 1 => bitsAt va 40 12
  | 2 => bitsAt va 28 12
  | _ => bitsAt va 16 12

/-- Whether a pointer entry breaks R32. -/
def badPointer (e : Nat) : Bool :=
  bitsAt e 2 10 != 0 || bitsAt e 12 4 != 0 || bitsAt e 52 12 != 0 || !populated (ptePfn e * 65536)

/-- Whether a leaf entry at a level breaks R33. -/
def badLeaf (level e : Nat) : Bool :=
  level == 0 || pteTgt e == 3 || pteMode e == 3 || bitsAt e 12 4 != 0 || e.testBit 63 ||
  (pteTgt e != 2 && bitsAt e 52 11 != 0) ||
  (if pteTgt e == 2 then bitsAt e 16 (pageBits level - 16) != 0 else ptePfn e % 2 ^ (pageBits level - 16) != 0)

/-- Whether a leaf permits an access (R36). -/
def permits (e : Nat) : Acc → Bool
  | .load | .pref | .aff => e.testBit 6
  | .store => e.testBit 7
  | .atom => e.testBit 6 && e.testBit 7 && e.testBit 11
  | .red => e.testBit 7 && e.testBit 11
  | .fetch => e.testBit 8 && pteTgt e == 0

/-- The obtained mode (R35). -/
def obtained (e : Nat) : Mode :=
  match pteTgt e with
  | 0 => if pteMode e = 0 then .coh else if pteMode e = 1 then .self else .nc
  | 1 => if pteMode e = 2 then .nc else .coh
  | _ => .self

/-- The physical address within the target (R34). -/
def leafPa (level e va : Nat) : Nat :=
  (if pteTgt e = 2 then bitsAt e 16 32 else ptePfn e) * 65536 + va % 2 ^ pageBits level

/-- The global physical address (R34). -/
def leafGa (level e va : Nat) : Nat :=
  match pteTgt e with
  | 0 => leafPa level e va
  | 1 => hostGa (leafPa level e va)
  | _ => peerGa (bitsAt e 48 15) (leafPa level e va)

/-- Whether a device id names a package of the scale-up domain: one with a route (R34, R507). -/
def State.peerKnown (s : State) (dev : Nat) : Bool := dev != s.dev.id && s.dev.routes.getD dev 0 != 0

/-- The judgement of a leaf for an access, in the order of R46. -/
def State.judge (s : State) (level e va : Nat) (a : Acc) : Option Flt :=
  if badLeaf level e then some (.page va level 1)
  else if !permits e a then some (.access va level 2)
  else if pteTgt e = 0 ∧ !populated (leafPa level e va) then some (.access va level 4)
  else if pteTgt e = 2 ∧ !s.peerKnown (bitsAt e 48 15) then some (.access va level 5)
  else none

/-! ### The walk (R30, R44) -/

/-- How a walk ends: a leaf with its level and physical address, or a fault. -/
inductive Walk where
  | leaf (level addr entry : Nat)
  | fault (level reason : Nat)
  deriving DecidableEq, Repr

/-- Walk from a table at a level; fuel counts the levels left. -/
def walkFrom (m : Memory) (va : Nat) : Nat → Nat → Nat → Walk
  | 0, level, _ => .fault (level - 1) 1
  | fuel + 1, level, table =>
    let addr := table + 8 * tableIndex level va
    let e := natOf (m.readN addr 8)
    if !pteV e then .fault level 0
    else if pteLeaf e then .leaf level addr e
    else if level = 3 ∨ badPointer e then .fault level 1
    else walkFrom m va fuel (level + 1) (ptePfn e * 65536)

/-- The addresses of the entries that a walk reads, from a table at a level. -/
def walkReads (m : Memory) (va : Nat) : Nat → Nat → Nat → List Nat
  | 0, _, _ => []
  | fuel + 1, level, table =>
    let addr := table + 8 * tableIndex level va
    let e := natOf (m.readN addr 8)
    if !pteV e || pteLeaf e || level == 3 || badPointer e then [addr]
    else addr :: walkReads m va fuel (level + 1) (ptePfn e * 65536)

/-- The context of an ASID. -/
def State.ctxOfAsid (s : State) (asid : Nat) : Option (Nat × Context) := s.fw.ctxs.find? fun _ c => c.asid == asid

/-- The walk of an ASID's table; an ASID without a context has no valid entry. -/
def State.walk (s : State) (asid va : Nat) : Walk :=
  match s.ctxOfAsid asid with
  | some (_, c) => walkFrom s.mem.bytes va 4 0 c.root
  | none => .fault 0 0

/-! ### The leaves of a table -/

/-- An entry with V = 0 and the in-migration mark (R53). -/
def marking (e : Nat) : Nat := withBits (withBits e 0 1 0) 12 4 1
/-- Whether an entry carries the in-migration mark. -/
def isMarked (e : Nat) : Bool := !pteV e && bitsAt e 12 4 == 1
/-- A marked entry made valid again. -/
def unmarked (e : Nat) : Nat := withBits (withBits e 0 1 1) 12 4 0

/-- The address of the entry for an address, some levels below a table. -/
def entryAt (m : Memory) (va : Nat) : Nat → Nat → Nat → Option Nat
  | 0, level, table => some (table + 8 * tableIndex level va)
  | n + 1, level, table =>
    let e := natOf (m.readN (table + 8 * tableIndex level va) 8)
    if pteV e && !pteLeaf e && !badPointer e then entryAt m va n (level + 1) (ptePfn e * 65536) else none

/-- The leaves of a table, valid or in migration: address, entry and virtual address; fuel bounds the levels. -/
def leavesOf (m : Memory) : Nat → Nat → Nat → Nat → List (Nat × Nat × Nat)
  | 0, _, _, _ => []
  | fuel + 1, level, table, va =>
    let size := if level = 0 then 248 else 32768
    (m.cells.filter fun p => decide (table ≤ p.1) && decide (p.1 < table + size) && (p.1 - table) % 8 == 0).flatMap fun p =>
      let e := natOf (m.readN p.1 8)
      let at_ := va + (p.1 - table) / 8 * 2 ^ (if level = 0 then 52 else pageBits level)
      if (pteV e || isMarked e) && pteLeaf e then [(p.1, e, at_)]
      else if pteV e && level != 3 && !badPointer e then leavesOf m fuel (level + 1) (ptePfn e * 65536) at_
      else []

/-- The number of frames that a leaf maps, by the page size its frame number is aligned to at its address. -/
def leafSpan (m : Memory) (c : Context) (va addr : Nat) : Nat :=
  if entryAt m va 3 0 c.root = some addr then 1 else if entryAt m va 2 0 c.root = some addr then 2 ^ 12 else 2 ^ 24

/-- The first line, and the number of lines, that a leaf maps. -/
def leafLines (m : Memory) (c : Context) (va addr e : Nat) : Nat × Nat :=
  let n := leafSpan m c va addr
  (leafGa (if n = 1 then 3 else if n = 2 ^ 12 then 2 else 1) e va / 128, n * 512)

/-- The contexts that map a line. -/
def State.ctxsOf (s : State) (line : Nat) : List Nat :=
  (s.fw.ctxs.cells.filter fun p => (leavesOf s.mem.bytes 4 0 p.2.root 0).any fun (a, e, va) =>
    let (lo, n) := leafLines s.mem.bytes p.2 va a e
    decide (lo ≤ line) && decide (line < lo + n)).map Prod.fst

end Sys2Proof.Machine
end

