-- ==== Sys2Proof/Machine/Mem.lean ====
section
/-!
DEFINITION. Words of memory and of scratchpad, monitors and their wakes, and the invalidations that edges cause (R71, R72, R145, R171 to R177).
-/
namespace Sys2Proof.Machine

/-! ### Phase tags of what is under way (R179, R180) -/

/-- The tag of a thread's crew; the current tag when the thread has ended. -/
def State.threadTag (s : State) (tid : Nat) : Nat := (((s.threads.get? tid).bind s.crewOf).map (·.tag)).getD s.curTag

/-- The tag of what an instruction in hand sends: its crew's; what no instruction causes carries the current tag (R179). -/
def State.handTag (s : State) : Nat := ((s.cur.bind fun i => i.slots.head?).map s.threadTag).getD s.curTag

/-- Whether a core has sent something for a line that is not finished: a write, or a miss (R180). -/
def Core.busyOn (c : Core) (line : Nat) : Bool := c.inflight.contains line || c.misses.has line

/-- Add a tag to what is under way for a key; what was finished counts no longer. -/
def addTag (m : FMap (List Nat)) (key tag : Nat) (busy : Bool) : FMap (List Nat) :=
  let l := if busy then m.getD key [] else []
  m.put key (if l.contains tag then l else tag :: l)

/-- Record the tag of what a core sends for a line. -/
def State.tagCore (s : State) (core line : Nat) : State :=
  let tag := s.handTag
  s.updCore core fun c => { c with tags := addTag c.tags line tag (c.busyOn line) }

/-! ### Words at a place -/

/-- Read n bytes of memory as a number. -/
def State.memNat (s : State) (ga n : Nat) : Nat := natOf (s.mem.bytes.readN ga n)
/-- Read n bytes of a core's scratchpad as a number. -/
def State.spadNat (s : State) (core off n : Nat) : Nat := natOf (s.mem.scratch.readN (scratchKey core off) n)
/-- Read a word at a place. -/
def State.placeNat (s : State) (p : Place) (n : Nat) : Nat :=
  match p with
  | .scratch core off => s.spadNat core off n
  | .mem ga => s.memNat ga n

/-! ### Uncorrectable data (R74, R516) -/

/-- Whether a byte of a line lies in a unit that is uncorrectable at its home or in die 0's host section. -/
def State.bad (s : State) (line off : Nat) : Bool := s.mem.poison.contains (line * 4 + off / 32)

/-- The key of the scratchpad word of a byte of a core (R63, R74). -/
def wordKey (core off : Nat) : Nat := core * 2 ^ 17 + off / 4

/-- Whether n bytes of a scratchpad lie in an uncorrectable word. -/
def State.spadBadAt (s : State) (core off n : Nat) : Bool := (List.range n).any fun i => s.mem.spadBad.contains (wordKey core (off + i))

/-- Whether n bytes at a place lie in an uncorrectable unit or word. -/
def State.placeBad (s : State) (p : Place) (n : Nat) : Bool :=
  match p with
  | .mem ga => (List.range n).any fun i => s.bad (lineNo (ga + i)) ((ga + i) % 128)
  | .scratch core off => s.spadBadAt core off n

/-! ### Soft invalidation of an L1 (R145) and self-invalidation of an RDC (R108) -/

/-- Drop the clean bytes of a line, unless it is a gather line or of an NC page (R89, R110); none when nothing is left. -/
def L1Line.dropClean (l : L1Line) : Option L1Line :=
  if l.gath.isSome || l.mode == .nc then some l
  else
    let b := l.bytes.filter fun _ x => x.dirty
    if b.size = 0 then none else some { l with bytes := b }

/-- Replace every line of a cache by an image of it, dropping those without one. -/
def filterMapCells {α : Type} (f : Nat → α → Option α) : List (Nat × α) → List (Nat × α)
  | [] => []
  | (k, x) :: r =>
    match f k x with
    | some y => (k, y) :: filterMapCells f r
    | none => filterMapCells f r

/-- Advance a core's L1 generation; a line that still records the new one is scrubbed first (R145). -/
def Core.softInvalidate (c : Core) : Core :=
  let g := (c.gen + 1) % 16
  { c with gen := g, l1 := ⟨filterMapCells (fun _ l => if l.gen = g then l.dropClean else some l) c.l1.cells⟩ }

/-- Soft-invalidate a core's L1. -/
def State.softInvalidate (s : State) (core : Nat) : State := s.updCore core Core.softInvalidate

/-- An RDC line after self-invalidation: an untracked line keeps only bytes not yet written through (R108, log 24). -/
def RdcLine.selfInvalidate (l : RdcLine) : Option RdcLine :=
  if !l.self || l.st = some .g then some l
  else
    let b := l.bytes.filter fun _ x => x.dirty
    if b.size = 0 ∧ l.wait.isNone then none
    else some { l with bytes := b, st := if b.size = 0 then none else l.st }

/-- Self-invalidate a die's RDC: its generation advances and its untracked lines read as I (R108). -/
def State.selfInvalidate (s : State) (die : Nat) : State :=
  s.updMem fun m =>
    { m with
      rdcGen := m.rdcGen.put die ((m.rdcGen.getD die 0 + 1) % 256)
      rdc := ⟨filterMapCells (fun k l => if k / 2 ^ 60 = die then l.selfInvalidate else some l) m.rdc.cells⟩ }

/-- The taking reconciliation of a thread's core and die (R144). -/
def State.takingRecon (s : State) (core : Nat) : State := (s.softInvalidate core).selfInvalidate (dieOf core)

/-! ### Monitors (R171 to R177) -/

/-- A monitor's comparison (R177). -/
def cmpHolds (cmp : Nat) (wide : Bool) (x y : Nat) : Bool :=
  let n := if wide then 64 else 32
  match cmp with
  | 0 => lowBits n x == lowBits n y
  | 1 => lowBits n x != lowBits n y
  | 2 => decide (toSigned n x < toSigned n y)
  | 3 => decide (toSigned n y ≤ toSigned n x)
  | 4 => decide (lowBits n x < lowBits n y)
  | _ => decide (lowBits n y ≤ lowBits n x)

/-- The bytes of a monitor's word. -/
def Monitor.width (m : Monitor) : Nat := if m.wide then 8 else 4

/-- The word's value now. -/
def State.monValue (s : State) (m : Monitor) : Nat := s.placeNat m.place m.width

/-- A place of a frame, from the place of its outstanding count at byte 12 (R275). -/
def framePlace (p : Place) (n : Nat) : Place := match p with | .mem ga => .mem (ga + n - 12) | .scratch c off => .scratch c (off + n - 12)

/-- A field of a frame, from the place of its outstanding count. -/
def State.frameField (s : State) (p : Place) (at_ n : Nat) : Nat := s.placeNat (framePlace p at_) n

/-- The value of a result slot at an AWAIT's TYPE: the low 32 bits for 32-bit types (R279). -/
def State.slotValue (s : State) (p : Place) (slot : Nat) (ty : Ty) : Nat :=
  s.frameField p (0x20 + 8 * slot) (if ty.is64 then 8 else 4)

/-- The cores on which the children of a frame, or their continuations, have run (R147). -/
def State.childCores (s : State) (p : Place) : List Nat :=
  ((s.fw.frames.find? fun _ f => p == .mem (f.ga + 12)).map fun x => x.2.cores).getD []

/-- The sink side of an end-to-await edge: the awaiting core soft-invalidates if a child ran elsewhere, its die self-invalidates if a child ran on another die (R147). -/
def State.joinRecon (s : State) (core : Nat) (p : Place) : State :=
  let dies := bitsAt (s.frameField p 8 4) 4 4
  let child := s.frameField p 20 4 % 1024
  let other := dies != 2 ^ dieOf core
  let s := if child != core || (s.childCores p).any (· != core) || other then s.softInvalidate core else s
  if other then s.selfInvalidate (dieOf core) else s

/-- A thread's read of a WAITW is performed: its destination is known, and it goes on with its bundle (R173, R401). -/
def State.readDone (s : State) (tid : Nat) (wide : Bool) (dst : Dst) (x : Nat) : State :=
  (s.updThread tid fun t => { (t.putDst wide dst x) with status := .waiting .read, mates := if t.mates.contains tid then t.mates else [tid] }).checkMatesOf tid

/-- What a matched monitor's wake does: the read is performed at this instant (R173 to R175, R279, R294, R302); one of an uncorrectable unit is a DATA_UNCORRECTABLE of the WAITW (R74, R315). -/
def State.wake (s : State) (m : Monitor) : State :=
  match m.who with
  | .waitw tid dst ea =>
    if s.placeBad m.place m.width then (s.park tid ⟨0x0D, ea⟩).checkMatesOf tid
    else
    let s := s.readDone tid m.wide dst (s.monValue m)
    if m.take then s.takingRecon (coreOf tid) else s
  | .await tid late slot ty ea =>
    let s := s.joinRecon (coreOf tid) m.place
    let s := s.updThread tid fun t => { t with joins := t.joins.filter (· != late) }
    if ty = .none then s
    else
      let bad := s.placeBad (framePlace m.place (0x20 + 8 * slot)) (if ty.is64 then 8 else 4)
      s.post (.pendingValueArrival [tid] late (s.slotValue m.place slot ty) (if bad then some (ea + 0x20 + 8 * slot) else none))
  | .tail q => s.postOnce (.tailWordWake q)
  | .sig q => s.postOnce (.waitsigWake q)

/-- The lowest entry of a die's spoil-list array that is not in use (R177, log 131). -/
def spoilIndex (used : List Nat) : Nat → Nat → Nat
  | 0, i => i
  | n + 1, i => if used.contains i then spoilIndex used n (i + 1) else i

/-- The spoil-list entries of a die, by their indexes. -/
def State.spoilUsed (s : State) (die : Nat) : List Nat := (s.mem.mons.filter fun x => x.spoil && x.die == die).map (·.index)

/-- Register a monitor: in its table, else on the spoil list; none when that is full too (R172, R176, R177). -/
def State.register (s : State) (m : Monitor) : Option State :=
  let m := { m with entry := s.fresh }
  let s' := { s with fresh := s.fresh + 1 }
  if s.monRoom m then some (s'.updMem fun x => { x with mons := x.mons ++ [{ m with spoil := false }] })
  else if s.spoilFree m then
    let used := s.spoilUsed m.die
    some (s'.updMem fun x => { x with mons := x.mons ++ [{ m with spoil := true, index := spoilIndex used used.length 0 }] })
  else none

/-- The threads that share an entry, as the mask of their group's lanes, and the first of them (R175). -/
def State.entryMask (s : State) (m : Monitor) : Nat × Nat :=
  let tids := (s.mem.mons.filter fun x => x.entry == m.entry).filterMap fun x => x.who.thread?
  ((tids.filterMap fun k => (s.threads.get? k).map fun t => 2 ^ t.lane).foldl Nat.lor 0, tids.head?.getD 0)

/-- The index of the next entry of a bucket; 0x1F_FFFF ends it (R177). -/
def State.spoilNext (s : State) (m : Monitor) : Nat :=
  match (s.mem.mons.filter fun x => x.spoil && x.bucket == m.bucket).dropWhile fun x => x.entry != m.entry with
  | [] => 0x1F_FFFF
  | l => match l.find? fun x => x.entry != m.entry with
    | some x => x.index
    | none => 0x1F_FFFF

/-- An entry of a die's spoil-list array as firmware reads it: the 256-bit layout of R177; an entry that is not in use is zero. -/
def State.spoilEntry (s : State) (die index : Nat) : Nat :=
  match s.mem.mons.find? fun x => x.spoil && x.die == die && x.index == index with
  | none => 0
  | some m =>
    let (mask, tid) := s.entryMask m
    let g := ((s.threads.get? tid).map (·.group)).getD 0
    let addr := match m.place with | .mem ga => ga % 2 ^ 52 | .scratch _ off => off
    addr + (if m.wide then 2 ^ 52 else 0) + m.cmp * 2 ^ 53 + (if m.take then 2 ^ 56 else 0) + 2 ^ 63 + m.oper * 2 ^ 64 +
      coreOf tid * 2 ^ 128 + g % 32 * 2 ^ 138 + (if 32 ≤ g then 2 ^ 143 else 0) + mask * 2 ^ 144 + s.spoilNext m * 2 ^ 192

/-- Whether a monitor's word overlaps written bytes of memory. -/
def Monitor.hitsMem (m : Monitor) (lo n : Nat) : Bool :=
  match m.place with
  | .mem ga => decide (ga < lo + n) && decide (lo < ga + m.width)
  | .scratch _ _ => false

/-- Whether a monitor's word overlaps written bytes of a scratchpad. -/
def Monitor.hitsSpad (m : Monitor) (core lo n : Nat) : Bool :=
  match m.place with
  | .mem _ => false
  | .scratch c off => c == core && decide (off < lo + n) && decide (lo < off + m.width)

/-- Evaluate the monitors a write touched, and wake those that hold (R174, R176). -/
def State.evaluate (s : State) (hit : Monitor → Bool) : State :=
  (s.mem.mons.filter fun m => hit m && cmpHolds m.cmp m.wide (s.monValue m) m.oper).foldl
    (fun s m => (s.unregister m).wake m) s

/-! ### Use stamps -/

/-- A stamp newer than every listed one. -/
def newest (l : List Nat) : Nat := l.foldl max 0 + 1

/-- The pair with the least value of a measure. -/
def leastBy {α : Type} (f : α → Nat) : List α → Option α
  | [] => none
  | x :: r =>
    match leastBy f r with
    | some y => if f y < f x then some y else some x
    | none => some x

/-! ### The home cache (R70 to R72) -/

/-- The other tags of the home-cache set of a line. -/
def State.hcPeers (s : State) (line : Nat) : List (Nat × HCLine) :=
  s.mem.hcache.cells.filter fun p =>
    p.1 != line && homeDie p.1 == homeDie line && sliceOf p.1 == sliceOf line && hcSet p.1 == hcSet line

/-- Whether a monitor is registered on a line. -/
def State.monitored (s : State) (line : Nat) : Bool :=
  s.mem.mons.any fun m => match m.place with | .mem ga => lineNo ga == line | .scratch _ _ => false

/-- Whether a line may leave the home cache: no request is outstanding on it and no monitor is registered on it (R72). -/
def State.hcFree (s : State) (p : Nat × HCLine) : Bool :=
  !p.2.reading && !s.monitored p.1 && ((s.mem.homes.get? p.1).bind (·.txn)).isNone

/-- Firmware ends contexts (R316). -/
def State.endThose (s : State) (l : List Nat) : State := l.foldl (fun (s : State) c => s.postOnce (.contextEnd c)) s

/-- Whether a line has an uncorrectable unit at its home. -/
def State.lineBad (s : State) (line : Nat) : Bool := s.mem.poison.any fun u => u / 4 == line

/-- A dirty line of the home cache is written back: one that proves uncorrectable ends the contexts that map it (R316). -/
def State.leaveHome (s : State) (line : Nat) (h : HCLine) : State := if h.dirty && s.lineBad line then s.endThose (s.ctxsOf line) else s

/-- A set that is full loses its least recent line that may leave (R72). -/
def State.hcRoom (s : State) (line : Nat) : State :=
  if (s.hcPeers line).length < 16 then s
  else
    match leastBy (fun p => p.2.used) ((s.hcPeers line).filter s.hcFree) with
    | some (k, h) => (s.leaveHome k h).updMem fun m => { m with hcache := m.hcache.del k }
    | none => s

/-- Use a line at its home slice: a line absent from the home cache is read from HBM and allocated, least recent with the stream hint (R72, R80). When no line of a full set may leave, the line is served without being allocated (log 121). -/
def State.touchHome (s : State) (line : Nat) (hint : Nat := 0) : State :=
  if !isHbm line then s
  else
    match s.mem.hcache.get? line with
    | some h => s.updMem fun m => { m with hcache := m.hcache.put line { h with used := newest ((s.hcPeers line).map (·.2.used)) } }
    | none =>
      let s := s.hcRoom line
      let set := s.hcPeers line
      if set.length < 16 then
        let h : HCLine := { used := if hint = 2 then 0 else newest (set.map (·.2.used)), reading := true }
        (s.updMem fun m => { m with hcache := m.hcache.put line h }).post (.hbmReadReturn line)
      else s

/-! ### Writes at the point of serialisation -/

/-- Whether a write covers a 32-byte unit whole, so that it is good again (R74, log 122). -/
def unitWritten (u base : Nat) (l : LineBytes) : Bool := (List.range 32).all fun i => l.any fun p => base + p.1 == u * 32 + i

/-- A write of bytes within one line at a base address of memory, with its monitors evaluated (R174); the slice uses the line, which is then dirty in the home cache (R70, R72). -/
def State.homeWrite (s : State) (base : Nat) (l : LineBytes) : State :=
  match l with
  | [] => s
  | _ =>
    let s := (s.touchHome (lineNo base)).updMem fun m =>
      { m with
        bytes := m.bytes.writeAt base l
        hcache := m.hcache.adjust (lineNo base) (fun h => { h with dirty := true })
        poison := m.poison.filter fun u => !unitWritten u base l }
    s.evaluate fun m => l.any fun p => m.hitsMem (base + p.1) 1

/-- A write of a number of n bytes to memory. -/
def State.homeWriteNat (s : State) (ga n x : Nat) : State := s.homeWrite ga (withOff 0 (bytesOf n x))

/-- The uncorrectable words of scratchpad after a write: a word that is written whole is good again (R74, log 122). -/
def rewritten (core off n : Nat) (l : List Nat) : List Nat :=
  l.filter fun k => !(decide (scratchKey core off ≤ k * 4) && decide (k * 4 + 4 ≤ scratchKey core off + n))

/-- A write of bytes to a core's scratchpad at a physical offset, with its monitors evaluated (R174). -/
def State.spadWrite (s : State) (core off : Nat) (l : List Byte) : State :=
  let s := s.updMem fun m => { m with scratch := m.scratch.writeN (scratchKey core off) l, spadBad := rewritten core off l.length m.spadBad }
  s.evaluate fun m => m.hitsSpad core off l.length

/-- A write of a number of n bytes at a place. -/
def State.placeWrite (s : State) (p : Place) (n x : Nat) : State :=
  match p with
  | .scratch core off => s.spadWrite core off (bytesOf n x)
  | .mem ga => s.homeWriteNat ga n x

/-! ### Scratchpad allocations (R22, R59) -/

/-- The size in bytes of a crew's allocation. -/
def Crew.spadSize (c : Crew) : Nat := if c.released then 0 else c.granules.length * 8192

/-- The physical offset of a crew offset (R59). -/
def Crew.spadOff (c : Crew) (o : Nat) : Nat := (c.granules[o / 8192]?).getD 0 * 8192 + o % 8192

/-- Whether a physical offset of a core lies in an allocation held by a crew of a context (R23). -/
def State.spadHeld (s : State) (ctx core off : Nat) : Bool :=
  s.crews.any fun _ c => c.ctx == ctx && c.core == core && !c.released && c.granules.contains (off / 8192)

end Sys2Proof.Machine
end

