-- ==== Sys2Proof/Machine/Translate.lean ====
section
/-!
DEFINITION. Address translation: windows, the translation buffers, and the walker's marks (R19 to R55).
-/
namespace Sys2Proof.Machine

/-! ### The translation buffers (R39, R42) -/

/-- The tag of a leaf translation: ASID, page size and virtual page (R39). -/
def leafTag (asid level va : Nat) : Nat := (asid * 4 + level) * 2 ^ 41 + va / 2 ^ pageBits level

/-- The key of a leaf translation in a cluster TLB. -/
def leafKey (cluster asid level va : Nat) : Nat := cluster * 2 ^ 60 + leafTag asid level va

/-- The set of a cluster TLB that a tag belongs to: 8,192 entries in 16 ways are 512 sets, taken by the tag's low bits (R39, log 123). -/
def tlbSet (tag : Nat) : Nat := tag % 512

/-- Look a translation up in a cluster TLB under each page size. -/
def lookupLeaf (t : FMap Leaf) (cluster asid va : Nat) : Option Leaf :=
  ((t.get? (leafKey cluster asid 3 va)).or (t.get? (leafKey cluster asid 2 va))).or (t.get? (leafKey cluster asid 1 va))

/-- The number of entries of a die's deep TLB (R42, log 123). -/
def State.deepSize (s : State) (die : Nat) : Nat := s.mem.deep.getD die 65536

/-- The place of a tag in a die's deep TLB, hashed (R42, log 123). -/
def State.deepKey (s : State) (die tag : Nat) : Nat := die * 2 ^ 24 + tag % s.deepSize die

/-- What a die's deep TLB holds of a tag. -/
def State.deepAt (s : State) (die tag : Nat) : Option Leaf := (s.mem.dtlb.get? (s.deepKey die tag)).filter fun l => l.tag == tag

/-- Look a translation up in a die's deep TLB under each page size (R42). -/
def State.lookupDeep (s : State) (die asid va : Nat) : Option Leaf :=
  ((s.deepAt die (leafTag asid 3 va)).or (s.deepAt die (leafTag asid 2 va))).or (s.deepAt die (leafTag asid 1 va))

/-- What a translation gives. -/
inductive Xlate where
  | hit (ga : Nat) (mode : Mode) (entry : Nat)
  | fault (f : Flt)
  | miss
  deriving DecidableEq, Repr

/-- The use of a leaf: judged, or a miss when a write must first set D (R43). A fault reports the leaf's level, whether it was walked to or held in a buffer (R45, log 124). -/
def State.useLeaf (s : State) (l : Leaf) (va : Nat) (a : Acc) : Xlate :=
  let e := l.entry.toNat
  match s.judge l.level e va a with
  | some f => .fault f
  | none => if a.writes && !pteD e then .miss else .hit (leafGa l.level e va) (obtained e) e

/-- Translate through the cluster TLB (R19, R21, R39). -/
def State.xlate (s : State) (core asid va : Nat) (a : Acc) : Xlate :=
  if 2 ^ 57 ≤ va then .fault (.access va 7 3)
  else if va / 2 ^ 52 = 31 then .fault (.access va 7 6)
  else
    match lookupLeaf s.mem.tlb (clusterOf core) asid va with
    | some l => s.useLeaf l va a
    | none => .miss

/-- The other entries of a cluster TLB's set. -/
def State.tlbPeers (s : State) (cluster tag : Nat) : List (Nat × Leaf) :=
  s.mem.tlb.cells.filter fun p => p.1 / 2 ^ 60 == cluster && p.2.tag != tag && tlbSet p.2.tag == tlbSet tag

/-- Put a leaf into a cluster TLB: the entry of a full set that was filled longest ago leaves (R39, log 123). -/
def State.fillCluster (s : State) (cluster : Nat) (l : Leaf) : State :=
  let set := s.tlbPeers cluster l.tag
  let out := if set.length < 16 then none else (leastBy (fun (p : Nat × Leaf) => p.2.used) set).map Prod.fst
  let l : Leaf := { l with used := newest (set.map fun (p : Nat × Leaf) => p.2.used) }
  s.updMem fun m => { m with tlb := (match out with | some k => m.tlb.del k | none => m.tlb).put (cluster * 2 ^ 60 + l.tag) l }

/-- Put a leaf into the cluster TLB and the deep TLB (R42). -/
def State.fillTlb (s : State) (core asid va level entry addr : Nat) : State :=
  let l : Leaf := { level := level, entry := BitVec.ofNat 64 entry, addr := addr, tag := leafTag asid level va }
  (s.fillCluster (clusterOf core) l).updMem fun m => { m with dtlb := m.dtlb.put (s.deepKey (dieOf core) l.tag) l }

/-- An entry with A set, and D for a write (R44). -/
def marked (e : Nat) (a : Acc) : Nat := Nat.lor e (512 + if a.writes then 1024 else 0)

/-- The lines of the entries that a walk reads. -/
def State.walkLines (s : State) (asid va : Nat) : List Nat :=
  match s.ctxOfAsid asid with
  | some (_, c) => (walkReads s.mem.bytes va 4 0 c.root).map lineNo
  | none => []

/-- Whether an entry's line has invalidations outstanding at its home, so that the walker waits to read it (R44). -/
def State.walkBusy (s : State) (asid va : Nat) : Bool := (s.walkLines asid va).any fun l => ((s.mem.homes.get? l).bind (·.txn)).isSome

/-- Walk the table for an access: the marks and the buffers on success, the fault otherwise (R44 to R46). A valid leaf goes into the buffers even when the access fails its checks (R42); a miss means that the walker must wait. -/
def State.walkNow (s : State) (core asid va : Nat) (a : Acc) : State × Xlate :=
  if s.walkBusy asid va then (s, .miss)
  else
    let r := s.walk asid va
    let s := (s.walkLines asid va).foldl (fun (s : State) l => s.touchHome l) s
    match r with
    | .fault level r => (s, .fault (.page va level r))
    | .leaf level addr e =>
      match s.judge level e va a with
      | some f => (if badLeaf level e then s else s.fillTlb core asid va level e addr, .fault f)
      | none =>
        let e' := marked e a
        let s := if e' = e then s else s.homeWriteNat addr 8 e'
        (s.fillTlb core asid va level e' addr, .hit (leafGa level e' va) (obtained e') e')

/-- Probe the deep TLB, then walk (R42, R44). -/
def State.translateMiss (s : State) (core asid va : Nat) (a : Acc) : State × Xlate :=
  match s.lookupDeep (dieOf core) asid va with
  | some l =>
    match s.useLeaf l va a with
    | .miss => s.walkNow core asid va a
    | r => (s.fillCluster (clusterOf core) l, r)
  | none => s.walkNow core asid va a

/-- Translate at once, walking when the buffers miss: engines, the fetch path, descriptors and range instructions. A miss is left where the walker must wait (R44). -/
def State.translate (s : State) (core asid va : Nat) (a : Acc) : State × Xlate :=
  match s.xlate core asid va a with
  | .miss => s.translateMiss core asid va a
  | r => (s, r)

/-- The threads that still stand Ready at the instruction whose miss was walked (R38). -/
def State.standing (s : State) (pc : DWord) (tids : List Nat) : List Nat :=
  tids.filter fun k => match s.threads.get? k with | some t => t.status == .ready && t.pc == pc | none => false

/-- Park a thread on the PAGE_FAULT of a SPAWN's affinity address (R271). -/
def State.parkAff (s : State) (tid : Nat) (f : Flt) (sub : Nat) : State :=
  (s.park tid f sub).updThread tid fun t =>
    match t.status with | .parked p => { t with status := .parked { p with aff := true } } | _ => t

/-- Faults of affinity addresses: a PAGE_FAULT parks the thread, any other lets the SPAWN go on without the address (R271). -/
def State.affFaults (s : State) (l : List (Nat × Flt)) : State :=
  let sub := s.fresh
  l.foldl (fun s p =>
    if p.2.code = 7 then s.parkAff p.1 p.2 sub
    else s.updThread p.1 fun t => { t with replay := true }) s

/-- Walk each address that a bundle missed, and collect the faults of the threads that still stand at the instruction. An address that another walk has put into the buffers needs none (R38, R44). -/
def State.walkAll (s : State) (core asid : Nat) (pc : DWord) (a : Acc) : List (Nat × List Nat) → State × List (Nat × Flt)
  | [] => (s, [])
  | (va, tids) :: r =>
    let (s, x) := match s.xlate core asid va a with
      | .miss => s.translateMiss core asid va a
      | _ => (s, .miss)
    let (s, l) := s.walkAll core asid pc a r
    (s, match x with
      | .fault f => (s.standing pc tids).map (fun k => (k, f)) ++ l
      | _ => l)

/-- PAGE_WALK: the walks that a bundle's misses asked for (R44). The threads that fault are split off together, as one sub-group, or trap; the others issue again (R48, R55). The walker waits while an entry's line has invalidations outstanding. -/
def execPageWalk (core asid : Nat) (pc : DWord) (need : Nat) (reqs : List (Nat × List Nat)) (s : State) : Out :=
  .next (if reqs.any fun p => s.walkBusy asid p.1 then s.post (.pageWalk core asid pc need reqs)
    else
      let (s, l) := s.walkAll core asid pc (Acc.ofCode need) reqs
      if need = 5 then s else if need = 6 then s.affFaults l else s.raiseAll pc l)

/-! ### Where an access goes (R19 to R23) -/

/-- The target of a thread's access. -/
inductive Target where
  | spad (core off : Nat)                 -- own allocation, or a window of the thread's own core
  | peer (core off : Nat)
  | page (ga : Nat) (mode : Mode) (entry : Nat)
  | viol
  | flt (f : Flt)
  | miss
  deriving DecidableEq, Repr

/-- The base of the own scratchpad window (R21). -/
def ownBase : Nat := 0x01FF_FF00_0000_0000
/-- The base of the peer scratchpad windows (R21). -/
def peerBase : Nat := 0x01FF_FE00_0000_0000

/-- A crew offset as a target (R22). -/
def Crew.ownTarget (c : Crew) (o width : Nat) : Target :=
  if c.spadSize < o + width then .viol else .spad c.core (c.spadOff o)

/-- Whether a core lies in a context's partition (R23, R480). -/
def State.inPartition (s : State) (ctx core : Nat) : Bool :=
  match s.fw.ctxs.get? ctx with
  | some x => decide (x.pfirst ≤ core) && decide (core < x.pfirst + x.pcount)
  | none => false

/-- A window address as a target (R21 to R23). -/
def State.windowTarget (s : State) (core : Nat) (c : Crew) (va width : Nat) : Target :=
  if ownBase ≤ va ∧ va < ownBase + 0x10_0000 then c.ownTarget (va - ownBase) width
  else if peerBase ≤ va ∧ va < peerBase + 0x2000_0000 then
    let n := (va - peerBase) / 0x10_0000
    let o := (va - peerBase) % 0x10_0000
    if !s.inPartition c.ctx n then .flt (.access va 7 6)
    else if scratchSize ≤ o ∨ !s.spadHeld c.ctx n o then .viol
    else if n = core then .spad n o
    else .peer n o
  else .flt (.access va 7 6)

/-- The target of an access of a thread: alignment, canonical form, windows, then translation (R314). -/
def State.target (s : State) (tid : Nat) (t : Thread) (va width : Nat) (a : Acc) : Target :=
  if va % width ≠ 0 then .flt (.misaligned va)
  else if 2 ^ 57 ≤ va then .flt (.access va 7 3)
  else
    match s.crewOf t with
    | none => .viol
    | some c =>
      if va / 2 ^ 52 = 31 then s.windowTarget (coreOf tid) c va width
      else
        match s.xlate (coreOf tid) (s.asidOf t) va a with
        | .hit ga m e => .page ga m e
        | .fault f => .flt f
        | .miss => .miss

/-- The target of LDS and STS: a crew offset (R382, R390). -/
def State.spadTarget (s : State) (t : Thread) (o width : Nat) : Target :=
  if o % width ≠ 0 then .flt (.misaligned o)
  else
    match s.crewOf t with
    | none => .viol
    | some c => c.ownTarget o width

end Sys2Proof.Machine
end

