-- ==== Sys2Proof/Machine/Cache.lean ====
section
/-!
DEFINITION. The caches: L1 lines, their fills, write-backs and gather deltas, and the remote-data cache of a die with the messages it receives (R57, R58, R75 to R88, R94 to R101, R107 to R113, R143).
-/
namespace Sys2Proof
open Sys2Proof.Machine

/-! ### Gather deltas (R83, R84) -/

/-- The identity of an operation and element type (R83). -/
def RedKind.identity (k : RedKind) : Nat :=
  let n := k.ty.bits
  match k.op with
  | 1 => 2 ^ n - 1
  | 4 => if k.ty = .f32 then 0x7F800000 else if k.ty.signed then 2 ^ (n - 1) - 1 else 2 ^ n - 1
  | 5 => if k.ty = .f32 then 0xFF800000 else if k.ty.signed then 2 ^ (n - 1) else 0
  | _ => 0

/-- The width of an element in bytes. -/
def RedKind.width (k : RedKind) : Nat := k.ty.bits / 8

/-- An element of a line's bytes. -/
def RedKind.elem (k : RedKind) (l : List Byte) (i : Nat) : Nat := natOf ((l.drop (i * k.width)).take k.width)

/-- A line of identities. -/
def RedKind.blank (k : RedKind) : List Byte :=
  (List.range (128 / k.width)).flatMap fun _ => bytesOf k.width k.identity

/-- Apply a delta to a line: the bytes of the elements it changes; an identity changes nothing (R84). -/
def RedKind.apply (k : RedKind) (old delta : List Byte) : LineBytes :=
  (List.range (128 / k.width)).flatMap fun i =>
    let d := k.elem delta i
    if d = k.identity then []
    else withOff (i * k.width) (bytesOf k.width (combine k.ty k.op (k.elem old i) d))

/-- Put bytes at offsets of a line. -/
def patchLine (l : List Byte) (b : LineBytes) : List Byte := b.foldl (fun l p => l.set p.1 p.2) l

/-- Combine a delta into a delta (R86, R87). -/
def RedKind.join (k : RedKind) (acc delta : List Byte) : List Byte := patchLine acc (k.apply acc delta)

end Sys2Proof

namespace Sys2Proof.Machine

/-! ### L1 lines (R37, R57, R58, R145) -/

/-- The key of an L1 line. -/
def l1Key (asid va : Nat) : Nat := asid * 2 ^ 50 + va / 128

/-- A line whose clean bytes count as invalid: an edge has passed since they were fetched (R145); no edge does anything to an NC line (R89, R110). -/
def L1Line.stale (l : L1Line) (gen : Nat) : Bool := l.mode != .nc && l.gen != gen

/-- A byte of a line that a read may take: dirty, or clean and not stale (R145). -/
def L1Line.byte? (l : L1Line) (gen i : Nat) : Option Byte :=
  match l.bytes.get? i with
  | some b => if b.dirty || !l.stale gen then some b.val else none
  | none => none

/-- An L1 line that a lookup finds: one in a withdrawn way counts as absent (R60). -/
def Core.l1Get (c : Core) (key : Nat) : Option L1Line := (c.l1.get? key).filter fun l => !c.lentOut.contains l.way

/-- The dirty bytes of a map of bytes. -/
def dirtyOf (m : FMap CByte) : LineBytes := m.cells.filterMap fun p => if p.2.dirty then some (p.1, p.2.val) else none

/-- Mark every byte clean. -/
def cleanBytes (m : FMap CByte) : FMap CByte := m.map fun _ b => { b with dirty := false }

/-- Write dirty bytes. -/
def writeBytes (m : FMap CByte) (b : LineBytes) : FMap CByte := b.foldl (fun m p => m.put p.1 ⟨p.2, true⟩) m

/-- The dirty bytes alone. -/
def onlyDirty (m : FMap CByte) : FMap CByte := m.filter fun _ b => b.dirty

/-- Fill the invalid bytes from a whole line (R58); the clean bytes of a stale line are invalid (R145). -/
def fillBytes (m : FMap CByte) (stale : Bool) (line : List Byte) : FMap CByte :=
  ⟨(withOff 0 line).map fun p => match m.get? p.1 with
    | some b => if b.dirty || !stale then (p.1, b) else (p.1, ⟨p.2, false⟩)
    | none => (p.1, ⟨p.2, false⟩)⟩

/-- The bytes of a map as a whole line, zero where absent. -/
def wholeLine (m : FMap CByte) : List Byte := (List.range 128).map fun i => ((m.get? i).map (·.val)).getD 0

/-- A delta as bytes of a gather line. -/
def deltaBytes (l : List Byte) : FMap CByte := ⟨(withOff 0 l).map fun p => (p.1, ⟨p.2, true⟩)⟩

/-- The words of an L1 line that are uncorrectable after bytes have been written: a word written whole is good again (R74, log 122). -/
def wordsLeft (bad : List Nat) (b : LineBytes) : List Nat := bad.filter fun w => !(List.range 4).all fun i => b.any fun p => p.1 == w * 4 + i

/-- Put written bytes into an L1 line (R58). -/
def L1Line.write (l : L1Line) (b : LineBytes) : L1Line := { l with bytes := writeBytes l.bytes b, bad := wordsLeft l.bad b }

/-- Whether a line that must reach its home has an uncorrectable word among its dirty bytes or its delta (R316). -/
def L1Line.lost (l : L1Line) : Bool := l.bad.any fun w => (List.range 4).any fun i => ((l.bytes.get? (w * 4 + i)).map (·.dirty)).getD false

/-- Whether n bytes of an L1 line lie in an uncorrectable word (R74). -/
def L1Line.badAt (l : L1Line) (off n : Nat) : Bool := (List.range n).any fun i => l.bad.contains ((off + i) / 4)

/-- The lines of an L1 set: keys congruent modulo 64 (R57). -/
def Core.l1Set (c : Core) (key : Nat) : List (Nat × L1Line) := c.l1.cells.filter fun p => p.1 % 64 == key % 64

/-- The granules that serve as L1 (R56). -/
def Core.l1Ways (c : Core) : List Nat := (List.range 64).filter fun g => !c.lentOut.contains g

/-- The way for a new line: a free one, or that of the least recent line, keep lines last (R57, R80). -/
def Core.wayFor (c : Core) (key : Nat) : Nat × Option Nat :=
  let set := c.l1Set key
  match c.l1Ways.find? fun g => !(set.any fun p => p.2.way == g) with
  | some g => (g, none)
  | none =>
    match leastBy (fun p => (if p.2.keep then 2 ^ 64 else 0) + p.2.used) (set.filter fun p => c.l1Ways.contains p.2.way) with
    | some (k, l) => (l.way, some k)
    | none => (63, none)

/-- The use stamp of a line that is inserted, from the stamps of its set: the least with the stream hint (R80). -/
def insertStamp (hint : Nat) (l : List Nat) : Nat := if hint = 2 then 0 else newest l

/-- The use stamp of a line that is used: the stream hint leaves it as it was (R80, log 125). -/
def useStamp (hint old : Nat) (l : List Nat) : Nat := if hint = 2 then old else newest l

/-- An L1 line that is used with a hint. -/
def Core.touchL1 (c : Core) (key hint : Nat) (l : L1Line) : L1Line := { l with used := useStamp hint l.used ((c.l1Set key).map (·.2.used)) }

/-! ### Acknowledgements of a core's writes (R143, R403) -/

/-- Let the threads that wait for write-backs go when theirs are acknowledged. -/
def State.checkAcks (s : State) (core : Nat) : State :=
  let busy := (s.core core).inflight
  { s with threads := s.threads.map fun k t =>
      match t.status with
      | .waiting (.acks l) => if coreOf k == core && l.all (fun x => !busy.contains x) then t.go else t
      | _ => t }

/-- A write of a core to a line is acknowledged at its target. -/
def State.ackWrite (s : State) (core line : Nat) : State :=
  (s.updCore core fun c => { c with inflight := c.inflight.erase line }).checkAcks core

/-- Count a write of a core to a line as sent. -/
def State.sent (s : State) (core line : Nat) : State := (s.tagCore core line).updCore core fun c => { c with inflight := c.inflight ++ [line] }

/-! ### The remote-data cache (R75 to R78, R100, R108, R112) -/

/-! ### Dirty lines that prove uncorrectable (R316) -/

/-- An L1 line on its way home: when its dirty bytes prove uncorrectable, the context of its ASID ends (R316). -/
def State.leaveL1 (s : State) (key : Nat) (l : L1Line) : State :=
  if l.lost then s.endThose ((s.ctxOfAsid (key / 2 ^ 50)).map Prod.fst).toList else s

/-- Whether an RDC line that must reach its home has an uncorrectable unit among its dirty bytes or its delta (R316). -/
def RdcLine.lost (l : RdcLine) : Bool := l.bad.any fun u => (List.range 32).any fun i => ((l.bytes.get? (u * 32 + i)).map (·.dirty)).getD false

/-- An RDC line on its way home: when its dirty bytes prove uncorrectable, the contexts that map it end (R316, log 126). -/
def State.leaveRdc (s : State) (line : Nat) (l : RdcLine) : State := if l.lost then s.endThose (s.ctxsOf line) else s

/-- The units of an RDC line that are uncorrectable after bytes have been written: a unit written whole is good again (R74, log 122). -/
def unitsLeft (bad : List Nat) (b : LineBytes) : List Nat := bad.filter fun u => !unitWritten u 0 b

/-- The uncorrectable units of a line at its home, by number (R74). -/
def State.badUnits (s : State) (line : Nat) : List Nat := (List.range 4).filter fun u => s.mem.poison.contains (line * 4 + u)

/-- The key of an RDC line. -/
def rdcKey (die line : Nat) : Nat := die * 2 ^ 60 + line

/-- A line of a die's RDC; an unlisted one is in state I. -/
def State.rdcLine (s : State) (die line : Nat) : RdcLine := s.mem.rdc.getD (rdcKey die line) {}

/-- Put a line of a die's RDC; one in state I that waits for nothing is unlisted. -/
def State.setRdc (s : State) (die line : Nat) (l : RdcLine) : State :=
  s.updMem fun m => { m with rdc :=
    if l.st.isNone && l.wait.isNone && l.works.isEmpty then m.rdc.del (rdcKey die line) else m.rdc.put (rdcKey die line) l }

/-- Whether an event carries a die's bytes or delta of a line home. -/
def lineWriteOf (die line : Nat) : Instr → Bool
  | .wbm d l _ => d == die && l == line
  | .gatherData d l _ _ => d == die && l == line
  | .wbmU d l _ => d == die && l == line
  | .gatherDataU d l _ _ => d == die && l == line
  | .peerLinkRequest (.write d l _) => d == die && l == line
  | _ => false

/-- Whether an RDC slice or link port of a die has sent something for a line that is not finished (R180). -/
def State.dieBusy (s : State) (die line : Nat) : Bool := (s.rdcLine die line).wait.isSome || s.due.any (lineWriteOf die line)

/-- Record the tag of what a die sends for a line: that of the core's request it serves, else the current one (R179). -/
def State.tagDie (s : State) (die line : Nat) : State :=
  let tag := match (s.rdcLine die line).works with
    | w :: _ => let c := match w with | .fill f => f.core | .write c _ => c | .flush c _ _ => c
      (((s.core c).tags.getD line []).head?).getD s.curTag
    | [] => s.handTag
  s.updMem fun m => { m with rdcTags := addTag m.rdcTags (rdcKey die line) tag (s.dieBusy die line) }

/-- Send a request of an RDC slice to the home, the host or the peer (R95, R112, R153). -/
def State.rdcSend (s : State) (die line : Nat) (k : ReqKind) : State :=
  let s := s.tagDie die line
  if isHost line then s.post (.hostCacheData line [] (match k with | .rds => false | _ => true))
  else
    match k with
    | .rds => s.post (.rds die line false)
    | .rdm => s.post (.rdm die line false)
    | .upg => s.post (.upg die line false)
    | .rdg g => s.post (.rdg die line g false)
    | .rdsU => if isPeer line then s.post (.peerLinkRequest (.fetch die line)) else s.post (.rdsU die line)

/-- Write dirty bytes through to the home of an untracked line (R108, R153). -/
def State.writeThrough (s : State) (die line : Nat) (b : LineBytes) : State :=
  if b.isEmpty then s
  else (s.tagDie die line).post (if isPeer line then .peerLinkRequest (.write die line b) else .wbmU die line b)

/-- Evict an RDC line that waits for nothing (R88, R100, R112). -/
def State.evictRdc (s : State) (die line : Nat) (l : RdcLine) : State :=
  let gone : RdcLine := {}
  let s := s.leaveRdc line l
  match l.st with
  | some .g =>
    let k := l.kind.getD ⟨0, .n32⟩
    ((s.tagDie die line).setRdc die line gone).post
      (if l.self then .gatherDataU die line k (wholeLine l.bytes) else .gatherData die line (some (k, wholeLine l.bytes)) false)
  | some .m =>
    if l.self then (s.setRdc die line gone).writeThrough die line (dirtyOf l.bytes)
    else if isHost line then
      let s := s.setRdc die line gone
      if (dirtyOf l.bytes).isEmpty then s
      else (s.homeWrite (line * 128) (dirtyOf l.bytes)).post (.hostWriteAck line 512)
    else
      ((s.tagDie die line).setRdc die line { gone with wait := some .wbAck }).post (.wbm die line (dirtyOf l.bytes))
  | _ => s.setRdc die line gone

/-- The ways of an RDC set that a line may use (R75, R77). -/
def rdcWays (die line : Nat) : Nat := if isHost line then 4 else if die = 0 then 12 else 16

/-- Whether an RDC line holds a way of its set: it has a copy, or waits for its home or for a WbAck (R75, R78). -/
def RdcLine.holds (l : RdcLine) : Bool :=
  l.st.isSome || (match l.wait with | none | some (.room _) => false | _ => true)

/-- The other lines that hold ways of the set and section of an RDC line. -/
def State.rdcPeers (s : State) (die line : Nat) : List (Nat × RdcLine) :=
  s.mem.rdc.cells.filter fun p =>
    let x := p.1 % 2 ^ 60
    p.1 / 2 ^ 60 == die && x != line && sliceOf x == sliceOf line && rdcSet x == rdcSet line && isHost x == isHost line &&
      p.2.holds

/-- Make room for a line in its RDC set: the least recent line that waits for nothing leaves (R75, R80), but no host line with a monitor (R175); false while no way is free. -/
def State.roomRdc (s : State) (die line : Nat) : State × Bool :=
  let set := s.rdcPeers die line
  if (s.rdcLine die line).holds || set.length < rdcWays die line then (s, true)
  else
    match leastBy (fun p => p.2.used) (set.filter fun p => p.2.wait.isNone && !(isHost line && s.monitored (p.1 % 2 ^ 60))) with
    | some (k, l) =>
      let s := s.evictRdc die (k % 2 ^ 60) l
      (s, decide ((s.rdcPeers die line).length < rdcWays die line))
    | none => (s, false)

/-- An RDC line that is inserted or used with a hint (R80). -/
def State.stampRdc (s : State) (die line : Nat) (l : RdcLine) (hint : Nat := 0) : RdcLine :=
  let u := (s.rdcPeers die line).map (·.2.used)
  { l with used := if l.holds then useStamp hint l.used u else insertStamp hint u }

/-- Put written bytes into an RDC line, which then holds them dirty (R78). -/
def RdcLine.write (l : RdcLine) (b : LineBytes) : RdcLine := { l with st := some .m, bytes := writeBytes l.bytes b, bad := unitsLeft l.bad b }

/-- Keep an L1 request with a line that waits on the home (R100). -/
def State.holdWork (s : State) (die line : Nat) (w : LineWork) : State :=
  let l := s.rdcLine die line
  s.setRdc die line { l with works := l.works ++ [w] }

/-- The hint of an L1 request: only a fill carries one (R80). -/
def hintOfWork : LineWork → Nat
  | .fill f => f.hint
  | _ => 0

/-- Keep L1 requests with a line until a way of its set is free (R75): the line then sends a request, or serves them. -/
def State.waitRoom (s : State) (die line : Nat) (self : Bool) (k : Option ReqKind) (w : List LineWork) : State :=
  let l := s.rdcLine die line
  (s.setRdc die line { l with self := self, wait := some (.room k), works := l.works ++ w }).post (.retryBackoffExpiry die line)

/-- Request a line for L1 requests that then wait with it (R78, R100). A line that is not whole gives up its clean bytes, so that no read joins bytes of two fetches (R58, R130, log 127). -/
def State.askHome (s : State) (die line : Nat) (self : Bool) (k : ReqKind) (w : List LineWork) : State :=
  let (s, ok) := s.roomRdc die line
  if !ok then s.waitRoom die line self (some k) w
  else
    let l := s.rdcLine die line
    let l : RdcLine := { s.stampRdc die line l (((l.works ++ w).head?.map hintOfWork).getD 0) with
      self := self, gen := s.mem.rdcGen.getD die 0, wait := some (.data k 0), works := l.works ++ w
      bytes := if l.bytes.size = 128 then l.bytes else onlyDirty l.bytes }
    (s.setRdc die line l).rdcSend die line k

/-- Return a gather line to its home unasked (R88, R100). -/
def State.dropGather (s : State) (die line : Nat) (l : RdcLine) : State :=
  let k := l.kind.getD ⟨0, .n32⟩
  let s := ((s.leaveRdc line l).tagDie die line).setRdc die line { l with st := none, kind := none, bytes := FMap.empty, bad := [] }
  s.post (if l.self then .gatherDataU die line k (wholeLine l.bytes) else .gatherData die line (some (k, wholeLine l.bytes)) false)

/-- An L1 write-back or bypass store at its die's RDC, or at die 0's host section (R78, R100). A host line's bytes are performed at the section (R140): memory holds them too (log 21). -/
def State.rdcWrite (s : State) (die line : Nat) (self : Bool) (core : Nat) (b : LineBytes) : State :=
  let l := s.rdcLine die line
  if l.wait.isSome then s.holdWork die line (.write core b)
  else if self then
    let (s, ok) := (if l.st = some .g then s.dropGather die line l else s).roomRdc die line
    if !ok then s.waitRoom die line true none [.write core b]
    else
      let l := s.stampRdc die line (s.rdcLine die line)
      (s.setRdc die line ({ l with self := true }.write b)).ackWrite core line
  else
    match l.st with
    | some .m =>
      let s := s.setRdc die line ((s.stampRdc die line l).write b)
      (if isHost line then s.homeWrite (line * 128) b else s).ackWrite core line
    | some .s => s.askHome die line false (if isHost line then .rdm else .upg) [.write core b]
    | some .g => (s.dropGather die line l).askHome die line false .rdm [.write core b]
    | none => s.askHome die line false .rdm [.write core b]

/-- A gather line of an RDC holding a delta. -/
def gatherLine (l : RdcLine) (self : Bool) (k : RedKind) (delta : List Byte) : RdcLine :=
  { l with st := some .g, self := self, kind := some k, bytes := deltaBytes delta, bad := [] }

/-- An L1 G flush at its die's RDC (R86, R88, R100). -/
def State.rdcFlush (s : State) (die line : Nat) (self : Bool) (core : Nat) (k : RedKind) (delta : List Byte) : State :=
  let l := s.rdcLine die line
  if l.wait.isSome then s.holdWork die line (.flush core k delta)
  else if l.st = some .g ∧ l.kind = some k then
    let s := s.setRdc die line { s.stampRdc die line l with bytes := deltaBytes (k.join (wholeLine l.bytes) delta) }
    s.ackWrite core line
  else if self then
    let s := match l.st with
      | some .g => s.dropGather die line l
      | some _ => s.evictRdc die line l
      | none => s
    let (s, ok) := s.roomRdc die line
    if !ok then s.waitRoom die line true none [.flush core k delta]
    else (s.setRdc die line (s.stampRdc die line (gatherLine {} true k delta))).ackWrite core line
  else
    match l.st with
    | some .m =>
      let s := ((s.leaveRdc line l).tagDie die line).setRdc die line { l with st := none, bytes := FMap.empty, wait := some .wbAck, works := [.flush core k delta] }
      s.post (.wbm die line (dirtyOf l.bytes))
    | some .g => (s.dropGather die line l).askHome die line false (.rdg k) [.flush core k delta]
    | _ => (s.setRdc die line {}).askHome die line false (.rdg k) [.flush core k delta]

/-! ### Write-backs and flushes of an L1 line (R58, R60, R86, R110) -/

/-- Send bytes of a line to where a core's write-backs of it go (R60, R110, R143). -/
def State.sendWrite (s : State) (core line : Nat) (mode : Mode) (b : LineBytes) : State :=
  if b.isEmpty then s
  else
    let s := s.sent core line
    if isHost line then
      if mode = .nc then (s.homeWrite (line * 128) b).post (.hostWriteAck line core) else s.rdcWrite 0 line false core b
    else if mode = .nc ∨ (isHbm line ∧ homeDie line = dieOf core) then s.post (.homeDieAccess line (.write core b) false)
    else s.rdcWrite (dieOf core) line (mode == .self) core b

/-- Send a delta to where a core's flushes of the line go (R86). -/
def State.sendFlush (s : State) (core line : Nat) (mode : Mode) (k : RedKind) (delta : List Byte) : State :=
  let s := s.sent core line
  if homeDie line = dieOf core then s.post (.homeDieAccess line (.flush core k delta) false)
  else s.rdcFlush (dieOf core) line (mode == .self) core k delta

/-- Evict an L1 line: its dirty bytes or its delta are sent (R58, R86). -/
def State.evictL1 (s : State) (core key : Nat) : State :=
  match (s.core core).l1.get? key with
  | none => s
  | some l =>
    let s := (s.updCore core fun c => { c with l1 := c.l1.del key }).leaveL1 key l
    match l.gath with
    | some k => s.sendFlush core l.line l.mode k (wholeLine l.bytes)
    | none => s.sendWrite core l.line l.mode (dirtyOf l.bytes)

/-- Write a line back and leave it valid and clean; a gather line is flushed (R143, R403). -/
def State.cleanL1 (s : State) (core key : Nat) : State :=
  match (s.core core).l1.get? key with
  | none => s
  | some l =>
    if l.gath.isSome then s.evictL1 core key
    else
      let s := (s.updCore core fun c => { c with l1 := c.l1.put key { l with bytes := cleanBytes l.bytes } }).leaveL1 key l
      s.sendWrite core l.line l.mode (dirtyOf l.bytes)

/-- Step 1 of the giving reconciliation: every non-NC line is written back, every G line flushed (R143). -/
def State.writeBackAll (s : State) (core : Nat) : State :=
  ((s.core core).l1.cells.filter fun p => p.2.mode != .nc).foldl (fun s p => s.cleanL1 core p.1) s

/-- Evict the copies of a physical line that a core holds under other keys (R40). -/
def State.evictSynonyms (s : State) (core key line : Nat) : State :=
  ((s.core core).l1.cells.filter fun p => p.2.line == line && p.1 != key).foldl (fun s p => s.evictL1 core p.1) s

/-- Evict every copy of a physical line that a core holds (R85, R140). -/
def State.evictPhysical (s : State) (core line : Nat) : State :=
  ((s.core core).l1.cells.filter fun p => p.2.line == line).foldl (fun s p => s.evictL1 core p.1) s

/-- Allocate an L1 line: a victim leaves first (R57, R58). -/
def State.allocL1 (s : State) (core key : Nat) (l : L1Line) (hint : Nat) : State :=
  let (w, v) := (s.core core).wayFor key
  let s := match v with | some k => s.evictL1 core k | none => s
  s.updCore core fun c =>
    { c with l1 := c.l1.put key { l with way := w, used := insertStamp hint ((c.l1Set key).map (·.2.used)), keep := hint == 1 } }

/-! ### Fills and the loads they serve (R58, R74, R249) -/

/-- The value of a load: the bytes taken at issue over the bytes of the fill, widened to its TYPE (R222, R388). -/
def loadValue (d : LoadDone) (line : List Byte) : Nat :=
  let raw := natOf ((List.range d.width).map fun i => (d.got.lookup (d.off + i)).getD (line.getD (d.off + i) 0))
  if d.x2 || d.width = 16 then raw else extendTo d.ty raw

/-- Whether a load takes a byte of a fill from an uncorrectable unit (R74, R261). -/
def LoadDone.bad (d : LoadDone) (units : List Nat) : Bool :=
  (List.range d.width).any fun i => (d.got.lookup (d.off + i)).isNone && units.contains ((d.off + i) / 32)

/-- Return a load's value (R257), or its uncorrectable unit (R261). -/
def State.deliver (s : State) (bytes : List Byte) (bad : LoadDone → Bool) : Option LoadDone → State
  | none => s
  | some d => s.post (.pendingValueArrival d.tids d.late (loadValue d bytes) (if bad d then some d.ea else none))

/-- Whether a fill may be kept: no write of the core to the line is on its way (R125), and the line is good (R74). -/
def State.fillable (s : State) (f : Fill) (bad : List Nat) : Bool := !(s.core f.core).inflight.contains f.line && bad.isEmpty

/-- Keep a line that arrives at an L1: an older copy under another address leaves first (R40, R55); the invalid bytes are filled (R58, R80, R145). -/
def State.keepFill (s : State) (f : Fill) (bytes : List Byte) (bad : List Nat) : State :=
  let key := l1Key f.asid (f.vline * 128)
  match (s.core f.core).l1.get? key with
  | some l =>
    if l.gath.isSome || l.line != f.line || !s.fillable f bad then s
    else s.updCore f.core fun c =>
      { c with l1 := c.l1.put key { c.touchL1 key f.hint l with bytes := fillBytes l.bytes (l.stale c.gen) bytes, gen := c.gen } }
  | none =>
    if f.hint = 3 then s
    else
      let s := s.evictSynonyms f.core key f.line
      if !s.fillable f bad then s
      else s.allocL1 f.core key
        { line := f.line, mode := f.mode, r := f.r, w := f.w, red := f.red, gen := (s.core f.core).gen
          bytes := fillBytes FMap.empty false bytes } f.hint

/-- A line arrives at an L1: the loads and prefetches that wait for it are served in the order of their issue (R58, R121). -/
def State.fillL1 (s : State) (f : Fill) (bytes : List Byte) (bad : List Nat) : State :=
  let l := (s.core f.core).misses.getD f.line [f]
  let s := s.updCore f.core fun c => { c with misses := c.misses.del f.line }
  l.foldl (fun (s : State) g => (s.keepFill g bytes bad).deliver bytes (LoadDone.bad · bad) g.load) s

/-- An L1 read miss at its die's RDC, or at die 0's host section (R78, R100). -/
def State.rdcFill (s : State) (die line : Nat) (self : Bool) (f : Fill) : State :=
  let l := s.rdcLine die line
  if l.wait.isSome then s.holdWork die line (.fill f)
  else
    match l.st with
    | some .g => (s.dropGather die line l).askHome die line self (if self then .rdsU else .rds) [.fill f]
    | none => s.askHome die line self (if self then .rdsU else .rds) [.fill f]
    | some _ =>
      if l.bytes.size = 128 then (s.setRdc die line (s.stampRdc die line l f.hint)).fillL1 f (wholeLine l.bytes) l.bad
      else s.askHome die line self (if self then .rdsU else .rds) [.fill f]

/-- Serve an L1 request at an RDC. -/
def State.rdcWork (s : State) (die line : Nat) (self : Bool) : LineWork → State
  | .fill f => s.rdcFill die line self f
  | .write core b => s.rdcWrite die line self core b
  | .flush core k d => s.rdcFlush die line self core k d

/-- The home has answered: the L1 requests that waited with the line are served in order (R100). -/
def State.rdcReady (s : State) (die line : Nat) (l : RdcLine) : State :=
  let s := s.setRdc die line { l with wait := none, works := [] }
  l.works.foldl (fun s w => s.rdcWork die line l.self w) s

/-! ### Messages that an RDC receives (R95 to R101) -/

/-- DATA (R100, R107): the line with its grant. An untracked line whose die has self-invalidated since is asked for again (R108). -/
def State.rdcData (s : State) (die line : Nat) (bytes : List Byte) (m : Bool) : State :=
  let l := s.rdcLine die line
  match l.wait with
  | some (.data k _) =>
    if k = .rdsU ∧ l.gen ≠ s.mem.rdcGen.getD die 0 then
      (s.setRdc die line { l with gen := s.mem.rdcGen.getD die 0 }).rdcSend die line .rdsU
    else
      let b := fillBytes l.bytes false bytes
      s.rdcReady die line { l with bytes := b, st := some (if m || !(dirtyOf b).isEmpty then .m else .s), bad := s.badUnits line }
  | _ => s

/-- DATA. -/
def execData (die line : Nat) (bytes : List Byte) (m : Bool) (s : State) : Out := .next (s.rdcData die line bytes m)

/-- GRANT (R100): M without data, or G. -/
def State.rdcGrant (s : State) (die line : Nat) (m : Bool) : State :=
  let l := s.rdcLine die line
  match l.wait with
  | some (.data (.rdg k) _) => s.rdcReady die line { gatherLine l false k k.blank with wait := none }
  | some (.data _ _) => if m then s.rdcReady die line { l with st := some .m } else s
  | _ => s

/-- GRANT. -/
def execGrant (die line : Nat) (m : Bool) (s : State) : Out := .next (s.rdcGrant die line m)

/-- WB_ACK (R100, R108): a WbM has been merged. -/
def execWbAck (die line : Nat) (s : State) : Out :=
  .next (let l := s.rdcLine die line
    if l.wait = some .wbAck then s.rdcReady die line l else s)

/-- INV (R100, R101): the copy is dropped; the owner's dirty bytes go with the answer. -/
def State.rdcInv (s : State) (die line : Nat) : State :=
  let l := s.rdcLine die line
  let s' := (s.leaveRdc line l).setRdc die line { l with st := none, kind := none, bytes := FMap.empty, bad := [] }
  match l.st with
  | some .m => s'.post (.invAck die line (some (dirtyOf l.bytes)))
  | some .s => s'.post (.invAck die line none)
  | _ => s.post (.invAck die line none)

/-- INV. -/
def execInv (die line : Nat) (_owner : Bool) (s : State) : Out := .next (s.rdcInv die line)

/-- The cores of a die whose L1 holds a gather line of a kind for a physical line, ascending. -/
def State.gatherers (s : State) (die line : Nat) (k : RedKind) : List (Nat × Nat × L1Line) :=
  (s.cores.cells.filter fun p => dieOf p.1 == die).flatMap fun p =>
    (p.2.l1.cells.filter fun q => q.2.line == line && q.2.gath == some k).map fun q => (p.1, q.1, q.2)

/-- Take the deltas of a kind for a line out of a die's L1s, combined into one in ascending core order (R87). -/
def State.takeDeltas (s : State) (die line : Nat) (k : RedKind) (acc : List Byte) : State × List Byte :=
  (s.gatherers die line k).foldl (fun (s, acc) p =>
    ((s.updCore p.1 fun c => { c with l1 := c.l1.del p.2.1 }).leaveL1 p.2.1 p.2.2, k.join acc (wholeLine p.2.2.bytes))) (s, acc)

/-- GATHER_RECALL (R87, R100): the deltas of the die's cores join the line's, and it is returned. -/
def State.rdcRecall (s : State) (die line : Nat) : State :=
  let l := s.rdcLine die line
  match l.st, l.kind with
  | some .g, some k =>
    let (s, d) := s.takeDeltas die line k (wholeLine l.bytes)
    let l := s.rdcLine die line
    ((s.leaveRdc line l).setRdc die line { l with st := none, kind := none, bytes := FMap.empty, bad := [] }).post (.gatherData die line (some (k, d)) true)
  | some .s, _ =>
    (s.setRdc die line { l with st := none, bytes := FMap.empty, bad := [] }).post (.gatherData die line none true)
  | _, _ => s.post (.gatherData die line none true)

/-- GATHER_RECALL. -/
def execGatherRecall (die line : Nat) (s : State) : Out := .next (s.rdcRecall die line)

/-- RETRY (R97): the requester starts its back-off. -/
def execRetry (die line : Nat) (k : ReqKind) (s : State) : Out :=
  .next (let l := s.rdcLine die line
    match l.wait with
    | some (.data _ n) => (s.setRdc die line { l with wait := some (.backoff k (n + 1)) }).post (.retryBackoffExpiry die line)
    | _ => s)

/-- A line that waits for a way looks again: it then sends its request, or serves what waits with it (R75, R78). -/
def State.tryRoom (s : State) (die line : Nat) (k : Option ReqKind) : State :=
  let (s, ok) := s.roomRdc die line
  let l := s.rdcLine die line
  if !ok then s.post (.retryBackoffExpiry die line)
  else
    match k with
    | some k => (s.setRdc die line { l with wait := none }).askHome die line l.self k []
    | none => s.rdcReady die line l

/-- RETRY_BACKOFF_EXPIRY (R97): the request is sent again. A line that waits for a way of its set looks again (R75). -/
def execRetryBackoffExpiry (die line : Nat) (s : State) : Out :=
  .next (let l := s.rdcLine die line
    match l.wait with
    | some (.backoff k n) =>
      let k := if k = .upg ∧ l.st ≠ some .s then .rdm else k
      (s.setRdc die line { l with wait := some (.data k n) }).rdcSend die line k
    | some (.room k) => s.tryRoom die line k
    | _ => s)

/-! ### Reconciliation of a die (R108, R143) -/

/-- Steps 1 and 2 of R108: every untracked M and G line of a die is written through. -/
def State.dieWriteThrough (s : State) (die : Nat) : State :=
  (s.mem.rdc.cells.filter fun p => p.1 / 2 ^ 60 == die && p.2.self).foldl (fun s p =>
    let line := p.1 % 2 ^ 60
    match p.2.st with
    | some .g => s.dropGather die line p.2
    | some .m =>
      ((s.leaveRdc line p.2).setRdc die line { p.2 with bytes := cleanBytes p.2.bytes, st := some .s }).writeThrough die line (dirtyOf p.2.bytes)
    | _ => s) s

/-- Whether an event is an untracked write of a die on its way, or its acknowledgement. -/
def dieWriteOf (die : Nat) : Instr → Bool
  | .wbmU d _ _ => d == die
  | .gatherDataU d _ _ _ => d == die
  | .peerLinkRequest (.write d _ _) => d == die
  | _ => false

/-- Whether every untracked write of a die has been merged at its home (R108). -/
def State.dieQuiet (s : State) (die : Nat) : Bool := !s.due.any (dieWriteOf die)

end Sys2Proof.Machine
end

