-- ==== Sys2Proof/Machine/Home.lean ====
section
/-!
DEFINITION. The home slices: directory transitions, invalidations, gather recalls, directory victims, untracked and host requests (R70 to R72, R87, R90 to R107, R114), and the settled view of a line at one instant.
-/
namespace Sys2Proof.Machine

/-! ### Directory entries (R92, R93, R102) -/

/-- A line's directory entry; an unlisted line is in state I. -/
def State.home (s : State) (line : Nat) : HomeLine := s.mem.homes.getD line {}

/-- Put a directory entry; a line in state I with nothing in progress is unlisted (R92). -/
def State.setHome (s : State) (line : Nat) (h : HomeLine) : State :=
  s.updMem fun m => { m with homes :=
    if h.st.isNone && h.txn.isNone && h.queue.isEmpty && !h.resv then m.homes.del line else m.homes.put line h }

/-- The entries of the directory set of a line (R92); a freed entry that is kept for a stalled request counts (R103). -/
def State.dirEntries (s : State) (line : Nat) : List (Nat × HomeLine) :=
  s.mem.homes.cells.filter fun p =>
    (p.2.st.isSome || p.2.resv) && homeDie p.1 == homeDie line && sliceOf p.1 == sliceOf line && dirSet p.1 == dirSet line

/-- A least-recent-use stamp for an entry used now: other dies' requests and host reads use an entry (R102, log 128). -/
def State.dirStamp (s : State) (line : Nat) : Nat := newest ((s.dirEntries line).map (·.2.used))

/-- The number of requests that wait behind busy lines of a slice (R97). -/
def State.sliceQueued (s : State) (line : Nat) : Nat :=
  ((s.mem.homes.cells.filter fun p => homeDie p.1 == homeDie line && sliceOf p.1 == sliceOf line).map fun p =>
    (p.2.queue.filter fun e => match e with | .homeDieAccess _ _ _ => false | _ => true).length).foldl (· + ·) 0

/-- Insert a die into an ascending mask. -/
def insertDie (d : Nat) : List Nat → List Nat
  | [] => [d]
  | x :: r => if d = x then x :: r else if d < x then d :: x :: r else x :: insertDie d r

/-- A request re-presented from the queue of its line. -/
def asServed : Instr → Instr
  | .homeDieAccess l w _ => .homeDieAccess l w true
  | .rds d l _ => .rds d l true
  | .rdm d l _ => .rdm d l true
  | .upg d l _ => .upg d l true
  | .rdg d l k _ => .rdg d l k true
  | e => e

/-- The line of a request that a home queues. -/
def reqLine : Instr → Nat
  | .homeDieAccess l _ _ => l
  | .rds _ l _ => l
  | .rdm _ l _ => l
  | .upg _ l _ => l
  | .rdg _ l _ _ => l
  | .hostMemrd l _ => l
  | _ => 0

/-- The line is kept for the next queued request, which is presented (R97). -/
def State.nextQueued (s : State) (line : Nat) : State :=
  let h := s.home line
  match h.txn, h.queue with
  | none, e :: r => (s.setHome line { h with queue := r, txn := some { wait := [], after := .handoff } }).post (asServed e)
  | _, _ => s

/-- Queue a request behind a busy line. -/
def State.queueAt (s : State) (line : Nat) (e : Instr) : State :=
  let h := s.home line
  s.setHome line { h with queue := h.queue ++ [e] }

/-! ### The home cache (R71, R72) -/

/-- HBM_READ_RETURN (R72): the read of an allocated line has returned, so that no request is outstanding on it for that. -/
def execHbmReadReturn (line : Nat) (s : State) : Out :=
  .next (s.updMem fun m => { m with hcache := m.hcache.adjust line fun h => { h with reading := false } })

/-! ### Gather deltas at the home (R87, R106) -/

/-- The bytes of a line of memory. -/
def State.lineBytes (s : State) (line : Nat) : List Byte := s.mem.bytes.readN (line * 128) 128

/-- Apply a delta at the home (R84). -/
def State.applyDelta (s : State) (line : Nat) (k : RedKind) (d : List Byte) : State :=
  s.homeWrite (line * 128) (k.apply (s.lineBytes line) d)

/-- The key of a slice. -/
def sliceKey (line : Nat) : Nat := homeDie line * 64 + sliceOf line

/-- A core that holds no gather line of a slice leaves its gather mask on request (R87). -/
def State.trimMask (s : State) (line core : Nat) : State :=
  if (s.core core).l1.any fun _ l => l.gath.isSome && sliceKey l.line == sliceKey line && homeDie l.line == dieOf core then s
  else s.updMem fun m => { m with gmask := m.gmask.adjust (sliceKey line) fun l => l.filter (· != core) }

/-- The COH deltas of a line that a core of the gather mask holds. -/
def State.deltasOf (s : State) (line core : Nat) : List (Nat × L1Line) :=
  (s.core core).l1.cells.filter fun p => p.2.line == line && p.2.mode == .coh && p.2.gath.isSome

/-- Whether home-die cores hold COH deltas of a line (R87, R105). -/
def State.hasLocal (s : State) (line : Nat) : Bool :=
  isHbm line && (s.mem.gmask.getD (sliceKey line) []).any fun c => !(s.deltasOf line c).isEmpty

/-- The home-die cores of the gather mask flush their COH deltas of a line, in ascending core order (R87, R106). -/
def State.recallLocal (s : State) (line : Nat) : State :=
  if !isHbm line then s
  else (s.mem.gmask.getD (sliceKey line) []).foldl (fun s c =>
    let s := (s.deltasOf line c).foldl (fun s p =>
      ((s.updCore c fun x => { x with l1 := x.l1.del p.1 }).leaveL1 p.1 p.2).applyDelta line (p.2.gath.getD ⟨0, .n32⟩) (wholeLine p.2.bytes)) s
    s.trimMask line c) s

/-- Insert a returned delta by die. -/
def insertDelta (x : Nat × RedKind × List Byte) : List (Nat × RedKind × List Byte) → List (Nat × RedKind × List Byte)
  | [] => [x]
  | y :: r => if x.1 < y.1 then x :: y :: r else y :: insertDelta x r

/-! ### Transactions (R96 to R101) -/

/-- Send invalidations to holders: Inv to dies, BISnpInv to the host, which answers BIRsp (R96, R114). -/
def State.sendInvs (s : State) (line : Nat) (owner : Bool) (l : List Nat) : State :=
  l.foldl (fun s d => s.post (if d = 4 then .birsp line none else .inv d line owner)) s

/-- What follows when every answer of a line's transaction has arrived (R98). The entry of a victim is kept for the request that needed it (R103). -/
def State.homeDone (s : State) (line : Nat) : State :=
  let h := s.home line
  match h.txn with
  | none => s
  | some t =>
    if !t.wait.isEmpty then s
    else
      let s := t.gath.foldl (fun s p => s.applyDelta line p.2.1 p.2.2) s
      let h : HomeLine := { h with st := none, mask := [], kind := none, txn := none }
      let owned (d : Nat) : HomeLine := { h with st := some .e, mask := [d], used := s.dirStamp line }
      let s := match t.after with
        | .handoff | .host => s
        | .idle => (s.setHome line h).nextQueued line
        | .again req =>
          if reqLine req = line then (s.setHome line { h with txn := some { wait := [], after := .handoff } }).post (asServed req)
          else
            let s := (s.setHome line h).nextQueued line
            (s.setHome (reqLine req) { s.home (reqLine req) with resv := true }).post (asServed req)
        | .grantM d => ((s.setHome line (owned d)).post (.grant d line true)).nextQueued line
        | .grantG d k =>
          ((s.setHome line { h with st := some .g, mask := [d], kind := some k, used := s.dirStamp line }).post
            (.grant d line false)).nextQueued line
        | .sendM d =>
          let s := s.setHome line (owned d)
          (if d = 4 then s else s.post (.data d line (s.lineBytes line) true)).nextQueued line
      t.fin.foldl State.post (t.acks.foldl (fun s c => s.ackWrite c line) s)

/-- Start a transaction that invalidates holders. -/
def State.startInv (s : State) (line : Nat) (l : List Nat) (owner serves : Bool) (acks : List Nat) (a : After) : State :=
  let h := s.home line
  let s := s.setHome line { h with txn := some { wait := l, after := a, serves := serves, acks := acks } }
  (s.sendInvs line owner l).homeDone line

/-- Start a gather recall (R106). -/
def State.startRecall (s : State) (line : Nat) (a : After) : State :=
  let s := s.recallLocal line
  let h := s.home line
  let s := s.setHome line { h with txn := some { wait := h.mask, after := a } }
  (h.mask.foldl (fun s d => s.post (.gatherRecall d line)) s).homeDone line

/-- Take a line's copies back, by its state (R98, R103). -/
def State.takeBack (s : State) (line : Nat) (serves : Bool) (a : After) : State :=
  let h := s.home line
  match h.st with
  | some .e => s.startInv line h.mask true false [] a
  | some .g => s.startRecall line a
  | _ => s.startInv line h.mask false serves [] a

/-- The directory victim of a full set (R102): least recent in S or G, else in E, not busy. -/
def State.dirVictim (s : State) (line : Nat) : Option Nat :=
  let l := (s.dirEntries line).filter fun p => p.2.txn.isNone && p.1 != line
  ((leastBy (fun p => p.2.used) (l.filter fun p => p.2.st != some .e)).or (leastBy (fun p => p.2.used) l)).map Prod.fst

/-- Count a back-invalidation (R104). -/
def State.countDirbi (s : State) (die : Nat) : State :=
  s.updFw fun w => { w with dirbi := w.dirbi.put die ((w.dirbi.getD die 0 + 1) % 2 ^ 48) }

/-- Back-invalidate a victim (R103). -/
def State.backInvalidate (s : State) (victim : Nat) (a : After) : State :=
  (s.countDirbi (homeDie victim)).takeBack victim true a

/-- Serve a request in state I with an entry free (R98). -/
def State.grantNew (s : State) (line d : Nat) (k : ReqKind) : State :=
  let h := { s.home line with txn := none, resv := false, mask := [d], used := s.dirStamp line }
  let b := s.lineBytes line
  let s := match k with
    | .rds => (s.setHome line { h with st := some .s }).post (.data d line b false)
    | .rdg g => (s.setHome line { h with st := some .g, kind := some g }).post (.grant d line false)
    | _ => (s.setHome line { h with st := some .e }).post (.data d line b true)
  s.nextQueued line

/-- Serve a request in state I (R98, R102, R103). -/
def State.fromIdle (s : State) (line d : Nat) (k : ReqKind) (req : Instr) : State :=
  if (s.home line).resv || (s.dirEntries line).length < 16 then (s.recallLocal line).grantNew line d k
  else
    match s.dirVictim line with
    | some v =>
      let h := s.home line
      (s.setHome line { h with txn := some { wait := [], after := .handoff } }).backInvalidate v (.again req)
    | none => (s.nextQueued line).post (.retry d line k)

/-- The hint of the access that an RDC's request is for (R80). -/
def State.reqHint (s : State) (die line : Nat) : Nat := ((s.rdcLine die line).works.head?.map hintOfWork).getD 0

/-- A request from another die (R97, R98). Deltas that home-die cores hold of a shared line are recalled first, and are a write of it (R87, R106). -/
def State.homeRequest (s : State) (line d : Nat) (k : ReqKind) (req : Instr) (served : Bool) : State :=
  let h := s.home line
  if h.txn.isSome && !served then
    if s.sliceQueued line < 16 then s.queueAt line req else s.post (.retry d line k)
  else
    let h := { h with txn := none, used := s.dirStamp line }
    let s := (s.setHome line h).touchHome line (s.reqHint d line)
    let others := h.mask.filter (· != d)
    if h.st == some .s && s.hasLocal line then (s.recallLocal line).startInv line h.mask false false [] (.again req)
    else match h.st, k with
    | none, _ => s.fromIdle line d k req
    | some .s, .rds => ((s.setHome line { h with mask := insertDie d h.mask }).post (.data d line (s.lineBytes line) false)).nextQueued line
    | some .s, .rdg g => s.startInv line others false false [] (.grantG d g)
    | some .s, .upg => s.startInv line others false false [] (if h.mask.contains d then .grantM d else .sendM d)
    | some .s, _ => s.startInv line others false false [] (.sendM d)
    | some .g, .rdg g =>
      if h.kind = some g then
        ((s.setHome line { h with mask := insertDie d h.mask }).post (.grant d line false)).nextQueued line
      else s.startRecall line (.again req)
    | some .g, _ => s.startRecall line (.again req)
    | some .e, _ => s.startInv line h.mask true false [] (.again req)

/-- RDS. -/
def execRds (die line : Nat) (served : Bool) (s : State) : Out := .next (s.homeRequest line die .rds (.rds die line false) served)
/-- RDM. -/
def execRdm (die line : Nat) (served : Bool) (s : State) : Out := .next (s.homeRequest line die .rdm (.rdm die line false) served)
/-- UPG. -/
def execUpg (die line : Nat) (served : Bool) (s : State) : Out := .next (s.homeRequest line die .upg (.upg die line false) served)
/-- RDG. -/
def execRdg (die line : Nat) (k : RedKind) (served : Bool) (s : State) : Out :=
  .next (s.homeRequest line die (.rdg k) (.rdg die line k false) served)

/-! ### Home-die accesses (R90, R98, R99) -/

/-- Whether a home-die access is a read. -/
def isFill : LineWork → Bool
  | .fill _ => true
  | _ => false

/-- The core of a home-die access. -/
def workCore : LineWork → Nat
  | .fill f => f.core
  | .write c _ => c
  | .flush c _ _ => c

/-- Perform a home-die access at the slice. -/
def State.atSlice (s : State) (line : Nat) (w : LineWork) : State :=
  match w with
  | .fill f => let s := s.recallLocal line; s.fillL1 f (s.lineBytes line) (s.badUnits line)
  | .write _ b => (s.recallLocal line).homeWrite (line * 128) b
  | .flush _ k d => s.applyDelta line k d

/-- The acknowledgement of a home-die write. -/
def State.ackWork (s : State) (line : Nat) (w : LineWork) : State := if isFill w then s else s.ackWrite (workCore w) line

/-- Whether a line's queue holds an access of a core. -/
def HomeLine.queues (h : HomeLine) (core : Nat) : Bool :=
  h.queue.any fun e => match e with | .homeDieAccess _ w _ => workCore w == core | _ => false

/-- Cores whose writes are acknowledged with a line's last InvAck (R99). -/
def State.ackLater (s : State) (line : Nat) (l : List Nat) : State :=
  let h := s.home line
  s.setHome line { h with txn := h.txn.map fun t => { t with acks := t.acks ++ l } }

/-- HOME_DIE_ACCESS (R98, R99). A write in state S is performed at once and acknowledged with its last InvAck. A busy line lets a core's access by only when none of that core's waits in the line's queue (R125, log 129). -/
def State.homeAccess (s : State) (line : Nat) (w : LineWork) (served : Bool) : State :=
  let h := s.home line
  let req : Instr := .homeDieAccess line w false
  match (if served then none else h.txn) with
  | some t =>
    let pass := t.serves && !h.queues (workCore w)
    if pass && isFill w then s.atSlice line w
    else if pass && t.after == .idle then (s.atSlice line w).ackLater line [workCore w]
    else s.queueAt line req
  | none =>
    let s := (s.setHome line { h with txn := none }).touchHome line (hintOfWork w)
    match h.st with
    | none => ((s.atSlice line w).ackWork line w).nextQueued line
    | some .s =>
      if isFill w then
        if s.hasLocal line then ((s.recallLocal line).startInv line h.mask false true [] .idle).atSlice line w
        else (s.atSlice line w).nextQueued line
      else (s.atSlice line w).startInv line h.mask false true [workCore w] .idle
    | some .e => s.startInv line h.mask true false [] (.again req)
    | some .g =>
      match w with
      | .flush _ k _ => if h.kind = some k then ((s.atSlice line w).ackWork line w).nextQueued line else s.startRecall line (.again req)
      | _ => s.startRecall line (.again req)

/-- HOME_DIE_ACCESS. -/
def execHomeDieAccess (line : Nat) (w : LineWork) (served : Bool) (s : State) : Out := .next (s.homeAccess line w served)

/-- Count a core's cell write to a shared line as in flight until its invalidations are acknowledged (R99, R143). -/
def State.owesAcks (s : State) (line : Nat) : Option Nat → State
  | some core => (s.sent core line).ackLater line [core]
  | none => s

/-- Make a line ready for a cell operation, or a host or peer access, at the slice; false while it must wait. A write to a shared line is performed now, and the line is busy until its invalidations are acknowledged (R99, R141). Accesses of other dies' cores and .total accesses wait for outstanding invalidations (R99, R152). -/
def State.cellTurn (s : State) (line : Nat) (write total : Bool) (core : Option Nat) : State × Bool :=
  let h := s.home line
  match h.txn with
  | some t =>
    let far := core.any fun c => dieOf c != homeDie line
    if t.serves && !total && !far && (t.after == .idle || !write) then
      let s := (s.recallLocal line).touchHome line
      (if write then s.owesAcks line core else s, true)
    else (s, false)
  | none =>
    let s := s.touchHome line
    match h.st with
    | none => (s.recallLocal line, true)
    | some .s =>
      if write then ((((s.recallLocal line).startInv line h.mask false true [] .idle).owesAcks line core), true)
      else if s.hasLocal line then ((s.recallLocal line).startInv line h.mask false true [] .idle, !total && !(core.any fun c => dieOf c != homeDie line))
      else (s, true)
    | _ => (s.takeBack line false .idle, false)

/-! ### Answers and write-backs that the home receives (R98, R101, R106) -/

/-- Collect an answer; returned bytes are merged. -/
def State.invAnswer (s : State) (die line : Nat) (b : Option LineBytes) : State :=
  let h := s.home line
  match h.txn with
  | some t =>
    if t.wait.contains die then
      let s := s.homeWrite (line * 128) (b.getD [])
      let h := s.home line
      (s.setHome line { h with txn := h.txn.map fun t => { t with wait := t.wait.erase die } }).homeDone line
    else s
  | none => s

/-- INV_ACK. -/
def execInvAck (die line : Nat) (b : Option LineBytes) (s : State) : Out := .next (s.invAnswer die line b)

/-- BIRSP (R114). -/
def execBirsp (line : Nat) (b : Option LineBytes) (s : State) : Out := .next (s.invAnswer 4 line b)

/-- WBM (R98, R101): the bytes are merged and acknowledged, in a transaction or not. -/
def execWbm (die line : Nat) (b : LineBytes) (s : State) : Out :=
  .next (let s := (s.homeWrite (line * 128) b).post (.wbAck die line)
    let h := s.home line
    if h.txn.isNone && h.st == some .e && h.mask == [die] then (s.setHome line { h with st := none, mask := [] }).nextQueued line
    else s)

/-- A die leaves a line's gather, unasked (R98). -/
def HomeLine.leaves (h : HomeLine) (die : Nat) : HomeLine :=
  if h.st = some .g then
    let m := h.mask.erase die
    { h with mask := m, st := if m.isEmpty then none else some .g, kind := if m.isEmpty then none else h.kind }
  else h

/-- GATHER_DATA (R98, R101, R106): an unsolicited delta is applied, and its die leaves the mask; or it joins a recall in progress. -/
def State.gatherAnswer (s : State) (die line : Nat) (d : Option (RedKind × List Byte)) (asked : Bool) : State :=
  let h := s.home line
  match h.txn with
  | some t =>
    if t.wait.contains die then
      let t := { t with
        gath := match d with | some (k, x) => insertDelta (die, k, x) t.gath | none => t.gath
        wait := if asked then t.wait.erase die else t.wait }
      (s.setHome line { h with txn := some t }).homeDone line
    else match d with
      | some (k, x) => let s := s.applyDelta line k x; s.setHome line ((s.home line).leaves die)
      | none => s
  | none =>
    match d with
    | some (k, x) =>
      let s := s.applyDelta line k x
      (s.setHome line ((s.home line).leaves die)).nextQueued line
    | none => s

/-- GATHER_DATA. -/
def execGatherData (die line : Nat) (d : Option (RedKind × List Byte)) (asked : Bool) (s : State) : Out :=
  .next (s.gatherAnswer die line d asked)

/-! ### Untracked requests (R107 to R109) -/

/-- RDS_U (R107): Data, and nothing recorded. -/
def execRdsU (die line : Nat) (s : State) : Out := .next ((s.touchHome line (s.reqHint die line)).post (.data die line (s.lineBytes line) false))

/-- WBM_U (R108): the bytes are merged. -/
def execWbmU (die line : Nat) (b : LineBytes) (s : State) : Out :=
  .next ((s.homeWrite (line * 128) b).post (.wbAck die line))

/-- GATHER_DATA_U (R108): the delta is applied. -/
def execGatherDataU (_die line : Nat) (k : RedKind) (d : List Byte) (s : State) : Out := .next ((s.touchHome line).applyDelta line k d)

/-! ### The host's accesses to device HBM (R114) -/

/-- Add the host as a holder (R114): a shared copy or ownership, whatever the mode of the frame (log 133). A full set first loses a victim, whose entry is kept for this read (R103). A read of a line that the host itself owns leaves E(host) (log 132). -/
def State.hostHolds (s : State) (line : Nat) (own : Bool) (e : Instr) : State :=
  let h := s.home line
  if h.txn.any fun t => !(t.after == .host && h.resv) then s.post e
  else
    let s := s.touchHome line
    let h' := { h with used := s.dirStamp line, txn := none, resv := false }
    match h.st with
    | none =>
      if h.resv || (s.dirEntries line).length < 16 then
        ((s.recallLocal line).setHome line { h' with st := some (if own then .e else .s), mask := [4] }).nextQueued line
      else match s.dirVictim line with
        | some v => (s.setHome line { h with txn := some { wait := [], after := .host } }).backInvalidate v (.again e)
        | none => s.post e
    | some .s =>
      if s.hasLocal line then ((s.recallLocal line).startInv line h.mask false true [] .idle).post e
      else if own then s.startInv line (h.mask.filter (· != 4)) false false [] (.sendM 4)
      else s.setHome line { h' with mask := insertDie 4 h.mask }
    | some .e => if h.mask = [4] then s else (s.takeBack line false .idle).post e
    | some .g => (s.takeBack line false .idle).post e

/-- HOST_MEMRD (R114): snoop 0 none, 1 SnpData, 2 SnpInv, 3 SnpCur. A checkpoint holds it at the slice (R509, R517). -/
def execHostMemrd (line snoop : Nat) (s : State) : Out :=
  .next (if s.fw.drain then s.post (.hostMemrd line snoop)
    else if snoop = 0 then
      let (s, go) := s.cellTurn line false false none
      if go then s else s.post (.hostMemrd line snoop)
    else s.hostHolds line (snoop == 2) (.hostMemrd line snoop))

/-- A snoop of the host: a line of the host section goes to I, a dirty one with its data (R113). -/
def State.snooped (s : State) (line : Nat) : State :=
  let l := s.rdcLine 0 line
  let s := s.leaveRdc line l
  let s := s.setRdc 0 line { l with st := none, bytes := FMap.empty, bad := [] }
  s.homeWrite (line * 128) (if l.st = some .m then dirtyOf l.bytes else [])

/-- The host section reads a line that a monitor is registered on again, with RdOwn (R174). -/
def State.readAgain (s : State) (line : Nat) : State :=
  if s.monitored line && (s.rdcLine 0 line).wait.isNone then s.askHome 0 line false .rdm [] else s

/-- Bytes of host memory that the host writes itself: no slice of the device performs this write, so that no monitor is evaluated before the host section reads the line again (R174). -/
def State.hostStore (s : State) (line : Nat) (b : LineBytes) : State :=
  s.updMem fun m => { m with bytes := m.bytes.writeAt (line * 128) b, poison := m.poison.filter fun u => !unitWritten u (line * 128) b }

/-- HOST_MEMWR (R114): a home write; of a host line, the host's own store, before which its snoop takes the device's copy (R113, R154). -/
def execHostMemwr (line : Nat) (b : LineBytes) (s : State) : Out :=
  .next (if isHost line then ((s.snooped line).hostStore line b).readAgain line
    else if s.fw.drain then s.post (.hostMemwr line b)
    else
      let (s, go) := s.cellTurn line true false none
      if go then s.homeWrite (line * 128) b else s.post (.hostMemwr line b))

/-! ### Lines of the host section (R112, R113) -/

/-- HOST_CACHE_DATA (R112): the host answers RdShared or RdOwn. A whole line is the host's own value; none means memory's. The monitors on the line are evaluated (R174). -/
def execHostCacheData (line : Nat) (bytes : List Byte) (m : Bool) (s : State) : Out :=
  .next (let s := if bytes.length = 128 then s.hostStore line (withOff 0 bytes) else s
    (s.rdcData 0 line (s.lineBytes line) m).evaluate fun x => x.hitsMem (line * 128) 128)

/-- HOST_SNOOP (R113): the line goes to I, a dirty one with its data; a monitor on it has the line read again (R174). -/
def execHostSnoop (line : Nat) (s : State) : Out := .next ((s.snooped line).readAgain line)

/-- HOST_WRITE_ACK (R110, R403): a WrCur or DirtyEvict is acknowledged. -/
def execHostWriteAck (line core : Nat) (s : State) : Out := .next (s.ackWrite core line)

/-! ### The settled view of a line -/

/-- Whether an event is a message about a line's copies. -/
def lineMessage (line : Nat) : Instr → Bool
  | .wbm _ l _ => l == line
  | .inv _ l _ => l == line
  | .invAck _ l _ => l == line
  | .gatherRecall _ l => l == line
  | .gatherData _ l _ _ => l == line
  | .data _ l _ _ => l == line
  | .grant _ l _ => l == line
  | .hostCacheData l _ _ => l == line
  | _ => false

/-- Whether the host holds a copy that an access must take back: ownership, or a shared copy before a write (R98, R114). -/
def State.hostCopy (s : State) (line : Nat) (write : Bool) : Bool :=
  let h := s.home line
  h.mask.contains 4 && (h.st == some .e || (h.st == some .s && write))

/-- Whether nothing about a line is in progress, and no copy of the host stands in an access's way. -/
def State.quietLine (s : State) (line : Nat) (write : Bool := false) : Bool :=
  (s.home line).txn.isNone && !s.due.any (lineMessage line) && !s.hostCopy line write

/-- Take the host's copy of a line back with BISnpInv, which its BIRsp answers (R114). -/
def State.callHost (s : State) (line : Nat) (write : Bool := false) : State :=
  if (s.home line).txn.isNone && s.hostCopy line write then s.takeBack line false .idle else s

/-- Take every delta of a line and the owner's bytes home at one instant (R96, R106); a write also drops shared copies. The slice uses the line (R72). -/
def State.settle (s : State) (line : Nat) (write : Bool) : State :=
  let s := s.touchHome line
  let h := s.home line
  let drop (s : State) (d : Nat) : State :=
    let l := s.rdcLine d line
    (s.leaveRdc line l).setRdc d line { l with st := none, kind := none, bytes := FMap.empty, bad := [] }
  let write := write || s.hasLocal line
  let s := s.recallLocal line
  match h.st with
  | some .e =>
    let s := h.mask.foldl (fun s d => drop (s.homeWrite (line * 128) (dirtyOf (s.rdcLine d line).bytes)) d) s
    s.setHome line { h with st := none, mask := [] }
  | some .g =>
    let s := h.mask.foldl (fun s d =>
      let l := s.rdcLine d line
      match l.st, l.kind with
      | some .g, some k =>
        let (s, x) := s.takeDeltas d line k (wholeLine l.bytes)
        drop (s.applyDelta line k x) d
      | _, _ => s) s
    s.setHome line { h with st := none, mask := [], kind := none }
  | some .s => if write then (h.mask.foldl drop s).setHome line { h with st := none, mask := [] } else s
  | none => s

/-- The die whose RDC a core uses for a line that it does not reach at a home slice (R77, R90). -/
def rdcDie (core line : Nat) : Nat := if isHost line then 0 else dieOf core

/-- Whether a core's accesses to a line of a mode go through an RDC (R76, R90). -/
def viaRdc (core line : Nat) (mode : Mode) : Bool := mode != .nc && !(isHbm line && homeDie line == dieOf core)

/-- The bytes a core's engines read from a settled line: L1, then an untracked or host RDC copy, then the home (R160). -/
def State.engineLine (s : State) (core line : Nat) (mode : Mode) : List Byte :=
  let c := s.core core
  let own := (c.l1.find? fun _ l => l.line == line && l.gath.isNone).map Prod.snd
  let r := s.rdcLine (rdcDie core line) line
  let far := viaRdc core line mode && (r.st == some .s || r.st == some .m)
  (withOff 0 (s.lineBytes line)).map fun p =>
    match own.bind fun l => l.byte? c.gen p.1 with
    | some b => b
    | none => if far then ((r.bytes.get? p.1).map (·.val)).getD p.2 else p.2

/-- Whether a byte that a core's engines read from a settled line is uncorrectable where it is read: L1, RDC or home (R74). -/
def State.engineBad (s : State) (core line : Nat) (mode : Mode) (off : Nat) : Bool :=
  let c := s.core core
  let own := (c.l1.find? fun _ l => l.line == line && l.gath.isNone).map Prod.snd
  let r := s.rdcLine (rdcDie core line) line
  let far := viaRdc core line mode && (r.st == some .s || r.st == some .m)
  match own.bind fun l => (l.byte? c.gen off).map fun _ => l with
  | some l => l.badAt off 1
  | none => if far then r.bad.contains (off / 32) else s.bad line off

/-- Whether n bytes that a core's engines read from a line hold an uncorrectable one. -/
def State.readBad (s : State) (core line : Nat) (mode : Mode) (off n : Nat) : Bool :=
  (List.range n).any fun i => s.engineBad core line mode (off + i)

/-- The taken frame whose bytes a line holds: its context and its line (R274). -/
def State.frameOn (s : State) (line : Nat) : Option Nat :=
  (s.fw.frames.find? fun _ f => lineNo f.ga == line).map fun p => ((s.ctxOfAsid (p.1 / 2 ^ 57)).map Prod.fst).getD 0

/-- Put a byte into every clean copy of a line: memory, the dies' RDCs and the cores' L1s (R404). -/
def State.putEverywhere (s : State) (line : Nat) (b : Nat × Byte) : State :=
  let put (m : FMap CByte) : FMap CByte := m.adjust b.1 fun x => if x.dirty then x else { x with val := b.2 }
  let s := s.updMem fun m =>
    { m with
      bytes := m.bytes.write (line * 128 + b.1) b.2
      rdc := m.rdc.map fun k l => if k % 2 ^ 60 = line ∧ l.st ≠ some .g then { l with bytes := l.bytes.adjust b.1 fun x => { x with val := b.2 } } else l }
  { s with cores := s.cores.map fun _ c => { c with l1 := c.l1.map fun _ l => if l.line = line ∧ l.gath.isNone then { l with bytes := put l.bytes } else l } }

/-- The bytes that n free values of a context are, at offsets from a base (R17). -/
def State.freeBytes (s : State) (ctx off n : Nat) : LineBytes := (List.range n).map fun i => (off + i, Config.freeByte ctx (s.freeOf ctx + i))

/-- The bytes that a program store to a line stores: free values where a frame lies there (R17, R275). -/
def State.frameData (s : State) (line : Nat) (b : LineBytes) : LineBytes :=
  match s.frameOn line with
  | some ctx => b.map fun p => (p.1, Config.freeByte ctx (s.freeOf ctx + p.1))
  | none => b

/-- A program store to a frame makes the frame undefined: every byte of it is a free value (R17, R275). -/
def State.spoilFrame (s : State) (line : Nat) : State :=
  match s.frameOn line with
  | none => s
  | some ctx =>
    (((s.freeBytes ctx 0 128).foldl (fun (s : State) b => s.putEverywhere line b) s).useFree ctx 128).evaluate fun x => x.hitsMem (line * 128) 128

/-- A store of an engine with the bypass hint to a settled line (R80, R160): a host line of a COH page is written in the host section, in M (R112). -/
def State.engineStore (s : State) (core line : Nat) (mode : Mode) (b : LineBytes) : State :=
  let c := s.core core
  match c.l1.find? fun _ l => l.line == line && l.gath.isNone with
  | some (k, l) => s.updCore core fun c => { c with l1 := c.l1.put k (l.write b) }
  | none =>
    let r := s.rdcLine (rdcDie core line) line
    if viaRdc core line mode && (mode == .self || isHost line || r.st == some .m) then (s.sent core line).rdcWrite (rdcDie core line) line (mode == .self) core b
    else s.homeWrite (line * 128) b

/-- Bring home at once what a core's own L1 holds of a line, where a test holds of the copy: its deltas and its dirty bytes; no such copy is left. -/
def State.bringWhere (s : State) (core line : Nat) (f : L1Line → Bool) : State :=
  ((s.core core).l1.cells.filter fun p => p.2.line == line && f p.2).foldl (fun s p =>
    let s := (s.updCore core fun c => { c with l1 := c.l1.del p.1 }).leaveL1 p.1 p.2
    match p.2.gath with
    | some k => s.applyDelta line k (wholeLine p.2.bytes)
    | none => s.homeWrite (line * 128) (dirtyOf p.2.bytes)) s

/-- Apply the deltas that a core's own L1 holds of a line (R85), and write back what it holds in a withdrawn way (R60). -/
def State.flushOwn (s : State) (core line : Nat) : State :=
  s.bringWhere core line fun l => l.gath.isSome || (s.core core).lentOut.contains l.way

/-- Bring home at once what a core's own L1 holds of a line; no copy is left (R85, R148). -/
def State.bringOwn (s : State) (core line : Nat) : State := s.bringWhere core line fun _ => true

end Sys2Proof.Machine
end

