-- ==== Sys2Proof/Machine/Cell.lean ====
section
/-!
DEFINITION. Cell operations at their point of serialisation, the giving and taking reconciliations, monitors, and requests to another core's scratchpad (R67 to R69, R131, R139 to R152, R171 to R178, R393 to R401).
-/
namespace Sys2Proof.Machine

/-! ### What a cell operation does at its place (R395 to R401, R279 to R281) -/

/-- The bytes of a cell. -/
def cellWidth (c : CellOp) : Nat := if c.kind = .await then 4 else c.ty.bits / 8

/-- Whether a cell operation writes. -/
def cellWrites : CellKind → Bool
  | .atom _ | .atomc | .red _ | .give | .fret => true
  | _ => false

/-- Whether a cell of n bytes is uncorrectable where it is read: at its home, in a bank, or in die 0's host section (R74, R140). -/
def State.cellBad (s : State) (p : Place) (n : Nat) : Bool :=
  s.placeBad p n || (match p with
    | .mem ga => isHost (lineNo ga) && (s.rdcLine 0 (lineNo ga)).bad.contains (ga % 128 / 32)
    | .scratch _ _ => false)

/-- Write a cell; a host line's copy in die 0's host section is written too (R140). A cell write to a frame other than FRET's makes the frame undefined (R275). -/
def State.cellWrite (s : State) (p : Place) (n x : Nat) (fret : Bool := false) : State :=
  let s := s.placeWrite p n x
  let s := match p with | .mem ga => if fret then s else s.spoilFrame (lineNo ga) | .scratch _ _ => s
  match p with
  | .mem ga =>
    if isHost (lineNo ga) then
      let l := s.rdcLine 0 (lineNo ga)
      if l.st = some .m then s.setRdc 0 (lineNo ga) (l.write (withOff (ga % 128) (bytesOf n x))) else s
    else s
  | .scratch _ _ => s

/-- Return the value that a cell operation read (R249), or its uncorrectable unit (R261); a taking read's hold on later accesses ends (R144). -/
def State.cellReturn (s : State) (c : CellOp) (x : Nat) (bad : Bool) : State :=
  let s := if c.taking then s.takingRecon (coreOf c.tid) else s
  match c.late with
  | some id =>
    let s := s.updThread c.tid fun t => { t with takes := t.takes.filter (· != id) }
    s.post (.pendingValueArrival [c.tid] id (extendTo c.ty x) (if bad then some c.ea else none))
  | none => s

/-- Whether two monitors share one entry: the threads of one group with the same word, comparison and operand (R173). -/
def State.shares (s : State) (a b : Monitor) : Bool :=
  let grp (m : Monitor) : Option Nat := match m.who with
    | .waitw k _ _ => (s.threads.get? k).map fun t => gkey (coreOf k) t.group
    | .await k _ _ _ _ => (s.threads.get? k).map fun t => gkey (coreOf k) t.group
    | _ => none
  a.place == b.place && a.wide == b.wide && a.cmp == b.cmp && a.oper == b.oper && a.take == b.take && (grp a).isSome && grp a == grp b

/-- Register a monitor of a cell operation, sharing an entry where R173 lets it; false when a full spoil list holds the registration (R177). -/
def State.enlist (s : State) (m : Monitor) (c : CellOp) : State × Bool :=
  match s.mem.mons.find? (s.shares m) with
  | some x => (s.updMem fun y => { y with mons := y.mons ++ [{ m with spoil := x.spoil, entry := x.entry, index := x.index }] }, true)
  | none =>
    match s.register m with
    | some s => (s, true)
    | none => (s.updMem fun y => { y with held := y.held ++ [c] }, false)

/-- Register an AWAIT's monitor, or join at once. The thread leaves issue until its registration is made (R279). -/
def State.awaitOn (s : State) (c : CellOp) (count : Nat) : State :=
  let m := cellMonitor c
  if count = 0 then (s.updThread c.tid Thread.go).wake m
  else
    match s.enlist m c with
    | (s, true) => s.updThread c.tid Thread.go
    | (s, false) => s

/-- Perform a cell operation at its place, atomically (R131, R395 to R401). -/
def State.performCell (s : State) (c : CellOp) : State :=
  let n := cellWidth c
  let old := s.placeNat c.place n
  let bad := s.cellBad c.place n
  match c.kind with
  | .atom op => (s.cellWrite c.place n (combine c.ty op old c.a)).cellReturn c old bad
  | .atomc => (if old = lowBits (8 * n) c.a then s.cellWrite c.place n c.b else s).cellReturn c old bad
  | .red op => s.cellWrite c.place n (combine c.ty op old c.a)
  | .give => s.cellWrite c.place n c.a
  | .take => s.cellReturn c old bad
  | .finish x => s.cellReturn c x bad
  | .waitw cmp =>
    let m := cellMonitor c
    if bad || cmpHolds cmp m.wide old c.a then s.wake m
    else ((s.updThread c.tid fun t => { t with status := .waiting .monitor }).enlist m c).1
  | .await => if bad then s.park c.tid ⟨0x0D, c.ea⟩ else s.awaitOn c old
  | .pollf =>
    if s.cellBad (framePlace c.place 8) 8 then s.park c.tid ⟨0x0D, c.ea⟩
    else s.updThread c.tid fun t => (t.putDst true c.dst (s.frameField c.place 12 4 + 2 ^ 32 * s.frameField c.place 8 4)).go
  | .fret => s.cellWrite c.place 8 c.a true

/-! ### The giving reconciliation (R143) -/

/-- Whether an event is a write of a core on its way, issued before a given cell operation. -/
def coreWriteOf (core seq : Nat) : Instr → Bool
  | .cellOperationRequest c => coreOf c.tid == core && cellWrites c.kind && decide (c.seq < seq)
  | .peerWindowRequest tid _ _ _ k =>
    coreOf tid == core && (match k with | .load _ => false | .cell c => cellWrites c.kind && decide (c.seq < seq) | _ => true)
  | .peerLinkRequest (.cell c) => coreOf c.tid == core && cellWrites c.kind && decide (c.seq < seq)
  | .peerLinkRequest (.red tid _ _ _ _) => coreOf tid == core
  | _ => false

/-- Whether every earlier write of a core has been acknowledged at its target (R143 step 2). -/
def State.coreQuiet (s : State) (core seq : Nat) : Bool :=
  (s.core core).inflight.isEmpty && !s.due.any (coreWriteOf core seq)

/-- The place of a cell as the line or bank that orders it. -/
def placeLine : Place → Nat
  | .mem ga => lineNo ga
  | .scratch core off => 2 ^ 70 + core * 2 ^ 20 + off / 8

/-- Whether an event is an earlier cell operation of the same core on the same line (R125, R387). -/
def earlierCell (c : CellOp) : Instr → Bool
  | .cellOperationRequest d => coreOf d.tid == coreOf c.tid && placeLine d.place == placeLine c.place && decide (d.seq < c.seq)
  | _ => false

/-- Whether an event is an access of a core to a line or bank word that a later access of the core must follow (R125). -/
def coreAccessOf (core pl : Nat) : Instr → Bool
  | .cellOperationRequest d => coreOf d.tid == core && placeLine d.place == pl
  | .peerLinkRequest (.cell d) => coreOf d.tid == core && placeLine d.place == pl
  | .peerLinkRequest (.red tid ga _ _ _) => coreOf tid == core && lineNo ga == pl
  | _ => false

/-- Clear a die's RDC copy of a line before a cell operation of that die travels to the home (R125, R141): its bytes go home first, and a write drops the copy. -/
def State.clearCopy (s : State) (die line : Nat) (write : Bool) : State × Bool :=
  let l := s.rdcLine die line
  if l.wait.isSome then (s, false)
  else
    match l.st with
    | some .g => (s.dropGather die line l, false)
    | some .m =>
      if l.self then
        ((s.setRdc die line { l with bytes := cleanBytes l.bytes, st := some .s }).writeThrough die line (dirtyOf l.bytes), false)
      else (s.evictRdc die line l, false)
    | some .s => (if write || l.self then s.setRdc die line {} else s, !s.due.any (lineWriteOf die line))
    | none => (s, !s.due.any (lineWriteOf die line))

/-! ### CELL_OPERATION_REQUEST (R140, R141) -/

/-- The thread of a giving operation continues once it is sent (R399). -/
def State.cellSent (s : State) (c : CellOp) : State :=
  s.updThread c.tid fun t => if t.status = .waiting .sending ∧ c.giving then t.go else t

/-- Whether a write of the core to the cell's line has not been acknowledged, or a load of the line has not returned, so that the operation must follow it (R85, R125). -/
def State.cellFollows (s : State) (c : CellOp) : Bool :=
  match c.place with
  | .mem ga => (s.core (coreOf c.tid)).inflight.contains (lineNo ga) || (s.core (coreOf c.tid)).misses.has (lineNo ga)
  | .scratch _ _ => false

/-- Perform a cell operation whose line is ready. A .total write that has invalidations to wait for is performed now, and completes when they are acknowledged (R152). -/
def State.cellReady (s : State) (c : CellOp) (line : Nat) : State :=
  let h := s.home line
  if c.total && cellWrites c.kind && h.txn.isSome then
    let fin : Instr := .cellOperationRequest { c with kind := .finish (s.placeNat c.place (cellWidth c)) }
    let s := s.setHome line { h with txn := h.txn.map fun t => { t with fin := t.fin ++ [fin] } }
    s.performCell { c with late := none, taking := false }
  else (s.cellSent c).performCell c

/-- Perform a cell operation on device or host memory once its line is ready; false while it must wait. -/
def State.cellAtMemory (s : State) (c : CellOp) (ga : Nat) : State × Bool :=
  let line := lineNo ga
  let die := dieOf (coreOf c.tid)
  let w := cellWrites c.kind
  if isHost line then
    let l := s.rdcLine 0 line
    if l.wait.isSome then (s, false)
    else if l.st = some .m then
      let s := (s.cellSent c).performCell c
      (if c.mode = .nc then s.evictRdc 0 line (s.rdcLine 0 line) else s, true)
    else (s.askHome 0 line false .rdm [], false)
  else if viaRdc (coreOf c.tid) line c.mode then
    if c.kind = .take ∧ c.mode = .coh ∧ !c.total then
      let l := s.rdcLine die line
      if l.wait.isSome then (s, false)
      else
        match l.st with
        | some .g => (s.dropGather die line l, false)
        | some _ =>
          (s.cellReturn c (natOf (((wholeLine l.bytes).drop (ga % 128)).take (cellWidth c))) (l.bad.contains (ga % 128 / 32)), true)
        | none => (s.askHome die line false .rds [], false)
    else
      let (s, ok) := s.clearCopy die line w
      if !ok then (s, false)
      else
        let (s, go) := s.cellTurn line w c.total (some (coreOf c.tid))
        if go then (s.cellReady c line, true) else (s, false)
  else
    let (s, go) := s.cellTurn line w c.total (some (coreOf c.tid))
    if go then (s.cellReady c line, true) else (s, false)

/-- A thread's late value is no longer awaited: its symbol entry is freed with the last thread (R250). -/
def State.awaitDone (s : State) (id : Nat) (tids : List Nat) : State :=
  match tids with
  | [] => s
  | k :: _ =>
    s.updCore (coreOf k) fun c =>
      match c.symbols.get? id with
      | some l =>
        let l := l.filter fun x => !tids.contains x
        { c with symbols := if l.isEmpty then c.symbols.del id else c.symbols.put id l }
      | none => c

/-- A giving operation that has not been performed is taken back: the thread stands before its instruction, which it issues again (R150). -/
def State.cancelCell (s : State) (c : CellOp) : State :=
  let s := s.updThread c.tid fun t =>
    { t.was.cells.foldl (fun (t : Thread) p => t.setReg p.1 p.2) t with
      status := .ready, was := FMap.empty
      takes := t.takes.filter fun x => c.late != some x
      owed := t.owed.filter fun x => c.late != some x }
  match c.late with
  | some id => s.awaitDone id [c.tid]
  | none => s

/-- Whether the crew of a thread is being saved (R322). -/
def State.saves (s : State) (tid : Nat) : Bool :=
  (((s.threads.get? tid).bind s.crewOf).map fun c => c.phase == .saving && !c.halt).getD false

/-- CELL_OPERATION_REQUEST: earlier operations of the core on the line first, then the giving reconciliation, then the operation; a save of the crew meanwhile leaves the operation unperformed, to be issued again (R150). -/
def State.cellRequest (s : State) (c : CellOp) : State :=
  let core := coreOf c.tid
  let again (s : State) (c : CellOp) : State := s.post (.cellOperationRequest c)
  if (match c.kind with | .finish _ => true | _ => false) then (s.cellSent c).performCell c
  else if s.due.any (earlierCell c) || s.cellFollows c then again s c
  else if c.giving ∧ !c.sent then
    if s.coreQuiet core c.seq then again (s.dieWriteThrough (dieOf core)) { c with sent := true } else again s c
  else if c.giving ∧ !s.dieQuiet (dieOf core) then again s c
  else if c.giving ∧ s.saves c.tid then s.cancelCell c
  else
    match c.place with
    | .scratch k off =>
      if k = core then (s.cellSent c).performCell c
      else (s.cellSent c).post (.peerWindowRequest c.tid (((s.threads.get? c.tid).map s.ctxOf).getD 0) k off (.cell c))
    | .mem ga =>
      if isPeer (lineNo ga) then
        let (s, ok) := s.clearCopy (dieOf core) (lineNo ga) (cellWrites c.kind)
        if ok then (s.cellSent c).post (.peerLinkRequest (.cell c)) else again s c
      else
        let (s, ok) := s.cellAtMemory c ga
        if ok then s else again s c

/-- CELL_OPERATION_REQUEST. -/
def execCellOperationRequest (c : CellOp) (s : State) : Out := .next (s.cellRequest c)

/-- SPOIL_LIST_HELD_REGISTRATION (R177): the held registration's read is performed now. -/
def execSpoilListHeldRegistration (c : CellOp) (s : State) : Out :=
  .next (match c.kind with
    | .await => s.awaitOn c (s.placeNat c.place 4)
    | _ => s.performCell c)

/-! ### Peer windows (R67 to R69, R146) -/

/-- PEER_WINDOW_REQUEST: the access is performed at the target core's bank array, or is ill-timed. -/
def State.peerAccess (s : State) (tid ctx core off : Nat) (k : PeerKind) : State :=
  if !s.spadHeld ctx core off then
    match k with
    | .load d => d.tids.foldl (fun (s : State) k => s.post (.illTimedReport k)) s
    | _ => s.post (.illTimedReport tid)
  else
    match k with
    | .load d => s.deliver (s.mem.scratch.readN (scratchKey core off) d.width) (fun _ => s.spadBadAt core off d.width) (some { d with off := 0 })
    | .store width value => s.spadWrite core off (bytesOf width value)
    | .red op ty value => s.cellWrite (.scratch core off) (ty.bits / 8) (combine ty op (s.spadNat core off (ty.bits / 8)) value)
    | .cell c => s.performCell { c with place := .scratch core off }

/-- PEER_WINDOW_REQUEST. -/
def execPeerWindowRequest (tid ctx core off : Nat) (k : PeerKind) (s : State) : Out := .next (s.peerAccess tid ctx core off k)

/-- ILL_TIMED_REPORT: the issuing thread is switched OFF and recorded (R67, R68). -/
def execIllTimedReport (tid : Nat) (s : State) : Out := .next (s.retire tid 0x09)

/-! ### Edges between cores (R147) -/

/-- Steps 1 and 2 of the giving reconciliation, as far as the core can send them now (R143, R147). -/
def State.sourceCore (s : State) (core : Nat) : State := s.writeBackAll core

/-- Whether the source side of an edge is complete: the core's writes, and the die's when it must write through. -/
def State.sourceDone (s : State) (core : Nat) (die : Bool) : Bool :=
  s.coreQuiet core (2 ^ 64) && (!die || s.dieQuiet (dieOf core))

end Sys2Proof.Machine
end

