-- ==== Sys2Proof/WellFormed.lean ====
section
/-!
DEFINITION. Which instructions are well formed: exactly those that an instruction word can spell without an encoding fault (R200 to R213).
-/
namespace Sys2Proof

/-- The conditions R213 puts on the fields of an instruction, each under the reason it would raise. -/
def Ops.wf (c : Opc) (o : Ops) : Bool :=
  let f := c.fmtOf o
  f.modOk
  && (f.auxOk && f.immOk && immUnusedOk f.role o.namesImm o.imm && stealptOk c o.aux o.sb)
  && (f.sa.accepts o.sa && f.sb.accepts o.sb && f.sc.accepts o.sc && pmovOk c o.dst o.sa)
  && (if o.wbs then f.producer && o.dst == .none else f.dst.accepts o.dst && f.dst.aligned o.dst)
  && (f.sa.aligned o.sa && f.sb.aligned o.sb && f.sc.aligned o.sc)
  && (f.slotOk && immRoleOk f.role o.namesImm)

/-- An instruction is well formed when its fields are; an event is a message and is always well formed. -/
def Instr.wf (i : Instr) : Bool :=
  match i.view with
  | some (c, o) => o.wf c
  | none => true

end Sys2Proof
end

