-- ==== Sys2Proof/Decode.lean ====
section
/-!
DEFINITION. The decoder, total on any word and refusing by the WHY reason of R213, and the encoder written from the same tables (R198, R201).
-/
namespace Sys2Proof

/-- A bit field [lo + n - 1 : lo] of an instruction word. -/
def fieldOf (w : IWord) (lo n : Nat) : BitVec n := w.extractLsb' lo n

/-- The specifier code of a special, relative to 0x0C8 (R202). -/
def Special.code : Special → Nat
  | .tix => 0 | .lane => 1 | .gix => 2 | .cix => 3 | .cn => 4 | .core => 5 | .die => 6 | .dev => 7 | .arg => 8
  | .tls => 9 | .spw => 10 | .frm => 11

/-- The special of a code. -/
def Special.ofCode : Nat → Option Special
  | 0 => some .tix | 1 => some .lane | 2 => some .gix | 3 => some .cix | 4 => some .cn | 5 => some .core
  | 6 => some .die | 7 => some .dev | 8 => some .arg | 9 => some .tls | 10 => some .spw | 11 => some .frm
  | _ => none

/-- A 10-bit source field: a latch with bit 9 set, else a specifier; none where it is illegal (R201). -/
def Src.ofField (f : BitVec 10) : Option Src :=
  let n := f.toNat
  if n ≥ 512 then (if n < 520 then some (.latch (BitVec.ofNat 3 n)) else Option.none)
  else if n < 0x80 then some (.v (BitVec.ofNat 7 n))
  else if n < 0xC0 then some (.k (BitVec.ofNat 6 n))
  else if n < 0xC8 then some (.p (BitVec.ofNat 3 n))
  else if n < 0xD4 then (Special.ofCode (n - 0xC8)).map .sp
  else if n = 0x1FF then some .imm
  else Option.none

/-- The field that names a source operand (R201). -/
def Src.field : Src → BitVec 10
  | .none => 0
  | .v n => BitVec.ofNat 10 n.toNat
  | .k n => BitVec.ofNat 10 (0x80 + n.toNat)
  | .p n => BitVec.ofNat 10 (0xC0 + n.toNat)
  | .sp x => BitVec.ofNat 10 (0xC8 + x.code)
  | .imm => 0x1FF
  | .latch n => BitVec.ofNat 10 (512 + n.toNat)

/-- A 9-bit destination field (R201); none where nothing may be written. -/
def Dst.ofField (f : BitVec 9) : Option Dst :=
  let n := f.toNat
  if n < 0x80 then some (.v (BitVec.ofNat 7 n))
  else if n < 0xC0 then some (.k (BitVec.ofNat 6 n))
  else if n < 0xC8 then some (.p (BitVec.ofNat 3 n))
  else Option.none

/-- The field that names a destination. -/
def Dst.field : Dst → BitVec 9
  | .none => 0
  | .v n => BitVec.ofNat 9 n.toNat
  | .k n => BitVec.ofNat 9 (0x80 + n.toNat)
  | .p n => BitVec.ofNat 9 (0xC0 + n.toNat)

/-- The raw fields of an instruction word (R198). -/
structure Raw where
  maj   : BitVec 8
  modf  : BitVec 6
  guard : BitVec 4
  wbs   : Bool
  dst   : BitVec 9
  sa    : BitVec 10
  sb    : BitVec 10
  sc    : BitVec 10
  aux   : BitVec 6
  imm   : BitVec 32
  deriving DecidableEq, Repr

/-- The fields of a word (R198). -/
def Raw.ofWord (w : IWord) : Raw :=
  { maj := fieldOf w 88 8, modf := fieldOf w 82 6, guard := fieldOf w 78 4, wbs := w.getLsbD 77, dst := fieldOf w 68 9,
    sa := fieldOf w 58 10, sb := fieldOf w 48 10, sc := fieldOf w 38 10, aux := fieldOf w 32 6, imm := fieldOf w 0 32 }

/-- The word of given fields (R198). -/
def Raw.word (r : Raw) : IWord :=
  r.maj ++ r.modf ++ r.guard ++ BitVec.ofBool r.wbs ++ r.dst ++ r.sa ++ r.sb ++ r.sc ++ r.aux ++ r.imm

/-- TYPE, X2 and FLAG with AUX and IMM32 (R210). -/
def Raw.mods (r : Raw) : Mods :=
  ⟨Ty.ofCode (r.modf.extractLsb' 0 4), r.modf.getLsbD 4, r.modf.getLsbD 5, r.aux, r.imm⟩

/-- A source field under its kind: nothing where the kind is unused. -/
def SKind.read (q : SKind) (f : BitVec 10) : Option Src := if q.used then Src.ofField f else some .none

/-- A destination field under its kind: nothing where the kind is unused or WBS suppresses it. -/
def DKind.read (q : DKind) (wbs : Bool) (f : BitVec 9) : Option Dst :=
  if q = .unused ∨ wbs then some .none else Dst.ofField f

/-- A destination field beside WBS that is illegal in itself (R208, R213): zero is what WBS asks for. -/
def DKind.badField (q : DKind) (f : BitVec 9) : Bool := q != .unused && f != 0 && !((Dst.ofField f).any q.accepts)

/-- A field the instruction does not use is zero (R200). -/
def unusedZero (f : Fmt) (r : Raw) : Bool :=
  (f.sa.used || r.sa == 0) && (f.sb.used || r.sb == 0) && (f.sc.used || r.sc == 0)
    && (f.dst != .unused || r.dst == 0)

/-- Read the operands of an instruction and check them in the order of R213: the lowest WHY that holds. -/
def readOps (c : Opc) (r : Raw) : Except Why Ops :=
  let m := r.mods
  let f := c.fmt m
  let a := f.sa.read r.sa
  let b := f.sb.read r.sb
  let d := f.sc.read r.sc
  let named := a == some .imm || b == some .imm || d == some .imm
  if !f.modOk then .error .unusedMod
  else if !(f.auxOk && f.immOk && immUnusedOk f.role named r.imm && unusedZero f r && stealptOk c r.aux (b.getD .none)) then
    .error .reserved
  else
    match a, b, d with
    | some a, some b, some d =>
      let t := f.dst.read r.wbs r.dst
      if !(f.sa.accepts a && f.sb.accepts b && f.sc.accepts d && pmovOk c (t.getD .none) a) then .error .source
      else
        match t with
        | none => .error .destination
        | some t =>
          if !(r.wbs || f.dst.accepts t) || (r.wbs && f.dst.badField r.dst) then .error .destination
          else if r.wbs && !(f.producer && r.dst == 0) then .error .wbs
          else if !(f.sa.aligned a && f.sb.aligned b && f.sc.aligned d && (r.wbs || f.dst.aligned t)) then .error .odd
          else if !(f.slotOk && immRoleOk f.role named) then .error .slotOrImm
          else .ok { guardNeg := r.guard.getLsbD 3, guardPred := r.guard.extractLsb' 0 3, ty := m.ty, x2 := m.x2,
                     flag := m.flag, wbs := r.wbs, dst := t, sa := a, sb := b, sc := d, aux := r.aux, imm := r.imm }
    | _, _, _ => .error .source

/-- Decode one instruction word: its instruction, or the WHY reason of the encoding fault (R213). -/
def decode (w : IWord) : Except Why Instr :=
  let r := Raw.ofWord w
  match opcOf r.maj r.aux with
  | none => .error .unusedMaj
  | some c =>
    match readOps c r with
    | .error y => .error y
    | .ok o => .ok (c.mk o)

/-- The raw fields that spell an instruction (R198). -/
def rawOf (c : Opc) (o : Ops) : Raw :=
  { maj := c.maj, modf := BitVec.ofBool o.flag ++ BitVec.ofBool o.x2 ++ o.ty.code,
    guard := BitVec.ofBool o.guardNeg ++ o.guardPred, wbs := o.wbs, dst := o.dst.field, sa := o.sa.field,
    sb := o.sb.field, sc := o.sc.field, aux := o.aux, imm := o.imm }

/-- Encode an instruction; an event has no word, and the all-zero word (NOP) stands for it. -/
def encode (i : Instr) : IWord :=
  match i.view with
  | some (c, o) => (rawOf c o).word
  | none => 0

/-- Join bytes, the first least significant (R191). -/
def joinBytes : List Byte → Nat
  | [] => 0
  | b :: r => b.toNat + 256 * joinBytes r

/-- The n bytes of a number, least significant first (R14, R191). -/
def splitBytes : Nat → Nat → List Byte
  | 0, _ => []
  | n + 1, x => BitVec.ofNat 8 x :: splitBytes n (x / 256)

/-- Decode the twelve bytes of a slot (R191). -/
def decodeBytes (bs : List Byte) : Except Why Instr := decode (BitVec.ofNat 96 (joinBytes bs))

/-- The host's view of the decoder: the instruction whose bits are w, laid out in bytes as the hardware stores them. -/
def decodeTableWord (nbits w : Nat) : Option Instr :=
  match decodeBytes (splitBytes 12 (w % 2 ^ nbits)) with
  | .ok i => some i
  | .error _ => none

end Sys2Proof
end

