-- ==== Sys2Proof/Machine/Memory.lean ====
section
/-!
DEFINITION. The memory, atomic and cell instructions (R380 to R405).
-/
namespace Sys2Proof.Machine

/-! ### Common parts -/

/-- The byte offset of the memory operand, sign-extended (R381). -/
def offOf (o : Ops) : Int := toSigned 30 o.imm.toNat
/-- The cache hint (R381). -/
def hintOf (o : Ops) : Nat := o.imm.toNat / 2 ^ 30
/-- Whether QUAD is set (R384). -/
def quadOf (o : Ops) : Bool := o.aux.getLsbD 1
/-- The width of a plain access (R384). -/
def accWidth (o : Ops) (quad : Bool) : Nat := if quad then 16 else if o.x2 then 4 else o.ty.bits / 8
/-- The effective address of a 64-bit base (R382). -/
def eaOf (o : Ops) (base : Nat) : Nat := ofSigned 64 ((base : Int) + offOf o)
/-- The effective address of a 32-bit base (R382). -/
def ea32Of (o : Ops) (base : Nat) : Nat := ofSigned 32 ((base : Int) + offOf o)

/-- Whether a thread's later memory accesses are held by an AWAIT or a taking read (R144, R279). -/
def Thread.held (t : Thread) : Bool := !t.joins.isEmpty || !t.takes.isEmpty

/-- One thread's access. -/
structure Access where
  tid : Nat
  t   : Thread
  ea  : Nat
  tgt : Target
  deriving DecidableEq, Repr

/-- The line or bank word that an access touches, for the order of one core's accesses (R125). -/
def Access.line? (a : Access) : Option Nat :=
  match a.tgt with
  | .page ga _ _ => some (lineNo ga)
  | .spad c off => some (placeLine (.scratch c off))
  | .peer c off => some (placeLine (.scratch c off))
  | _ => none

/-- The misses of a bundle ask for walks, one for each address, judged together (R38, R44, R48). -/
def State.askWalks (s : State) (iss : Issue) (a : Acc) (l : List Access) : State :=
  let ms := l.filter fun x => x.tgt == .miss
  match ms with
  | [] => s
  | x :: _ =>
    s.postOnce (.pageWalk iss.core (s.asidOf x.t) iss.pc a.code
      ((ms.map (·.ea)).eraseDups.map fun va => (va, (ms.filter fun y => y.ea == va).map (·.tid))))

/-- The faults of a bundle's accesses. -/
def accFaults (l : List Access) : List (Nat × Flt) := l.filterMap fun x => match x.tgt with | .flt f => some (x.tid, f) | _ => none

/-- The scratchpad violators of a bundle. -/
def accViol (l : List Access) : List Nat := l.filterMap fun x => if x.tgt = .viol then some x.tid else none

/-- Switch violators OFF (R68). -/
def State.offAll (s : State) (l : List Nat) : State := l.foldl (fun s k => s.retire k 0x09) s

/-- Whether an event is a cell operation of a core on its way to another core's scratchpad, so that later window requests follow it (R146). -/
def windowCellOf (core target : Nat) : Instr → Bool
  | .cellOperationRequest d => coreOf d.tid == core && (match d.place with | .scratch k _ => k == target | .mem _ => false)
  | _ => false

/-- Whether an event is a request of a core to another core's scratchpad that has not been performed (R146). -/
def windowAccessOf (core target : Nat) : Instr → Bool
  | .peerWindowRequest tid _ k _ _ => coreOf tid == core && k == target
  | e => windowCellOf core target e

/-- The lines a core's L1 holds of a physical line. -/
def Core.copies (c : Core) (line : Nat) : List (Nat × L1Line) := c.l1.cells.filter fun p => p.2.line == line

/-- Whether an access to a line of a page must wait: for a line in a withdrawn way to be drained (R60); a load, for a fill that an earlier write of the core would pass (R125); a RED, for the fills and writes of the core to the line, and for a copy in another state to leave (R84, R119, R122). -/
def State.pageBlocked (s : State) (core key line : Nat) (a : Acc) : Bool :=
  let c := s.core core
  let l := c.copies line
  let busy := c.misses.has line
  (l.any fun p => c.lentOut.contains p.2.way) ||
    (a == .load && busy && (c.inflight.contains line || l.any fun p => p.1 != key && p.2.bytes.any fun _ b => b.dirty)) ||
    (a == .red && (busy || c.inflight.contains line))

/-- Whether a core's access must still wait for an earlier operation of the core (R60, R125, R146). -/
def State.blockedBy (s : State) (core : Nat) (a : Acc) (x : Access) : Bool :=
  (match x.line? with
    | some l => s.due.any (coreAccessOf core l)
    | none => false) ||
  (match x.tgt with
    | .peer k _ => s.due.any (windowCellOf core k)
    | .page ga _ _ => s.pageBlocked core (s.asidOf x.t * 2 ^ 50 + x.ea / 128) (lineNo ga) a
    | _ => false)

/-- The common course of a memory instruction: it waits for operands and holds, asks for walks, or performs; violators go OFF, faults are raised. -/
def State.runMemBy (s : State) (hold : Thread → Bool) (c : Opc) (o : Ops) (a : Acc)
    (acc : Issue → Nat × Thread → Access) (act : State → Issue → List Access → State) : State :=
  match s.prep c o with
  | .idle => s
  | .wait iss => s.stall iss
  | .go iss ex flt =>
    if ex.any fun p => hold p.2 then s.stall iss
    else
      let l := ex.map (acc iss)
      if l.any fun x => x.tgt == .miss then (s.askWalks iss a l).stall iss
      else if l.any fun x => s.blockedBy iss.core a x then s.stall iss
      else
        let s := (act s iss l).offAll (accViol l)
        s.complete iss c [] (flt ++ accFaults l)

/-- As `runMemBy`, for an instruction that a join or a taking read holds (R144, R279). -/
def State.runMem (s : State) (c : Opc) (o : Ops) (a : Acc)
    (acc : Issue → Nat × Thread → Access) (act : State → Issue → List Access → State) : State :=
  s.runMemBy Thread.held c o a acc act

/-- The asid-tagged L1 line of an address (R60). -/
def State.l1At (s : State) (core asid ea : Nat) : Option L1Line := (s.core core).l1Get (l1Key asid ea)

/-- The bytes that a read may take from an L1 line, when all of them are there. -/
def L1Line.take? (l : L1Line) (gen off width : Nat) : Option (List Byte) :=
  (List.range width).mapM fun i => l.byte? gen (off + i)

/-- The target of a load or store, by way of an L1 hit when there is one (R37, R43). -/
def State.plainTarget (s : State) (tid : Nat) (t : Thread) (ea width : Nat) (a : Acc) : Target :=
  let core := coreOf tid
  match (if ea % width = 0 ∧ ea < 2 ^ 57 ∧ ea / 2 ^ 52 ≠ 31 then s.l1At core (s.asidOf t) ea else none) with
  | some l =>
    let hit := l.gath.isNone && (if a = .load then l.r && (l.take? (s.core core).gen (ea % 128) width).isSome else l.w)
    if hit then .page (l.line * 128 + ea % 128) l.mode 0 else s.target tid t ea width a
  | none => s.target tid t ea width a

/-- The access of a thread at its 64-bit base. -/
def State.accessAt (s : State) (c : Opc) (o : Ops) (width : Nat) (a : Acc) (iss : Issue) (p : Nat × Thread) : Access :=
  let ea := eaOf o (s.vals iss c o p.1 p.2).1
  ⟨p.1, p.2, ea, s.target p.1 p.2 ea width a⟩

/-- As `accessAt`, for a plain load or store. -/
def State.plainAt (s : State) (c : Opc) (o : Ops) (width : Nat) (a : Acc) (iss : Issue) (p : Nat × Thread) : Access :=
  let ea := eaOf o (s.vals iss c o p.1 p.2).1
  ⟨p.1, p.2, ea, s.plainTarget p.1 p.2 ea width a⟩

/-- The access of a thread at a crew scratchpad offset (R390). -/
def State.offsetAt (s : State) (c : Opc) (o : Ops) (width : Nat) (iss : Issue) (p : Nat × Thread) : Access :=
  let ea := ea32Of o (s.vals iss c o p.1 p.2).1
  ⟨p.1, p.2, ea, s.spadTarget p.2 ea width⟩

/-! ### Plain loads and stores (R388 to R392) -/

/-- Send a fill to where a core's misses of the line go (R78, R90, R110). -/
def State.sendFill (s : State) (f : Fill) : State :=
  let die := dieOf f.core
  if isHost f.line then
    if f.mode = .nc then s.fillL1 f (s.lineBytes f.line) (s.badUnits f.line) else s.rdcFill 0 f.line false f
  else if f.mode = .nc ∨ (isHbm f.line ∧ homeDie f.line = die) then s.post (.homeDieAccess f.line (.fill f) false)
  else s.rdcFill die f.line (f.mode == .self) f

/-- An L1 miss: one request for each line; the misses of a line that is on its way wait for it in order (R58, R121). A line that is not whole gives up its clean bytes, so that no read joins bytes of two fetches (R130, log 127). -/
def State.missL1 (s : State) (f : Fill) : State :=
  let key := l1Key f.asid (f.vline * 128)
  let s := s.updCore f.core fun c =>
    { c with l1 := match (c.l1.get? key).bind L1Line.dropClean with
        | some l => c.l1.put key l
        | none => c.l1.del key }
  let busy := (s.core f.core).misses.has f.line
  let s := (s.tagCore f.core f.line).updCore f.core fun c => { c with misses := c.misses.put f.line (c.misses.getD f.line [] ++ [f]) }
  if busy then s else s.sendFill f

/-- A read of a page by a thread: an L1 hit, or a fill (R58, R85). The bytes that the core holds dirty are its own; a hit takes clean bytes too. -/
def State.readPage (s : State) (core asid hint ga : Nat) (mode : Mode) (entry : Nat) (d : LoadDone) : State :=
  let line := lineNo ga
  let key := l1Key asid d.ea
  let s := (match (s.core core).l1.get? key with
    | some l => if l.gath.isSome || l.line != line then s.evictL1 core key else s
    | none => s).evictSynonyms core key line
  let c := s.core core
  let old := c.l1.get? key
  match old.bind fun l => (l.take? c.gen d.off d.width).map fun b => (l, b) with
  | some (l, b) =>
    let s := s.updCore core fun c => { c with l1 := c.l1.put key (c.touchL1 key hint l) }
    s.deliver [] (fun _ => l.badAt d.off d.width) (some { d with got := withOff d.off b })
  | none =>
    let got := (old.map fun l => (dirtyOf l.bytes).filter fun p => decide (d.off ≤ p.1) && decide (p.1 < d.off + d.width)).getD []
    let mark := match old with | some l => (l.r, l.w, l.red) | none => (entry.testBit 6, entry.testBit 7 && pteD entry, entry.testBit 11)
    s.missL1 ⟨core, asid, d.ea % 2 ^ 57 / 128, line, mode, hint, mark.1, mark.2.1, mark.2.2, some { d with got := got }⟩

/-- One load of one or more threads: scratchpad, peer window or page. -/
def State.loadOne (s : State) (o : Ops) (core : Nat) (x : Access) (d : LoadDone) : State :=
  match x.tgt with
  | .spad k off => s.deliver (s.mem.scratch.readN (scratchKey k off) d.width) (fun _ => s.spadBadAt k off d.width) (some d)
  | .peer k off => s.post (.peerWindowRequest x.tid (s.ctxOf x.t) k off (.load d))
  | .page ga mode e => s.readPage core (s.asidOf x.t) (hintOf o) ga mode e { d with off := ga % 128 }
  | _ => s

/-- Whether an access is performed. -/
def Access.ok (x : Access) : Bool :=
  match x.tgt with
  | .spad _ _ | .peer _ _ | .page _ _ _ => true
  | _ => false

/-- Bind the destinations of a bundle's producer to a new late value (R249, R250, R256). -/
def State.bindAll (s : State) (iss : Issue) (o : Ops) (quad : Bool) (tids : List Nat) : State × Nat :=
  let (s, id) := s.draw
  if tids.isEmpty then (s, id)
  else
    let (s, sym) := s.takeSymbol iss.core iss.group id tids
    (tids.foldl (fun s k => s.updThread k fun t => t.bind sym o.ty.is64 quad o.dst id) s, id)

/-- The loads of a bundle, in ascending slot order (R387). -/
def State.loads (s : State) (o : Ops) (quad : Bool) (iss : Issue) (l : List Access) : State :=
  let ok := l.filter Access.ok
  let (s, id) := s.bindAll iss o quad (ok.map (·.tid))
  ok.foldl (fun s x => s.loadOne o iss.core x ⟨[x.tid], id, 0, accWidth o quad, [], o.ty, o.x2, x.ea⟩) s

/-- LD (R388). -/
def execLd (o : Ops) (s : State) : Out :=
  .next (s.runMem .ld o .load (s.plainAt .ld o (accWidth o (quadOf o)) .load) fun s iss l => s.loads o (quadOf o) iss l)

/-- LDS (R390). -/
def execLds (o : Ops) (s : State) : Out :=
  .next (s.runMem .lds o .load (s.offsetAt .lds o (accWidth o (quadOf o))) fun s iss l => s.loads o (quadOf o) iss l)

/-- LDK: one read for the lowest-slot executing thread, given to every executing thread; a fault is taken by each (R391). -/
def execLdk (o : Ops) (s : State) : Out :=
  let lead (iss : Issue) (p : Nat × Thread) : Access :=
    let ex := (s.executing iss o).filter fun q => (s.preFault iss .ldk o q.1 q.2).isNone
    let q := ex.head?.getD p
    let x := s.plainAt .ldk o (accWidth o false) .load iss q
    { x with tid := p.1 }
  .next (s.runMem .ldk o .load lead fun s iss l =>
    let ok := l.filter Access.ok
    match ok with
    | [] => s
    | x :: _ =>
      let (s, id) := s.bindAll iss o false (ok.map (·.tid))
      s.loadOne o iss.core x ⟨ok.map (·.tid), id, 0, accWidth o false, [], o.ty, o.x2, x.ea⟩)

/-- The 128-bit data of a QUAD store; none while a register of the range is pending. -/
def Thread.quadData (t : Thread) (n : Nat) : Option Nat :=
  match t.reg n, t.reg (n + 1), t.reg (n + 2), t.reg (n + 3) with
  | .known a, .known b, .known c, .known d => some (a.toNat + 2 ^ 32 * b.toNat + 2 ^ 64 * c.toNat + 2 ^ 96 * d.toNat)
  | _, _, _, _ => none

/-- The data of a store (R389). -/
def State.storeData (s : State) (c : Opc) (o : Ops) (iss : Issue) (tid : Nat) (t : Thread) : Nat :=
  match quadOf o, o.sb with
  | true, .v n => ((iss.view tid t).quadData n.toNat).getD 0
  | _, _ => (s.vals iss c o tid t).2.1

/-- Whether a QUAD store's data is still pending (R386). -/
def quadWaits (s : State) (o : Ops) : Bool :=
  match s.cur, quadOf o, o.sb with
  | some iss, true, .v n => (s.executing iss o).any fun p => ((iss.view p.1 p.2).quadData n.toNat).isNone
  | _, _, _ => false

/-- Leave the instruction in hand unissued. -/
def State.stallCur (s : State) : State := match s.cur with | some iss => s.stall iss | none => s

/-- A store to a page: in L1, or written through with the bypass hint (R58, R80, R85). -/
def State.storePage (s : State) (core asid hint ea ga : Nat) (mode : Mode) (entry : Nat) (b : List Byte) : State :=
  let line := lineNo ga
  let key := l1Key asid ea
  let s := (match (s.core core).l1.get? key with
    | some l => if l.gath.isSome || l.line != line then s.evictL1 core key else s
    | none => s).evictSynonyms core key line
  let c := s.core core
  let w := withOff (ga % 128) b
  match c.l1.get? key with
  | some l =>
    s.updCore core fun c => { c with l1 := c.l1.put key { (c.touchL1 key hint l).write w with w := true } }
  | none =>
    if hint = 3 then s.sendWrite core line mode w
    else
      s.allocL1 core key
        { line := line, mode := mode, r := entry.testBit 6, w := true, red := entry.testBit 11, gen := c.gen,
          bytes := writeBytes FMap.empty w } hint

/-- One store of one thread; a store to a frame makes the frame undefined (R275). -/
def State.storeOne (s : State) (o : Ops) (core : Nat) (x : Access) (width value : Nat) : State :=
  match x.tgt with
  | .spad k off => s.spadWrite k off (bytesOf width value)
  | .peer k off => s.post (.peerWindowRequest x.tid (s.ctxOf x.t) k off (.store width value))
  | .page ga mode e =>
    let b := s.frameData (lineNo ga) (withOff (ga % 128) (bytesOf width value))
    (s.spoilFrame (lineNo ga)).storePage core (s.asidOf x.t) (hintOf o) x.ea ga mode e (b.map Prod.snd)
  | _ => s

/-- The stores of a bundle, in ascending slot order (R65, R387). -/
def State.stores (s : State) (c : Opc) (o : Ops) (s0 : State) (iss : Issue) (l : List Access) : State :=
  l.foldl (fun s x => s.storeOne o iss.core x (accWidth o (quadOf o)) (s0.storeData c o iss x.tid x.t)) s

/-- ST (R389). -/
def execSt (o : Ops) (s : State) : Out :=
  .next (if quadWaits s o then s.stallCur
    else s.runMem .st o .store (s.plainAt .st o (accWidth o (quadOf o)) .store) fun t iss l => t.stores .st o s iss l)

/-- STS (R390). -/
def execSts (o : Ops) (s : State) : Out :=
  .next (if quadWaits s o then s.stallCur
    else s.runMem .sts o .store (s.offsetAt .sts o (accWidth o (quadOf o))) fun t iss l => t.stores .sts o s iss l)

/-- Prefetch a line: nothing but a fill without a load (R392). -/
def State.prefetch (s : State) (o : Ops) (core : Nat) (pc : DWord) (x : Access) : State :=
  match x.tgt with
  | .page ga mode e =>
    if ((s.core core).l1.any fun _ l => l.line == lineNo ga) || (s.core core).misses.has (lineNo ga) then s
    else s.missL1 ⟨core, s.asidOf x.t, x.ea % 2 ^ 57 / 128, lineNo ga, mode, hintOf o, e.testBit 6, e.testBit 7 && pteD e, e.testBit 11, none⟩
  | .miss => s.postOnce (.pageWalk core (s.asidOf x.t) pc 5 [(x.ea, [])])
  | _ => s

/-- PREF: never faults and never waits but for its base (R392). -/
def execPref (o : Ops) (s : State) : Out :=
  .next (match s.prep .pref o with
    | .idle => s
    | .wait iss => s.stall iss
    | .go iss ex flt =>
      let s := (ex.map (s.accessAt .pref o 1 .pref iss)).foldl (fun s x => s.prefetch o iss.core iss.pc x) s
      s.complete iss .pref [] flt)

/-! ### Atomics, reductions and cells (R393 to R401) -/

/-- The ordering of a cell instruction: .give, .take. -/
def orders (o : Ops) : Bool × Bool := (o.aux.getLsbD 3, o.aux.getLsbD 4)
/-- The .total modifier. -/
def totalOf (o : Ops) : Bool := o.aux.getLsbD 5

/-- CELL_MODE and ATOM_UNSUPPORTED, after the checks of translation (R314, R393, R394). -/
def cellChecked (o : Ops) (modeOk atomic : Bool) (x : Access) : Access :=
  match x.tgt with
  | .page ga mode _ =>
    if mode = .nc ∧ !modeOk then { x with tgt := .flt (.cellMode x.ea) }
    else if isHost (lineNo ga) ∧ atomic ∧ o.ty = .f32 then { x with tgt := .flt (.atom x.ea) }
    else x
  | _ => x

/-- Send or perform one thread's cell operation (R140): at its own core's banks at once, unless a reconciliation comes first. -/
def State.cellOne (s : State) (core : Nat) (x : Access) (c : CellOp) : State :=
  match x.tgt with
  | .spad k off =>
    let c := { c with place := .scratch k off }
    if c.giving then s.post (.cellOperationRequest c) else s.performCell c
  | .peer k off =>
    let c := { c with place := .scratch k off }
    if c.giving then s.post (.cellOperationRequest c) else s.post (.peerWindowRequest x.tid (s.ctxOf x.t) k off (.cell c))
  | .page ga mode _ => (s.evictPhysical core (lineNo ga)).post (.cellOperationRequest { c with place := .mem ga, mode := mode })
  | _ => s

/-- Keep what the destination of a giving operation holds, until the operation is performed (R150). -/
def Thread.keepDst (t : Thread) (d : Dst) (wide : Bool) : Thread :=
  match d with
  | .v n =>
    let w := FMap.empty.put n.toNat (t.reg n.toNat)
    { t with was := if wide then w.put (n.toNat + 1) (t.reg (n.toNat + 1)) else w }
  | _ => { t with was := FMap.empty }

/-- The cell operations of a bundle, in ascending slot order (R387). A giving operation first writes the core's lines back (R143) and keeps its thread Waiting (R396). -/
def State.cells (s : State) (o : Ops) (s0 : State) (c : Opc) (kind : CellKind) (giving taking hasDst waits : Bool)
    (iss : Issue) (l : List Access) : State :=
  let ok := l.filter Access.ok
  let s := if giving && !ok.isEmpty then s.writeBackAll iss.core else s
  let s := if giving && hasDst then ok.foldl (fun (s : State) x => s.updThread x.tid (Thread.keepDst · o.dst o.ty.is64)) s else s
  let (s, id) := if hasDst then s.bindAll iss o false (ok.map (·.tid)) else s.draw
  ok.foldl (fun s x =>
    let (_, b, d) := s0.vals iss c o x.tid x.t
    let late := if hasDst || (taking && !waits) then some id else none
    let (s, seq) := s.draw
    let s := s.updThread x.tid fun t => { t with
      takes := if taking && !waits then t.takes ++ [id] else t.takes
      mates := if waits then ok.map (·.tid) else t.mates
      status := if giving || waits then .waiting .sending else t.status }
    s.cellOne iss.core x
      ⟨x.tid, kind, o.ty, .mem 0, .coh, x.ea, lowBits o.ty.bits b, lowBits o.ty.bits d, late, o.dst, 0, giving, taking, totalOf o, false, seq⟩) s

/-- ATOM (R395, R396). -/
def execAtom (o : Ops) (s : State) : Out :=
  let (g, t) := orders o
  .next (s.runMem .atom o .atom (fun iss p => cellChecked o true true (s.accessAt .atom o (o.ty.bits / 8) .atom iss p))
    fun s' iss l => s'.cells o s .atom (.atom (o.aux.toNat % 8)) g t o.flag false iss l)

/-- ATOMC (R397). -/
def execAtomc (o : Ops) (s : State) : Out :=
  let (g, t) := orders o
  .next (s.runMem .atomc o .atom (fun iss p => cellChecked o true false (s.accessAt .atomc o (o.ty.bits / 8) .atom iss p))
    fun s' iss l => s'.cells o s .atomc .atomc g t true false iss l)

/-- Let the copies of a line leave that stand in the way of a RED of a kind: ordinary copies, synonyms, and deltas of another kind (R84, R86); their writes reach the home before the new delta starts (R119). -/
def State.clearFor (s : State) (core key line : Nat) (k : RedKind) : State :=
  (((s.core core).copies line).filter fun p => !(p.1 == key && p.2.gath == some k)).foldl (fun s p => s.evictL1 core p.1) s

/-- Apply a RED to an element of a delta (R84). -/
def L1Line.reduce (l : L1Line) (k : RedKind) (off x : Nat) : L1Line :=
  let old := natOf (((wholeLine l.bytes).drop off).take k.width)
  l.write (withOff off (bytesOf k.width (combine k.ty k.op old x)))

/-- Apply a RED to a gather line of the core's L1 (R84); with the bypass hint, a RED of an absent line is sent at once (R80). -/
def State.gatherOne (s : State) (core asid hint ea ga : Nat) (mode : Mode) (entry : Nat) (k : RedKind) (x : Nat) : State :=
  let line := lineNo ga
  let key := l1Key asid ea
  let s := s.evictSynonyms core key line
  let s := match (s.core core).l1.get? key with
    | some l => if l.gath = some k ∧ l.line = line then s else s.evictL1 core key
    | none => s
  if hint = 3 ∧ ((s.core core).l1.get? key).isNone then
    s.sendFlush core line mode k (patchLine k.blank (withOff (ga % 128) (bytesOf k.width (combine k.ty k.op k.identity x))))
  else
  let s := match (s.core core).l1.get? key with
    | some _ => s
    | none =>
      let s := if homeDie line = dieOf core then
          s.updMem fun m => { m with gmask := m.gmask.put (sliceKey line) (insertDie core (m.gmask.getD (sliceKey line) [])) }
        else s
      s.allocL1 core key
        { line := line, mode := mode, r := entry.testBit 6, w := true, red := true, gen := (s.core core).gen,
          gath := some k, bytes := deltaBytes k.blank } hint
  s.updCore core fun c => { c with l1 := c.l1.adjust key fun l => (c.touchL1 key hint l).reduce k (ga % 128) x }

/-- One thread's RED without a modifier: gathered on COH and SELF pages of device HBM, performed directly elsewhere (R82, R84, R398). -/
def State.redOne (s : State) (o : Ops) (core : Nat) (x : Access) (c : CellOp) : State :=
  let k : RedKind := ⟨o.aux.toNat % 8, o.ty⟩
  match x.tgt with
  | .peer n off => s.post (.peerWindowRequest x.tid (s.ctxOf x.t) n off (.red k.op k.ty c.a))
  | .page ga mode e =>
    if isHbm (lineNo ga) ∧ mode ≠ .nc then (s.spoilFrame (lineNo ga)).gatherOne core (s.asidOf x.t) (hintOf o) x.ea ga mode e k c.a
    else s.cellOne core x c
  | _ => s.cellOne core x c

/-- Before a RED that gathers issues, the copies of its lines in other states leave; it then waits for their writes (R84, R119). -/
def State.clearForRed (s : State) (o : Ops) : State :=
  match s.prep .red o with
  | .go iss ex _ =>
    if ex.any fun p => p.2.held then s
    else (ex.map (s.accessAt .red o (o.ty.bits / 8) .red iss)).foldl (fun s x =>
      match x.tgt with
      | .page ga mode _ =>
        if isHbm (lineNo ga) ∧ mode ≠ .nc ∧ !s.blockedBy iss.core .red x then
          s.clearFor iss.core (l1Key (s.asidOf x.t) x.ea) (lineNo ga) ⟨o.aux.toNat % 8, o.ty⟩
        else s
      | _ => s) s
  | _ => s

/-- RED (R398): with a modifier a cell operation, else a reduction that may gather. -/
def execRed (o : Ops) (s : State) : Out :=
  let (g, _) := orders o
  let cell := g || totalOf o
  .next ((if cell then s else s.clearForRed o).runMem .red o .red (fun iss p => cellChecked o (!cell) true (s.accessAt .red o (o.ty.bits / 8) .red iss p))
    fun s' iss l =>
      if cell then s'.cells o s .red (.red (o.aux.toNat % 8)) g false false false iss l
      else (l.filter Access.ok).foldl (fun s' x =>
        let (s', seq) := s'.draw
        s'.redOne o iss.core x ⟨x.tid, .red (o.aux.toNat % 8), o.ty, .mem 0, .coh, x.ea,
          lowBits o.ty.bits (s.vals iss .red o x.tid x.t).2.1, 0, none, .none, 0, false, false, false, false, seq⟩) s')

/-- GIVE (R399). -/
def execGive (o : Ops) (s : State) : Out :=
  .next (s.runMem .give o .store (fun iss p => cellChecked o false false (s.accessAt .give o (o.ty.bits / 8) .store iss p))
    fun s' iss l => s'.cells o s .give .give true false false false iss l)

/-- TAKE (R400). -/
def execTake (o : Ops) (s : State) : Out :=
  .next (s.runMem .take o .load (fun iss p => cellChecked o false false (s.accessAt .take o (o.ty.bits / 8) .load iss p))
    fun s' iss l => s'.cells o s .take .take false true true false iss l)

/-- The comparison of a WAITW as a monitor holds it: .lt and .ge by the TYPE's sign (R171, R401). -/
def waitCmp (o : Ops) : Nat :=
  match o.aux.toNat % 8 with
  | 0 => 0
  | 1 => 1
  | 2 => if o.ty.signed then 2 else 4
  | _ => if o.ty.signed then 3 else 5

/-- WAITW (R401): each thread is Waiting until its read is performed. -/
def execWaitw (o : Ops) (s : State) : Out :=
  let (_, t) := orders o
  .next (s.runMem .waitw o .load (fun iss p => cellChecked o false false (s.accessAt .waitw o (o.ty.bits / 8) .load iss p))
    fun s' iss l => s'.cells o s .waitw (.waitw (waitCmp o)) false t false true iss l)

/-! ### CWB and CINV (R402 to R404) -/

/-- The 64 KiB pages of a range, outside root entry 31. -/
def rangePages (ea len : Nat) : List Nat :=
  if len = 0 then []
  else (List.range ((ea + len - 1) / 65536 - ea / 65536 + 1)).filterMap fun i =>
    let va := max ea ((ea / 65536 + i) * 65536)
    if va / 2 ^ 52 = 31 then none else some va

/-- The first page of a range that does not translate (R402 step 2). -/
def State.rangeTarget (s : State) (core asid : Nat) (a : Acc) : List Nat → Option (Nat × Xlate)
  | [] => none
  | va :: r =>
    match s.xlate core asid va a with
    | .hit _ _ _ => s.rangeTarget core asid a r
    | x => some (va, x)

/-- The access of a thread to its range: the first failure, or the range itself as a page target. -/
def State.rangeAt (s : State) (c : Opc) (o : Ops) (a : Acc) (iss : Issue) (p : Nat × Thread) : Access :=
  let (base, len, _) := s.vals iss c o p.1 p.2
  let ea := eaOf o base
  let len := lowBits 32 len
  if len = 0 then ⟨p.1, p.2, ea, .page (2 ^ 80) .coh 0⟩
  else if 2 ^ 57 ≤ ea ∨ 2 ^ 57 ≤ ea + len - 1 then ⟨p.1, p.2, ea, .flt (.access ea 7 3)⟩
  else
    match s.rangeTarget iss.core (s.asidOf p.2) a (rangePages ea len) with
    | some (va, .fault f) => ⟨p.1, p.2, va, .flt f⟩
    | some (va, _) => ⟨p.1, p.2, va, .miss⟩
    | none => ⟨p.1, p.2, ea, .page (2 ^ 80) .coh 0⟩

/-- The keys of a core's L1 lines that hold bytes of a range (R402 step 3). -/
def State.rangeLines (s : State) (core asid ea len : Nat) : List Nat :=
  if len = 0 then []
  else ((s.core core).l1.cells.filter fun p =>
    decide (p.1 / 2 ^ 50 = asid) && decide (ea / 128 ≤ p.1 % 2 ^ 50) && decide (p.1 % 2 ^ 50 ≤ (ea + len - 1) / 128)).map Prod.fst

/-- The bytes that CINV discards dirty read as undefined until written, whoever reads them (R17, R404): a free value each, in every copy. -/
def State.loseBytes (s : State) (ctx line : Nat) (b : LineBytes) : State :=
  b.foldl (fun s p => (s.putEverywhere line (p.1, Config.freeByte ctx (s.freeOf ctx))).useFree ctx 1) s

/-- Invalidate an L1 line; a gather line is flushed, dirty bytes are lost (R404). -/
def State.discardL1 (s : State) (ctx core key : Nat) : State :=
  match (s.core core).l1.get? key with
  | none => s
  | some l =>
    if l.gath.isSome then s.evictL1 core key
    else (s.updCore core fun c => { c with l1 := c.l1.del key }).loseBytes ctx l.line (dirtyOf l.bytes)

/-- The lengths and bases of the ranges of a bundle's accesses. -/
def State.rangesOf (s : State) (c : Opc) (o : Ops) (iss : Issue) (l : List Access) : List (Access × Nat) :=
  (l.filter Access.ok).map fun x => (x, lowBits 32 (s.vals iss c o x.tid x.t).2.1)

/-- Act on the lines of the union of the threads' ranges; each thread waits for the writes that its own range's lines sent (R402, R403). -/
def State.ranges (s : State) (c : Opc) (o : Ops) (s0 : State) (f : State → Nat → State) (iss : Issue) (l : List Access) : State :=
  let rs := (s0.rangesOf c o iss l).map fun x => (x.1.tid, s.rangeLines iss.core (s.asidOf x.1.t) x.1.ea x.2)
  let lineOf (k : Nat) : Option Nat := ((s.core iss.core).l1.get? k).map (·.line)
  let rs := rs.map fun x => (x.1, x.2, x.2.filterMap lineOf)
  let s := (rs.flatMap fun x => x.2.1).eraseDups.foldl f s
  rs.foldl (fun s x =>
    let busy := x.2.2.filter fun n => (s.core iss.core).inflight.contains n
    if busy.isEmpty then s else s.updThread x.1 fun t => { t with status := .waiting (.acks busy) }) s

/-- Whether a load of a line of a range is outstanding (R405). -/
def State.rangeLoads (s : State) (core asid ea len : Nat) : Bool :=
  len != 0 && (s.core core).misses.any fun _ l => l.any fun f =>
    f.asid == asid && decide (ea / 128 ≤ f.vline) && decide (f.vline ≤ (ea + len - 1) / 128)

/-- Whether a CINV must let outstanding loads of its ranges return first (R405). -/
def State.cinvWaits (s : State) (o : Ops) : Bool :=
  match s.prep .cinv o with
  | .go iss ex _ =>
    (s.rangesOf .cinv o iss (ex.map (s.rangeAt .cinv o .store iss))).any fun x => s.rangeLoads iss.core (s.asidOf x.1.t) x.1.ea x.2
  | _ => false

/-- CWB (R403). -/
def execCwb (o : Ops) (s : State) : Out :=
  .next (s.runMem .cwb o .load (s.rangeAt .cwb o .load) fun s' iss l => s'.ranges .cwb o s (fun s k => s.cleanL1 iss.core k) iss l)

/-- CINV (R404). It needs W and is translated as a write is, so that the walker sets D (R44, R402, log 137). -/
def execCinv (o : Ops) (s : State) : Out :=
  .next (if s.cinvWaits o then s.stallCur
    else s.runMem .cinv o .store (s.rangeAt .cinv o .store) fun s' iss l =>
      s'.ranges .cinv o s (fun s k => s.discardL1 ((l.head?.map fun x => s.ctxOf x.t).getD 0) iss.core k) iss l)

end Sys2Proof.Machine
end

