-- ==== Sys2Proof/Machine/Transfer.lean ====
section
/-!
DEFINITION. The fetch path and the transfers of control: fetch lines and their checks, the checks of a target in the order of R233, the return stack, and whether a transfer must wait (R135, R191 to R195, R233, R234).
-/
namespace Sys2Proof.Machine

/-! ### Fetch lines (R191 to R193) -/

/-- The key of a fetch line in a core's fetch path. -/
def fetchKey (asid va : Nat) : Nat := asid * 2 ^ 51 + va / 64

/-- The word of a slot of a line (R191). -/
def lineSlot (b : List Byte) (i : Nat) : Nat := natOf ((b.drop (12 * i)).take 12)
/-- The line word (R191). -/
def lineWord (b : List Byte) : Nat := natOf ((b.drop 60).take 4)
/-- TGT of a slot (R192). -/
def lineTgt (w i : Nat) : Bool := w.testBit i
/-- PAIR of slot j (R192). -/
def linePair (w j : Nat) : Bool := decide (j < 4) && w.testBit (5 + j)
/-- PRIO (R192). -/
def linePrio (w : Nat) : Nat := bitsAt w 15 8

/-- Whether n bits hold an even number of ones. -/
def evenOnes : Nat → Nat → Bool
  | 0, _ => true
  | n + 1, x => if x % 2 = 1 then !evenOnes n (x / 2) else evenOnes n (x / 2)

/-- The parity check of a line (R192, R193). -/
def parityOk (b : List Byte) : Bool :=
  let w := lineWord b
  evenOnes 32 w && (List.range 5).all fun i => evenOnes 97 (lineSlot b i + if w.testBit (9 + i) then 2 ^ 96 else 0)

/-- The form check of a line word (R193). -/
def formOk (b : List Byte) : Bool :=
  let w := lineWord b
  bitsAt w 23 9 == 0 && (List.range 4).all fun j =>
    !linePair w j || (!linePair w (j + 1) && !lineTgt w (j + 1))

/-- The line checks (R193): the fault of every thread that enters at a PC. -/
def lineFault (b : List Byte) (pc : DWord) : Option Flt :=
  if !parityOk b then some (.parity (lineOf pc)) else if !formOk b then some (.illegal .line) else none

/-- What a core's fetch path holds at a PC. -/
def State.fetched (s : State) (core asid : Nat) (pc : Nat) : Option FetchEnt := (s.core core).fetch.get? (fetchKey asid pc)

/-- Ask for a fetch line. -/
def State.askFetch (s : State) (core asid pc : Nat) : State := s.postOnce (.fetchLineReturn core asid (pc / 64))

/-- Forget a fetch line, so that the next use asks for it again. -/
def State.dropFetch (s : State) (core asid pc : Nat) : State :=
  s.updCore core fun c => { c with fetch := c.fetch.del (fetchKey asid pc) }

/-- FETCH_LINE_RETURN (R135, R224): the line is translated for fetch and read through the core's L1, or its fault is kept; a poisoned unit is a DATA_UNCORRECTABLE of what enters the line (R516). -/
def State.fetchReturn (s : State) (core asid vline : Nat) : State :=
  let va := vline * 64
  let keep (s : State) (e : FetchEnt) : State := s.updCore core fun c => { c with fetch := c.fetch.put (fetchKey asid va) e }
  match s.translate core asid va .fetch with
  | (s, .hit ga mode _) =>
    let line := lineNo ga
    if !s.quietLine line || (s.core core).inflight.contains line then (s.callHost line).post (.fetchLineReturn core asid vline)
    else
      let s := (s.flushOwn core line).settle line false
      keep s (if s.readBad core line mode (ga % 128) 64 then .fault 0x0D va
        else .line (((s.engineLine core line mode).drop (ga % 128)).take 64))
  | (s, .fault f) => keep s (.fault f.code f.tval)
  | (s, .miss) => s.post (.fetchLineReturn core asid vline)

/-- FETCH_LINE_RETURN. -/
def execFetchLineReturn (core asid vline : Nat) (s : State) : Out := .next (s.fetchReturn core asid vline)

/-- A fetch fault met at a PC: TVAL's ADDR is the PC (R45, R233). -/
def fetchFlt (code tval pc : Nat) : Flt := ⟨code, tval / 2 ^ 57 * 2 ^ 57 + pc % 2 ^ 57⟩

/-! ### Transfers (R233, R234) -/

/-- What a transfer of one thread comes to. -/
inductive Xfer where
  | go (target : Nat)
  | flt (f : Flt)
  | line (target : Nat)          -- the target's line must be fetched first
  | walk (ea : Nat) (a : Acc)    -- a spill or refill misses its translation
  | wait (line : Nat)            -- a spill or refill waits for its line
  deriving DecidableEq, Repr

/-- The checks of a target, in the order of R233; RET skips the TGT bit. -/
def State.checkTarget (s : State) (core asid target : Nat) (exempt : Bool) : Xfer :=
  if target / 8 % 8 ≠ 0 ∨ 4 < target % 8 then .flt (.target (BitVec.ofNat 64 target))
  else if 2 ^ 57 ≤ target then .flt (.access target 7 3)
  else if target / 2 ^ 52 = 31 then .flt (.access target 7 6)
  else
    match s.fetched core asid target with
    | none => .line target
    | some (.fault code tval) => .flt (fetchFlt code tval target)
    | some (.line b) =>
      if exempt || (lineFault b (BitVec.ofNat 64 target)).isSome || lineTgt (lineWord b) (target % 8) then .go target
      else .flt (.target (BitVec.ofNat 64 target))

/-- The place of entry n of a thread's return stack, counted from the bottom (R234). -/
def stackPlace (tid n : Nat) : Nat := tlsOf tid + 8 * n

/-- Whether a thread's access to a line must wait for an earlier access of its own or of its core. -/
def State.accessWaits (s : State) (core : Nat) (t : Thread) (line : Nat) : Bool :=
  t.held || s.due.any (coreAccessOf core line) || (s.core core).inflight.contains line || !s.quietLine line

/-- The top of a thread's return stack: held in hardware, or read from its place (R234). -/
def State.stackTop (s : State) (tid : Nat) (t : Thread) : Xfer :=
  match t.stack with
  | x :: _ => .go x.toNat
  | [] =>
    if t.depth = 0 then .flt (.stack false)
    else
      let ea := stackPlace tid (t.depth - 1)
      match s.plainTarget tid t ea 8 .load with
      | .page ga mode _ =>
        let line := lineNo ga
        if s.accessWaits (coreOf tid) t line then .wait line
        else
          let s := (s.flushOwn (coreOf tid) line).settle line false
          if s.readBad (coreOf tid) line mode (ga % 128) 8 then .flt ⟨0x0D, ea⟩
          else .go (natOf (((s.engineLine (coreOf tid) line mode).drop (ga % 128)).take 8))
      | .flt f => .flt f
      | _ => .walk ea .load

/-- The spill that a push needs: none, or the place and the entry (R234). -/
def Thread.spill (tid : Nat) (t : Thread) : Option (Nat × DWord) :=
  if t.stack.length < 8 then none else (t.stack[7]?).map fun x => (stackPlace tid (t.depth - 8), x)

/-- The push of a call once its target has passed: the spill's faults come first, then a full stack (R234, R248). -/
def State.pushCheck (s : State) (tid : Nat) (t : Thread) (target : Nat) : Xfer :=
  let full : Xfer := if 136 ≤ t.depth then .flt (.stack true) else .go target
  match t.spill tid with
  | none => full
  | some (ea, _) =>
    match s.plainTarget tid t ea 8 .store with
    | .page ga _ _ => if s.accessWaits (coreOf tid) t (lineNo ga) then .wait (lineNo ga) else full
    | .flt f => .flt f
    | _ => .walk ea .store

/-- The three kinds of transfer. -/
inductive XferKind where
  | jump | call | ret
  deriving DecidableEq, Repr

/-- Judge a thread's transfer to a target. -/
def State.xfer (s : State) (k : XferKind) (core : Nat) (p : Nat × Thread) (target : Nat) : Xfer :=
  let asid := s.asidOf p.2
  match k with
  | .jump => s.checkTarget core asid target false
  | .call =>
    match s.checkTarget core asid target false with
    | .go x => s.pushCheck p.1 p.2 x
    | r => r
  | .ret =>
    match s.stackTop p.1 p.2 with
    | .go x => s.checkTarget core asid x true
    | r => r

/-- Ask for what a bundle's threads wait for: fetch lines, the host's copies of lines, and one walk of all the addresses that an access of a kind misses, so that the threads that fault are split off together (R38, R48). -/
def State.askAll (s : State) (core : Nat) (l : List ((Nat × Thread) × Xfer)) : State :=
  let s := l.foldl (fun (s : State) x => match x.2 with
    | .line target => s.askFetch core (s.asidOf x.1.2) target
    | .wait line => s.callHost line
    | _ => s) s
  let walks := l.filterMap fun x => match x.2 with | .walk ea a => some (x.1, ea, a) | _ => none
  (walks.map (·.2.2)).eraseDups.foldl (fun (s : State) a =>
    let w := walks.filter fun x => x.2.2 == a
    match w with
    | [] => s
    | x :: _ => s.postOnce (.pageWalk core (s.asidOf x.1.2) x.1.2.pc a.code
        ((w.map (·.2.1)).eraseDups.map fun va => (va, (w.filter fun y => y.2.1 == va).map (·.1.1))))) s

/-- Whether a transfer must wait. -/
def Xfer.waits : Xfer → Bool
  | .line _ | .walk _ _ | .wait _ => true
  | _ => false

/-- The transfer that an instruction makes for a thread, and its target (R233, R234). -/
def State.transferOf (s : State) (iss : Issue) (c : Opc) (o : Ops) (p : Nat × Thread) : Option (XferKind × Nat) :=
  match c with
  | .bra => some (.jump, (immTarget iss.pc o.imm).toNat)
  | .brx => some (.jump, (s.vals iss .brx o p.1 p.2).1)
  | .call => some (.call, (immTarget iss.pc o.imm).toNat)
  | .callx => some (.call, (s.vals iss .callx o p.1 p.2).1)
  | .ret => some (.ret, 0)
  | _ => none

/-- The transfers of the second slot of a pair that must wait, judged before the pair: slot j is not performed ahead of slot j + 1 (R197). -/
def State.transfersWait (s : State) (iss : Issue) (w : IWord) : List ((Nat × Thread) × Xfer) :=
  match decode w with
  | .error _ => []
  | .ok i =>
    match i.view with
    | none => []
    | some (c, o) =>
      (((s.executing iss o).filter fun p => (s.preFault iss c o p.1 p.2).isNone).filterMap fun p =>
        (s.transferOf iss c o p).map fun x => (p, s.xfer x.1 iss.core p x.2)).filter fun x => x.2.waits

end Sys2Proof.Machine
end

