-- ==== Sys2Proof/Machine/Issue.lean ====
section
/-!
DEFINITION. Issue: the frontier and its selection, the choice of a group, pairs, regrouping, late values and the scrubber (R145, R196, R197, R213, R219 to R230, R257).
-/
namespace Sys2Proof.Machine

/-! ### The crew of a group -/

/-- The crew of a group: that of its first live thread; in a gather set others may run in it too (R273). -/
def State.groupCrew (s : State) (k : Nat) : Option Crew :=
  (s.threads.find? fun n t => gkey (coreOf n) t.group == k).bind fun p => s.crews.get? p.2.crew

/-- The asid of a group. -/
def State.groupAsid (s : State) (k : Nat) : Nat := ((s.groupCrew k).bind fun c => (s.ctx? c.ctx).map (·.asid)).getD 0

/-! ### The frontier (R224, R225) -/

/-- An entry that may be selected. -/
structure Entry where
  pc     : DWord
  prio   : Nat
  passed : Nat
  deriving DecidableEq, Repr

/-- The block priority of a PC: 255 where its line cannot be had or fails its check (R224). -/
def blockPrio (e : FetchEnt) (pc : DWord) : Nat :=
  match e with
  | .line b => if (lineFault b pc).isSome then 255 else linePrio (lineWord b)
  | .fault _ _ => 255

/-- The Ready threads of a group. -/
def State.ready (s : State) (core g : Nat) : List (Nat × Thread) :=
  s.threads.cells.filter fun p => coreOf p.1 == core && p.2.group == g && p.2.status == .ready

/-- The PCs of a group's ready entries, ascending. -/
def State.readyPcs (s : State) (core g : Nat) : List Nat := ((s.ready core g).map fun p => p.2.pc.toNat).eraseDups.mergeSort

/-- Keep the earlier of two entries unless the later is better by a measure. -/
def better (f : Entry → Nat) (a b : Entry) : Entry := if f a < f b then b else a

/-- The entry that a group selects: an aged one with the largest count, else the highest priority, ties to the lowest PC (R225). -/
def selectEntry (l : List Entry) : Option Entry :=
  let pick (f : Entry → Nat) : List Entry → Option Entry
    | [] => none
    | e :: r => some (r.foldl (better f) e)
  match l.filter fun e => decide (256 ≤ e.passed) with
  | [] => pick (·.prio) l
  | aged => pick (·.passed) aged

/-- The counts after a selection (R225). -/
def passAll (l : List Entry) (c : Entry) (m : FMap Nat) : FMap Nat :=
  l.foldl (fun m e => if e.pc = c.pc then m.del e.pc.toNat else m.put e.pc.toNat (e.passed + 1)) m

/-! ### Pairs (R196, R197) -/

/-- The destination an instruction writes: a register, pair or predicate field. A word that is an encoding fault writes none (log 135). -/
def writesOf (w : IWord) : List Dst :=
  match decode w with
  | .ok i =>
    match i.view with
    | some (c, o) =>
      match o.dst, (c.fmtOf o).dst with
      | .v n, .v64 => [.v n, .v (n + 1)]
      | .v n, .quad => [.v n, .v (n + 1), .v (n + 2), .v (n + 3)]
      | .k n, .k64 => [.k n, .k (n + 1)]
      | .none, _ => predOuts c o
      | d, _ => d :: predOuts c o
    | none => []
  | .error _ => []
where
  /-- A predicate that an instruction writes through SC. -/
  predOuts (c : Opc) (o : Ops) : List Dst :=
    match c, o.sc with
    | .qpop, .p n => [.p n]
    | .tfetch, .p n => [.p n]
    | _, _ => []

/-- Whether two slots may issue as a pair (R196). -/
def pairOk (a b : IWord) : Bool :=
  match clsOfMaj (fieldOf a 88 8), clsOfMaj (fieldOf b 88 8) with
  | some .a, some _ => !(writesOf a).any (writesOf b).contains
  | some .m, some .a => !(writesOf a).any (writesOf b).contains
  | some .m, some .c => true
  | _, _ => false

/-- The four scoreboarded engines' instructions, which take an entry at issue (R166). -/
def takesEntry : Opc → Bool
  | .mmaSolo | .mmaPair | .mzero | .mload | .msave | .mdrain | .rfma | .rscl | .rred | .rexp | .rcvt | .cpy | .rngEngine => true
  | _ => false

/-- Whether an instruction must wait on a pending operand, so that its pair does (R197). -/
def State.mustWait (s : State) (iss : Issue) (c : Opc) (o : Ops) : Bool :=
  let ex := (s.executing iss o).filter fun p => (s.preFault iss c o p.1 p.2).isNone
  match c with
  | .symq | .resolve => false   -- they read no value: SYMQ waits for nothing (R262), RESOLVE makes the thread Waiting (R264)
  | .shfl => ex.any fun p =>
      let (_, b, _) := s.operands iss c o p.1 p.2
      let src := (s.threads.find? fun k t => coreOf k == iss.core && t.group == iss.group &&
        t.lane == shflLane (o.aux.toNat % 4) p.2.lane b.val).getD p
      !b.isKnown || !(s.operands iss c o src.1 src.2).1.isKnown
  | .gred | .gscan | .vote => ex.any fun p => !(s.operands iss c o p.1 p.2).1.isKnown
  | _ =>
    if c.cls = .a then ex.any fun p => s.lane iss c o (fun _ _ _ => 0) p.1 p.2 == .wait
    else
      ex.any fun p =>
        let (a, b, d) := s.operands iss c o p.1 p.2
        !a.isKnown || !b.isKnown || !d.isKnown || p.2.halfBusy (c.pairDst o) o.dst || s.descPending c o p.2

/-- Whether the second slot of a pair must wait; a word that is no instruction does not. -/
def State.secondWaits (s : State) (iss : Issue) (w : IWord) : Bool :=
  match decode w with
  | .ok i =>
    match i.view with
    | some (c, o) => s.mustWait { iss with pc := iss.pc, second := true } c o
    | none => false
  | .error _ => false

/-! ### Choosing what issues (R225 to R227) -/

/-- The crew priority of a group (R226). -/
def State.groupPrio (s : State) (k : Nat) : Nat := ((s.groupCrew k).map (·.prio)).getD 0

/-- Mark a group as stalled on this clock. -/
def State.markTried (s : State) (core g : Nat) : State := s.updCore core fun c => { c with tried := c.tried ++ [g] }

/-- Restore recorded latches to threads that resume at their PC (R208). -/
def Thread.restoreLatches (t : Thread) : Thread :=
  match t.restore with | some l => { t with latches := l, restore := none } | none => t

/-- What a pair keeps of the state before it: the group's threads and the crew-uniform registers of its crews (R197). -/
def State.pairIssue (s : State) (iss : Issue) (w0 : IWord) : Issue :=
  if iss.pair then
    let ts := s.threads.filter fun k t => coreOf k == iss.core && t.group == iss.group
    { iss with
      snap := ts
      ksnap := ts.vals.foldl (fun m t => match s.crewOf t with | some c => m.put t.crew c.kregs | none => m) FMap.empty
      undo := clsOfMaj (fieldOf w0 88 8) == some .a }
  else iss

/-! ### Square joins (R158, R470) -/

/-- The guard of a raw word (R199). -/
def wordGuard (w : IWord) (t : Thread) : Bool := t.pred (fieldOf w 78 3).toNat != w.getLsbD 81

/-- The vector registers that an instruction names as sources. -/
def namedRegs (c : Opc) (o : Ops) : List Nat :=
  let f := c.fmtOf o
  let regs (n : Nat) : Src → List Nat
    | .v r => (List.range n).map (r.toNat + ·)
    | _ => []
  let wide (b : Bool) : Nat := if b then 2 else 1
  let data := if (c == .st || c == .sts) && o.aux.getLsbD 1 then 4 else wide f.sb.wide
  regs (wide f.sa.wide) o.sa ++ regs data o.sb ++ regs (wide f.sc.wide) o.sc

/-- Square results that an instruction of a thread joins: those of the registers it names; a RESOLVE of all joins each (R470). -/
def Thread.joinedBy (t : Thread) (c : Opc) (o : Ops) : List Nat :=
  (t.sqJoin.filter fun p => (c == .resolve && o.aux.toNat % 4 == 0) || (namedRegs c o).contains p.1).map Prod.snd

/-- The first instruction of a thread that waits on a Square operation's destination performs the taking reconciliation (R144, R158). -/
def State.joinSquares (s : State) (core : Nat) (tids : List Nat) (w : IWord) : State :=
  if tids.all fun k => ((s.threads.get? k).map fun t => t.sqJoin.isEmpty).getD true then s
  else
    match decode w with
    | .error _ => s
    | .ok i =>
      match i.view with
      | none => s
      | some (c, o) =>
        let ids (t : Thread) : List Nat := if wordGuard w t then t.joinedBy c o else []
        let l := tids.filter fun k => ((s.threads.get? k).map fun t => !(ids t).isEmpty).getD false
        if l.isEmpty then s
        else l.foldl (fun s k => s.updThread k fun t => { t with sqJoin := t.sqJoin.filter fun p => !(ids t).contains p.2 }) (s.takingRecon core)

/-- Put the bundle of an entry in hand: the line's checks, the pair's, then the slot (R193, R196, R206, R214). -/
def State.issueAt (s : State) (core g : Nat) (grp : Group) (pc : DWord) : State :=
  let asid := s.groupAsid (gkey core g)
  let bundle := (s.ready core g).filter fun p => p.2.pc == pc
  let tids := bundle.map Prod.fst
  let enter (s : State) : State :=
    let s := if grp.last = some pc then s else s.clearLatches core g
    tids.foldl (fun s k => s.updThread k Thread.restoreLatches) s
  let fail (s : State) (f : Flt) : State :=
    let s := (enter s).updGroup (gkey core g) fun x => { x with cont := none, last := none, half := none }
    (s.raiseAll pc (tids.map fun k => (k, f))).updCore core fun c => { c with tried := [] }
  match s.fetched core asid pc.toNat with
  | none => (s.askFetch core asid pc.toNat).markTried core g
  | some (.fault code tval) => (fail s (fetchFlt code tval pc.toNat)).dropFetch core asid pc.toNat
  | some (.line b) =>
    match lineFault b pc with
    | some f => fail s f
    | none =>
      let j := slotNo pc
      let w0 := BitVec.ofNat 96 (lineSlot b j)
      let w1 := BitVec.ofNat 96 (lineSlot b (j + 1))
      let pair := linePair (lineWord b) j
      if pair && !pairOk w0 w1 then fail s (.illegal .pair)
      else
        let s := (enter s).updGroup (gkey core g) fun x => { x with last := some pc }
        let iss : Issue := s.pairIssue { core := core, group := g, pc := pc, slots := tids, second := false, pair := pair, snap := FMap.empty } w0
        let busy := if pair then s.transfersWait { iss with second := true } w1 else []
        if pair && (s.secondWaits iss w1 || !busy.isEmpty) then (s.askAll core busy).stall iss
        else
          let s := s.joinSquares core tids w0
          { (if pair then s.joinSquares core tids w1 else s) with cur := some iss }

/-- Continue, resume a half-done pair, or select an entry of a group; a selection waits for the lines of every ready entry (R224, R225). -/
def State.issueGroup (s : State) (core g : Nat) (grp : Group) : State :=
  let pcs := s.readyPcs core g
  let again (i : Issue) : List Nat := i.slots.filter fun k =>
    match s.threads.get? k with | some t => t.status == .ready && t.pc == i.pc | none => false
  match grp.half with
  | some i =>
    if (again i).isEmpty then s.updGroup (gkey core g) fun x => { x with half := none }
    else
      match s.fetched core (s.groupAsid (gkey core g)) i.pc.toNat with
      | some (.line b) =>
        match lineFault b i.pc with
        | some f =>
          ((s.updGroup (gkey core g) fun x => { x with cont := none, last := none, half := none }).raiseAll i.pc
            ((again i).map fun k => (k, f))).updCore core fun c => { c with tried := [] }
        | none => { s.joinSquares core (again i) (BitVec.ofNat 96 (lineSlot b (slotNo i.pc))) with cur := some { i with slots := again i } }
      | some (.fault _ _) => s.updGroup (gkey core g) fun x => { x with half := none, cont := some i.pc }
      | none => (s.askFetch core (s.groupAsid (gkey core g)) i.pc.toNat).markTried core g
  | none =>
    match grp.cont with
    | some pc => if pcs.contains pc.toNat then s.issueAt core g grp pc else s.updGroup (gkey core g) fun x => { x with cont := none }
    | none =>
      let asid := s.groupAsid (gkey core g)
      let missing := pcs.filter fun pc => (s.fetched core asid pc).isNone
      if !missing.isEmpty then (missing.foldl (fun s pc => s.askFetch core asid pc) s).markTried core g
      else
        let entries : List Entry := pcs.filterMap fun pc =>
          (s.fetched core asid pc).map fun e => ⟨BitVec.ofNat 64 pc, blockPrio e (BitVec.ofNat 64 pc), grp.passed.getD pc 0⟩
        match selectEntry entries with
        | none => s
        | some c =>
          let live := (s.threads.cells.filter fun p => coreOf p.1 == core && p.2.group == g).map fun p => p.2.pc.toNat
          let grp := { grp with passed := passAll entries c (grp.passed.filter fun k _ => live.contains k), cont := some c.pc }
          ({ s with groups := s.groups.put (gkey core g) grp }).issueAt core g grp c.pc

/-! ### Groups that only wait (R284) -/

/-- The instructions that a join holds: loads, stores, cell, range and engine instructions, SPAWN, STEALPT, QPUSH and QPOP, but not AWAIT, POLLF and FRET (R279). -/
def joinHolds : Opc → Bool
  | .ld | .st | .lds | .sts | .ldk | .atom | .atomc | .red | .give | .take | .waitw | .cwb | .cinv | .spawn | .stealpt | .qpush | .qpop => true
  | .sqload | .sqlegal | .sqplay | .sqplayList | .squndo | .sqscore | .sqread | .sqsave | .sqcheck | .sqcommit => true
  | c => takesEntry c

/-- Whether a register is bound to a frame slot: to the value of an AWAIT that has not joined (R260). -/
def State.frameBound (s : State) (r : RegVal) : Bool :=
  match r.late? with
  | some (.sym id _) => s.mem.mons.any fun m => match m.who with | .await _ l _ _ _ => l == id | _ => false
  | _ => false

/-- Whether a word stalls a thread on a register that a test names, or by a join's hold (R279, R284). -/
def State.wordStalls (s : State) (bound : RegVal → Bool) (iss : Issue) (p : Nat × Thread) (w : IWord) : Bool :=
  match decode w with
  | .error _ => false
  | .ok i =>
    match i.view with
    | none => false
    | some (c, o) =>
      let named (wide : Bool) : Src → Bool
        | .v n => bound (p.2.reg n.toNat) || (wide && bound (p.2.reg (n.toNat + 1)))
        | _ => false
      let f := c.fmtOf o
      let dst : Src := match o.dst with | .v n => .v n | _ => .none
      (joinHolds c && !p.2.joins.isEmpty && !(s.executing iss o).isEmpty) ||
        ((named f.sa.wide o.sa || named f.sb.wide o.sb || named f.sc.wide o.sc || named false dst) && s.mustWait iss c o)

/-- Whether the next step of a Ready thread, or the pair it starts, stalls so. -/
def State.stallsOn (s : State) (bound : RegVal → Bool) (core g : Nat) (p : Nat × Thread) : Bool :=
  match s.fetched core (s.groupAsid (gkey core g)) p.2.pc.toNat with
  | some (.line b) =>
    let j := slotNo p.2.pc
    let iss : Issue := { core := core, group := g, pc := p.2.pc, slots := [p.1], second := false, pair := linePair (lineWord b) j, snap := ⟨[p]⟩ }
    s.wordStalls bound iss p (BitVec.ofNat 96 (lineSlot b j)) ||
      (linePair (lineWord b) j && s.wordStalls bound { iss with second := true } p (BitVec.ofNat 96 (lineSlot b (j + 1))))
  | _ => false

/-- Whether a group is shelvable: every live thread waits at WAITW or SYNCG, stalls on a register bound to a frame slot, or by a join (R284). -/
def State.shelvable (s : State) (core g : Nat) : Bool :=
  let ms := s.threads.cells.filter fun p => coreOf p.1 == core && p.2.group == g
  !ms.isEmpty && ms.all fun p =>
    match p.2.status with
    | .waiting .monitor | .waiting .read => true
    | .waiting .syncg => true
    | .ready => s.stallsOn s.frameBound core g p
    | _ => false

/-- Record, for each group of a core, the clock since which it is shelvable (R284). -/
def State.noteShelvable (s : State) (core : Nat) : State :=
  { s with groups := s.groups.map fun k g =>
      if k / 64 == core && decide (k % 64 < 32) then
        { g with idle := if s.shelvable core (k % 64) then some (g.idle.getD (s.core core).clk) else none }
      else g }

/-- The shelves of a core whose groups can issue (R284). -/
def State.returning (s : State) (core : Nat) : List Nat :=
  ((s.groups.filter fun k _ => k / 64 == core && decide (32 ≤ k % 64)).keys.filter fun k => !s.shelvable core (k % 64)).map (· % 64 - 32)

/-- A shelved group returns as soon as one of its threads can issue (R284). -/
def State.wakeShelved (s : State) (core : Nat) : State := (s.returning core).foldl (fun (s : State) i => s.postOnce (.unshelveGroup core i)) s

/-- What a clock of a core makes due besides issue: the regrouper, the scrubber, shelved groups, the dispatcher, and the freeing of frames whose spawners have ended, as a CREW_END of no crew (R145, R228, R271, R278, R284). -/
def State.clockWork (s : State) (core : Nat) : State :=
  let s := (s.noteShelvable core).wakeShelved core
  let c := s.core core
  let s := if c.clk % 64 = 0 then s.postOnce (.regroup core) else s
  let s := if c.clk % 4 = 0 then s.postOnce (.scrubberVisit core) else s
  let s := if s.fw.frames.any fun _ f => f.over then s.postOnce (.crewEnd 0) else s
  let s := if c.queue.isEmpty then s else s.postOnce (.dispatchCrewStart core)
  if c.queue.isEmpty then s.postOnce (.crewSteal core) else s

/-! ### Where a save takes a group (R208, R322) -/

/-- Whether a late value is a frame's, a crew-uniform register's or a Square operation's, which may stay pending while its crew is shelved or saved (R284, R322). -/
def State.heldLate (s : State) : Late → Bool
  | .kreg _ _ | .kpair _ _ => true
  | .sym id _ =>
    (s.mem.mons.any fun m => match m.who with | .await _ l _ _ _ => l == id | _ => false) ||
      s.ops.any fun _ o => o.late == id && (match o.kind with | .square _ => true | _ => false)

/-- Whether the Ready threads of a group stand where a save takes it: no pair is half done, and the group is at a selection point, which a line boundary and a blocking-class instruction are, or at the start of a line; or its latches have been recorded already, or it stalls on a value that only another party brings (R208, R322, log 93). -/
def State.atBoundary (s : State) (k : Nat) : Bool :=
  let core := k / 64
  let g := k % 64
  let l := s.ready core g
  match s.groups.get? k with
  | none => true
  | some x =>
    x.half.isNone && (match x.cont with
      | none => true
      | some pc =>
        let here := l.filter fun p => p.2.pc == pc
        here.isEmpty || slotNo pc == 0 || here.all fun p => p.2.restore.isSome || s.stallsOn (fun r => r.late?.any s.heldLate) core g p)

/-- Whether a group may issue: every crew of its threads runs, its granules granted (R60); the groups of a crew that is being saved go on to where the save takes them (R322). -/
def State.groupRuns (s : State) (k : Nat) : Bool :=
  (s.threads.filter fun n t => gkey (coreOf n) t.group == k).all fun _ t =>
    ((s.crews.get? t.crew).map fun c => c.phase == .running || (c.phase == .saving && !c.halt && !s.atBoundary k)).getD false

/-- Whether one group goes before another (R226): priority, then least recent issue, then the lower slot. -/
def State.before (s : State) (a b : Nat × Group) : Bool :=
  let age (g : Group) : Nat := match g.issued with | none => 0 | some n => n + 1
  let pa := s.groupPrio a.1
  let pb := s.groupPrio b.1
  if pa ≠ pb then decide (pb < pa)
  else if age a.2 ≠ age b.2 then decide (age a.2 < age b.2)
  else decide (a.1 ≤ b.1)

/-- The groups of a core that have a ready entry and were not found stalled on this clock. -/
def State.candidates (s : State) (core : Nat) : List (Nat × Group) :=
  s.groups.cells.filter fun p =>
    p.1 / 64 == core && decide (p.1 % 64 < 32) && !(s.core core).tried.contains (p.1 % 64) && s.groupRuns p.1 &&
      !(s.ready core (p.1 % 64)).isEmpty

/-- The group that the core chooses (R226). -/
def State.chooseGroup (s : State) (core : Nat) : Option (Nat × Group) :=
  match s.candidates core with
  | [] => none
  | p :: r => some (r.foldl (fun a b => if s.before b a then b else a) p)

/-- ISSUE_CLOCK (R226): a group is chosen and its bundle put in hand; a clock passes once no group is left to try. -/
def State.issueClock (s : State) (core : Nat) : State :=
  if (s.core core).gated then s
  else
    match s.chooseGroup core with
    | some (k, g) =>
      let s := if (s.core core).tried.isEmpty then (s.updCore core fun c => { c with clk := (c.clk + 1) % 2 ^ 64 }).clockWork core else s
      s.issueGroup core (k % 64) ((s.groups.get? k).getD g)
    | none =>
      let s := s.updCore core fun c => { c with tried := [], clk := if c.tried.isEmpty then (c.clk + 1) % 2 ^ 64 else c.clk }
      s.clockWork core

/-- ISSUE_CLOCK. -/
def execIssueClock (core : Nat) (s : State) : Out := .next (s.issueClock core)

/-! ### The instruction in hand -/

/-- The word of the instruction in hand. -/
def State.curWord (s : State) (iss : Issue) : Option IWord :=
  match s.fetched iss.core (s.groupAsid (gkey iss.core iss.group)) iss.pc.toNat with
  | some (.line b) => some (BitVec.ofNat 96 (lineSlot b (slotNo iss.pc)))
  | _ => none

/-- A word that is no instruction: ILLEGAL_INSTRUCTION on the executing threads; the others go on (R213, R214). -/
def State.undecoded (s : State) (iss : Issue) (w : IWord) (y : Why) : State :=
  let ex := iss.slots.filter fun k =>
    match s.threads.get? k with
    | some t => t.status == .ready && t.pc == iss.pc && wordGuard w (iss.view k t)
    | none => false
  let flt := ex.map fun k => (k, Flt.illegal y)
  ((s.moveOn iss ex).raiseAll iss.pc flt).finish iss false

/-- Let go of an instruction whose line has left the fetch path. -/
def State.letGo (s : State) : State := { s with cur := none }

/-! ### Late values (R257, R258, R261) -/

/-- A thread whose late read met uncorrectable data: the registers bound to it become free values, and the thread faults at its next issue, whether or not a register is still bound (R261). -/
def Thread.spoil (t : Thread) (id va ctx free : Nat) : Thread :=
  { t with
    regs := t.regs.map fun n r => if r.boundTo id then RegVal.known (Config.freeWord ctx (free + n)) else r
    was := t.was.map fun n r => if r.boundTo id then RegVal.known (Config.freeWord ctx (free + n)) else r
    owed := t.owed.erase id
    late := some va }

/-- Whether a register that RESOLVE names is known (R264). -/
def State.resolved (s : State) (t : Thread) : Src → Bool
  | .v n => (t.reg n.toNat).late?.isNone
  | .k n => ((s.crewOf t).map fun c => (c.kregs.get? n.toNat).isSome).getD true
  | _ => true

/-- Whether a thread waits at a RESOLVE whose registers are all known (R264). -/
def State.resolveDone (s : State) (t : Thread) : Bool :=
  match t.status with
  | .waiting (.resolve a b c all) =>
    if all then t.regs.all fun _ r => r.late?.isNone else s.resolved t a && s.resolved t b && s.resolved t c
  | _ => false

/-- The Square results that the RESOLVE a thread waits at joins (R470). -/
def Thread.resolveJoins (t : Thread) : List Nat :=
  match t.status with
  | .waiting (.resolve a b c all) =>
    let names (n : Nat) : Src → Bool
      | .v r => r.toNat == n
      | _ => false
    (t.sqJoin.filter fun p => all || names p.1 a || names p.1 b || names p.1 c).map Prod.snd
  | _ => []

/-- Let threads that wait at RESOLVE go when their registers are known (R264); a RESOLVE that names a Square operation's destination joins it (R470). -/
def State.checkResolve (s : State) : State :=
  let l := s.threads.cells.filter fun p => s.resolveDone p.2
  l.foldl (fun s p =>
    let ids := p.2.resolveJoins
    let s := if ids.isEmpty then s else s.takingRecon (coreOf p.1)
    s.updThread p.1 fun t => { t.go with sqJoin := t.sqJoin.filter fun q => !ids.contains q.2 }) s

/-- One thread's registers get the value that arrived. -/
def State.arriveOne (id value : Nat) (s : State) (k : Nat) : State := s.updThread k fun t => t.arrive id value

/-- Whether a thread still expects a late value: its symbol entry names it, or it is owed or bound without one (R250, R256). -/
def State.expects (s : State) (id k : Nat) : Bool :=
  (((s.core (coreOf k)).symbols.get? id).any fun l => l.contains k) || ((s.threads.get? k).any fun t => t.owed.contains id || t.awaits id)

/-- One thread's late read met uncorrectable data. -/
def State.spoilOne (id va : Nat) (s : State) (k : Nat) : State :=
  if s.expects id k then
    let ctx := ((s.threads.get? k).map s.ctxOf).getD 0
    (s.updThread k fun t => t.spoil id va ctx (s.freeOf ctx)).useFree ctx 128
  else s

/-- PENDING_VALUE_ARRIVAL (R257): every register of the threads bound to the value becomes known. -/
def State.arrival (s : State) (tids : List Nat) (id value : Nat) (bad : Option Nat) : State :=
  let s := match bad with
    | none => tids.foldl (State.arriveOne id value) s
    | some va => tids.foldl (State.spoilOne id va) s
  (s.awaitDone id tids).checkResolve

/-- PENDING_VALUE_ARRIVAL. -/
def execPendingValueArrival (tids : List Nat) (id value : Nat) (bad : Option Nat) (s : State) : Out :=
  .next (s.arrival tids id value bad)

/-! ### The scrubber (R145) -/

/-- SCRUBBER_VISIT: the next line is visited; the clean bytes of a stale one are cleared. -/
def State.scrub (s : State) (core : Nat) : State :=
  let c := s.core core
  match c.l1.cells.find? (fun p => decide (c.scrub ≤ p.1)) with
  | some (k, l) =>
    let l1 := if !l.stale c.gen then c.l1 else match l.dropClean with | some l => c.l1.put k l | none => c.l1.del k
    s.updCore core fun c => { c with l1 := l1, scrub := k + 1 }
  | none => s.updCore core fun c => { c with scrub := 0 }

/-- SCRUBBER_VISIT. -/
def execScrubberVisit (core : Nat) (s : State) : Out := .next (s.scrub core)

/-! ### Regrouping (R228 to R230) -/

/-- The one PC of a group whose live threads are all Ready at slot 0 of one line. -/
def State.mergePc (s : State) (core g : Nat) : Option DWord :=
  let ms := s.threads.cells.filter fun p => coreOf p.1 == core && p.2.group == g
  match ms with
  | [] => none
  | p :: _ =>
    let pc := p.2.pc
    if slotNo pc = 0 ∧ ms.length ≤ 16 ∧ ms.all (fun q => q.2.status == .ready && q.2.pc == pc) then some pc else none

/-- The gather set or crew of a group (R228, R273). -/
def State.setOf (s : State) (k : Nat) : Nat := ((s.groupCrew k).map (·.gset)).getD 0

/-- Whether two groups may merge in an interval (R228). -/
def State.mergeable (s : State) (core interval : Nat) (a b : Nat × Group) : Bool :=
  let ga := a.1 % 64
  let gb := b.1 % 64
  s.setOf a.1 == s.setOf b.1 && !a.2.block && !b.2.block && a.2.merged != interval + 1 && b.2.merged != interval + 1 &&
  (s.mergePc core ga).isSome && s.mergePc core ga == s.mergePc core gb &&
  decide ((s.liveSyms core ga ++ s.liveSyms core gb).eraseDups.length ≤ 16)

/-- Merge group b into group a (R228): the joining threads take the free lanes in slot order, and the survivor's gix. -/
def State.mergeGroups (s : State) (core interval : Nat) (a b : Nat × Group) : State :=
  let ga := a.1 % 64
  let gb := b.1 % 64
  let used := (s.threads.cells.filter fun p => coreOf p.1 == core && p.2.group == ga).map fun p => p.2.lane
  let free := (List.range 32).filter fun n => !used.contains n
  let moves := (s.members core gb).zip free
  let s := moves.foldl (fun s m => s.updThread m.1 fun t => { t with group := ga, lane := m.2, latches := [], restore := none }) s
  let s := { s with groups := s.groups.del b.1 }
  let s := s.updGroup a.1 fun g => { g with merged := interval + 1, cont := none, half := none, passed := FMap.empty }
  (s.clearLatches core ga).postOnce (.dispatchCrewStart core)

/-- The first pair of groups that may merge, in ascending slot order. -/
def firstPair (f : Nat × Group → Nat × Group → Bool) : List (Nat × Group) → Option ((Nat × Group) × (Nat × Group))
  | [] => none
  | a :: r => match r.find? (f a) with | some b => some (a, b) | none => firstPair f r

/-- Merge pairs until none is left; at most as many as there are groups. -/
def State.regroupGo (s : State) (core interval : Nat) : Nat → State
  | 0 => s
  | n + 1 =>
    let gs := s.groups.cells.filter fun p => p.1 / 64 == core && decide (p.1 % 64 < 32)
    match firstPair (s.mergeable core interval) gs with
    | some (a, b) => (s.mergeGroups core interval a b).regroupGo core interval n
    | none => s

/-- REGROUP. -/
def execRegroup (core : Nat) (s : State) : Out := .next (s.regroupGo core ((s.core core).clk / 64) 32)

end Sys2Proof.Machine
end

