-- ==== Sys2Proof/Machine/Control.lean ====
section
/-!
DEFINITION. The control instructions, the extended register blocks, SYMQ and RESOLVE, and the system instructions (R231 to R239, R246, R247, R262, R264, R331, R332).
-/
namespace Sys2Proof.Machine

/-! ### Transfers (R233, R234) -/

/-- Store a spilled entry (R234). -/
def State.spillStore (s : State) (tid : Nat) (t : Thread) : State :=
  match t.spill tid with
  | none => s
  | some (ea, x) =>
    match s.plainTarget tid t ea 8 .store with
    | .page ga mode e => s.storePage (coreOf tid) (s.asidOf t) 0 ea ga mode e (bytesOf 8 x.toNat)
    | _ => s

/-- Push a return address. -/
def Thread.push (t : Thread) (pc : DWord) : Thread := { t with stack := pc :: t.stack.take 7, depth := t.depth + 1 }
/-- Pop a return address. -/
def Thread.pop (t : Thread) : Thread := { t with stack := t.stack.drop 1, depth := t.depth - 1 }

/-- Perform a thread's transfer: it enters its target's line, so its latches are invalid (R206). -/
def State.moveTo (s : State) (k : XferKind) (next : DWord) (p : Nat × Thread) (target : Nat) : State :=
  let s := if k = .call then s.spillStore p.1 p.2 else s
  s.updThread p.1 fun t =>
    let t := match k with | .jump => t | .call => t.push next | .ret => t.pop
    { t with pc := BitVec.ofNat 64 target, latches := [] }

/-- Forget a fetch fault once it has been raised, so that a re-execution asks again. -/
def State.dropFault (s : State) (core asid : Nat) (f : Flt) : State :=
  match s.fetched core asid (f.tval % 2 ^ 57) with
  | some (.fault _ _) => s.dropFetch core asid (f.tval % 2 ^ 57)
  | _ => s

/-- Run a transfer: every executing thread is judged; each moves, faults, or the bundle waits (R233). -/
def State.runXfer (s : State) (c : Opc) (o : Ops) (k : XferKind) (target : Issue → Nat × Thread → Nat) : State :=
  match s.prep c o with
  | .idle => s
  | .wait iss => s.stall iss
  | .go iss ex flt =>
    let l := ex.map fun p => (p, s.xfer k iss.core p (target iss p))
    if l.any fun x => x.2.waits then (s.askAll iss.core l).stall iss
    else
      let moves := l.filterMap fun x => match x.2 with | .go t => some (x.1, t) | _ => none
      let bad := l.filterMap fun x => match x.2 with | .flt f => some (x.1, f) | _ => none
      let flt := flt ++ bad.map fun x => (x.1.1, x.2)
      let s := s.moveOn iss (moves.map (·.1.1) ++ flt.map Prod.fst)
      let s := moves.foldl (fun s m => s.moveTo k (nextPc iss.pc) m.1 m.2) s
      let s := bad.foldl (fun s x => s.dropFault iss.core (s.asidOf x.1.2) x.2) s
      (s.raiseAll iss.pc flt).finish iss (!moves.isEmpty)

/-- A common course for instructions that wait for their operands and then act at once. -/
def State.runPlain (s : State) (c : Opc) (o : Ops) (act : State → Issue → List (Nat × Thread) → State) : State :=
  match s.prep c o with
  | .idle => s
  | .wait iss => s.stall iss
  | .go iss ex flt => (act s iss ex).complete iss c [] flt

/-- NOP: no effect (R232). -/
def execNop (o : Ops) (s : State) : Out := .next (s.runPlain .nop o fun s _ _ => s)

/-- BRA (R233). -/
def execBra (o : Ops) (s : State) : Out := .next (s.runXfer .bra o .jump fun iss _ => (immTarget iss.pc o.imm).toNat)

/-- BRX: a 64-bit register target (R233). -/
def execBrx (o : Ops) (s : State) : Out := .next (s.runXfer .brx o .jump fun iss p => (s.vals iss .brx o p.1 p.2).1)

/-- CALL (R233, R234). -/
def execCall (o : Ops) (s : State) : Out := .next (s.runXfer .call o .call fun iss _ => (immTarget iss.pc o.imm).toNat)

/-- CALLX (R233, R234). -/
def execCallx (o : Ops) (s : State) : Out := .next (s.runXfer .callx o .call fun iss p => (s.vals iss .callx o p.1 p.2).1)

/-- RET (R233, R234). -/
def execRet (o : Ops) (s : State) : Out := .next (s.runXfer .ret o .ret fun _ _ => 0)

/-- EXIT (R235). -/
def execExit (o : Ops) (s : State) : Out :=
  .next (s.runPlain .exit o fun s _ ex => ex.foldl (fun s p => s.endThread p.1) s)

/-- Make threads Waiting. -/
def State.waitAll (s : State) (w : WaitFor) (l : List Nat) : State :=
  l.foldl (fun s k => s.updThread k fun t => { t with status := .waiting w }) s

/-- SYNCG (R236). -/
def execSyncg (o : Ops) (s : State) : Out :=
  .next (s.runPlain .syncg o fun s iss ex => (s.waitAll .syncg (ex.map Prod.fst)).checkSyncg iss.core iss.group)

/-- YIELD: the group becomes the most recent issuer, as every issue makes it (R237). -/
def execYield (o : Ops) (s : State) : Out := .next (s.runPlain .yield o fun s _ _ => s)

/-- The crews of threads, each once. -/
def crewsOf (ex : List (Nat × Thread)) : List Nat := (ex.map (·.2.crew)).eraseDups

/-- The crews of the gather sets of some crews: for issue a set is one crew (R273). -/
def State.withSets (s : State) (l : List Nat) : List Nat :=
  let sets := l.filterMap fun k => (s.crews.get? k).map (·.gset)
  l ++ (s.crews.filter fun k c => c.gset != 0 && sets.contains c.gset && !l.contains k).keys

/-- PRIO: the smaller of IMM32 and the ceiling (R238); in a gather set, for every crew of the set. -/
def execPrio (o : Ops) (s : State) : Out :=
  .next (s.runPlain .prio o fun s _ ex =>
    (s.withSets (crewsOf ex)).foldl (fun s k => s.updCrew k fun c => { c with prio := min o.imm.toNat c.ceil }) s)

/-- A trap instruction: every executing thread takes the trap with TPC the step after it (R239, R332); in slot j of a pair that is slot j + 1 (log 136). -/
def State.runTrap (s : State) (c : Opc) (o : Ops) (code : Nat) : State :=
  match s.prep c o with
  | .idle => s
  | .wait iss => s.stall iss
  | .go iss ex flt =>
    let s := s.moveOn iss (ex.map Prod.fst ++ flt.map Prod.fst)
    let s := (s.raiseAll iss.pc flt).clearLatches iss.core iss.group
    (s.raiseAll (nextPc iss.pc) (ex.map fun p => (p.1, ⟨code, o.imm.toNat⟩))).finish iss true

/-- BKPT (R239). -/
def execBkpt (o : Ops) (s : State) : Out := .next (s.runTrap .bkpt o 0x11)

/-- TRAP (R332). -/
def execTrap (o : Ops) (s : State) : Out := .next (s.runTrap .trap o 0x10)

/-! ### Extended register blocks (R247) -/

/-- The blocks that groups of a core hold. -/
def State.blocksHeld (s : State) (core : Nat) : Nat :=
  (s.groups.cells.filter fun p => p.1 / 64 == core && decide (p.1 % 64 < 32) && p.2.block).length

/-- The crew slot of a group (R311). -/
def State.slotOfGroup (s : State) (k : Nat) : Nat := ((s.groupCrew k).map (·.cslot)).getD 0

/-- Whether a block is free for a group; in slot mode its crew slot must hold fewer than its share (R247, R311). -/
def State.blockFree (s : State) (core g : Nat) : Bool :=
  let n := (s.core core).slots
  let mine := (s.groups.cells.filter fun p =>
    p.1 / 64 == core && decide (p.1 % 64 < 32) && p.2.block && s.slotOfGroup p.1 == s.slotOfGroup (gkey core g)).length
  decide (s.blocksHeld core < 16) && (n == 0 || decide (mine < 16 / n))

/-- Drop the registers v32 and above of a thread. -/
def Thread.dropHigh (t : Thread) : Thread := { t with regs := t.regs.filter fun n _ => decide (n < 32) }

/-- Grant a block: v32 to v127 of every thread of the group are 0 (R247). -/
def State.grantBlock (s : State) (core g : Nat) : State :=
  (s.updGroup (gkey core g) fun x => { x with block := true }).mapGroup core g fun _ t => t.dropHigh

/-- Serve the requests queued for a block, in order (R247). -/
def State.serveBlocks (s : State) (core : Nat) : Nat → State
  | 0 => s
  | n + 1 =>
    match (s.core core).xqueue with
    | [] => s
    | k :: r =>
      let pop (s : State) : State := s.updCore core fun c => { c with xqueue := r }
      match s.threads.get? k with
      | none => (pop s).serveBlocks core n
      | some t =>
        if t.status != .waiting .regx then (pop s).serveBlocks core n
        else if s.hasBlock k t then ((pop s).updThread k Thread.go).serveBlocks core n
        else if s.blockFree core t.group then (((pop s).grantBlock core t.group).updThread k Thread.go).serveBlocks core n
        else s

/-- REGX_BLOCK_GRANT: a free block goes to the oldest request that may have it. -/
def execRegxBlockGrant (core : Nat) (s : State) : Out := .next (s.serveBlocks core (s.core core).xqueue.length)

/-- Whether the crew of a bundle was declared with X = 0. -/
def State.xZero (s : State) (ex : List (Nat × Thread)) : Bool :=
  match ex with
  | p :: _ => ((s.crewOf p.2).map fun c => !c.crec.x).getD true
  | [] => false

/-- REGX.GET (R247). -/
def execRegxGet (o : Ops) (s : State) : Out :=
  .next (match s.prep .regxGet o with
    | .idle => s
    | .wait iss => s.stall iss
    | .go iss ex flt =>
      let tids := ex.map Prod.fst
      let say (s : State) (b : Bool) : State :=
        if o.flag then tids.foldl (fun s k => s.updThread k fun t => t.putDst false o.dst (predBits b)) s else s
      let held := ((s.groups.get? (gkey iss.core iss.group)).map (·.block)).getD false
      if tids.isEmpty then s.complete iss .regxGet [] flt
      else if held then (say s true).complete iss .regxGet [] flt
      else if s.xZero ex then s.complete iss .regxGet [] (flt ++ tids.map fun k => (k, .xzero))
      else if s.blockFree iss.core iss.group && (s.core iss.core).xqueue.isEmpty then
        (say (s.grantBlock iss.core iss.group) true).complete iss .regxGet [] flt
      else if o.flag then (say s false).complete iss .regxGet [] flt
      else
        let s := s.updCore iss.core fun c => { c with xqueue := c.xqueue ++ tids }
        (s.waitAll .regx tids).complete iss .regxGet [] flt)

/-- Free the symbols that a thread no longer awaits, among those it awaited before (R247). -/
def State.trimSymbols (s : State) (tid : Nat) (old : Thread) : State :=
  let now (id : Nat) : Bool := ((s.threads.get? tid).map (·.awaits id)).getD false
  s.updCore (coreOf tid) fun c =>
    { c with symbols := (c.symbols.map fun id l => if old.awaits id && !now id then l.filter (· != tid) else l).filter fun _ l => !l.isEmpty }

/-- Free a group's block: v32 and above are unbound (R247, R265). -/
def State.freeBlock (s : State) (core g : Nat) : State :=
  let olds := s.threads.cells.filter fun p => coreOf p.1 == core && p.2.group == g
  let s := (s.updGroup (gkey core g) fun x => { x with block := false }).mapGroup core g fun _ t => t.dropHigh
  (olds.foldl (fun s p => s.trimSymbols p.1 p.2) s).postOnce (.regxBlockGrant core)

/-- REGX.PUT (R247). -/
def execRegxPut (o : Ops) (s : State) : Out :=
  .next (s.runPlain .regxPut o fun s iss ex =>
    if !ex.isEmpty && ((s.groups.get? (gkey iss.core iss.group)).map (·.block)).getD false then s.freeBlock iss.core iss.group else s)

/-! ### SYMQ and RESOLVE (R262, R264) -/

/-- SYMQ: whether the register is in any state other than Known; it waits for nothing (R262). -/
def execSymq (o : Ops) (s : State) : Out :=
  .next (match s.cur with
    | none => s
    | some iss =>
      let ex := s.executing iss o
      let flt := ex.filterMap fun p => (s.preFault iss .symq o p.1 p.2).map fun f => (p.1, f)
      let ok := ex.filter fun p => (s.preFault iss .symq o p.1 p.2).isNone
      (ok.foldl (fun s' p => s'.updThread p.1 fun t =>
        t.putDst false o.dst (predBits (!s.resolved (iss.view p.1 p.2) o.sa))) s).complete iss .symq [] flt)

/-- RESOLVE: Waiting until each named register is known (R264). -/
def execResolve (o : Ops) (s : State) : Out :=
  .next (match s.cur with
    | none => s
    | some iss =>
      let ex := s.executing iss o
      let flt := ex.filterMap fun p => (s.preFault iss .resolve o p.1 p.2).map fun f => (p.1, f)
      let ok := ex.filter fun p => (s.preFault iss .resolve o p.1 p.2).isNone
      ((s.waitAll (.resolve o.sa o.sb o.sc (o.aux.toNat % 4 == 0)) (ok.map Prod.fst)).checkResolve).complete iss .resolve [] flt)

/-! ### System registers (R328 to R332) -/

/-- TMASK (R330). -/
def tmaskOf (c : Crew) : Nat := c.codes % 2 ^ 21 / 2 * 2 + c.retired * 2 ^ 32

/-- The value of a system register (R328). -/
def State.sysReg (s : State) (tid : Nat) (t : Thread) (n : Nat) : Nat :=
  let core := coreOf tid
  match n with
  | 0 => t.trap.tvec.toNat
  | 1 => t.trap.tcause.toNat
  | 2 => t.trap.tpc.toNat
  | 3 => t.trap.tval.toNat
  | 4 => ((s.crews.get? (s.maskCrew t.crew)).map tmaskOf).getD 0
  | 5 => s.ctxOf t % 2 ^ 32
  | 6 => (s.core core).mown % 2 ^ 32
  | 8 => t.trap.mrow.toNat
  | 9 => (s.core core).clk
  | 10 => 16 - s.blocksHeld core
  | 11 => s.asidOf t % 2 ^ 16
  | 12 => if (s.core core).men.contains (s.ctxOf t) then 1 else 0
  | _ => 0

/-- GETSR: known at once (R332). -/
def execGetsr (o : Ops) (s : State) : Out :=
  .next (s.runPlain .getsr o fun s _ ex =>
    ex.foldl (fun s' p => s'.updThread p.1 fun t => t.putDst true o.dst (s.sysReg p.1 p.2 o.aux.toNat)) s)

/-- Write a system register: TVEC, or TPC while a handler runs (R328). -/
def Thread.setSys (t : Thread) (n x : Nat) : Thread :=
  if n = 0 then { t with trap := { t.trap with tvec := BitVec.ofNat 64 x } }
  else if n = 2 ∧ t.inh then { t with trap := { t.trap with tpc := BitVec.ofNat 64 x, tpcSet := true } }
  else t

/-- SETSR (R332). -/
def execSetsr (o : Ops) (s : State) : Out :=
  .next (s.runPlain .setsr o fun s' iss ex =>
    ex.foldl (fun s' p => s'.updThread p.1 fun t => t.setSys o.aux.toNat (s.vals iss .setsr o p.1 p.2).1) s')

/-- TCAUSE with INH cleared. -/
def Thread.clearInh (t : Thread) : Thread := { t with trap := { t.trap with tcause := t.trap.tcause &&& ~~~(256 : DWord) } }

/-- Whether and where ERET returns a thread (R332): none continues at the next step. -/
def State.eretTo (s : State) (core : Nat) (p : Nat × Thread) : Option Xfer :=
  let t := p.2
  if !t.inh then none
  else if !t.trap.tpcSet then some (.go t.trap.tpc.toNat)
  else if !validPc t.trap.tpc then some (.flt (.target t.trap.tpc))
  else
    match s.checkTarget core (s.asidOf t) t.trap.tpc.toNat false with
    | .flt f => some (.flt (if f.code = 7 then f else .target t.trap.tpc))
    | r => some r

/-- ERET: back to TPC, with the latches recorded at trap entry when no SETSR of TPC has executed since (R208, R332). -/
def execEret (o : Ops) (s : State) : Out :=
  .next (match s.prep .eret o with
    | .idle => s
    | .wait iss => s.stall iss
    | .go iss ex flt =>
      let l := ex.filterMap fun p => (s.eretTo iss.core p).map fun x => (p, x)
      if l.any fun x => x.2.waits then (s.askAll iss.core l).stall iss
      else
        let moves := l.filterMap fun x => match x.2 with | .go t => some (x.1, t) | _ => none
        let bad := l.filterMap fun x => match x.2 with | .flt f => some (x.1, f) | _ => none
        let s := (s.moveOn iss (l.map (·.1.1) ++ flt.map Prod.fst)).clearLatches iss.core iss.group
        let s := moves.foldl (fun s m => s.updThread m.1.1 fun t =>
          { t.clearInh with pc := BitVec.ofNat 64 m.2, restore := if t.trap.tpcSet then none else t.trap.saved }) s
        let s := bad.foldl (fun s x => s.dropFault iss.core (s.asidOf x.1.2) x.2) s
        (s.raiseAll iss.pc (flt ++ bad.map fun x => (x.1.1, x.2))).finish iss true)

/-- End the discardability of crews: the coordinates they drew are committed (R290, R319). -/
def State.endDiscard (s : State) (l : List Nat) : State :=
  l.foldl (fun s k => s.updCrew k fun c => { c with discard := false, coords := [] }) s

/-- REGION.B: no effect here; at the entry it has made the crew discardable (R319). -/
def execRegionB (o : Ops) (s : State) : Out := .next (s.runPlain .regionB o fun s _ _ => s)

/-- REGION.E: discardability ends for the crew (R319). -/
def execRegionE (o : Ops) (s : State) : Out := .next (s.runPlain .regionE o fun s _ ex => s.endDiscard (crewsOf ex))

end Sys2Proof.Machine
end

