-- ==== Sys2Proof/Machine/Sha.lean ====
section
/-!
DEFINITION. SHA-384, which names lot tables (R452). The spec names the function; its definition is that of FIPS 180-4 (log 40).
-/
namespace Sys2Proof.Machine

/-- The largest x, built bit by bit, whose k-th power does not exceed a target. -/
def rootBits (k target : Nat) : Nat → Nat → Nat
  | 0, x => x
  | n + 1, x => rootBits k target n (if (x + 2 ^ n) ^ k ≤ target then x + 2 ^ n else x)

/-- The first 64 bits of the fractional part of the k-th root of p. -/
def rootFrac (k p : Nat) : BitVec 64 := BitVec.ofNat 64 (rootBits k (p * 2 ^ (64 * k)) 69 0)

/-- The first eighty primes. -/
def shaPrimes : List Nat := (List.range 410).filter fun n => decide (2 ≤ n) && (List.range n).all fun d => decide (d < 2) || n % d != 0

/-- The round constants. -/
def shaK : List (BitVec 64) := shaPrimes.map (rootFrac 3)

/-- The initial hash value of SHA-384. -/
def shaInit : List (BitVec 64) := ((shaPrimes.drop 8).take 8).map (rootFrac 2)

/-- The message schedule: sixteen words of the block, newest first, then one more for each step. -/
def shaExpand : Nat → List (BitVec 64) → List (BitVec 64)
  | 0, w => w
  | n + 1, w =>
    let at_ (i : Nat) : BitVec 64 := (w[i]?).getD 0
    let x := at_ 1
    let y := at_ 14
    let s1 := x.rotateRight 19 ^^^ x.rotateRight 61 ^^^ (x >>> 6)
    let s0 := y.rotateRight 1 ^^^ y.rotateRight 8 ^^^ (y >>> 7)
    shaExpand n ((s1 + at_ 6 + s0 + at_ 15) :: w)

/-- One round. -/
def shaRound (h : List (BitVec 64)) (kw : BitVec 64 × BitVec 64) : List (BitVec 64) :=
  match h with
  | [a, b, c, d, e, f, g, x] =>
    let s1 := e.rotateRight 14 ^^^ e.rotateRight 18 ^^^ e.rotateRight 41
    let ch := (e &&& f) ^^^ (~~~e &&& g)
    let t1 := x + s1 + ch + kw.1 + kw.2
    let s0 := a.rotateRight 28 ^^^ a.rotateRight 34 ^^^ a.rotateRight 39
    let mj := (a &&& b) ^^^ (a &&& c) ^^^ (b &&& c)
    [t1 + s0 + mj, a, b, c, d + t1, e, f, g]
  | _ => h

/-- The big-endian value of some bytes. -/
def bigEndian (b : List Byte) : Nat := b.foldl (fun n x => n * 256 + x.toNat) 0

/-- One block of 128 bytes. -/
def shaBlock (h : List (BitVec 64)) (b : List Byte) : List (BitVec 64) :=
  let w := (List.range 16).map fun i => BitVec.ofNat 64 (bigEndian ((b.drop (8 * i)).take 8))
  let r := (shaK.zip (shaExpand 64 w.reverse).reverse).foldl shaRound h
  (h.zip r).map fun p => p.1 + p.2

/-- The blocks of a padded message. -/
def shaBlocks : Nat → List (BitVec 64) → List Byte → List (BitVec 64)
  | 0, h, _ => h
  | n + 1, h, b => shaBlocks n (shaBlock h (b.take 128)) (b.drop 128)

/-- A message with its padding: a one bit, zeros, and its length in bits as sixteen bytes. -/
def shaPad (b : List Byte) : List Byte :=
  b ++ [0x80] ++ bytesOf ((239 - b.length % 128) % 128) 0 ++ (bytesOf 16 (8 * b.length)).reverse

/-- The first 8 bytes of SHA-384 of a message, as a little-endian value (R452). -/
def sha384Low (b : List Byte) : Nat :=
  let m := shaPad b
  let h := shaBlocks (m.length / 128) shaInit m
  natOf (bytesOf 8 ((h[0]?).getD 0).toNat).reverse

end Sys2Proof.Machine
end

