-- ==== Sys2Proof/Machine/Spawn.lean ====
section
/-!
DEFINITION. Frames, SPAWN and its placement, AWAIT, POLLF, FRET, STEALPT, barriers, queues, dispensed coordinates and crew-uniform registers (R266 to R291, R309, R310).
-/
namespace Sys2Proof.Machine

/-! ### Frames (R274 to R276) -/

/-- The handle of a frame (R274). -/
def frameHandle (core idx : Nat) : Nat := 0x0100_0000_0000_0000 + core * 0x0200_0000 + 0x100_0000 + idx * 128
/-- The key of a frame that is taken. -/
def frameKey (asid handle : Nat) : Nat := asid * 2 ^ 57 + handle
/-- The frames of an arena (R274). -/
def arenaFrames : Nat := 126976
/-- The least number, from n on, that is not listed; fuel bounds the search. -/
def lowestFree (used : List Nat) : Nat → Nat → Nat
  | 0, n => n
  | fuel + 1, n => if used.contains n then lowestFree used fuel (n + 1) else n

/-- The indices of the frames that a core's arena of an ASID has taken. -/
def State.framesTaken (s : State) (asid core : Nat) : List Nat :=
  (s.fw.frames.keys.filter fun k => decide (frameKey asid (frameHandle core 0) ≤ k) && decide (k < frameKey asid (frameHandle core arenaFrames))).map
    fun k => (k - frameKey asid (frameHandle core 0)) / 128

/-- The first n free frames of an arena. -/
def freeFrames (used : List Nat) : Nat → List Nat
  | 0 => []
  | n + 1 =>
    let i := lowestFree used (used.length + 1) 0
    if i < arenaFrames then i :: freeFrames (i :: used) n else []

/-- Write a frame's fields by one cell operation at its home: every copy of its line goes home first (R148). -/
def State.frameWrite (s : State) (ga : Nat) (b : LineBytes) : State := (s.settle (lineNo ga) true).homeWrite ga b

/-- The bytes of a new frame (R269, R276). -/
def newFrame (parent core n : Nat) : List Byte :=
  bytesOf 8 parent ++ bytesOf 4 (1 + core * 2 ^ 16) ++ bytesOf 4 n ++ bytesOf 4 n ++ bytesOf 108 0

/-- Frames become FREE, each by a cell operation at its home once nothing about its line is in progress (R278). -/
def State.sweepFrames (s : State) : State :=
  (s.fw.frames.cells.filter fun p => p.2.over).foldl (fun s p =>
    if s.quietLine (lineNo p.2.ga) true then
      (s.updFw fun w => { w with frames := w.frames.del p.1 }).frameWrite (p.2.ga + 8)
        [(0, BitVec.ofNat 8 (s.memNat (p.2.ga + 8) 1 / 4 * 4))]
    else s.callHost (lineNo p.2.ga) true) s

/-! ### Reads that an instruction makes at once -/

/-- What a read comes to: bytes, a fault, a scratchpad violation, or something to wait for. -/
inductive Peek where
  | ok (b : List Byte)
  | flt (f : Flt)
  | viol
  | ask (x : Xfer)
  deriving DecidableEq, Repr

/-- A read of some bytes of a core's scratchpad (R74). -/
def State.peekSpad (s : State) (core off va len : Nat) : Peek :=
  if s.spadBadAt core off len then .flt ⟨0x0D, va⟩ else .ok (s.mem.scratch.readN (scratchKey core off) len)

/-- A thread's read of some bytes within one line, as loads would return them. A read of another core's scratchpad follows the core's earlier requests to it (R146). -/
def State.peekChunk (s : State) (tid : Nat) (t : Thread) (va len : Nat) : Peek :=
  match s.target tid t va 1 .load, s.target tid t (va + len - 1) 1 .load with
  | .spad k off, .spad _ _ => s.peekSpad k off va len
  | .peer k off, .peer _ _ =>
    if s.due.any (windowAccessOf (coreOf tid) k) then .ask (.wait (placeLine (.scratch k off))) else s.peekSpad k off va len
  | .page ga mode _, _ =>
    let line := lineNo ga
    if s.accessWaits (coreOf tid) t line then .ask (.wait line)
    else
      let s := (s.flushOwn (coreOf tid) line).settle line false
      if s.readBad (coreOf tid) line mode (ga % 128) len then .flt ⟨0x0D, va⟩
      else .ok (((s.engineLine (coreOf tid) line mode).drop (ga % 128)).take len)
  | .flt f, _ => .flt f
  | .viol, _ => .viol
  | .miss, _ => .ask (.walk va .load)
  | _, .flt f => .flt f
  | _, _ => .viol

/-- A thread's read of a range, chunk by chunk; fuel bounds the chunks. -/
def State.peekRange (s : State) (tid : Nat) (t : Thread) : Nat → Nat → Nat → Peek
  | 0, _, _ => .ok []
  | fuel + 1, va, len =>
    if len = 0 then .ok []
    else
      let va := va % 2 ^ 64
      let n := min len (128 - va % 128)
      match s.peekChunk tid t va n with
      | .ok b =>
        match s.peekRange tid t fuel (va + n) (len - n) with
        | .ok r => .ok (b ++ r)
        | x => x
      | x => x

/-! ### Entries and crew records (R267) -/

/-- The word of a header slot: BKPT with GUARD 1111 and a value in IMM32 (R267). -/
def headerSlot (b : List Byte) (i : Nat) : Option Nat :=
  let w := lineSlot b i
  if w / 2 ^ 32 * 2 ^ 32 = 0x0A * 2 ^ 88 + 0xF * 2 ^ 78 then some (w % 2 ^ 32) else none

/-- The crew record of a header line; none when it is malformed: a slot, the parity, or the record (R267, log 140). -/
def headerRec (b : List Byte) : Option CrewRec :=
  let clean := parityOk b && lineSlot b 4 == 0
  match headerSlot b 0, headerSlot b 1, headerSlot b 2, headerSlot b 3 with
  | some r, some 0, some 0, some 0 =>
    let c : CrewRec := { k := bitsAt r 0 7, x := r.testBit 7, q := bitsAt r 8 4, spad := bitsAt r 12 9 }
    if clean && bitsAt r 21 11 == 0 && decide (c.k ≤ 64) && decide (c.q ≤ 8) && decide (c.spad ≤ 448) &&
      !(c.k == 0 && (c.spad != 0 || c.q != 0)) then some c else none
  | _, _, _, _ => none

/-- The granules a crew record asks for (R59). -/
def CrewRec.granules (c : CrewRec) : Nat := (c.spad + 7) / 8

/-- The thread slots and granules of one share of a core; the whole core in skip mode (R311). -/
def Core.share (c : Core) : Nat × Nat := if c.slots = 0 then (1024, 56) else (1024 / c.slots / 32 * 32, 56 / c.slots)

/-- Whether a crew fits one share of a core (R269, R311). -/
def State.fitsShare (s : State) (core n : Nat) (r : CrewRec) : Bool :=
  let (t, g) := (s.core core).share
  decide (n ≤ t) && decide (r.granules ≤ g)

/-! ### SPAWN (R269, R271) -/

/-- The owner core of an affinity address (R271). -/
def ownerCore (ga : Nat) : Nat := homeDie (lineNo ga) * 128 + sliceOf (lineNo ga) * 2 + (if ga.testBit 13 then 1 else 0)

/-- Where a SPAWN places its crew: the core and the placement, or a fault or a wait on the affinity address (R271). -/
inductive Placed where
  | at_ (core : Nat) (p : Placement)
  | flt (f : Flt)
  | ask (x : Xfer)
  deriving DecidableEq, Repr

/-- Place a crew (R271). -/
def State.placeCrew (s : State) (o : Ops) (core : Nat) (t : Thread) (aff : Nat) : Placed :=
  match o.aux.toNat % 4 with
  | 0 => .at_ core .loc
  | 1 =>
    if t.replay then .at_ core .anyc
    else
      match s.xlate core (s.asidOf t) aff .aff with
      | .hit ga _ _ =>
        if isHbm (lineNo ga) ∧ s.inPartition (s.ctxOf t) (ownerCore ga) then .at_ (ownerCore ga) .aff else .at_ core .anyc
      | .fault f => if f.code = 7 then .flt f else .at_ core .anyc
      | .miss => .ask (.walk aff .aff)
  | _ => .at_ core .anyc

/-- What a SPAWN of one thread comes to before a frame is taken. -/
inductive SpawnPlan where
  | status (n : Nat)
  | flt (f : Flt) (aff : Bool)
  | viol
  | ask (x : Xfer)
  | go (n : Nat) (entry : DWord) (r : CrewRec) (core : Nat) (p : Placement) (args : List Byte)
  deriving DecidableEq, Repr

/-- Split bytes into records of 64. -/
def splitArgs : Nat → List Byte → List (List Byte)
  | 0, _ => []
  | n + 1, b => b.take 64 :: splitArgs n (b.drop 64)

/-- The course of a SPAWN up to its frame, in the order of R269. -/
def State.spawnPlan (s : State) (iss : Issue) (o : Ops) (p : Nat × Thread) : SpawnPlan :=
  let (base, cnt, aff) := s.vals iss .spawn o p.1 p.2
  let core := coreOf p.1
  let n := lowBits 32 cnt
  let entry := (immTarget iss.pc o.imm).toNat
  let hdr := (entry + 2 ^ 64 - 64) % 2 ^ 64
  if n = 0 ∨ 1024 < n then .status 1
  else if 2 ^ 57 ≤ hdr then .flt (.access hdr 7 3) false
  else if hdr / 2 ^ 52 = 31 then .flt (.access hdr 7 6) false
  else
    match s.fetched core (s.asidOf p.2) hdr with
    | none => .ask (.line hdr)
    | some (.fault code tval) => .flt (fetchFlt code tval hdr) false
    | some (.line b) =>
      match headerRec b with
      | none => .status 3
      | some r =>
        match s.placeCrew o core p.2 aff with
        | .flt f => .flt f true
        | .ask x => .ask x
        | .at_ k pl =>
          if !s.fitsShare k n r then .status 2
          else
            match s.peekRange p.1 p.2 (n + 2) base (64 * n) with
            | .ok b => .go n (BitVec.ofNat 64 entry) r k pl b
            | .flt f => .flt f false
            | .viol => .viol
            | .ask x => .ask x

/-- The argument records that a die's task store holds (R269). -/
def State.storeUsed (s : State) (die : Nat) : Nat :=
  (s.crews.cells.filter fun p => p.2.spawner && p.2.store == die).foldl (fun n p => n + p.2.args.length) 0

/-- What the frames of a bundle's SPAWNs wait for: a walk, or a line that is not quiet. -/
def State.frameAsks (s : State) (core asid n : Nat) : List Xfer :=
  (freeFrames (s.framesTaken asid core) n).filterMap fun i =>
    match s.xlate core asid (frameHandle core i) .atom with
    | .hit ga _ _ => if s.quietLine (lineNo ga) true && !(s.core core).inflight.contains (lineNo ga) then none else some (.wait (lineNo ga))
    | .miss => some (.walk (frameHandle core i) .atom)
    | .fault _ => none

/-- A crew that descends from a thread's crew: context, tag, launch, lot and priority are inherited (R179, R226, R412). -/
def childOf (c : Crew) (core : Nat) (entry : DWord) (r : CrewRec) (n : Nat) : Crew :=
  { ctx := c.ctx, core := core, entry := entry, crec := r, cn := n, prio := c.prio, ceil := c.prio, tag := c.tag,
    launch := c.launch, lot := c.lot }

/-- Enqueue a crew at a core's dispatcher. -/
def State.enqueue (s : State) (k : Nat) (c : Crew) : State :=
  (({ s with crews := s.crews.put k c }).updCore c.core fun x => { x with queue := x.queue ++ [k] }).postOnce (.dispatchCrewStart c.core)

/-- Take a frame and enqueue the crew, or status 4; a fault of the frame's own address is returned. -/
def State.spawnGo (s : State) (p : Nat × Thread) (n : Nat) (entry : DWord) (r : CrewRec) (core : Nat) (pl : Placement)
    (args : List Byte) : State × Nat × Option Flt :=
  let here := coreOf p.1
  let asid := s.asidOf p.2
  match freeFrames (s.framesTaken asid here) 1, s.crews.get? p.2.crew with
  | [i], some c =>
    if 1048576 < s.storeUsed (dieOf here) + n then (s, 4, none)
    else
      let h := frameHandle here i
      match s.xlate here asid h .atom with
      | .fault f => (s, 0, some f)
      | .miss => (s, 0, some (.access h 7 6))
      | .hit ga _ _ =>
        let s := ((s.settle (lineNo ga) true).bringOwn here (lineNo ga)).frameWrite ga (withOff 0 (newFrame c.frm.toNat here n))
        let s := s.updFw fun w => { w with frames := w.frames.put (frameKey asid h) { ga := ga, owner := some p.1 } }
        let (s, k) := s.draw
        let s := if pl = .loc then s else s.sourceCore here
        let s := s.enqueue k { childOf c core entry r n with
          frm := BitVec.ofNat 64 h, args := splitArgs n args, place := pl, enq := (s.core core).clk, home := here, spawner := true, gset := k,
          store := dieOf here, edge := if pl = .loc then 0 else 1 }
        (if pl = .aff then s.post (.affinityAgeingExpiry k) else s, h, none)
  | _, _ => (s, 4, none)

/-- The host's shared copies of frames leave before the frames are written (R114). -/
def State.callHosts (s : State) (l : List ((Nat × Thread) × Xfer)) : State :=
  l.foldl (fun (s : State) x => match x.2 with | .wait line => s.callHost line true | _ => s) s

/-- SPAWN: each executing thread in ascending slot order (R269). -/
def execSpawn (o : Ops) (s : State) : Out :=
  .next (match s.prep .spawn o with
    | .idle => s
    | .wait iss => s.stall iss
    | .go iss ex flt =>
      if ex.any fun p => p.2.held then s.stall iss
      else
        let l := ex.map fun p => (p, s.spawnPlan iss o p)
        let asks := l.filterMap fun x => match x.2 with | .ask a => some (x.1, a) | _ => none
        let goes := (l.filter fun x => match x.2 with | .go _ _ _ _ _ _ => true | _ => false).map Prod.fst
        let asks := asks ++ (match goes with
          | p :: _ => (s.frameAsks iss.core (s.asidOf p.2) goes.length).map fun x => (p, x)
          | [] => [])
        if !asks.isEmpty then ((s.askAll iss.core asks).callHosts asks).stall iss
        else
          let s := s.endDiscard (crewsOf ex)
          let put (s : State) (k n : Nat) : State := s.updThread k fun t => { t.putDst true o.dst n with replay := false }
          let r := l.foldl (fun (a : State × List (Nat × Flt)) x =>
            match x.2 with
            | .status n => (put a.1 x.1.1 n, a.2)
            | .go n e r k pl b =>
              match a.1.spawnGo x.1 n e r k pl b with
              | (s, h, none) => (put s x.1.1 h, a.2)
              | (s, _, some f) => (s, a.2 ++ [(x.1.1, f)])
            | .flt f false => (a.1, a.2 ++ [(x.1.1, f)])
            | _ => a) (s, [])
          let affs := l.filterMap fun x => match x.2 with | .flt f true => some (x.1.1, f) | _ => none
          let s := r.1.offAll (l.filterMap fun x => if x.2 = .viol then some x.1.1 else none)
          let s := s.affFaults affs
          let s := (r.2.map (·.2)).foldl (fun s f => s.dropFault iss.core (((ex.head?).map fun p => s.asidOf p.2).getD 0) f) s
          s.complete iss .spawn (affs.map Prod.fst) (flt ++ r.2))

/-! ### AWAIT, POLLF and FRET (R279 to R281) -/

/-- The access of a thread to a field of the frame that a handle names: MISALIGNED, then as the bytes at the handle (R279). -/
def State.frameAt (s : State) (c : Opc) (o : Ops) (at_ : Nat) (a : Acc) (iss : Issue) (p : Nat × Thread) : Access :=
  let h := (s.vals iss c o p.1 p.2).1
  if h % 128 ≠ 0 then ⟨p.1, p.2, h, .flt (.misaligned h)⟩
  else
    let x : Access := cellChecked o false false ⟨p.1, p.2, h, s.target p.1 p.2 h 4 a⟩
    match x.tgt with
    | .page ga m e => { x with tgt := .page (ga + at_) m e }
    | .spad k off => { x with tgt := .spad k (off + at_) }
    | .peer k off => { x with tgt := .peer k (off + at_) }
    | _ => x

/-- Whether a taking read holds a thread's memory accesses (R144). -/
def Thread.taking (t : Thread) : Bool := !t.takes.isEmpty

/-- AWAIT: the monitor on the outstanding count is registered; the destination is bound to the slot (R260, R279). -/
def execAwait (o : Ops) (s : State) : Out :=
  .next (s.runMemBy Thread.taking .await o .load (s.frameAt .await o 12 .load) fun s' iss l =>
    let ok := l.filter Access.ok
    let (s', id) := if o.ty = .none then s'.draw else s'.bindAll iss o false (ok.map (·.tid))
    ok.foldl (fun s' x =>
      let (s', seq) := s'.draw
      let s' := s'.updThread x.tid fun t => { t with joins := t.joins ++ [id], status := .waiting .sending }
      s'.cellOne iss.core x
        ⟨x.tid, .await, o.ty, .mem 0, .coh, x.ea, 0, 0, some id, o.dst, o.imm.toNat % 4, false, false, false, false, seq⟩) s')

/-- The place of an access. -/
def Target.place? : Target → Option Place
  | .spad k off => some (.scratch k off)
  | .peer k off => some (.scratch k off)
  | .page ga _ _ => some (.mem ga)
  | _ => none

/-- What an instruction that reads or writes a frame at once waits for: a line about which something is in progress, or the core's earlier requests to another core's scratchpad (R146). -/
def State.frameWaits (s : State) (core : Nat) (write : Bool) (x : Access) : List Nat :=
  match x.tgt with
  | .page ga _ _ => if s.quietLine (lineNo ga) write then [] else [lineNo ga]
  | .peer k off => if s.due.any (windowAccessOf core k) then [placeLine (.scratch k off)] else []
  | _ => []

/-- POLLF: one read at the frame's point of serialisation; it waits for it as for a stall (R280). -/
def execPollf (o : Ops) (s : State) : Out :=
  let busy : List Nat := match s.prep .pollf o with
    | .go iss ex _ => ex.flatMap fun p => s.frameWaits iss.core false (s.frameAt .pollf o 12 .load iss p)
    | _ => []
  .next (if !busy.isEmpty then (busy.foldl (fun (s : State) l => s.callHost l) s).stallCur
    else s.runMemBy Thread.taking .pollf o .load (s.frameAt .pollf o 12 .load) fun s' iss l =>
      (l.filter Access.ok).foldl (fun s' x =>
        match x.tgt.place? with
        | some p =>
          let s' := match p with | .mem ga => (s'.flushOwn iss.core (lineNo ga)).settle (lineNo ga) false | _ => s'
          let s' := s'.updThread x.tid fun t => t.putDst true o.dst (s'.frameField p 12 4 + 2 ^ 32 * s'.frameField p 8 4)
          if s'.placeBad (framePlace p 8) 8 then s'.updThread x.tid fun t => { t with late := some x.ea } else s'
        | none => s') s')

/-- A result value extended to 64 bits (R281). -/
def fretValue (o : Ops) (x : Nat) : Nat :=
  match o.ty with
  | .i32 => ofSigned 64 (toSigned 32 x)
  | .n32 | .f32 => lowBits 32 x
  | _ => lowBits 64 x

/-- The access of FRET to its slot of the thread's own frame (R281). -/
def State.fretAt (s : State) (o : Ops) (iss : Issue) (p : Nat × Thread) : Access :=
  let ea := (s.special p.1 p.2 .frm + 0x20 + 8 * ((s.vals iss .fret o p.1 p.2).1 % 4)) % 2 ^ 64
  cellChecked o false false ⟨p.1, p.2, ea, s.target p.1 p.2 ea 8 .store⟩

/-- FRET: a cell write, not a giving one (R281). -/
def execFret (o : Ops) (s : State) : Out :=
  .next (s.runMemBy Thread.taking .fret o .store (s.fretAt o) fun s' iss l =>
    (l.filter Access.ok).foldl (fun s' x =>
      let (s', seq) := s'.draw
      s'.cellOne iss.core x ⟨x.tid, .fret, .n64, .mem 0, .coh, x.ea, fretValue o (s.vals iss .fret o x.tid x.t).2.1, 0, none, .none, 0,
        false, false, false, false, seq⟩) s')

/-! ### STEALPT (R282) -/

/-- Entry n of a thread's return stack, in hardware or at its place (R234). -/
def State.stackEntry (s : State) (tid : Nat) (t : Thread) (n : Nat) : Peek :=
  if t.depth - t.stack.length ≤ n then
    .ok (bytesOf 8 (((t.stack[t.depth - 1 - n]?).map (·.toNat)).getD 0))
  else s.peekChunk tid t (stackPlace tid n) 8

/-- The registers that STEALPT saves; none while one is pending. -/
def Thread.savedRegs (t : Thread) (first n : Nat) : Option (List Nat) :=
  (List.range n).mapM fun i => match t.reg (first + i) with | .known w => some w.toNat | _ => none

/-- The number of registers STEALPT saves, and the first of them. -/
def stealArgs (o : Ops) : Nat × Nat := (o.aux.toNat % 8, match o.sb with | .v n => n.toNat | _ => 0)

/-- Whether an offer's conditions hold (R282). -/
def State.mayOffer (s : State) (t : Thread) (p : Place) : Bool :=
  match s.crewOf t with
  | some c => c.crec.k == 0 && c.crec.spad == 0 && c.crec.q == 0 && decide (t.depth ≤ 3) && !(s.frameField p 8 4).testBit 2
  | none => false

/-- The bytes that an offer writes into the frame, from its STATUS word on (R275, R282). -/
def offerBytes (status cpc prio n first : Nat) (regs : List Nat) (stk : List (List Byte)) : LineBytes :=
  withOff 8 (bytesOf 4 (Nat.lor status 4)) ++
  withOff 64 (bytesOf 8 cpc ++ bytesOf 8 (prio + n * 4 + first * 32 + stk.length * 1024)) ++
  withOff 80 (regs.flatMap fun x => bytesOf 4 x) ++ withOff 104 (stk.flatMap id)

/-- Write bytes at a frame's place, by one cell operation. -/
def State.frameStore (s : State) (p : Place) (b : LineBytes) : State :=
  match framePlace p 0 with
  | .mem ga => s.frameWrite ga b
  | .scratch k off => b.foldl (fun s x => s.spadWrite k (off + x.1) [x.2]) s

/-- A frame awaited by a thread that is offered is awaited by its continuation (R278). -/
def FrameRec.passTo (f : FrameRec) (tid cont : Nat) : FrameRec := if f.owner = some tid then { f with owner := none, cont := some cont } else f

/-- Offer the rest of a thread as a continuation: it ends for its group, and a one-thread crew is queued (R282). -/
def State.offer (s : State) (iss : Issue) (tid : Nat) (t : Thread) (p : Place) (n first : Nat) (regs : List Nat)
    (stk : List (List Byte)) : State :=
  match s.crews.get? t.crew with
  | none => s
  | some c =>
    let s := s.frameStore p (offerBytes (s.frameField p 8 4) (nextPc iss.pc).toNat (c.prio % 4) n first regs stk)
    let (s, k) := s.draw
    let s := s.updFw fun w => { w with frames := w.frames.map fun _ f => f.passTo tid k }
    let s := s.enqueue k { childOf c iss.core c.entry c.crec c.cn with
      cix := c.cix, frm := c.frm, ceil := c.ceil, place := .anyc, home := iss.core, gset := k, cont := some (p, t.tix), offerer := t.crew,
      origin := if c.origin = 0 then t.crew else c.origin }
    let s := s.updCrew t.crew fun c => { c with conts := c.conts + 1 }
    (s.removeThread tid).crewThreadGone t.crew

/-- STEALPT: the handle's checks, then the conditions; where they do not hold, the thread continues (R282). -/
def execStealpt (o : Ops) (s : State) : Out :=
  let (n, first) := stealArgs o
  let ready (iss : Issue) (x : Access) : Option (List Nat × List Peek) :=
    ((iss.view x.tid x.t).savedRegs first n).map fun r => (r, (List.range (min 3 x.t.depth)).map fun i => s.stackEntry x.tid x.t i)
  let busy (iss : Issue) (x : Access) : List Xfer :=
    match x.tgt.place? with
    | none => []
    | some p =>
      let line := (s.frameWaits iss.core true x).map Xfer.wait
      if !s.mayOffer x.t p then line
      else match ready iss x with
        | none => [.wait (match p with | .mem ga => lineNo ga | _ => placeLine p)]
        | some (_, l) => line ++ l.filterMap fun y => match y with | .ask a => some a | _ => none
  .next (match s.prep .stealpt o with
    | .go iss ex _ =>
      let waits := (ex.map (s.frameAt .stealpt o 12 .atom iss)).flatMap fun x => (busy iss x).map fun a => ((x.tid, x.t), a)
      if !waits.isEmpty then ((s.askAll iss.core waits).callHosts waits).stall iss
      else s.runMem .stealpt o .atom (s.frameAt .stealpt o 12 .atom) fun s' iss l =>
        let s' := s'.endDiscard (crewsOf (l.map fun x => (x.tid, x.t)))
        l.foldl (fun s' x =>
          match x.tgt.place?, ready iss x with
          | some p, some (regs, stk) =>
            if s'.mayOffer x.t p then
              s'.offer iss x.tid x.t p n first regs (stk.map fun y => match y with | .ok b => b | _ => bytesOf 8 0)
            else s'
          | _, _ => s') s'
    | _ => s.runMem .stealpt o .atom (s.frameAt .stealpt o 12 .atom) fun s' _ _ => s')

/-! ### Barriers (R285 to R288) -/

/-- CBAR (R286). -/
def execCbar (o : Ops) (s : State) : Out :=
  .next (s.runPlain .cbar o fun s _ ex =>
    (crewsOf ex).foldl (fun s k => s.checkCbar k) (s.waitAll .cbar (ex.map Prod.fst)))

/-- A crew handle (R277). -/
def Crew.handle (c : Crew) : Nat := c.core + c.cslot * 2 ^ 10 + c.gen * 2 ^ 14

/-- The live crew of a context that a handle names in a cluster; a crew queued again after a discard keeps its handle (R277, R287, R288, R289, R320). -/
def State.crewNamed (s : State) (ctx cluster h : Nat) : Option (Nat × Crew) :=
  s.crews.find? fun _ c =>
    c.ctx == ctx && clusterOf c.core == cluster && c.handle == h && c.gen != 0 &&
      (match c.phase with | .queued | .draining | .zeroed | .running | .saving | .saved => true | .finished => false)

/-- BARRIER_COUNT (R287). -/
def Flt.barrier (offered fixed : Nat) (range : Bool) (id : Nat) : Flt :=
  ⟨0x0C, lowBits 32 offered + fixed * 2 ^ 32 + (if range then 2 ^ 43 else 0) + lowBits 16 id * 2 ^ 48⟩

/-- A thread waits at a named barrier of its crew. -/
def Thread.atNbar (t : Thread) (crew id : Nat) : Bool := t.crew == crew && t.status == Status.waiting (.nbar id)

/-- Release the waiters of a named barrier: a new generation opens (R287); a remote arrival makes the core soft-invalidate (R147). -/
def State.nbarRelease (s : State) (crew id : Nat) (b : NBar) : State :=
  let s := { s with threads := s.threads.map fun _ t => if t.atNbar crew id then t.go else t }
  let s := s.updCrew crew fun c => { c with nbars := c.nbars.del id }
  if b.remote then s.softInvalidate (((s.crews.get? crew).map (·.core)).getD 0) else s

/-- The count fixed and the arrivals of a named barrier's open generation once the arrivals that landed in a save area are merged; a generation that they complete ends (R287, R288). -/
def landedGen : Nat × Nat → List Nat → Nat × Nat
  | g, [] => g
  | (f, a), c :: r =>
    let f := if f = 0 then c else f
    landedGen (if a + 1 = f then (0, 0) else (f, a + 1)) r

/-- One arrival at a named barrier: judged, counted, and the release it completes (R287). -/
def State.nbarArrive (s : State) (crew : Nat) (tid : Option Nat) (id count : Nat) : State × Option Flt :=
  match s.crews.get? crew with
  | none => (s, none)
  | some c =>
    if 15 < id ∨ count = 0 ∨ 1024 < count then (s, some (.barrier count 0 true id))
    else
      let b : NBar := c.nbars.getD id {}
      let g := landedGen (b.fixed, b.arrived) ((c.remoteSaved.filter fun x => x.1 == id).map (·.2))
      let fixed := if g.1 ≠ 0 then g.1 else count
      if count ≠ fixed then (s, some (.barrier count fixed false id))
      else if c.phase = .saved then (s.updCrew crew fun c => { c with remoteSaved := c.remoteSaved ++ [(id, count)] }, none)
      else
        let b : NBar := { b with fixed := fixed, arrived := b.arrived + 1, remote := b.remote || tid.isNone }
        let s := match tid with | some k => s.updThread k fun t => { t with status := .waiting (.nbar id) } | none => s
        let s := s.updCrew crew fun c => { c with nbars := c.nbars.put id b }
        (if b.arrived = b.fixed then s.nbarRelease crew id b else s, none)

/-- The id and count operands of NBAR (R266). -/
def State.nbarArgs (s : State) (iss : Issue) (o : Ops) (p : Nat × Thread) : Nat × Nat × Nat :=
  let (a, b, d) := s.vals iss .nbar o p.1 p.2
  (if o.aux.getLsbD 1 then o.aux.toNat / 4 else lowBits 32 a, lowBits 32 b, lowBits 32 d)

/-- ACCESS with reason WINDOW and the handle as its address (R287, R289). -/
def Flt.window (h : Nat) : Flt := .access h 7 6

/-- Send a remote arrival or queue request of each thread once its core's writes are sent (R147); a handle that names no crew faults. -/
def State.sendRemote (s : State) (iss : Issue) (l : List ((Nat × Thread) × Nat)) (ok : Nat → Nat × Crew → Bool) (write : Bool)
    (req : Nat × Thread → Instr) : State × List (Nat × Flt) :=
  let good := l.filter fun x => match s.crewNamed (s.ctxOf x.1.2) (clusterOf iss.core) x.2 with | some k => ok x.1.2.crew k | none => false
  let bad := l.filter fun x => !good.contains x
  let s := if good.isEmpty || !write then s else s.sourceCore iss.core
  let s := s.endDiscard ((good.map (·.1.2.crew)).eraseDups)
  let s := good.foldl (fun s x => (s.updThread x.1.1 fun t => { t with status := .waiting .sending }).post (req x.1)) s
  (s, bad.map fun x => (x.1.1, .window x.2))

/-- NBAR: an arrival at a barrier of the own crew or of a crew in the cluster (R287). -/
def execNbar (o : Ops) (s : State) : Out :=
  .next (match s.prep .nbar o with
    | .idle => s
    | .wait iss => s.stall iss
    | .go iss ex flt =>
      if o.aux.getLsbD 0 then
        let args (p : Nat × Thread) : Nat × Nat × Nat := s.nbarArgs iss o p
        let r := s.sendRemote iss (ex.map fun p => (p, (args p).2.2)) (fun _ _ => true) true
          fun p => .remoteBarrierArrival p.1 (args p).2.2 (args p).1 (args p).2.1
        r.1.complete iss .nbar [] (flt ++ r.2)
      else
        let r := ex.foldl (fun (a : State × List (Nat × Flt)) p =>
          let x := s.nbarArgs iss o p
          match a.1.nbarArrive p.2.crew (some p.1) x.1 x.2.1 with
          | (s, none) => (s, a.2)
          | (s, some f) => (s, a.2 ++ [(p.1, f)])) (s, [])
        r.1.complete iss .nbar [] (flt ++ r.2))

/-- A thread whose remote request has been answered: it goes on, or takes the fault. -/
def State.answer (s : State) (tid : Nat) (f : Option Flt) : State :=
  match s.threads.get? tid with
  | none => s
  | some t =>
    match f with
    | none => s.updThread tid Thread.go
    | some f => (s.updThread tid fun t => { t with status := .ready }).raise tid t.pc f

/-- A crew that has received a remote arrival or queue request can no longer be discarded (R288, R319). -/
def State.received (s : State) (crew : Nat) : State := s.updCrew crew fun c => { c with discard := false, coords := [], remote := true }

/-- Whether an event is a remote arrival or queue request of a core: they take effect in the order of their issue (R287, R289). -/
def remoteOf (core : Nat) : Instr → Bool
  | .remoteBarrierArrival tid _ _ _ => coreOf tid == core
  | .remoteQueueRequest tid _ _ _ _ _ _ _ => coreOf tid == core
  | _ => false

/-- REMOTE_BARRIER_ARRIVAL: once the arriving core's writes are acknowledged, the arrival is judged at the target (R147, R287, R288). -/
def execRemoteBarrierArrival (tid h id count : Nat) (s : State) : Out :=
  .next (match s.threads.get? tid with
    | none => s
    | some t =>
      if !s.coreQuiet (coreOf tid) (2 ^ 64) then s.repost (remoteOf (coreOf tid)) (.remoteBarrierArrival tid h id count)
      else
        match s.crewNamed (s.ctxOf t) (clusterOf (coreOf tid)) h with
        | none => s.answer tid (some (.window h))
        | some (k, _) =>
          match s.nbarArrive k none id count with
          | (s, none) => (s.received k).answer tid none
          | (s, some f) => s.answer tid (some f))

/-! ### Queues (R289) -/

/-- Change a crew's queue. -/
def State.updQueue (s : State) (crew q : Nat) (f : CrewQueue → CrewQueue) : State :=
  s.updCrew crew fun c => { c with queues := c.queues.put q (f (c.queues.getD q {})) }

/-- A crew's queue. -/
def State.queueOf (s : State) (crew q : Nat) : CrewQueue := (((s.crews.get? crew).map fun c => c.queues.getD q {})).getD {}

/-- Give an entry to a thread: an entry pushed from another core makes the popping core soft-invalidate (R147). -/
def State.giveEntry (s : State) (tid : Nat) (d : Dst) (wide : Bool) (e : Nat × Nat) : State :=
  let s := if e.2 = coreOf tid then s else s.softInvalidate (coreOf tid)
  s.updThread tid fun t => t.putDst wide d e.1

/-- Whether a crew's own core pushed the head entry of its queue and has not completed the source side of an edge to another core that pops it (R116, R147). -/
def State.popOwes (s : State) (crew q core : Nat) : Bool :=
  let c := s.queueOf crew q
  match c.entries, s.crews.get? crew with
  | e :: _, some x => e.2 != core && e.2 == x.core && !(c.flushed && s.coreQuiet e.2 (2 ^ 64))
  | _, _ => false

/-- Send the writes of the core that pushed the head entry of a queue, once (R147). -/
def State.popSource (s : State) (crew q : Nat) : State :=
  let c := s.queueOf crew q
  match c.entries with
  | e :: _ => if c.flushed then s else (s.sourceCore e.2).updQueue crew q fun c => { c with flushed := true }
  | [] => s

/-- Match waiting pops with entries, and waiting pushes with room; fuel bounds the matches. A pop from another core, of an entry that this core pushed, is presented again for its reconciliation (R147). -/
def State.queueTick (s : State) (crew q : Nat) : Nat → State
  | 0 => s
  | fuel + 1 =>
    let c := s.queueOf crew q
    match c.entries, c.poppers, c.pushers with
    | e :: r, k :: ks, _ =>
      let again := s.popOwes crew q (coreOf k)
      let s := s.updQueue crew q fun c => if again then { c with poppers := ks } else { c with entries := r, poppers := ks, flushed := false }
      let s := match (s.threads.get? k).map Thread.status with
        | some (.waiting (.pop _ _ d wide)) =>
          if again then (s.updThread k fun t => { t with status := .waiting .sending }).post
            (.remoteQueueRequest k (((s.crews.get? crew).map Crew.handle).getD 0) q none d wide false 7)
          else (s.giveEntry k d wide e).updThread k Thread.go
        | _ => s
      s.queueTick crew q fuel
    | l, _, (k, x) :: ps =>
      if l.length < 16 then
        let s := s.updQueue crew q fun c => { c with entries := l ++ [(x, coreOf k)], pushers := ps }
        (s.updThread k Thread.go).queueTick crew q fuel
      else s
    | _, _, [] => s

/-- Push a value: true when it went in. -/
def State.push (s : State) (crew q tid x : Nat) : State × Bool :=
  let c := s.queueOf crew q
  if c.entries.length < 16 ∧ c.pushers.isEmpty then
    ((s.updQueue crew q fun c => { c with entries := c.entries ++ [(x, coreOf tid)] }).queueTick crew q 64, true)
  else (s, false)

/-- Pop an entry into a thread's destination: true when there was one. -/
def State.pop (s : State) (crew q tid : Nat) (d : Dst) (wide : Bool) : State × Bool :=
  let c := s.queueOf crew q
  match c.entries, c.poppers with
  | e :: r, [] => (((s.updQueue crew q fun c => { c with entries := r, flushed := false }).giveEntry tid d wide e).queueTick crew q 64, true)
  | _, _ => (s, false)

/-- The queue number of QPUSH and QPOP. -/
def queueNo (o : Ops) : Nat := o.aux.toNat % 8
/-- Whether QPUSH or QPOP has the remote form. -/
def queueRemote (o : Ops) : Bool := o.aux.getLsbD 3

/-- The value of a push, zero-extended (R289). -/
def pushValue (o : Ops) (x : Nat) : Nat := lowBits (if o.ty.is64 then 64 else 32) x

/-- One thread's own-crew push or pop (R289). -/
def State.queueOne (s : State) (o : Ops) (p : Nat × Thread) (value : Option Nat) (pred : Dst) : State × Option Flt :=
  match s.crews.get? p.2.crew with
  | none => (s, none)
  | some c =>
    let q := queueNo o
    if c.crec.q ≤ q then (s, some (.window c.handle))
    else
      let say (s : State) (b : Bool) : State := if o.flag then s.updThread p.1 fun t => t.putDst false pred (predBits b) else s
      match value with
      | some x =>
        match s.push p.2.crew q p.1 x with
        | (s, true) => (say s true, none)
        | (s, false) =>
          if o.flag then (say s false, none)
          else
            let s := s.updThread p.1 fun t => { t with status := .waiting (.push p.2.crew q x) }
            (s.updQueue p.2.crew q fun c => { c with pushers := c.pushers ++ [(p.1, x)] }, none)
      | none =>
        match s.pop p.2.crew q p.1 o.dst o.ty.is64 with
        | (s, true) => (say s true, none)
        | (s, false) =>
          if o.flag then (say s false, none)
          else
            let s := s.updThread p.1 fun t => { t with status := .waiting (.pop p.2.crew q o.dst o.ty.is64) }
            (s.updQueue p.2.crew q fun c => { c with poppers := c.poppers ++ [p.1] }, none)

/-- The number of a predicate destination; 7 for none. -/
def predNo : Dst → Nat
  | .p n => n.toNat
  | _ => 7

/-- The predicate that QPOP.nb and TFETCH write through SC. -/
def predOf : Src → Dst
  | .p n => .p n
  | _ => .none

/-- The common course of QPUSH and QPOP. -/
def State.runQueue (s : State) (c : Opc) (o : Ops) (value : Issue → Nat × Thread → Option Nat) (handle : Issue → Nat × Thread → Nat)
    (pred : Dst) : State :=
  match s.prep c o with
  | .idle => s
  | .wait iss => s.stall iss
  | .go iss ex flt =>
    if ex.any fun p => p.2.held then s.stall iss
    else if queueRemote o then
      let r := s.sendRemote iss (ex.map fun p => (p, handle iss p)) (fun own k => k.1 != own && decide (queueNo o < k.2.crec.q)) (c == .qpush)
        fun p => .remoteQueueRequest p.1 (handle iss p) (queueNo o) (value iss p) o.dst o.ty.is64 o.flag (predNo pred)
      r.1.complete iss c [] (flt ++ r.2)
    else
      let r := ex.foldl (fun (a : State × List (Nat × Flt)) p =>
        match a.1.queueOne o p (value iss p) pred with
        | (s, none) => (s, a.2)
        | (s, some f) => (s, a.2 ++ [(p.1, f)])) (s, [])
      r.1.complete iss c [] (flt ++ r.2)

/-- QPUSH (R289). -/
def execQpush (o : Ops) (s : State) : Out :=
  .next (s.runQueue .qpush o (fun iss p => some (pushValue o (s.vals iss .qpush o p.1 p.2).1))
    (fun iss p => lowBits 32 (s.vals iss .qpush o p.1 p.2).2.1) o.dst)

/-- QPOP (R289). -/
def execQpop (o : Ops) (s : State) : Out :=
  .next (s.runQueue .qpop o (fun _ _ => none) (fun iss p => lowBits 32 (s.vals iss .qpop o p.1 p.2).1) (predOf o.sc))

/-- REMOTE_QUEUE_REQUEST: a push or pop at another crew's queue, after the pushing core's writes are acknowledged (R147, R289). -/
def execRemoteQueueRequest (tid h q : Nat) (push : Option Nat) (d : Dst) (wide nb : Bool) (pred : Nat) (s : State) : Out :=
  .next (match s.threads.get? tid with
    | none => s
    | some t =>
      if push.isSome && !s.coreQuiet (coreOf tid) (2 ^ 64) then s.repost (remoteOf (coreOf tid)) (.remoteQueueRequest tid h q push d wide nb pred)
      else
        match s.crewNamed (s.ctxOf t) (clusterOf (coreOf tid)) h with
        | none => s.answer tid (some (.window h))
        | some (k, c) =>
          if c.crec.q ≤ q ∨ k = t.crew then s.answer tid (some (.window h))
          else if push.isNone && s.popOwes k q (coreOf tid) then
            (s.popSource k q).repost (remoteOf (coreOf tid)) (.remoteQueueRequest tid h q push d wide nb pred)
          else
            let s := s.received k
            let say (s : State) (b : Bool) : State :=
              if nb then s.updThread tid fun t => t.setPred pred b else s
            match (match push with | some x => s.push k q tid x | none => s.pop k q tid d wide) with
            | (s, true) => (say s true).answer tid none
            | (s, false) =>
              if nb then (say s false).answer tid none
              else
                match push with
                | some x =>
                  (s.updThread tid fun t => { t with status := .waiting (.push k q x) }).updQueue k q fun c => { c with pushers := c.pushers ++ [(tid, x)] }
                | none =>
                  (s.updThread tid fun t => { t with status := .waiting (.pop k q d wide) }).updQueue k q fun c => { c with poppers := c.poppers ++ [tid] })

/-- The remote threads that wait at a crew's queues, when it ends, take the ACCESS fault (R289). -/
def State.failWaiters (s : State) (crew h : Nat) : State :=
  (s.threads.cells.filter fun p => match p.2.status with
    | .waiting (.push k _ _) => k == crew
    | .waiting (.pop k _ _ _) => k == crew
    | _ => false).foldl (fun s p => s.answer p.1 (some (.window h))) s

/-! ### Dispensed coordinates (R290, R309, R310) -/

/-- The key of a lot's dispenser on a die. -/
def dispKey (lot die : Nat) : Nat := lot * 4 + die

/-- Change a dispenser. -/
def State.updDisp (s : State) (launch lot die : Nat) (f : Disp → Disp) : State :=
  s.updFw fun w => { w with launches := w.launches.adjust launch fun l => { l with disps := l.disps.adjust (dispKey lot die) f } }

/-- A lot's dispenser on a die; none when the launch is not PERSIST. -/
def State.disp? (s : State) (launch lot die : Nat) : Option Disp :=
  match s.fw.launches.get? launch with
  | some l => if l.mode = 0 then l.disps.get? (dispKey lot die) else none
  | none => none

/-- The dies that have a dispenser of a lot. -/
def State.dispDies (s : State) (launch lot : Nat) : List Nat := (List.range 4).filter fun d => (s.disp? launch lot d).isSome

/-- Give a coordinate, or false, to a thread that waits or asks; a discardable crew's coordinates are recorded (R290). -/
def State.giveCoord (s : State) (tid : Nat) (d : Dst) (pred : Src) (c : Option Nat) : State :=
  let crew := ((s.threads.get? tid).map (·.crew)).getD 0
  match c with
  | some x =>
    let s := s.updThread tid fun t => (t.putDst true d x).putDst false (predOf pred) 1
    s.updCrew crew fun c => if c.discard then { c with coords := c.coords ++ [x] } else c
  | none => s.updThread tid fun t => t.putDst false (predOf pred) 0

/-- The dispenser block of a launch: 0 means 64 (R297). -/
def Launch.blockSize (l : Launch) : Nat := if l.block = 0 then 64 else l.block

/-- Hand out a dispenser's next coordinate; at a block boundary the other dies learn what is left (R310). -/
def State.handOut (s : State) (launch lot die : Nat) : State × Option Nat :=
  match s.disp? launch lot die, s.fw.launches.get? launch with
  | some d, some l =>
    match d.coords with
    | [] => (s, none)
    | x :: r =>
      let s := s.updDisp launch lot die fun d => { d with coords := r }
      let s := if (x + 1) % l.blockSize = 0 then
          (s.dispDies launch lot).foldl (fun s k =>
            if k = die then s else s.updDisp launch lot k fun d => { d with reports := d.reports.put die r.length }) s
        else s
      (s, some x)
  | _, _ => (s, none)

/-- The die that a dry dispenser asks next: the largest count it holds, ties to the lowest die, among those that have not replied with none (R310); none while firmware has disabled dispenser stealing (R506). -/
def State.stealTarget (s : State) (launch lot die : Nat) (d : Disp) : Option Nat :=
  if !((((s.fw.launches.get? launch).bind fun l => s.ctx? l.ctx).map (·.steal)).getD true) then none
  else leastBy (fun k => 2 ^ 32 - d.reports.getD k 0) ((s.dispDies launch lot).filter fun k => k != die && !d.dry.contains k)

/-- A dry dispenser asks another die, or answers every waiting thread with false when all have replied with none (R310). -/
def State.askSteal (s : State) (launch lot die : Nat) : State :=
  match s.disp? launch lot die with
  | none => s
  | some d =>
    match s.stealTarget launch lot die d with
    | some v => (s.updDisp launch lot die fun d => { d with asking := true }).post (.dispenserStealRequest launch lot die v)
    | none =>
      let s := s.updDisp launch lot die fun d => { d with asking := false, dry := [], wait := [] }
      d.wait.foldl (fun (s : State) (k : Nat) =>
        match (s.threads.get? k).map Thread.status with
        | some (.waiting (.tfetch _ _ _ dst p)) => (s.giveCoord k dst p none).updThread k Thread.go
        | _ => s) s

/-- The dispenser of a die that no tile of a lot belongs to starts dry (R310, log 139). -/
def State.addDisp (s : State) (launch lot die : Nat) : State :=
  s.updFw fun w => { w with launches := w.launches.adjust launch fun l => { l with disps := l.disps.put (dispKey lot die) {} } }

/-- One thread's TFETCH (R290). On a die off the lot's pitch, the dies of the pitch are asked (R310). -/
def State.tfetchOne (s : State) (o : Ops) (p : Nat × Thread) : State :=
  let c := (s.crewOf p.2)
  let launch := (c.map (·.launch)).getD 0
  let lot := (c.map (·.lot)).getD 0
  let die := dieOf (coreOf p.1)
  let s := if (s.dispDies launch lot).isEmpty || (s.disp? launch lot die).isSome then s else s.addDisp launch lot die
  match s.disp? launch lot die with
  | none => s.giveCoord p.1 o.dst o.sc none
  | some d =>
    match (if d.asking then (s, none) else s.handOut launch lot die) with
    | (s, some x) => s.giveCoord p.1 o.dst o.sc (some x)
    | (s, none) =>
      let s := s.updThread p.1 fun t => { t with status := .waiting (.tfetch launch lot die o.dst o.sc) }
      let s := s.updDisp launch lot die fun d => { d with wait := d.wait ++ [p.1] }
      if d.asking then s else s.askSteal launch lot die

/-- TFETCH: each executing thread in ascending slot order (R290). -/
def execTfetch (o : Ops) (s : State) : Out :=
  .next (s.runPlain .tfetch o fun s _ ex => ex.foldl (fun s p => s.tfetchOne o p) s)

/-- DISPENSER_STEAL_REQUEST: the victim gives up the highest half of its coordinates (R310). -/
def execDispenserStealRequest (launch lot thief victim : Nat) (s : State) : Out :=
  .next (match s.disp? launch lot victim with
    | none => s.post (.dispenserStealReply launch lot thief victim [] 0)
    | some d =>
      let keep := d.coords.length / 2
      (s.updDisp launch lot victim fun d => { d with coords := d.coords.take keep }).post
        (.dispenserStealReply launch lot thief victim (d.coords.drop keep) keep))

/-- Serve the threads that wait at a dispenser while it has coordinates. -/
def State.serveWaits (s : State) (launch lot die : Nat) : Nat → State
  | 0 => s
  | fuel + 1 =>
    match s.disp? launch lot die with
    | some d =>
      match d.wait, d.coords with
      | k :: r, _ :: _ =>
        let s := s.updDisp launch lot die fun d => { d with wait := r }
        match (s.threads.get? k).map Thread.status with
        | some (.waiting (.tfetch _ _ _ dst p)) =>
          let (s, x) := s.handOut launch lot die
          ((s.giveCoord k dst p x).updThread k Thread.go).serveWaits launch lot die fuel
        | _ => s.serveWaits launch lot die fuel
      | [], _ => s
      | _, [] => s.askSteal launch lot die
    | none => s

/-- DISPENSER_STEAL_REPLY: what was stolen is handed out; a reply with none makes the thief ask the next die (R310). -/
def execDispenserStealReply (launch lot thief victim : Nat) (coords : List Nat) (left : Nat) (s : State) : Out :=
  .next (let s := s.updDisp launch lot thief fun d =>
      { d with coords := (d.coords ++ coords).mergeSort, reports := d.reports.put victim left, asking := false,
               dry := if coords.isEmpty then d.dry ++ [victim] else d.dry }
    let n := ((s.disp? launch lot thief).map fun d => d.wait.length).getD 0
    s.serveWaits launch lot thief (n + 1))

/-! ### Crew-uniform registers (R259, R291) -/

/-- K_WRITER, with the specifier of DST (R291). -/
def Flt.kWriter (n : Nat) : Flt := ⟨0x06, 0x80 + n⟩

/-- The value of a register that a crew-uniform register resolves; none while part of it is unwritten (R259). -/
def Crew.resolveK (c : Crew) (crew n : Nat) (r : RegVal) : RegVal :=
  match r.late? with
  | some (.kreg k m) =>
    if k = crew ∧ m = n then
      match c.kregs.get? m with
      | some x => r.resolve x.toNat
      | none => r
    else r
  | some (.kpair k m) =>
    if k = crew ∧ (m = n ∨ m + 1 = n) then
      match c.kregs.get? m, c.kregs.get? (m + 1) with
      | some lo, some hi => r.resolve (lo.toNat + 2 ^ 32 * hi.toNat)
      | _, _ => r
    else r
  | _ => r

/-- Every register of the crew that is bound to a crew-uniform register becomes known (R259). -/
def State.resolveK (s : State) (crew n : Nat) : State :=
  match s.crews.get? crew with
  | none => s
  | some c => { s with threads := s.threads.map fun _ t =>
      if t.crew = crew then { t with regs := t.regs.map fun _ r => c.resolveK crew n r } else t }

/-- Write a crew-uniform register, recording the generation (R291). -/
def Crew.setK (c : Crew) (n x : Nat) : Crew :=
  { c with kregs := c.kregs.put n (BitVec.ofNat 32 x), kgen := c.kgen.put n c.bar }

/-- Whether a crew-uniform register was written in the current crew-barrier generation. -/
def Crew.wroteK (c : Crew) (n : Nat) : Bool := c.kgen.get? n == some c.bar

/-- KSET: the lowest-slot executing thread writes; the others, and a second writer of one generation, fault (R291). -/
def execKset (o : Ops) (s : State) : Out :=
  .next (match s.prep .kset o with
    | .idle => s
    | .wait iss => s.stall iss
    | .go iss ex flt =>
      match ex, o.dst with
      | p :: r, .k n =>
        let n := n.toNat
        let x := (s.vals iss .kset o p.1 p.2).1
        let wide := o.ty.is64
        let twice := ((s.crewOf p.2).map fun c => c.wroteK n || (wide && c.wroteK (n + 1))).getD false
        let late := r.map fun q => (q.1, Flt.kWriter n)
        if twice then s.complete iss .kset [] (flt ++ (p.1, .kWriter n) :: late)
        else
          let s := s.updCrew p.2.crew fun c => if wide then (c.setK n x).setK (n + 1) (x / 2 ^ 32) else c.setK n x
          let s := s.resolveK p.2.crew n
          let s := if wide then s.resolveK p.2.crew (n + 1) else s
          s.checkResolve.complete iss .kset [] (flt ++ late)
      | _, _ => s.complete iss .kset [] flt)

end Sys2Proof.Machine
end

