-- ==== Sys2Proof/Machine/Board.lean ====
section
/-!
DEFINITION. The Square as a game (R448 to R467, R472, R485): reading a lot table, the seven invariants, the moves, the score, and the legal moves in their order.
-/
namespace Sys2Proof.Machine

/-- Division rounded up. -/
def ceilDiv (a b : Nat) : Nat := (a + b - 1) / b
/-- The ceiling of the base-2 logarithm of a positive number. -/
def ceilLog2 (n : Nat) : Nat := if n ≤ 1 then 0 else Nat.log2 (n - 1) + 1
/-- The product of some numbers. -/
def product (l : List Nat) : Nat := l.foldl (· * ·) 1
/-- The sum of some numbers. -/
def total (l : List Nat) : Nat := l.foldl (· + ·) 0

/-! ### Reading a lot table (R448 to R451, R471) -/

/-- n little-endian bytes at an offset. -/
def numAt (b : List Byte) (off n : Nat) : Nat := natOf ((b.drop off).take n)

/-- The lot record in 64 bytes (R449). -/
def lotOf (x : Nat) : LotRec :=
  { ndim := bitsAt x 0 4, rdims := bitsAt x 8 8, nvm1 := bitsAt x 16 8, var0 := bitsAt x 32 16, nacc := bitsAt x 48 16
    acc0 := bitsAt x 64 32, work := bitsAt x 96 32, cal := bitsAt x 128 16, ext := (List.range 8).map fun d => bitsAt x (32 * d + 160) 32 }

/-- The fields of a lot record that are out of range or reserved and not zero. -/
def lotBad (x nvar : Nat) : Bool :=
  let l := lotOf x
  bitsAt x 4 4 != 0 || bitsAt x 24 8 != 0 || bitsAt x 144 16 != 0 || bitsAt x 416 96 != 0 ||
    l.ndim == 0 || decide (8 < l.ndim) || l.rdims / 2 ^ l.ndim != 0 || decide (nvar ≤ l.var0 + l.nvm1) ||
    decide (64 < l.nacc) || l.work == 0 || (l.cal != 0 && (decide (l.cal < 16) || decide (4096 < l.cal))) ||
    (List.range 8).any fun d => let e := (l.ext[d]?).getD 0; if d < l.ndim then e == 0 || decide (2 ^ 31 < e) else e != 0

/-- The variant record in 32 bytes, with its entry's crew record (R450). -/
def varOf (x : Nat) (r : CrewRec) : VarRec :=
  { entry := bitsAt x 0 32, rate := bitsAt x 32 32, tdef := (List.range 8).map fun d => bitsAt x (5 * d + 64) 5
    tmin := (List.range 8).map fun d => bitsAt x (5 * d + 104) 5, xreq := bitsAt x 144 1, fused := x.testBit 145
    nbuf := bitsAt x 146 2, fcon := bitsAt x 148 12, types := bitsAt x 160 16, spmin := bitsAt x 176 9, k := r.k, q := r.q }

/-- The fields of a variant record that are out of range or reserved and not zero. -/
def varBad (x nlot : Nat) : Bool :=
  let v := varOf x {}
  bitsAt x 185 71 != 0 || v.rate == 0 || decide (448 < v.spmin) || (!v.fused && v.fcon != 0) || (v.fused && decide (nlot ≤ v.fcon))

/-- A tensor record (R451). -/
def tensorOf (x : Nat) : TensorRec := ⟨bitsAt x 0 64, bitsAt x 64 40, bitsAt x 104 4⟩
/-- The fields of a tensor record that are out of range or reserved and not zero. -/
def tensorBad (x : Nat) : Bool :=
  let t := tensorOf x
  bitsAt x 108 148 != 0 || t.base % 65536 != 0 || t.bytes == 0 || t.type == 0

/-- An access record (R451). -/
def accessOf (x : Nat) : AccessRec := ⟨bitsAt x 0 12, x.testBit 12, bitsAt x 16 8⟩
/-- An edge record (R451). -/
def edgeOf (x : Nat) : EdgeRec := ⟨bitsAt x 0 12, bitsAt x 16 12, bitsAt x 32 12⟩

/-- The counts, offsets and bounds of a lot table's header (R448). -/
structure TableHead where
  nlot : Nat
  nten : Nat
  nedge : Nat
  nvar : Nat
  image : Nat
  isize : Nat
  maxthr : Nat
  lotoff : Nat
  tenoff : Nat
  edgeoff : Nat
  varoff : Nat
  accoff : Nat
  total : Nat
  deriving DecidableEq, Repr

/-- The header in 64 bytes. -/
def headOf (x : Nat) : TableHead :=
  { nlot := bitsAt x 64 16, nten := bitsAt x 80 16, nedge := bitsAt x 96 16, nvar := bitsAt x 112 16, image := bitsAt x 128 64
    isize := bitsAt x 192 32, maxthr := bitsAt x 224 11, lotoff := bitsAt x 256 32, tenoff := bitsAt x 288 32
    edgeoff := bitsAt x 320 32, varoff := bitsAt x 352 32, accoff := bitsAt x 384 32, total := bitsAt x 416 32 }

/-- Whether MAGIC or VERSION is wrong (DETAIL 1). -/
def headMagicBad (x : Nat) : Bool := bitsAt x 0 32 != 0x544C_585A || bitsAt x 32 16 != 1
/-- Whether a count or MAXTHR is out of range (DETAIL 2). -/
def headCountBad (h : TableHead) : Bool :=
  h.nlot == 0 || decide (4096 < h.nlot) || decide (4096 < h.nten) || h.nvar == 0 || h.maxthr == 0 || decide (1024 < h.maxthr)
/-- Whether an offset, TOTAL, IMAGE or ISIZE is out of range or misaligned (DETAIL 3); the access array follows from the lot records. -/
def headPlaceBad (h : TableHead) : Bool :=
  let arr (off al n : Nat) : Bool := off % al != 0 || decide (h.total < off + n)
  h.image % 64 != 0 || decide (2 ^ 57 < h.image + h.isize) || h.isize % 64 != 0 || decide (h.isize < 128) || decide (2 ^ 28 < h.isize) ||
    decide (h.total < 64) || decide (2 ^ 26 < h.total) || h.accoff % 8 != 0 ||
    arr h.lotoff 64 (64 * h.nlot) || arr h.tenoff 32 (32 * h.nten) || arr h.edgeoff 8 (8 * h.nedge) || arr h.varoff 32 (32 * h.nvar)
/-- Whether the header has a reserved bit set (DETAIL 4). -/
def headReserved (x : Nat) : Bool := bitsAt x 48 16 != 0 || bitsAt x 235 21 != 0 || bitsAt x 448 64 != 0

/-- The size that SQLOAD reads: TOTAL, unless it is out of range. -/
def tableSize (head : List Byte) : Nat :=
  let t := (headOf (natOf head)).total
  if 64 ≤ t ∧ t ≤ 2 ^ 26 then t else 64

/-- Whether a variant's ENTRY lies inside the image, so that its header line can be read. -/
def entryIn (h : TableHead) (e : Nat) : Bool := e % 64 == 0 && decide (64 ≤ e) && decide (e < h.isize)

/-- The addresses of the header lines to read, in the order of the variants, once the table itself has been read. -/
def headerVas (b : List Byte) : List Nat :=
  let h := headOf (numAt b 0 64)
  if headCountBad h || headPlaceBad h then []
  else (List.range h.nvar).filterMap fun i =>
    let e := numAt b (h.varoff + 32 * i) 4
    if entryIn h e then some (h.image + e - 64) else none

/-- The variants with their header lines, taken in order; none for one that is malformed or whose ENTRY is outside the image. -/
def variantsFrom (h : TableHead) (b : List Byte) : List Nat → List Byte → List (Option VarRec)
  | [], _ => []
  | i :: r, lines =>
    let x := numAt b (h.varoff + 32 * i) 32
    if entryIn h (bitsAt x 0 32) then ((headerRec (lines.take 64)).map (varOf x)) :: variantsFrom h b r (lines.drop 64)
    else none :: variantsFrom h b r lines

/-- Read a lot table at an address from its bytes and its header lines: the table, or the lowest DETAIL (R471). -/
def readTable (va : Nat) (b lines : List Byte) : Except Nat LotTable :=
  let x := numAt b 0 64
  let h := headOf x
  if headMagicBad x then .error 1
  else if headCountBad h then .error 2
  else if headPlaceBad h then .error 3
  else
    let lotW := (List.range h.nlot).map fun i => numAt b (h.lotoff + 64 * i) 64
    let varW := (List.range h.nvar).map fun i => numAt b (h.varoff + 32 * i) 32
    let tenW := (List.range h.nten).map fun i => numAt b (h.tenoff + 32 * i) 32
    let edgeW := (List.range h.nedge).map fun i => numAt b (h.edgeoff + 8 * i) 8
    let lots := lotW.map lotOf
    let nacc := (lots.map fun l => if l.nacc = 0 then 0 else l.acc0 + l.nacc).foldl max 0
    if h.total < h.accoff + 8 * nacc then .error 3
    else
      let accW := (List.range nacc).map fun i => numAt b (h.accoff + 8 * i) 8
      let accs := accW.map accessOf
      let vars := variantsFrom h b (List.range h.nvar) lines
      let mapBad (l : LotRec) : Bool := ((accs.drop l.acc0).take l.nacc).any fun a => a.map / 2 ^ l.ndim != 0
      if headReserved x || (lotW.any fun w => lotBad w h.nvar) || (varW.any fun w => varBad w h.nlot) || tenW.any tensorBad ||
          (accW.any fun w => bitsAt w 13 3 != 0 || bitsAt w 24 40 != 0 || decide (h.nten ≤ bitsAt w 0 12)) || lots.any mapBad ||
          (edgeW.any fun w => bitsAt w 12 4 != 0 || bitsAt w 28 4 != 0 || bitsAt w 44 20 != 0) then .error 4
      else if (edgeW.map edgeOf).any fun e =>
          decide (h.nlot ≤ e.prod) || decide (h.nlot ≤ e.cons) || decide (h.nten ≤ e.tensor) || decide (e.cons ≤ e.prod) then .error 5
      else if vars.any Option.isNone then .error 6
      else if lots.any fun l => bitsAt ((varW[l.var0]?).getD 0) 145 1 == 1 then .error 7
      else .ok
        { va := va, hash := sha384Low (b.take h.total), image := h.image, isize := h.isize, maxthr := h.maxthr, lots := lots
          vars := vars.filterMap id, tensors := tenW.map tensorOf, accs := accs, edges := edgeW.map edgeOf }

/-! ### Pitches (R454) -/

/-- The unit of a bench from 2 to 6. -/
def benchUnit (b : Nat) : Nat := match b with | 3 => 2 | 4 => 8 | 5 => 128 | 6 => 512 | _ => 1

/-- The first core of a pitch, and the core after its last. -/
def Pitch.span (p : Pitch) (dev : Nat) : Nat × Nat :=
  if p.bench = 7 then (0, if p.first = dev ∧ p.count = 1 then 512 else 0)
  else (p.first * benchUnit p.bench, (p.first + p.count) * benchUnit p.bench)

/-- The number of cores of a pitch. -/
def Pitch.cores (p : Pitch) (dev : Nat) : Nat := (p.span dev).2 - (p.span dev).1

/-- Whether two pitches share a core. -/
def Pitch.meets (a b : Pitch) (dev : Nat) : Bool :=
  decide (max (a.span dev).1 (b.span dev).1 < min (a.span dev).2 (b.span dev).2)

/-- The die on which a pitch lies, if all its cores are on one. -/
def Pitch.die (p : Pitch) (dev : Nat) : Option Nat :=
  let (a, b) := p.span dev
  if a < b ∧ a / 128 = (b - 1) / 128 then some (a / 128) else none

/-- Pitches in ascending (bench, first, count) order, as numbers. -/
def Pitch.key (p : Pitch) : Nat := (p.bench * 2 ^ 15 + p.first) * 2 ^ 15 + p.count

/-- The partition pitch: at the widest bench whose unit divides both bounds. -/
def partitionPitch (pfirst pcount : Nat) : Pitch :=
  let b := ([6, 5, 4, 3].find? fun b => pfirst % benchUnit b == 0 && pcount % benchUnit b == 0).getD 2
  ⟨b, pfirst / benchUnit b, pcount / benchUnit b⟩

/-- Whether a pitch covers only cores of a partition (invariant 6). -/
def Pitch.inside (p : Pitch) (dev pfirst pcount : Nat) : Bool :=
  let (a, b) := p.span dev
  !(p.bench == 7 && a == b) && decide (pfirst ≤ a) && decide (b ≤ pfirst + pcount)

/-! ### Boards -/

/-- A lot's record. -/
def LotTable.lot (t : LotTable) (l : Nat) : LotRec :=
  (t.lots[l]?).getD ⟨1, 0, 0, 0, 0, 0, 1, 0, [1]⟩
/-- Variant v of a lot. -/
def LotTable.variant (t : LotTable) (l v : Nat) : VarRec :=
  (t.vars[(t.lot l).var0 + v]?).getD ⟨64, 1, [], [], 0, false, 0, 0, 0, 0, 0, 0⟩
/-- A lot's access records. -/
def LotTable.accessesOf (t : LotTable) (l : Nat) : List AccessRec := (t.accs.drop (t.lot l).acc0).take (t.lot l).nacc
/-- A tensor's TYPE code. -/
def LotTable.typeOf (t : LotTable) (n : Nat) : Nat := ((t.tensors[n]?).map (·.type)).getD 0
/-- Extent E_d. -/
def LotTable.ext (t : LotTable) (l d : Nat) : Nat := ((t.lot l).ext[d]?).getD 1

/-- What the board holds for a lot. -/
def Board.lot (b : Board) (l : Nat) : LotSt := (b.lots[l]?).getD { tiles := [], pitch := ⟨2, 0, 1⟩, xbud := 0, spbud := 0 }
/-- Change what the board holds for a lot. -/
def Board.upd (b : Board) (l : Nat) (f : LotSt → LotSt) : Board := { b with lots := b.lots.modify l f }
/-- log2 T_d of a lot. -/
def LotSt.log2 (s : LotSt) (d : Nat) : Nat := (s.tiles[d]?).getD 0
/-- The pitches in use, ascending. -/
def Board.pitches (b : Board) : List Pitch := ((b.lots.map (·.pitch)).eraseDups).mergeSort fun x y => decide (x.key ≤ y.key)
/-- The slot mode of a pitch: 0 for skip, else s. -/
def Board.mode (b : Board) (p : Pitch) : Nat := ((b.modes.find? fun m => m.1 == p).map Prod.snd).getD 0
/-- Set the slot mode of a pitch, and forget the modes of pitches no longer in use. -/
def Board.setMode (b : Board) (p : Pitch) (m : Nat) : Board :=
  { b with modes := (b.modes.filter fun x => x.1 != p && b.lots.any fun l => l.pitch == x.1) ++ [(p, m)] }
/-- A lot's chosen variant. -/
def Game.variantOf (g : Game) (b : Board) (l : Nat) : VarRec := g.table.variant l (b.lot l).variant
/-- The lot with its consumer, for a fusion producer. -/
def Board.pair (b : Board) (l : Nat) : List Nat := if (b.lot l).role = 1 then [l, (b.lot l).partner] else [l]

/-- The canonical board (R458). -/
def canonicalBoard (t : LotTable) (pfirst pcount : Nat) : Board :=
  let p := partitionPitch pfirst pcount
  let one (l : Nat) : LotSt :=
    let v := t.variant l 0
    { tiles := v.tdef, pitch := p, xbud := v.xreq, spbud := v.spmin }
  { lots := (List.range t.lots.length).map one, order := List.range t.lots.length
    homes := t.tensors.map fun _ => 7, modes := [(p, 0)] }

/-! ### The footprint (R460) -/

/-- bytes(t) of an access of a lot. -/
def Game.accessBytes (g : Game) (b : Board) (l : Nat) (a : AccessRec) : Nat :=
  let e := total ((List.range 8).map fun d => if a.map.testBit d then (b.lot l).log2 d else 0)
  ceilDiv ((Ty.ofCode (BitVec.ofNat 4 (g.table.typeOf a.tensor))).bits * 2 ^ e) 8

/-- S_L in KiB. -/
def Game.footprint (g : Game) (b : Board) (l : Nat) : Nat :=
  let n := total ((b.pair l).flatMap fun x => (g.table.accessesOf x).map (g.accessBytes b x))
  (b.lot l).spbud + ceilDiv ((g.variantOf b l).nbuf * n) 1024

/-- The share of one core in a slot mode: threads, granules and extended blocks (R311). -/
def shareOf (m : Nat) : Nat × Nat × Nat := if m = 0 then (1024, 56, 16) else (1024 / m / 32 * 32, 56 / m, 16 / m)

/-- Whether a lot's footprint fits its share. -/
def Game.fits (g : Game) (b : Board) (l : Nat) : Bool :=
  let (th, gr, bl) := shareOf (b.mode (b.lot l).pitch)
  let s := g.footprint b l
  decide (g.table.maxthr ≤ th) && decide (ceilDiv s 8 ≤ gr) && decide (s ≤ 448) &&
    decide (ceilDiv g.table.maxthr 32 * (b.lot l).xbud ≤ bl)

/-! ### The seven invariants (R459) -/

/-- The position of a lot in the play order. -/
def Board.pos (b : Board) (l : Nat) : Nat := b.order.findIdx (· == l)

/-- Invariant 4 for one lot. -/
def Game.inv4 (g : Game) (b : Board) (l : Nat) : Bool :=
  let r := g.table.lot l
  let v := g.variantOf b l
  let s := b.lot l
  ((List.range r.ndim).all fun d => decide ((v.tmin[d]?).getD 0 ≤ s.log2 d) && decide (s.log2 d ≤ ceilLog2 (g.table.ext l d))) &&
    ((g.table.accessesOf l).all fun a => v.types.testBit (g.table.typeOf a.tensor)) &&
    decide (v.xreq ≤ s.xbud) && decide (v.spmin ≤ s.spbud) &&
    (!v.fused || (s.role == 1 && s.partner == v.fcon)) &&
    (v.k != 0 || (g.footprint b l == 0 && s.xbud == 0))

/-- Invariant 5 for one lot. -/
def Game.inv5 (g : Game) (b : Board) (l : Nat) : Bool :=
  let s := b.lot l
  let c := s.partner
  let k := b.lot c
  if s.role = 2 then k.role == 1 && k.partner == l
  else if s.role = 1 then
    let v := g.variantOf b l
    let n := (g.table.lot l).ndim
    k.role == 2 && k.partner == l && (g.table.edges.any fun e => e.prod == l && e.cons == c) && v.fused && v.fcon == c &&
      s.pitch == k.pitch && (g.table.lot c).ndim == n && (g.table.lot c).ext.take n == (g.table.lot l).ext.take n &&
      s.tiles.take n == k.tiles.take n && b.pos c == b.pos l + 1 && k.reassoc.isNone
  else true

/-- Invariant 7 for one lot. -/
def Game.inv7 (g : Game) (b : Board) (l : Nat) : Bool :=
  match (b.lot l).reassoc with
  | none => true
  | some (r, parts) =>
    let p := 2 ^ parts
    (g.table.lot l).rdims.testBit r && decide (2 ≤ p) && (b.lot l).pitch.cores g.dev % p == 0 &&
      decide (p ≤ ceilDiv (g.table.ext l r) (2 ^ (b.lot l).log2 r))

/-- Whether the partition touches a die. -/
def touches (pfirst pcount d : Nat) : Bool := decide (pfirst < (d + 1) * 128) && decide (d * 128 < pfirst + pcount)

/-- The lowest invariant that a board breaks, or 0. -/
def Game.broken (g : Game) (b : Board) : Nat :=
  let ls := List.range g.table.lots.length
  let ps := b.pitches
  if ps.any fun p => p.count == 0 then 1
  else if !(ls.all (g.fits b)) || (ps.any fun p => ps.any fun q => p.meets q g.dev && b.mode p != b.mode q) then 2
  else if g.table.edges.any fun e => decide (b.pos e.cons ≤ b.pos e.prod) then 3
  else if !(ls.all (g.inv4 b)) then 4
  else if !(ls.all (g.inv5 b)) then 5
  else if !(ps.all fun p => p.inside g.dev g.pfirst g.pcount) || !(b.homes.all fun h => h == 7 || touches g.pfirst g.pcount h) then 6
  else if !(ls.all (g.inv7 b)) then 7
  else 0

/-! ### Moves (R462 to R464) -/

/-- The kind of a move. -/
def moveKind (m : Nat) : Nat := bitsAt m 60 4
/-- Its lot, or tensor. -/
def moveLot (m : Nat) : Nat := bitsAt m 48 12

/-- Whether a move is well formed (R462). -/
def Game.wellFormed (g : Game) (m : Nat) : Bool :=
  let l := moveLot m
  let r := g.table.lot l
  let n := g.table.lots.length
  let f (lo w : Nat) : Nat := bitsAt m lo w
  match moveKind m with
  | 0x1 => decide (l < n) && decide (f 45 3 < r.ndim) && f 0 40 == 0
  | 0x2 => decide (l < n) && decide (2 ≤ f 45 3) && f 0 15 == 0
  | 0x3 => decide (l < g.table.tensors.length) && (decide (f 45 3 < 4) || f 45 3 == 7) && f 0 45 == 0
  | 0x4 => decide (l < n) && decide (f 36 12 < n) && f 36 12 != l && f 0 36 == 0
  | 0x5 => decide (l < n) && decide (f 40 8 ≤ r.nvm1) && f 0 40 == 0
  | 0x6 => decide (l < n) && decide (f 40 8 ≤ 1) && decide (f 24 16 ≤ 448) && f 0 24 == 0
  | 0x7 => decide (l < n) && (if m.testBit 47 then decide (1 ≤ f 40 7) && decide (f 40 7 ≤ 16) else f 40 7 == 0) && f 0 40 == 0
  | 0x8 => decide (l < n) && decide (f 36 12 < n) && f 36 12 != l && f 0 36 == 0
  | 0x9 => decide (l < n) && f 0 48 == 0
  | 0xA => decide (l < n) && (if m.testBit 47 then decide (f 44 3 < r.ndim) else f 40 7 == 0) && f 0 40 == 0
  | _ => false

/-- The effect of PITCH. -/
def Game.repitch (g : Game) (b : Board) (l : Nat) (p : Pitch) : Board :=
  let used := b.pitches
  let m := if used.contains p then b.mode p else ((used.find? fun q => q.meets p g.dev).map b.mode).getD 0
  (b.upd l fun s => { s with pitch := p }).setMode p m

/-- The effect of ORDER: none when the lots do not share a pitch. -/
def Board.reorder (b : Board) (l other : Nat) : Option Board :=
  if (b.lot l).pitch = (b.lot other).pitch then
    some { b with order := (b.order.filter (· != l)).flatMap fun x => if x = other then [l, x] else [x] }
  else none

/-- The effect of FUSE: none when no variant of the lot is fused with the consumer. -/
def Game.fuse (g : Game) (b : Board) (l c : Nat) : Option Board :=
  match (List.range ((g.table.lot l).nvm1 + 1)).find? fun v => (g.table.variant l v).fused && (g.table.variant l v).fcon == c with
  | none => none
  | some v => some ((b.upd l fun s => { s with role := 1, partner := c, variant := v }).upd c fun s => { s with role := 2, partner := l })

/-- The effect of UNFUSE. -/
def Board.unfuse (b : Board) (l : Nat) : Board :=
  if (b.lot l).role = 1 then
    (b.upd (b.lot l).partner fun s => { s with role := 0, partner := 0 }).upd l fun s => { s with role := 0, partner := 0, variant := 0 }
  else b

/-- The board after a well-formed move, or the invariant that the move itself reports (R462). -/
def Game.after (g : Game) (b : Board) (m : Nat) : Except Nat Board :=
  let l := moveLot m
  let f (lo w : Nat) : Nat := bitsAt m lo w
  match moveKind m with
  | 0x1 => .ok (b.upd l fun s => { s with tiles := s.tiles.set (f 45 3) (f 40 5) })
  | 0x2 => .ok (g.repitch b l ⟨f 45 3, f 30 15, f 15 15⟩)
  | 0x3 => .ok { b with homes := b.homes.set l (f 45 3) }
  | 0x4 => match b.reorder l (f 36 12) with | some b => .ok b | none => .error 3
  | 0x5 => .ok (b.upd l fun s => { s with variant := f 40 8 })
  | 0x6 => .ok (b.upd l fun s => { s with xbud := f 40 8, spbud := f 24 16 })
  | 0x7 => .ok (b.setMode (b.lot l).pitch (f 40 7))
  | 0x8 => match g.fuse b l (f 36 12) with | some b => .ok b | none => .error 5
  | 0x9 => .ok (b.unfuse l)
  | _ => .ok (b.upd l fun s => { s with reassoc := if m.testBit 47 then some (f 44 3, f 40 4) else none })

/-- A result: status and detail (R463, R469). -/
structure Judged where
  status : Nat
  detail : Nat := 0
  deriving DecidableEq, Repr

/-- The mask of a player class (R465). -/
def Game.mask (g : Game) (cls : Nat) : Nat := (g.perms[cls]?).getD 0

/-- Judge a move for a class against a version, if one is given (R463); the board after it when it is accepted. -/
def Game.judge (g : Game) (cls : Nat) (stale : Bool) (m : Nat) : Judged × Board :=
  if !g.wellFormed m then (⟨2, 0⟩, g.board)
  else if !(g.mask cls).testBit (moveKind m) then (⟨4, 0⟩, g.board)
  else if stale then (⟨3, 0⟩, g.board)
  else
    match g.after g.board m with
    | .error i => (⟨1, i⟩, g.board)
    | .ok b => if g.broken b = 0 then (⟨0, 0⟩, b) else (⟨1, g.broken b⟩, g.board)

/-- Apply an accepted move (R464, R489): the undo stack keeps 1,024 entries and the history 65,536. -/
def Game.accept (g : Game) (m : Nat) (b : Board) : Game :=
  { g with
    board := b
    undo := (g.board :: g.undo).take 1024
    hist := if g.hist.length < 65536 then m :: g.hist else g.hist
    histOk := g.histOk && decide (g.hist.length < 65536) }

/-- Judge a move and apply it when accepted. -/
def Game.play (g : Game) (cls : Nat) (stale : Bool) (m : Nat) : Judged × Game :=
  match g.judge cls stale m with
  | (⟨0, _⟩, b) => (⟨0, 0⟩, g.accept m b)
  | (j, _) => (j, g)

/-- Undo the last accepted move (R464, R489). -/
def Game.undone (g : Game) : Option Game :=
  match g.undo with
  | [] => none
  | b :: r => some { g with board := b, undo := r, hist := g.hist.tail }

/-- A new game on a table: the canonical state (R458, R471). -/
def newGame (t : LotTable) (cal perms : List Nat) (pfirst pcount dev : Nat) : Game :=
  { table := t, board := canonicalBoard t pfirst pcount, cal := cal, perms := perms, pfirst := pfirst, pcount := pcount, dev := dev }

/-- The canonical state of a game under its own bounds. -/
def Game.restart (g : Game) : Game := newGame g.table g.cal g.perms g.pfirst g.pcount g.dev

/-! ### The score (R466, R467) -/

/-- n_d of a lot. -/
def Game.tilesAlong (g : Game) (b : Board) (l d : Nat) : Nat := ceilDiv (g.table.ext l d) (2 ^ (b.lot l).log2 d)

/-- The number of tiles of a lot (R455). -/
def Game.tileCount (g : Game) (b : Board) (l : Nat) : Nat := product ((List.range (g.table.lot l).ndim).map (g.tilesAlong b l))

/-- time(L) with a calibration value; of a fusion producer, the pair's (R466). -/
def Game.timeWith (g : Game) (b : Board) (l cal : Nat) : Nat :=
  let s := b.lot l
  let tiles := g.tileCount b l
  let tile := 2 ^ total ((List.range (g.table.lot l).ndim).map s.log2)
  let w := total ((b.pair l).map fun x => (g.table.lot x).work)
  let comp := ceilDiv (w * tile) (g.variantOf b l).rate
  let skip (a : AccessRec) : Bool := s.role == 1 && g.table.edges.any fun e => e.prod == l && e.cons == s.partner && e.tensor == a.tensor
  let width (a : AccessRec) : Nat :=
    let h := (b.homes[a.tensor]?).getD 7
    if h ≠ 7 ∧ s.pitch.die g.dev = some h then 64 else 16
  let mem := total ((b.pair l).flatMap fun x =>
    ((g.table.accessesOf x).filter fun a => !skip a).map fun a => ceilDiv (g.accessBytes b x a) (width a))
  let c := s.pitch.cores g.dev
  let (waves, extra) := match s.reassoc with
    | some (r, parts) =>
      let p := 2 ^ parts
      let n := g.tilesAlong b l r
      (ceilDiv (ceilDiv n p * (tiles / n)) (c / p), 128 * p)
    | none => (ceilDiv tiles c, 0)
  min ((waves * max comp mem + 256 + extra) * cal / 256) (2 ^ 64 - 2)

/-- time(L) under the game's snapshot; of a fusion consumer, the pair's (R466, R476). -/
def Game.time (g : Game) (b : Board) (l : Nat) : Nat :=
  let l := if (b.lot l).role = 2 then (b.lot l).partner else l
  g.timeWith b l ((g.cal[l]?).getD 256)

/-- One step of the list schedule: finish times of cores and start and finish of lots so far. -/
def Game.schedStep (g : Game) (b : Board) (a : FMap Nat × FMap (Nat × Nat)) (l : Nat) : FMap Nat × FMap (Nat × Nat) :=
  let s := b.lot l
  if s.role = 2 then a
  else
    let (lo, hi) := s.pitch.span g.dev
    let cores := (List.range (hi - lo)).map (lo + ·)
    let s0 := (cores.map fun c => a.1.getD c 0).foldl max 0
    let st := g.table.edges.foldl (fun (st : Nat) e =>
      if e.prod ≠ l ∧ (b.pair l).contains e.cons then
        max st ((a.2.getD e.prod (0, 0)).2 + if (b.lot e.prod).pitch ≠ s.pitch then 512 else 0)
      else st) s0
    let fin := min (st + g.time b l) (2 ^ 64 - 2)
    (cores.foldl (fun (m : FMap Nat) c => m.put c fin) a.1, (b.pair l).foldl (fun (m : FMap (Nat × Nat)) x => m.put x (st, fin)) a.2)

/-- Start and finish of every lot (R467). -/
def Game.schedule (g : Game) (b : Board) : FMap (Nat × Nat) := (b.order.foldl (g.schedStep b) (FMap.empty, FMap.empty)).2

/-- The score of a board (R467). -/
def Game.score (g : Game) (b : Board) : Nat := ((g.schedule b).vals.map Prod.snd).foldl max 0

/-! ### The legal moves in ascending order (R472) -/

/-- The operands of the well-formed moves of a kind and a lot that may pass the invariants, ascending. A TILE below TMIN or above the extent, a PITCH outside the partition and a REASSOC along a dimension not in RDIMS break invariant 1, 4, 6 or 7. -/
def Game.candidates (g : Game) (kind l : Nat) : List Nat :=
  let r := g.table.lot l
  let at_ (lo : Nat) (x : Nat) : Nat := x * 2 ^ lo
  match kind with
  | 0x1 => (List.range r.ndim).flatMap fun d => (List.range 32).map fun t => at_ 45 d + at_ 40 t
  | 0x2 => ([2, 3, 4, 5, 6].flatMap fun b =>
      let u := benchUnit b
      let top := (g.pfirst + g.pcount) / u
      ((List.range top).filter fun f => decide (g.pfirst ≤ f * u)).flatMap fun f =>
        (List.range (top - f)).map fun c => at_ 45 b + at_ 30 f + at_ 15 (c + 1)) ++ [at_ 45 7 + at_ 30 g.dev + at_ 15 1]
  | 0x3 => [0, 1, 2, 3, 7].map (at_ 45)
  | 0x4 | 0x8 => (List.range g.table.lots.length).map (at_ 36)
  | 0x5 => (List.range (r.nvm1 + 1)).map (at_ 40)
  | 0x6 => [0, 1].flatMap fun e => (List.range 449).map fun k => at_ 40 e + at_ 24 k
  | 0x7 => 0 :: (List.range 16).map fun c => at_ 47 1 + at_ 40 (c + 1)
  | 0x9 => [0]
  | _ => 0 :: ((List.range r.ndim).filter fun d => r.rdims.testBit d).flatMap fun d => (List.range 16).map fun p => at_ 47 1 + at_ 44 d + at_ 40 p

/-- Take the first n of a list that pass a test. -/
def takePassing (f : Nat → Bool) : Nat → List Nat → List Nat
  | 0, _ => []
  | _, [] => []
  | n + 1, m :: r => if f m then m :: takePassing f n r else takePassing f (n + 1) r

/-- Whether a move passes checks 3 and 5 of R463. -/
def Game.legal (g : Game) (cls m : Nat) : Bool := (g.judge cls false m).1.status == 0

/-- At most n legal moves of a class among some (kind, lot) pairs, ascending. -/
def Game.legalFrom (g : Game) (cls : Nat) (ok : Nat → Bool) : Nat → List (Nat × Nat) → List Nat
  | _, [] => []
  | n, (k, l) :: r =>
    if n = 0 then []
    else
      let ms := takePassing (fun m => ok m && g.legal cls m) n ((g.candidates k l).map fun x => k * 2 ^ 60 + l * 2 ^ 48 + x)
      ms ++ g.legalFrom cls ok (n - ms.length) r

/-- The (kind, lot) pairs of well-formed moves, ascending. -/
def Game.heads (g : Game) : List (Nat × Nat) :=
  (List.range 10).flatMap fun k => (List.range (if k = 2 then g.table.tensors.length else g.table.lots.length)).map fun l => (k + 1, l)

/-- The first n legal moves of a class that pass a test, ascending. -/
def Game.legalMoves (g : Game) (cls n : Nat) (ok : Nat → Bool) : List Nat := g.legalFrom cls ok n g.heads

/-! ### The default player (R485) -/

/-- The sample of one step: at most CAP legal moves from CURSOR, wrapping. -/
def Game.sample (g : Game) (cap cursor : Nat) : List Nat :=
  let up := g.legalMoves 0 cap fun m => decide (cursor ≤ m)
  up ++ g.legalMoves 0 (cap - up.length) fun m => decide (m < cursor)

/-- The first move of the lowest score below a bound, with its score. -/
def Game.best (g : Game) (cur : Nat) (l : List Nat) : Option (Nat × Nat) :=
  l.foldl (fun (a : Option (Nat × Nat)) m =>
    let sc := g.score (g.judge 0 false m).2
    if sc < (a.map Prod.snd).getD cur then some (m, sc) else a) none

/-- Run the default player: the game reached, the number of moves applied and the last CURSOR. Fuel is the BUDGET left. -/
def Game.run (g : Game) (cap : Nat) : Nat → Nat → Nat → Game × Nat × Nat
  | 0, applied, cursor => (g, applied, cursor)
  | fuel + 1, applied, cursor =>
    let l := g.sample cap cursor
    match l.getLast? with
    | none => (g, applied, cursor)
    | some last =>
      let cursor := (last + 1) % 2 ^ 64
      let cur := g.score g.board
      match g.best cur l with
      | none => (g, applied, cursor)
      | some (m, bs) =>
        if 64 * (cur - bs) < cur then (g, applied, cursor)
        else Game.run { g with board := (g.judge 0 false m).2 } cap fuel (applied + 1) cursor

/-! ### Move lists and plan records (R486, R487, R491) -/

/-- The HASH and COUNT of a portable move list's header, unless it is malformed (R486). -/
def listHead (b : List Byte) : Option (Nat × Nat) :=
  let x := numAt b 0 32
  let n := bitsAt x 128 32
  if bitsAt x 0 32 ≠ 0x4C4D_585A ∨ bitsAt x 32 16 ≠ 1 ∨ bitsAt x 48 16 ≠ 0 ∨ bitsAt x 160 96 ≠ 0 ∨ 65536 < n then none
  else some (bitsAt x 64 64, n)

/-- CALEN, AUTO and TOTAL of a plan record's header, unless it is malformed (R487). -/
def recordHead (b : List Byte) : Option (Bool × Bool × Nat) :=
  let x := numAt b 0 64
  if bitsAt x 0 32 ≠ 0x5250_585A ∨ bitsAt x 32 16 ≠ 1 ∨ bitsAt x 50 14 ≠ 0 ∨ bitsAt x 224 288 ≠ 0 then none
  else some (x.testBit 48, x.testBit 49, bitsAt x 192 32)

/-- The plan record of a game (R487, R491). -/
def Game.record (g : Game) (version : Nat) (calen auto : Bool) : List Byte :=
  let n := g.hist.length
  bytesOf 4 0x5250_585A ++ bytesOf 2 1 ++ bytesOf 2 ((if calen then 1 else 0) + if auto then 2 else 0) ++ bytesOf 8 (g.score g.board) ++
    bytesOf 8 version ++ bytesOf 4 (96 + 8 * n) ++ bytesOf 36 0 ++
    bytesOf 4 0x4C4D_585A ++ bytesOf 2 1 ++ bytesOf 2 0 ++ bytesOf 8 g.table.hash ++ bytesOf 4 n ++ bytesOf 12 0 ++
    g.hist.reverse.flatMap (bytesOf 8)

/-! ### Views (R476) -/

/-- View 1: a lot. -/
def Game.lotView (g : Game) (l : Nat) : Nat :=
  let b := g.board
  let s := b.lot l
  let (st, fin) := (g.schedule b).getD l (0, 0)
  let re := match s.reassoc with | some (d, p) => 1 + d * 2 + p * 16 | none => 0
  (List.range 8).foldl (fun (n : Nat) d => n + s.log2 d * 2 ^ (5 * d)) 0 + s.pitch.bench * 2 ^ 40 + s.pitch.first * 2 ^ 48 +
    s.pitch.count * 2 ^ 64 + b.pos l * 2 ^ 80 + s.variant * 2 ^ 96 + s.xbud * 2 ^ 104 + s.spbud * 2 ^ 112 + s.partner * 2 ^ 128 +
    s.role * 2 ^ 140 + re * 2 ^ 144 + (g.cal[l]?).getD 0 * 2 ^ 160 + min (g.footprint b l) 65535 * 2 ^ 176 + g.time b l * 2 ^ 192 +
    st * 2 ^ 256 + fin * 2 ^ 320

/-- View 0: the whole Square. -/
def Game.globalView (g : Game) (version : Nat) : Nat :=
  version + g.table.lots.length * 2 ^ 64 + g.table.tensors.length * 2 ^ 80 + g.undo.length * 2 ^ 96 + g.board.pitches.length * 2 ^ 112 +
    g.mask 0 * 2 ^ 128 + g.mask 1 * 2 ^ 144 + g.mask 2 * 2 ^ 160 + g.pfirst * 2 ^ 176 + g.pcount * 2 ^ 192 + g.broken g.board * 2 ^ 208 +
    g.score g.board * 2 ^ 256 + g.table.hash * 2 ^ 320

/-- View 3: a pitch. -/
def Game.pitchView (g : Game) (i : Nat) : Nat :=
  let p := (g.board.pitches[i]?).getD ⟨0, 0, 0⟩
  let m := g.board.mode p
  p.bench + p.first * 2 ^ 4 + p.count * 2 ^ 20 + (if m = 0 then 0 else 2 ^ 36) + m * 2 ^ 40 +
    (g.board.lots.filter fun s => s.pitch == p).length % 2 ^ 12 * 2 ^ 48

/-- The number of indices of a view. -/
def Game.viewSize (g : Game) (view : Nat) : Nat :=
  match view with
  | 0 => 1
  | 1 => g.table.lots.length
  | 2 => g.table.tensors.length
  | _ => g.board.pitches.length

/-- A view as a 512-bit value. -/
def Game.view (g : Game) (version view i : Nat) : Nat :=
  match view with
  | 0 => g.globalView version
  | 1 => g.lotView i
  | 2 => (g.board.homes[i]?).getD 0
  | _ => g.pitchView i

end Sys2Proof.Machine
end

