-- ==== Sys2Proof/Machine/Crews.lean ====
section
/-!
DEFINITION. Crews from their queue to their end: what fits a core, gathering, the drain of granules, the first issue, stealing, continuations, shelving and the end of a crew (R60 to R62, R147, R148, R218, R270 to R273, R277, R278, R283, R284, R311).
-/
namespace Sys2Proof.Machine

/-! ### What a core has free (R56, R217, R218, R311) -/

/-- Whether a crew holds its crew slot. -/
def Crew.resident (c : Crew) : Bool := match c.phase with | .draining | .zeroed | .running | .saving => true | _ => false

/-- The crews resident on a core. -/
def State.residents (s : State) (core : Nat) : List (Nat × Crew) := s.crews.cells.filter fun p => p.2.core == core && p.2.resident

/-- The next free numbers below a bound, ascending; fuel is the bound's rest. -/
def freeNumbers (used : List Nat) : Nat → Nat → Nat → List Nat
  | 0, _, _ => []
  | fuel + 1, i, need =>
    if need = 0 then []
    else if used.contains i then freeNumbers used fuel (i + 1) need
    else i :: freeNumbers used fuel (i + 1) (need - 1)

/-- The lowest free thread slots of a core, as many as are asked for and available (R218). -/
def State.freeThreads (s : State) (core n : Nat) : List Nat :=
  freeNumbers ((s.threads.filter fun k _ => coreOf k == core).keys.map slotOf) 1024 0 n

/-- The lowest free group slots of a core (R218). -/
def State.freeGroups (s : State) (core n : Nat) : List Nat :=
  freeNumbers ((s.groups.filter fun k _ => k / 64 == core).keys.map (· % 64)) 32 0 n

/-- The lowest lent granules that no crew holds (R60). -/
def State.freeGranules (s : State) (core n : Nat) : List Nat := freeNumbers (s.core core).lentOut 56 0 n

/-- The crew slots of a core: 16, or one for each slot of slot mode (R217, R311). -/
def Core.crewSlots (c : Core) : Nat := if c.slots = 0 then 16 else c.slots

/-- A crew that keeps its handle, and so its crew slot, while it is queued again or saved (R277). -/
def Crew.keeps (c : Crew) : Bool := c.gen != 0 && (c.phase == .queued || c.phase == .saved)

/-- The free crew slots of a core; a gather set holds one (R273). -/
def State.freeCrewSlot (s : State) (core : Nat) : Option Nat :=
  let kept := (s.crews.cells.filter fun p => p.2.core == core && p.2.keeps).map (·.2.cslot)
  (freeNumbers ((((s.residents core).map (·.2.cslot)) ++ kept).eraseDups) (s.core core).crewSlots 0 1).head?

/-- A gathering crew (R273). -/
def Crew.gathers (c : Crew) : Bool := c.crec.k == 0 && c.cont.isNone

/-- Whether two crews belong to one gather set of a core (R273). -/
def Crew.sameSet (a b : Crew) : Bool := a.gathers && b.gathers && a.entry == b.entry && a.ctx == b.ctx

/-- The resident gather set that a crew joins. -/
def State.residentSet (s : State) (core : Nat) (c : Crew) : Option Crew := ((s.residents core).find? fun p => p.2.sameSet c).map Prod.snd

/-- The threads a crew starts: one for a continuation. -/
def Crew.starts (c : Crew) : Nat := if c.cont.isSome then 1 else c.cn

/-- Whether a number of threads fits beside what is resident, in thread, group and crew slots. -/
def State.fitsThreads (s : State) (core threads : Nat) (needSlot : Bool) : Bool :=
  (s.freeThreads core threads).length == threads && (s.freeGroups core ((threads + 31) / 32)).length == (threads + 31) / 32 &&
    (!needSlot || (s.freeCrewSlot core).isSome)

/-- The other core of a matrix pair (R422). -/
def mate (core : Nat) : Nat := if core % 2 = 0 then core + 1 else core - 1

/-- Whether a core is switched to a crew's context, or to none in particular (R324, R480). -/
def State.coreFor (s : State) (core : Nat) (c : Crew) : Bool := (s.core core).ctx == 0 || (s.core core).ctx == c.ctx

/-- The threads of a gather set on a core: the set counts as one crew in its slot (R273, R311). -/
def State.setThreads (s : State) (core : Nat) (c : Crew) : Nat :=
  if c.gathers then
    let ks := ((s.residents core).filter fun p => p.2.sameSet c).map Prod.fst
    (s.threads.filter fun k t => coreOf k == core && ks.contains t.crew).size
  else 0

/-- Whether a crew and its gather set stay within one share of a core, in the mode the core has now (R311, R312). -/
def State.inShare (s : State) (core threads : Nat) (c : Crew) : Bool := s.fitsShare core (s.setThreads core c + threads) c.crec

/-- Whether a crew may start on a core now; the two cores of a matrix pair hold crews of one context (R61, R218, R311, R480). -/
def State.fitsNow (s : State) (core : Nat) (c : Crew) : Bool :=
  s.inShare core c.starts c &&
  s.fitsThreads core c.starts (!c.keeps && (s.residentSet core c).isNone) && (s.freeGranules core c.crec.granules).length == c.crec.granules &&
    (s.residents core ++ s.residents (mate core)).all (fun q => q.2.ctx == c.ctx) && s.coreFor core c && s.coreFor (mate core) c

/-- Whether only a group slot is wanting (R284). -/
def State.lacksGroup (s : State) (core : Nat) (c : Crew) : Bool :=
  (s.freeThreads core c.starts).length == c.starts && ((s.residentSet core c).isSome || (s.freeCrewSlot core).isSome) &&
    (s.freeGranules core c.crec.granules).length == c.crec.granules && (s.freeGroups core ((c.starts + 31) / 32)).length != (c.starts + 31) / 32

/-! ### The source side of a spawn or steal edge (R147) -/

/-- Advance a queued crew's edge: the source core's writes are acknowledged, then its die's; a continuation's die writes through only for a thief of another die. -/
def State.advanceEdge (s : State) (k : Nat) (c : Crew) : State :=
  let far := c.cont.isNone || dieOf c.core != dieOf c.home
  if c.edge = 1 ∧ s.coreQuiet c.home (2 ^ 64) then
    if far then (s.dieWriteThrough (dieOf c.home)).updCrew k fun c => { c with edge := 2 } else s.updCrew k fun c => { c with edge := 0 }
  else if c.edge = 2 ∧ s.dieQuiet (dieOf c.home) then s.updCrew k fun c => { c with edge := 0 }
  else s

/-- Advance the edges of every queued crew in a list. -/
def State.advanceEdges (s : State) (l : List Nat) : State :=
  l.foldl (fun (s : State) (k : Nat) => match s.crews.get? k with | some c => if c.phase = .queued then s.advanceEdge k c else s | none => s) s

/-- Whether a queued crew may start as far as its edge is concerned. -/
def State.edgeDone (s : State) (k : Nat) : Bool := ((s.crews.get? k).map fun c => c.edge == 0).getD false

/-! ### DISPATCH_CREW_START (R218, R270, R273, R311) -/

/-- The leading elements that fit together, as a test of the list so far says. -/
def takeFitting {α : Type} (ok : List α → Bool) : List α → List α → List α
  | a, [] => a
  | a, x :: r => if ok (a ++ [x]) then takeFitting ok (a ++ [x]) r else a

/-- Leave a dispatcher's queue; the skip count is the head crew's own (R311). -/
def Core.unqueue (c : Core) (k : Nat) : Core :=
  let c := if c.queue.head? = some k then { c with skip := 0, skipped := false } else c
  { c with queue := c.queue.filter (· != k) }

/-- The crews started with a crew at the head of a choice: itself, or those of its gather set that follow it in the queue, in queue order, while they fit: a crew starts whole (R218, R273). -/
def State.batch (s : State) (core k : Nat) (c : Crew) : List (Nat × Crew) :=
  if !c.gathers then [(k, c)]
  else
    let rest := ((s.core core).queue.dropWhile (· != k)).filterMap fun j => (s.crews.get? j).map fun x => (j, x)
    let need := !c.keeps && (s.residentSet core c).isNone
    takeFitting (fun a =>
      let n := a.foldl (fun n q => n + q.2.cn) 0
      s.fitsThreads core n need && s.inShare core n c) [] (rest.filter fun p => p.2.sameSet c && p.2.edge == 0)

/-- The sink side of a spawn or launch edge at the core where a crew starts (R147): the fetch path drops the code of the ASID (R135, R136, log 134). -/
def State.sinkSide (s : State) (core : Nat) (c : Crew) : State :=
  let asid := ((s.ctx? c.ctx).map (·.asid)).getD 0
  let s := s.updCore core fun x => { x with fetch := x.fetch.filter fun k _ => k / 2 ^ 51 != asid }
  if c.spawner then
    let s := if c.home = core then s else s.softInvalidate core
    if dieOf c.home = dieOf core then s else s.selfInvalidate (dieOf core)
  else
    match s.fw.launches.get? c.launch with
    | some l =>
      if l.started.contains (c.lot * 512 + core) then s
      else
        let s := s.updFw fun w => { w with launches := w.launches.adjust c.launch fun l => { l with started := l.started ++ [c.lot * 512 + core] } }
        (s.softInvalidate core).selfInvalidate (dieOf core)
    | none => s

/-- The next generation of a crew slot (R277). -/
def Core.nextGen (c : Core) (slot : Nat) : Nat := let g := c.gens.getD slot 0; if g = 2 ^ 18 - 1 then 1 else g + 1

/-- A thread as a crew's start sets it (R270). -/
def newThread (k : Nat) (c : Crew) (core slot group lane tix : Nat) : Thread :=
  let t : Thread := { crew := k, group := group, lane := lane, tix := tix, pc := c.entry }
  t.setPair 0 (tlsOf (core * 1024 + slot) + 0x440)

/-- Put the threads of a batch into slots and groups, in order, from a position of the batch on. -/
def State.placeThreads (s : State) (core : Nat) (slots groups : List Nat) : List ((Nat × Crew) × Nat) → Nat → State
  | [], _ => s
  | (p, tix) :: r, i =>
    let slot := (slots[i]?).getD 0
    let g := (groups[i / 32]?).getD 0
    let s := { s with threads := s.threads.put (core * 1024 + slot) (newThread p.1 p.2 core slot g (i % 32) tix) }
    let s := if i % 32 = 0 then { s with groups := s.groups.put (gkey core g) { crew := p.1, gix := i / 32 } } else s
    s.placeThreads core slots groups r (i + 1)

/-- Give a crew of a batch its crew slot, generation and granules, and start its drain (R60, R277). -/
def State.letIn (s : State) (core cslot gset : Nat) (p : Nat × Crew) : State :=
  let gs := s.freeGranules core p.2.crec.granules
  let gen := (s.core core).nextGen cslot
  let again := p.2.gen != 0
  let s := s.updCore core fun x =>
    { x.unqueue p.1 with lentOut := x.lentOut ++ gs, gens := if again then x.gens else x.gens.put cslot gen }
  let s := s.updCrew p.1 fun c =>
    { c with core := core, cslot := if again then c.cslot else cslot, gen := if again then c.gen else gen, gset := gset, granules := gs, released := false,
             phase := .draining, live := c.starts, cores := if c.cores.contains core then c.cores else c.cores ++ [core] }
  s.post (.crewLaunchDrain p.1)

/-- A context that gets its first resident crew on a core is switched onto it: MEN is 1 there when MOWN names it, else 0 (R325). -/
def State.enableFor (s : State) (core ctx : Nat) : State :=
  if (s.residents core).any fun p => p.2.ctx == ctx then s
  else s.updCore core fun c => { c with men := if c.mown = ctx then [ctx] else c.men.filter (· != ctx) }

/-- Start a crew, with its gather set's batch (R218, R273). A continuation takes its slots when it resumes. -/
def State.startCrew (s : State) (core k : Nat) (c : Crew) : State :=
  let l := s.batch core k c
  let joined := s.residentSet core c
  let cslot := match joined with | some x => x.cslot | none => if c.keeps then c.cslot else (s.freeCrewSlot core).getD 0
  let gset := match joined with | some x => x.gset | none => k
  let s := s.enableFor core c.ctx
  if c.cont.isSome then
    ((s.updCore core (Core.unqueue · k)).updCrew k fun c =>
      { c with cslot := cslot, gset := gset, phase := .draining, core := core, cores := [core] }).post (.continuationResume core k)
  else
    let total := l.foldl (fun n p => n + p.2.cn) 0
    let slots := s.freeThreads core total
    let groups := s.freeGroups core ((total + 31) / 32)
    let s := l.foldl (fun (s : State) (p : Nat × Crew) => (s.sinkSide core p.2).letIn core cslot gset p) s
    s.placeThreads core slots groups (l.flatMap fun p => (List.range p.2.cn).map fun i => (p, i)) 0

/-- The queued crew that the dispatcher starts: the head alone in slot mode or once the age limit is reached, else the first that fits (R311). -/
def State.nextCrew (s : State) (core : Nat) : Option (Nat × Crew) :=
  let c := s.core core
  let q := (c.queue.filterMap fun k => (s.crews.get? k).map fun x => (k, x)).filter fun p => s.coreFor core p.2
  let ok (p : Nat × Crew) : Bool := p.2.edge == 0 && s.fitsNow core p.2
  if c.slots ≠ 0 ∨ c.skipped ∨ c.ageLimit ≤ c.skip then (match q with | p :: _ => if ok p then some p else none | [] => none)
  else q.find? ok

/-- Count a pass over the head crew; the age limit is reached at its count (R311). -/
def State.countSkip (s : State) (core k : Nat) : State :=
  let c := s.core core
  if c.queue.head? = some k then s.updCore core fun c => { c with skip := 0, skipped := false }
  else
    let s := s.updCore core fun c => { c with skip := c.skip + 1 }
    if c.ageLimit ≤ c.skip + 1 then s.post (.skipAgeLimitReached core) else s

/-- Whether a queued crew wants only a group slot while every group slot holds a shelvable group (R284). -/
def State.mustShelve (s : State) (core : Nat) : Bool :=
  ((s.core core).queue.any fun k => match s.crews.get? k with | some c => c.edge == 0 && s.lacksGroup core c | none => false) &&
    (List.range 32).all fun g => s.groups.has (gkey core g) && s.shelvable core g

/-- DISPATCH_CREW_START: shelved groups that can issue return first, then the next crew that fits starts; a core that can start none may steal, and may shelve (R272, R284, R311). -/
def State.dispatch (s : State) (core : Nat) : State :=
  let s := (s.wakeShelved core).advanceEdges (s.core core).queue
  match (if (s.returning core).isEmpty then s.nextCrew core else none) with
  | some (k, c) =>
    let s := (s.countSkip core k).startCrew core k c
    if (s.core core).queue.isEmpty then s else s.postOnce (.dispatchCrewStart core)
  | none =>
    let s := s.postOnce (.crewSteal core)
    if s.mustShelve core then s.postOnce (.shelveGroup core) else s

/-- DISPATCH_CREW_START. -/
def execDispatchCrewStart (core : Nat) (s : State) : Out := .next (s.dispatch core)

/-- SKIP_AGE_LIMIT_REACHED: until the head crew, whose count this is, has started, no other crew does (R311). -/
def execSkipAgeLimitReached (core : Nat) (s : State) : Out :=
  .next (s.updCore core fun c => { c with skipped := c.skipped || decide (c.ageLimit ≤ c.skip) })

/-- Whether the ageing interval of a crew's context has passed on the clock of the core where it is queued; the clock of a gated core stands still (R271). -/
def State.agePassed (s : State) (c : Crew) : Bool :=
  (s.core c.core).gated || decide (((s.ctx? c.ctx).map (·.ageing)).getD 8192 ≤ ((s.core c.core).clk + 2 ^ 64 - c.enq) % 2 ^ 64)

/-- AFFINITY_AGEING_EXPIRY: a crew still queued becomes stealable once its ageing interval has passed (R271). -/
def execAffinityAgeingExpiry (crew : Nat) (s : State) : Out :=
  .next (match s.crews.get? crew with
    | none => s
    | some c =>
      if c.phase != .queued then s
      else if s.agePassed c then s.updCrew crew fun c => { c with aged := true }
      else s.post (.affinityAgeingExpiry crew))

/-! ### The drain and the first issue (R60) -/

/-- The bytes of granules of a core's scratchpad read as zero (R60 step 4). -/
def State.zeroGranules (s : State) (core : Nat) (gs : List Nat) : State :=
  s.updMem fun m => { m with scratch := m.scratch.filter fun k _ => !(k / 2 ^ 19 == core && gs.contains (k % 2 ^ 19 / 8192)) }

/-- CREW_LAUNCH_DRAIN: the chosen ways are withdrawn and swept, and the granules zeroed (R60 steps 1 to 4). -/
def execCrewLaunchDrain (crew : Nat) (s : State) : Out :=
  .next (match s.crews.get? crew with
    | none => s
    | some c =>
      if c.phase != .draining then s
      else
        -- a grant that came before this one is drained first: `channel` keeps the order of one core's drains (R61)
        let ways := (s.core c.core).l1.cells.filter fun p => c.granules.contains p.2.way
        let s := ways.foldl (fun s p => s.evictL1 c.core p.1) s
        let s := s.zeroGranules c.core c.granules
        (s.updCrew crew fun c => { c with phase := .zeroed }).post (.crewFirstIssueGrant crew))

/-- The threads of a crew. -/
def State.threadsOf (s : State) (crew : Nat) : List (Nat × Thread) := s.threads.cells.filter fun p => p.2.crew == crew

/-- Translate the argument blocks of threads; none while one has no translation (R270). -/
def State.argPlaces (s : State) (core asid : Nat) : List Nat → State × Option (List (Nat × Mode))
  | [] => (s, some [])
  | k :: r =>
    match s.translate core asid (tlsOf k + 0x440) .store with
    | (s, .hit ga mode _) =>
      match s.argPlaces core asid r with
      | (s, some l) => (s, some ((ga, mode) :: l))
      | (s, none) => (s, none)
    | (s, _) => (s, none)

/-- The 128-byte lines of a thread-local block (R24). -/
def tlsLines (tid : Nat) : List Nat := (List.range 128).map fun i => tlsOf tid + 128 * i

/-- Whether the lines of a thread's block that are mapped are quiet. -/
def State.tlsQuiet (s : State) (core asid tid : Nat) : Bool :=
  (s.core core).inflight.isEmpty && (tlsLines tid).all fun va =>
    match (s.translate core asid va .load).2 with | .hit ga _ _ => s.quietLine (lineNo ga) | _ => true

/-- Take the host's copies of the mapped lines of a thread's block back (R114). -/
def State.callTls (s : State) (core asid tid : Nat) : State :=
  (tlsLines tid).foldl (fun (s : State) va => match (s.translate core asid va .load).2 with | .hit ga _ _ => s.callHost (lineNo ga) | _ => s) s

/-- The threads of saved crews of a context that stood in slots of a core now taken, and whose blocks still lie there (R323). -/
def State.savedIn (s : State) (core ctx : Nat) (slots : List Nat) : List (Nat × Nat) :=
  s.threads.keys.filterMap fun n =>
    let k := n / 1024 - 512
    match s.crews.get? k with
    | some c =>
      if 512 ≤ n / 1024 ∧ c.core = core ∧ c.ctx = ctx ∧ slots.contains (n % 1024) ∧ !c.saveTls.has (n % 1024 * 128) then some (k, n % 1024) else none
    | none => none

/-- Copy one line of a saved thread's block out. -/
def State.keepLine (core asid crew slot : Nat) (s : State) (i : Nat) : State :=
  match s.translate core asid (tlsOf (core * 1024 + slot) + 128 * i) .load with
  | (s, .hit ga _ _) =>
    let s := (s.bringOwn core (lineNo ga)).settle (lineNo ga) false
    s.updCrew crew fun c => { c with saveTls := c.saveTls.put (slot * 128 + i) (s.lineBytes (lineNo ga)) }
  | (s, _) => s

/-- Firmware keeps the blocks of saved threads whose slots a starting crew takes, so that a save changes no value (R323); false while a line is in use. One crew's own blocks are left out. -/
def State.keepBlocks (s : State) (core ctx asid but : Nat) (slots : List Nat) : State × Bool :=
  let l := (s.savedIn core ctx slots).filter fun p => p.1 != but
  if l.all fun p => s.tlsQuiet core asid (core * 1024 + p.2) then
    (l.foldl (fun (s : State) p => (List.range 128).foldl (State.keepLine core asid p.1 p.2) s) s, true)
  else (l.foldl (fun (s : State) p => s.callTls core asid (core * 1024 + p.2)) s, false)

/-- The key of the frame that a crew reports to. -/
def State.crewFrame (s : State) (c : Crew) : Option (Nat × FrameRec) :=
  let k := frameKey (((s.ctx? c.ctx).map (·.asid)).getD 0) c.frm.toNat
  (s.fw.frames.get? k).map fun f => (k, f)

/-- A frame's record of the cores on which its children have run gains a core (R147). -/
def State.frameRan (s : State) (key core : Nat) : State :=
  s.updFw fun w => { w with frames := w.frames.adjust key fun f => { f with cores := if f.cores.contains core then f.cores else f.cores ++ [core] } }

/-- The frame of a child crew learns of its start: CREW, and the die (R270, R276). -/
def State.frameStarted (s : State) (c : Crew) (key ga : Nat) : State :=
  let st := s.memNat (ga + 8) 4
  (s.frameRan key c.core).frameWrite ga (withOff 8 (bytesOf 4 (Nat.lor st (2 ^ (4 + dieOf c.core)))) ++ withOff 20 (bytesOf 4 c.handle))

/-- Write a crew's argument records to its threads' blocks (R270). -/
def State.writeArgs (s : State) (core : Nat) (c : Crew) (ts : List (Nat × Thread)) (places : List (Nat × Mode)) : State :=
  (ts.zip places).foldl (fun (s : State) x =>
    let b := (c.args[x.1.2.tix]?).getD ((c.args.head?).getD [])
    let line := lineNo x.2.1
    ((s.flushOwn core line).settle line true).engineStore core line x.2.2 (withOff (x.2.1 % 128) b)) s

/-- Whether the word at a line's slot 0 is REGION.B (R319). -/
def regionAtEntry (b : List Byte) : Bool :=
  match decode (BitVec.ofNat 96 (lineSlot b 0)) with
  | .ok (.regionB _) => true
  | _ => false

/-- A launch records when the first crew of a lot is granted, by the clock of its pitch's first core (R482). -/
def State.markGrant (s : State) (c : Crew) : State :=
  if c.spawner || c.cont.isSome then s
  else
    let clk (l : Launch) : Nat := (s.core ((l.game.board.lot c.lot).pitch.span l.game.dev).1).clk
    let mark (l : Launch) : Launch := if l.begun.has c.lot then l else { l with begun := l.begun.put c.lot (clk l) }
    s.updFw fun w => { w with launches := w.launches.adjust c.launch mark }

/-- CREW_FIRST_ISSUE_GRANT: every write-back of the sweeps is acknowledged, the entry line is fetched, the argument records and the frame are written; the crew runs, discardable when it starts with REGION.B (R60, R270, R319). -/
def State.firstIssue (s : State) (k : Nat) (c : Crew) : State :=
  let core := c.core
  let asid := ((s.ctx? c.ctx).map (·.asid)).getD 0
  let again (s : State) : State := s.post (.crewFirstIssueGrant k)
  if !(s.core core).inflight.isEmpty then again s
  else
    match s.fetched core asid c.entry.toNat with
    | none => again (s.askFetch core asid c.entry.toNat)
    | some e =>
      let ts := s.threadsOf k
      match s.argPlaces core asid (ts.map Prod.fst) with
      | (s, none) => again s
      | (s, some places) =>
        let fr := if c.spawner then s.crewFrame c else none
        let lines := places.map (fun x => lineNo x.1) ++ (match fr with | some (_, f) => [lineNo f.ga] | none => [])
        let (s, kept) := s.keepBlocks core c.ctx asid 0 (ts.map fun p => slotOf p.1)
        if !kept || lines.any fun l => !s.quietLine l true then again (lines.foldl (fun (s : State) l => s.callHost l true) s)
        else
          let s := match fr with | some (key, f) => s.frameStarted c key f.ga | none => s
          let s := s.writeArgs core c ts places
          let disc := match e with | .line b => regionAtEntry b | .fault _ _ => false
          (s.markGrant c).updCrew k fun c => { c with phase := .running, discard := disc && !c.remote, coords := [], codes := 0, retired := 0 }

/-- CREW_FIRST_ISSUE_GRANT. -/
def execCrewFirstIssueGrant (crew : Nat) (s : State) : Out :=
  .next (match s.crews.get? crew with
    | some c => if c.phase = .zeroed then s.firstIssue crew c else s
    | none => s)

/-- Whether an engine operation of a crew has not ended. -/
def State.opsOpen (s : State) (crew : Nat) : Bool := s.ops.any fun _ o => o.crew == crew && o.phase != .ended

/-- GRANULE_RELEASE: the granules of a crew whose threads have all ended return to L1 once its engine operations have (R62). -/
def execGranuleRelease (crew : Nat) (s : State) : Out :=
  .next (match s.crews.get? crew with
    | none => s
    | some c =>
      if c.live ≠ 0 ∨ c.released then s
      else if s.opsOpen crew then s.post (.granuleRelease crew)
      else
        let s := s.updCore c.core fun x => { x with lentOut := x.lentOut.filter fun g => !c.granules.contains g }
        (s.updCrew crew fun c => { c with released := true, granules := [] }).postOnce (.dispatchCrewStart c.core))

/-! ### Stealing (R272) -/

/-- Whether a queued crew may be stolen (R271, R272, R284). -/
def State.stealable (s : State) (c : Crew) : Bool :=
  let full := (s.groups.filter fun k _ => k / 64 == c.core && decide (32 ≤ k % 64)).size == 32
  c.edge == 0 && !c.nosteal && c.phase == .queued &&
    (match c.place with | .loc => false | .anyc => true | .aff => c.aged || full)

/-- The level at which a thief finds a victim's core: cluster, die, then the other dies ascending (R272). -/
def stealLevel (thief core : Nat) : Nat :=
  if clusterOf core = clusterOf thief then 0 else if dieOf core = dieOf thief then 1 else 2 + dieOf core

/-- The crew that a core would steal: the oldest of the first level where one exists, in its own context's partition and on a core whose share it could ever fit (R272, R311). -/
def State.stealChoice (s : State) (thief : Nat) : Option (Nat × Crew) :=
  let l := s.crews.cells.filter fun p =>
    p.2.core != thief && s.stealable p.2 && s.inPartition p.2.ctx thief && (s.core p.2.core).queue.contains p.1 &&
      s.fitsShare thief p.2.starts p.2.crec && s.coreFor thief p.2
  leastBy (fun p => stealLevel thief p.2.core * 2 ^ 64 + p.1) l

/-- The place whose line a continuation's frame lies in must be quiet before a steal of it writes the frame. -/
def State.contReady (s : State) (c : Crew) : Bool :=
  match c.cont with
  | some (.mem ga, _) => s.quietLine (lineNo ga) true
  | _ => true

/-- A steal of a continuation sets its frame's current parent core, and from then on the victim's core writes back (R147, R148). -/
def State.moveParent (s : State) (thief : Nat) (c : Crew) : State :=
  match c.cont with
  | some (p, _) => (s.frameStore p (withOff 8 (bytesOf 4 (withBits (s.frameField p 8 4) 16 10 thief)))).sourceCore c.core
  | none => s

/-- CREW_STEAL: a core that can start none of its own crews takes the oldest stealable crew whole from a victim's queue, when it can start it now (R272, log 141); a continuation's frame learns of its new core, and its victim core writes back (R147, R148). -/
def execCrewSteal (core : Nat) (s : State) : Out :=
  .next (
    let s := s.advanceEdges s.crews.keys
    if (s.core core).gated || (s.nextCrew core).isSome then s
    else
      match s.stealChoice core with
      | none => s
      | some (k, c) =>
        if !s.fitsNow core c then s
        else if !s.contReady c then (match c.cont with | some (.mem ga, _) => s.callHost (lineNo ga) true | _ => s)
        else
        let s := s.updCore c.core (Core.unqueue · k)
        let s := s.updCrew k fun x => { x with core := core, nosteal := true, edge := if x.cont.isSome then 1 else 0 }
        let s := s.moveParent core c
        (s.updCore core fun x => { x with queue := x.queue ++ [k] }).postOnce (.dispatchCrewStart core))

/-! ### Continuations (R283) -/

/-- The registers of a resumed continuation: the saved ones, every other undefined (R283). -/
def resumedRegs (ctx free first : Nat) (saved : List Nat) : FMap RegVal :=
  ⟨(List.range 32).filterMap fun i =>
    let x : RegVal := if first ≤ i ∧ i < first + saved.length then .known (BitVec.ofNat 32 ((saved[i - first]?).getD 0)) else .known (Config.freeWord ctx (free + i))
    if x = .known 0 then none else some (i, x)⟩

/-- Undefined predicates (R283). -/
def freePreds (ctx free : Nat) : BitVec 7 :=
  BitVec.ofNat 7 ((List.range 7).foldl (fun n i => if Config.freeBit ctx (free + i) then n + 2 ^ i else n) 0)

/-- A frame awaited by a continuation is awaited by the thread that resumes it (R283). -/
def FrameRec.resumed (f : FrameRec) (cont tid : Nat) : FrameRec := if f.cont = some cont then { f with cont := none, owner := some tid } else f

/-- CONTINUATION_RESUME: the continuation becomes a thread of a slot of this core (R148, R283). -/
def State.resumeCont (s : State) (core k : Nat) (c : Crew) (p : Place) (tix : Nat) : State :=
  let again (s : State) : State := s.post (.continuationResume core k)
  let fr := s.crewFrame c
  let lines := (match p with | .mem ga => [lineNo ga] | _ => []) ++ (match fr with | some (_, f) => [lineNo f.ga] | none => [])
  match s.freeThreads core 1, s.freeGroups core 1 with
  | [slot], [g] =>
    let (s, kept) := s.keepBlocks core c.ctx (((s.ctx? c.ctx).map (·.asid)).getD 0) 0 [slot]
    if !kept || lines.any (fun l => !s.quietLine l true) then again (lines.foldl (fun (s : State) l => s.callHost l true) s)
    else
      let tid := core * 1024 + slot
      let info := s.frameField p 72 8
      let n := bitsAt info 2 3
      let first := bitsAt info 5 5
      let depth := bitsAt info 10 2
      let saved := (List.range n).map fun i => s.frameField p (80 + 4 * i) 4
      let stk := ((List.range depth).map fun i => BitVec.ofNat 64 (s.frameField p (104 + 8 * i) 8)).reverse
      let cpc := s.frameField p 64 8
      let s := if c.home = core then s else s.softInvalidate core
      let s := if dieOf c.home = dieOf core then s else s.selfInvalidate (dieOf core)
      let st := s.frameField p 8 4
      let st := Nat.lor (st % 2 ^ 16) 8 + core * 2 ^ 16
      let s := s.frameStore p (withOff 8 (bytesOf 4 st))
      let s := match fr with
        | some (key, f) => (s.frameRan key core).frameWrite (f.ga + 8) (withOff 0 (bytesOf 4 (Nat.lor (s.memNat (f.ga + 8) 4) (2 ^ (4 + dieOf core)))))
        | none => s
      let free := s.freeOf c.ctx
      let gen := (s.core core).nextGen c.cslot
      let t : Thread :=
        { crew := k, group := g, lane := 0, tix := tix, pc := BitVec.ofNat 64 cpc, regs := resumedRegs c.ctx free first saved,
          preds := freePreds c.ctx (free + 32), stack := stk, depth := depth }
      let s := { s.useFree c.ctx 64 with threads := s.threads.put tid t, groups := s.groups.put (gkey core g) { crew := k, gix := 0 } }
      let s := s.updCore core fun x => { x with gens := x.gens.put c.cslot gen }
      let s := s.updFw fun w => { w with frames := w.frames.map fun _ f => f.resumed k tid }
      s.updCrew k fun c => { c with phase := .running, live := 1, gen := gen, prio := info % 4 }
  | _, _ => again s

/-- CONTINUATION_RESUME. -/
def execContinuationResume (core cont : Nat) (s : State) : Out :=
  .next (match s.crews.get? cont with
    | some c =>
      match c.cont with
      | some (p, tix) => if c.phase = .draining ∧ c.core = core then s.resumeCont core cont c p tix else s
      | none => s
    | none => s)

/-! ### The end of a crew (R147, R169, R278) -/

/-- What the end of a crew must still reconcile against its frame's current parent core: the cores it ran on elsewhere, and their other dies (R147, R148). -/
def endSources (c : Crew) (pcore : Nat) : List Nat × List Nat :=
  let cs := c.cores.filter (· != pcore)
  (cs, ((cs.map dieOf).eraseDups).filter (· != dieOf pcore))

/-- Whether a launch may still enqueue crews. -/
def State.launchOpen (s : State) (l : Nat) : Bool := match s.fw.launches.get? l with | some x => !x.todo.isEmpty | none => false

/-- The codes of recorded matrix faults that a crew leaves behind (R425). -/
def State.leftCodes (s : State) (k : Nat) : Nat :=
  s.cores.cells.foldl (fun n p => match p.2.mfault with | some f => if f.crew = k then Nat.lor n (2 ^ f.code) else n | none => n) 0

/-- The frame after one of its crews has ended (R278). -/
def State.frameEnded (s : State) (c : Crew) (key : Nat) (f : FrameRec) : State :=
  let st := s.memNat (f.ga + 8) 4
  let outst := s.memNat (f.ga + 12) 4 - c.cn
  let fault := Nat.lor (s.memNat (f.ga + 24) 8) (c.codes % 2 ^ 21 / 2 * 2)
  let joins := outst = 0 ∧ !(f.launch && s.launchOpen c.launch)
  let st := (if joins then st / 4 * 4 + 2 else st)
  let st := if fault = 0 then st else Nat.lor st 256
  let s := s.updFw fun w => { w with frames := w.frames.adjust key fun f => { f with joined := f.joined || joins } }
  s.frameWrite f.ga (withOff 8 (bytesOf 4 st ++ bytesOf 4 outst) ++ withOff 24 (bytesOf 8 fault))

/-- Remove an ended crew: the threads that wait at its queues fault, its launch looks for what may follow. -/
def State.crewGone (s : State) (k : Nat) (c : Crew) : State :=
  let s := s.failWaiters k c.handle
  let s := { s with crews := s.crews.del k }
  let s := if c.offerer = 0 then s
    else (s.updCrew c.offerer fun x => { x with conts := x.conts - 1, cores := (x.cores ++ c.cores).eraseDups }).postOnce (.crewEnd c.offerer)
  let s := s.sweepFrames
  let s := match s.fw.launches.get? c.launch with
    | some l => (l.todo.foldl (fun (s : State) (i : Nat) => s.postOnce (.lotEnqueue c.launch i)) s).postOnce (.launchEnd c.launch)
    | none => s
  s.postOnce (.dispatchCrewStart c.core)

/-- CREW_END: after its threads, continuations and engine operations, and once its writes are performed, a crew reconciles and reports to its frame (R147, R169, R235, R278). -/
def State.endCrew (s : State) (k : Nat) (c : Crew) : State :=
  let again (s : State) : State := s.post (.crewEnd k)
  if c.phase != .finished || c.conts != 0 then s
  else if s.opsOpen k || !(c.released || c.granules.isEmpty) || c.cores.any (fun x => s.due.any (coreWriteOf x (2 ^ 64))) then again s
  else
    let left := s.leftCodes k
    let s := if left = 0 then s else s.updCrew (s.maskCrew k) fun c => { c with codes := Nat.lor c.codes left }
    let c := (s.crews.get? k).getD c
    match (if c.cont.isSome then none else s.crewFrame c) with
    | none => s.crewGone k c
    | some (key, f) =>
      let parent := bitsAt (s.memNat (f.ga + 8) 4) 16 10
      let (cs, ds) := endSources c parent
      if c.edge = 0 ∨ c.seen ≠ parent then
        again ((cs.foldl (fun s x => s.sourceCore x) s).updCrew k fun c => { c with edge := 1, seen := parent })
      else if c.edge = 1 then
        if cs.all fun x => s.coreQuiet x (2 ^ 64) then
          again ((ds.foldl (fun s d => s.dieWriteThrough d) s).updCrew k fun c => { c with edge := 2 })
        else again s
      else if !(ds.all fun d => s.dieQuiet d) then again s
      else if !s.quietLine (lineNo f.ga) true then again (s.callHost (lineNo f.ga) true)
      else (s.frameEnded c key f).crewGone k c

/-- CREW_END. With no such crew, only the frames whose spawners have ended since are freed (R278). -/
def execCrewEnd (crew : Nat) (s : State) : Out :=
  .next (match s.crews.get? crew with
    | some c => s.endCrew crew c
    | none => s.sweepFrames)

/-! ### Shelving (R284) -/

/-- Whether a thread has a load-bound pending register. -/
def State.loadBound (s : State) (t : Thread) : Bool :=
  t.regs.any fun _ r => match r.late? with | some l => !s.heldLate l | none => false

/-- Move a group of a core to another slot. -/
def State.moveGroup (s : State) (core a b : Nat) : State :=
  match s.groups.get? (gkey core a) with
  | none => s
  | some g =>
    let s := s.mapGroup core a fun _ t => { t with group := b }
    { s with groups := (s.groups.del (gkey core a)).put (gkey core b) g }

/-- SHELVE_GROUP: the group that became shelvable first goes to a free shelf, once its load-bound registers have arrived (R284). -/
def execShelveGroup (core : Nat) (s : State) : Out :=
  .next (if !s.mustShelve core then s
    else
      let gs := s.groups.cells.filter fun p => p.1 / 64 == core && decide (p.1 % 64 < 32)
      match leastBy (fun p => p.2.idle.getD (2 ^ 64)) gs with
      | none => s
      | some (k, _) =>
        let g := k % 64
        if (s.members core g).any fun t => ((s.threads.get? t).map s.loadBound).getD false then s.post (.shelveGroup core)
        else
          match (List.range 32).find? fun i => !s.groups.has (gkey core (32 + i)) with
          | some i => ((s.moveGroup core g (32 + i)).postOnce (.dispatchCrewStart core)).postOnce (.regxBlockGrant core)
          | none => s)

/-- UNSHELVE_GROUP: a shelved group returns to a group slot, with a block again when it held one (R284). -/
def execUnshelveGroup (core shelf : Nat) (s : State) : Out :=
  .next (match s.groups.get? (gkey core (32 + shelf)), s.freeGroups core 1 with
    | some g, [slot] =>
      if g.block && !s.blockFree core (32 + shelf) then s.post (.unshelveGroup core shelf) else s.moveGroup core (32 + shelf) slot
    | some _, _ => s.post (.unshelveGroup core shelf)
    | none, _ => s)

end Sys2Proof.Machine
end

