-- ==== Sys2Proof/Machine/Region.lean ====
section
/-!
DEFINITION. The arithmetic of the matrix and region engines on the codes of their elements: MMA groups, MDRAIN, RFMA, RSCL, REXP, RRED, RCVT with its E2M1X blocks, and RNG (R339 to R346, R421, R429, R432, R433).
-/
namespace Sys2Proof

/-! ### MMA (R346, R421) -/

/-- The values of the 16 elements of a group's row or column, from its bytes (R340, R421). -/
def groupVals (t : Ty) (special : Nat) (b : List Nat) : List FVal :=
  match t with
  | .bf16 => (List.range 16).map fun k => bf16.value ((b[2 * k]?).getD 0 + 256 * (b[2 * k + 1]?).getD 0)
  | .e2m1x => (List.range 16).map fun k => e2m1Value special (bitsAt ((b[k / 2]?).getD 0) (4 * (k % 2)) 4)
  | t => (List.range 16).map fun k => t.ffmt.value ((b[k]?).getD 0)

/-- The bytes of a group of 16 elements (R420). -/
def groupBytes : Ty → Nat
  | .bf16 => 32
  | .e2m1x => 8
  | _ => 16

/-- The group sum, exact and then rounded once to FP32 (R346). -/
def groupSum (a b : List FVal) : Nat := fp32.round .rn false (exactSum .rn (List.zipWith FVal.mul a b))

/-- One step of accumulation (R346, R421). -/
def accStep (acc : Nat) (a b : List FVal) : Nat :=
  fp32.round .rn false (exactSum .rn [fp32.value acc, fp32.value (groupSum a b)])

/-! ### MDRAIN (R429) -/

/-- Dropout of an element: its draw is keyed by its coordinates. -/
def dropout (key keep row col a : Nat) : Nat :=
  if rng key ((row * 65536 + col) % 2 ^ 32) / 65536 < keep then
    fp32.round .rn false (((fp32.value a).scale 16).div (FVal.ofInt keep))
  else 0

/-- A drained element: the residual is added and the sum rounded to the output type. -/
def drained (ot : Ty) (res : Option (Ty × Nat)) (a : Nat) : Nat :=
  let a := match res with
    | some (rt, r) => fp32.round .rn false (exactSum .rn [fp32.value a, rt.ffmt.value r])
    | none => a
  ot.ffmt.round .rn false (fp32.value a)

/-! ### The region engine (R432) -/

/-- A region operation's settings: types, rounding, flushing, and whether the output is added (R430). -/
structure RegionSet where
  it   : Ty
  ot   : Ty
  mode : Rnd
  ftz  : Bool
  acc  : Bool
  deriving DecidableEq, Repr

/-- A value of the input type. -/
def RegionSet.inVal (r : RegionSet) (x : Nat) : FVal := r.it.ffmt.valueFtz r.ftz x
/-- A value of FP32. -/
def RegionSet.f32Val (r : RegionSet) (x : Nat) : FVal := fp32.valueFtz r.ftz x
/-- A result in the output type, rounded once. -/
def RegionSet.out (r : RegionSet) (v : FVal) : Nat := r.ot.ffmt.round r.mode r.ftz v

/-- RFMA: `s1` and `s2` say that b and c are FP32 scalars; o is the output's old element. -/
def RegionSet.fma (r : RegionSet) (s1 s2 : Bool) (a b c o : Nat) : Nat :=
  let p := (r.inVal a).mul (if s1 then r.f32Val b else r.inVal b)
  let q := if s2 then r.f32Val c else r.inVal c
  r.out (exactSum r.mode (p :: q :: (if r.acc then [r.f32Val o] else [])))

/-- RSCL: the block scales of a row and a column. -/
def RegionSet.scale (r : RegionSet) (a row col o : Nat) : Nat :=
  let v := if row = 0xFF ∨ col = 0xFF then FVal.nan else (r.f32Val a).scale ((row : Int) + col - 254)
  r.out (if r.acc then exactSum r.mode [v, r.f32Val o] else v)

/-- REXP: t is rounded to FP32, then its power is rounded as FEXP2 rounds it (R371). -/
def RegionSet.exp (r : RegionSet) (a b m : Nat) : Nat :=
  let t := fp32.round .rn r.ftz (exactSum .rn [(r.inVal a).mul (r.f32Val b), (r.f32Val m).neg])
  r.out (fp32.valueFtz r.ftz t).exp2

/-- RRED over one row, in ascending order (R245, R432). -/
def RegionSet.reduce (r : RegionSet) (sub : Nat) (l : List Nat) : Nat :=
  let f32 := r.it == .f32
  let fl (x : Nat) : Nat := if f32 then fp32.flush r.ftz x else x
  match l.map fl with
  | [] => 0
  | x :: y =>
    let v := y.foldl (fun acc e => fl (combine r.it sub acc e)) x
    if f32 && fp32.value v == .nan then fp32.nan else v

/-- RCVT of one element (R376, R433). -/
def RegionSet.conv (r : RegionSet) (a : Nat) : Nat := lowBits r.ot.bits (convTo r.ot 0 r.mode r.ftz (convValue r.it 0 r.ftz a))

/-- The generator at an element's index (R432). -/
def RegionSet.draw (r : RegionSet) (key ctr : Nat) : Nat := if r.ot = .f32 then rngF32 key ctr else rng key ctr

/-! ### Conversion to E2M1X (R433) -/

/-- The layout of E2M1 codes, for their rounding (R339). -/
def e2m1 : FFmt := ⟨2, 1, 1, false, 7, 7⟩

/-- The greater of two magnitudes. -/
def maxMag (a b : FVal) : FVal :=
  let m (v : FVal) : FVal := match v with | .fin _ m e => .fin false m e | v => v
  if (m a).lt (m b) then m b else m a

/-- The scale byte of a block whose values are finite. -/
def blockScale (l : List FVal) : Nat :=
  match l.foldl maxMag (.zero false) with
  | .fin _ m e => if m = 0 then 127 else (clampInt 0 254 (e + topBit m - 2 + 127)).toNat
  | _ => 127

/-- The code of a scaled value: the special's own, or the rounded one; a zero is never 0b1000. -/
def blockCode (mode : Rnd) (p : Nat) (v : FVal) : Nat :=
  let c := e2m1.round mode false v
  let exact := (e2m1Value 0x7F c).eqv v
  if !exact && (e4m3.value (p % 256)).eqv v then 8 else if c = 8 then 0 else c

/-- One block: its codes, its scale byte and its special byte. -/
def convBlock (mode : Rnd) (p : Nat) (l : List FVal) : List Nat × Nat × Nat :=
  if l.any fun v => match v with | .fin _ _ _ => false | _ => true then (l.map fun _ => 0, 0xFF, p % 256)
  else
    let s := blockScale l
    (l.map fun v => blockCode mode p (v.scale (127 - (s : Int))), s, p % 256)

/-- Pack codes two to a byte (R340). -/
def packNibbles : List Nat → List Nat
  | a :: b :: r => (a + 16 * b) :: packNibbles r
  | [a] => [a]
  | [] => []

/-- Split a list into blocks of 128; fuel bounds the blocks. -/
def blocks128 {α : Type} : Nat → List α → List (List α)
  | 0, _ => []
  | n + 1, l => l.take 128 :: blocks128 n (l.drop 128)

/-- The three planes of a converted region, in order (R433). -/
def convPlanes (mode : Rnd) (p : Nat) (l : List FVal) : List Nat :=
  let bs := (blocks128 (l.length / 128) l).map (convBlock mode p)
  packNibbles (bs.flatMap (·.1)) ++ bs.map (·.2.1) ++ bs.map (·.2.2)

end Sys2Proof
end

