-- ==== Sys2Proof/Machine/Engine.lean ====
section
/-!
DEFINITION. The matrix, region and copy engine instructions: their descriptors, their issue, the accumulator between contexts, and the work of each operation (R158 to R170, R325 to R327, R415 to R439).
-/
namespace Sys2Proof.Machine

/-! ### The accumulator tile (R421 to R423) -/

/-- An element of the ACC. -/
def Core.accAt (c : Core) (n : Nat) : Nat := (c.acc.getD n 0).toNat

/-- An ACC with every element given; zeros are unlisted. -/
def accOf (f : Nat → Nat) : FMap Word :=
  ⟨(List.range 1024).filterMap fun n => let x : Word := BitVec.ofNat 32 (f n); if x = 0 then none else some (n, x)⟩

/-- The cores whose ACC an operation works on (R168, R422). -/
def EngOp.accs (op : EngOp) : List Nat :=
  match op.kind with
  | .mma true => [op.core, op.core + 1]
  | .mma false | .mzero | .mload | .msave | .mdrain => [op.core]
  | _ => []

/-! ### Descriptor checks (R417 to R419) -/

/-- A check: whether it fails, WHY and the register it is about. -/
abbrev Chk := Bool × Nat × Nat

/-- The failed check of the lowest register, and of it the lowest WHY. -/
def firstBad (l : List Chk) : Option (Nat × Nat) :=
  (leastBy (fun p : Chk => p.2.2 * 16 + p.2.1) (l.filter fun p => p.1)).map Prod.snd

/-- MATRIX_DESCRIPTOR (R417). -/
def Flt.descr (why reg : Nat) : Flt := ⟨0x0F, why % 16 + reg % 64 * 16⟩

/-- The action of a completion control. -/
def compAction (w : Nat) : Nat := bitsAt w 20 2
/-- The width of a completion word. -/
def compWidth (w : Nat) : Nat := if w.testBit 19 then 8 else 4
/-- Its crew offset. -/
def compOff (w : Nat) : Nat := bitsAt w 0 19

/-- The checks of a completion control (R419). -/
def compChecks (size w reg : Nat) : List Chk :=
  let a := compAction w
  [ (bitsAt w 22 10 != 0 || a == 3 || (a == 0 && bitsAt w 0 20 != 0), 5, reg),
    (a != 0 && compOff w % compWidth w != 0, 3, reg),
    (a != 0 && decide (size < compOff w + compWidth w), 4, reg) ]

/-- The check of a register whose bits from 19 up are reserved. -/
def offReserved (x reg : Nat) : Chk := (x / 2 ^ 19 != 0, 5, reg)

/-- The check of a scratchpad range (R418). -/
def rangeCheck (size lo n reg : Nat) : Chk := (n != 0 && decide (size < lo + n), 4, reg)

/-- The check that a register is aligned. -/
def alignCheck (x n reg : Nat) : Chk := (x % n != 0, 3, reg)

/-- The crew offset of an own-window address (R22, R418). -/
def ownOff (va : Nat) : Option Nat := if ownBase ≤ va ∧ va < ownBase + 0x10_0000 then some (va - ownBase) else none

/-! ### Issue (R415, R417) -/

/-- What the descriptor checks come to: a fault, or the operation. -/
inductive EngPlan where
  | bad (why reg : Nat)
  | go (op : EngOp)

/-- A plan from its checks. -/
def planOf (l : List Chk) (op : EngOp) : EngPlan :=
  match firstBad l with
  | some (why, reg) => .bad why reg
  | none => .go op

/-- A new operation of an elected thread. -/
def State.newOp (s : State) (k : EngKind) (p : Nat × Thread) : EngOp :=
  { kind := k, core := coreOf p.1, crew := p.2.crew, ctx := s.ctxOf p.2, tid := p.1, tag := ((s.crewOf p.2).map (·.tag)).getD 0 }

/-- The size of an elected thread's crew's allocation. -/
def State.sizeOf (s : State) (t : Thread) : Nat := ((s.crewOf t).map (·.spadSize)).getD 0

/-- The words of a descriptor. -/
def State.descWords (s : State) (t : Thread) (o : Ops) : List Nat := (s.descOf t o).map fun x => (x.map (·.toNat)).getD 0

/-- The index of the descriptor's first register. -/
def descBase (o : Ops) : Nat := match o.sa with | .k n => n.toNat | _ => 0

/-- The two cores that an MMA.pair concerns: the matrix pair of the issuing core (R422). -/
def pairCores (core : Nat) : List Nat := [core / 2 * 2, core / 2 * 2 + 1]

/-- Raise MATRIX_FIRST_USE: each executing thread waits for firmware, which prepares every core concerned (R326). -/
def State.firstUse (s : State) (iss : Issue) (c : Opc) (cores : List Nat) (ex : List (Nat × Thread)) (flt : List (Nat × Flt)) : State :=
  let s := ex.foldl (fun (s : State) p => s.updThread p.1 fun t =>
    { t with status := .waiting (.firstUse cores), restore := some t.latches }) s
  let s := cores.foldl (fun (s : State) (k : Nat) => s.postOnce (.matrixFirstUse k)) s
  s.complete iss c [] flt

/-- The recorded fault of an ACC that an instruction names, raised as a user trap (R425). -/
def State.raiseRecorded (s : State) (iss : Issue) (c : Opc) (f : MFault) (ex : List (Nat × Thread)) (flt : List (Nat × Flt)) : State :=
  let s := ex.foldl (fun (s : State) p => s.takeTrap p.1 f.code iss.pc (BitVec.ofNat 64 f.tval) f.fwd) s
  s.complete iss c (ex.map Prod.fst) flt

/-- Change the operation of a number. -/
def State.updOp (s : State) (id : Nat) (f : EngOp → EngOp) : State := { s with ops := s.ops.adjust id f }

/-- Whether a kind sets MROW. -/
def EngKind.setsMrow : EngKind → Bool
  | .mma _ | .mload => true
  | _ => false

/-- Set MROW of an operation's elected thread, unless the thread has gone or was elected again since (R424). -/
def State.setMrow (s : State) (id : Nat) (op : EngOp) (rows : Nat) : State :=
  if s.ops.any fun k q => decide (id < k) && q.tid == op.tid && q.kind.setsMrow then s
  else s.updThread op.tid fun t =>
    if t.crew = op.crew then { t with trap := { t.trap with mrow := BitVec.ofNat 64 (rows + if op.kind = .mload then 256 else 0) } } else t

/-- Fork an operation: its scoreboard entry, its place on each ACC, and its start (R159, R166, R168). -/
def State.fork (s : State) (op : EngOp) : State :=
  let (s, id) := s.draw
  let s := { s with ops := s.ops.put id op }
  let s := if op.kind = .cpy then s.useFree op.ctx (2 * op.pay) else s
  let s := s.updCore op.core fun c => { c with sboard := c.sboard ++ [id] }
  let s := op.accs.foldl (fun (s : State) (k : Nat) => s.updCore k fun c => { c with macc := c.macc ++ [id] }) s
  let s := if op.kind = .mzero ∨ op.kind = .mload then s.updCore op.core fun c => { c with mfault := none } else s
  let s := if op.kind.setsMrow then s.setMrow id op 0 else s
  s.post (.engineOperationStart id)

/-- The first recorded fault of some ACCs. -/
def State.recorded (s : State) (cores : List Nat) : Option MFault := cores.findSome? fun k => (s.core k).mfault

/-- An MMA, which does not issue while a matrix array is not yet enabled (R510). -/
def EngKind.isMma : EngKind → Bool
  | .mma _ => true
  | _ => false

/-- Whether all 32 entries of a core's scoreboard are occupied (R166). -/
def State.boardFull (s : State) (core : Nat) : Bool := decide (32 ≤ (s.core core).sboard.length)

/-- An instruction that a full scoreboard blocks: nothing is issued, and the group's latches are lost (R167). -/
def State.blockBoard (s : State) (iss : Issue) : State := (s.stall iss).clearLatches iss.core iss.group

/-- The common course of an engine instruction (R417). `accs` are the ACCs it needs enabled, `rec` those whose recorded fault stops it. -/
def State.runEngine (s : State) (c : Opc) (o : Ops) (accs recs : Nat → List Nat) (plan : Issue → Nat × Thread → EngPlan) : State :=
  match s.prep c o with
  | .idle => s
  | .wait iss => s.stall iss
  | .go iss ex flt =>
    match ex with
    | [] => s.complete iss c [] flt
    | p :: _ =>
      let ctx := s.ctxOf p.2
      if p.2.held then s.stall iss
      else if !((accs iss.core).all fun k => (s.core k).men.contains ctx) then s.firstUse iss c (accs iss.core) ex flt
      else
        match s.recorded (recs iss.core) with
        | some f => s.raiseRecorded iss c f ex flt
        | none =>
          match plan iss p with
          | .bad why reg => s.complete iss c [] (flt ++ ex.map fun q => (q.1, .descr why reg))
          | .go op =>
            if op.kind.isMma && !(op.accs.all fun k => (s.core k).marray) then s.stall iss
            else if s.boardFull iss.core then s.blockBoard iss
            else (s.fork op).complete iss c [] flt

/-- No ACC. -/
def noAcc (_ : Nat) : List Nat := []
/-- The issuing core's ACC. -/
def ownAcc (core : Nat) : List Nat := [core]

/-! ### MMA (R420 to R422) -/

/-- The element type code of a descriptor field. -/
def codeTy (x : Nat) : Ty := Ty.ofCode (BitVec.ofNat 4 x)

/-- Whether two formats may be multiplied, and with which depth (R420). -/
def mmaFormats (a b : Ty) : Bool :=
  (a == .bf16 && b == .bf16) || ([Ty.e4m3, .e5m2].contains a && [Ty.e4m3, .e5m2].contains b) || (a == .e2m1x && b == .e2m1x)

/-- The bytes of K elements of a format. -/
def mmaRowBytes (t : Ty) (k : Nat) : Nat := match t with | .bf16 => 2 * k | .e2m1x => k / 2 | _ => k

/-- An own-window operand's interval: its elements and, for E2M1X, its special bytes (R420). -/
def mmaRange (o stride n k : Nat) (t : Ty) (spo : Int) : Int × Int :=
  let hi : Int := (o + (n - 1) * stride + mmaRowBytes t k : Nat)
  if t = .e2m1x then (min (o : Int) (o + spo), max hi (o + spo + n)) else ((o : Int), hi)

/-- The checks of an operand's address, and its scoreboard range. -/
def mmaOperand (size va stride n k : Nat) (t : Ty) (spo : Int) (reg : Nat) : List Chk × List Range :=
  let base : List Chk := [alignCheck va 16 reg, (decide (2 ^ 56 ≤ va) && (ownOff va).isNone, 7, reg)]
  match ownOff va with
  | some o =>
    let (lo, hi) := mmaRange o stride n k t spo
    (base ++ [(decide (lo < 0) || decide ((size : Int) < hi), 4, reg)], [⟨lo.toNat, hi.toNat⟩])
  | none => (base, [])

/-- The plan of an MMA. -/
def State.mmaPlan (s : State) (pair : Bool) (o : Ops) (iss : Issue) (p : Nat × Thread) : EngPlan :=
  let d := descBase o
  let w := s.descWords p.2 o
  let x (j : Nat) : Nat := (w[j]?).getD 0
  let size := s.sizeOf p.2
  let fa := codeTy (bitsAt (x 6) 0 4)
  let fb := codeTy (bitsAt (x 6) 4 4)
  let k := bitsAt (x 6) 8 8
  let spo := toSigned 32 (x 7)
  let a := mmaOperand size (x 0 + 2 ^ 32 * x 1) (x 4) 32 k fa spo d
  let b := mmaOperand size (x 2 + 2 ^ 32 * x 3) (x 5) (if pair then 64 else 32) k fb spo (d + 2)
  let deep := fa == .e2m1x && fb == .e2m1x
  planOf ([(pair && iss.core % 2 == 1, 6, d)] ++ a.1 ++ b.1 ++
    [ alignCheck (x 4) 16 (d + 4), alignCheck (x 5) 16 (d + 5), (!mmaFormats fa fb, 1, d + 6),
      (mmaFormats fa fb && (if deep then k != 128 else k % 16 != 0 || decide (k < 16) || decide (128 < k)), 2, d + 6),
      (bitsAt (x 6) 16 16 != 0, 5, d + 6), (!deep && x 7 != 0, 5, d + 7) ])
    { s.newOp (.mma pair) p with desc := w, reads := a.2 ++ b.2 }

/-- MMA.solo (R421). -/
def execMmaSolo (o : Ops) (s : State) : Out := .next (s.runEngine .mmaSolo o ownAcc ownAcc (s.mmaPlan false o))

/-- MMA.pair (R422). -/
def execMmaPair (o : Ops) (s : State) : Out := .next (s.runEngine .mmaPair o pairCores pairCores (s.mmaPlan true o))

/-! ### MZERO, MLOAD, MSAVE, MSTAT (R426, R427) -/

/-- MZERO (R426). -/
def execMzero (o : Ops) (s : State) : Out := .next (s.runEngine .mzero o ownAcc noAcc fun _ p => .go (s.newOp .mzero p))

/-- The checks of a 4 KiB accumulator image's address, and its scoreboard range (R426). -/
def accImage (size ea : Nat) : List Chk × List Range :=
  let base : List Chk := [alignCheck ea 128 0, (ea / 2 ^ 52 == 31 && (ownOff ea).isNone, 7, 0)]
  match ownOff ea with
  | some o => (base ++ [rangeCheck size o 4096 0], [⟨o, o + 4096⟩])
  | none => (base, [])

/-- MLOAD (R426). -/
def execMload (o : Ops) (s : State) : Out :=
  .next (s.runEngine .mload o ownAcc noAcc fun iss p =>
    let ea := eaOf o (s.vals iss .mload o p.1 p.2).1
    let a := accImage (s.sizeOf p.2) ea
    planOf a.1 { s.newOp .mload p with ea := ea, reads := a.2 })

/-- MSAVE (R426). -/
def execMsave (o : Ops) (s : State) : Out :=
  .next (s.runEngine .msave o ownAcc ownAcc fun iss p =>
    let v := s.vals iss .msave o p.1 p.2
    let ea := eaOf o v.1
    let size := s.sizeOf p.2
    let a := accImage size ea
    let reg := match o.sb with | .k n => n.toNat | _ => 0
    let w := if o.aux.getLsbD 1 then lowBits 32 v.2.1 else 0
    planOf (a.1 ++ compChecks size w reg)
      { s.newOp .msave p with ea := ea, write := a.2.head?, comp := w, setv := 1, pay := 4096 })

/-- The status word of MSTAT (R427). -/
def State.mstat (s : State) (core : Nat) : Nat :=
  let c := s.core core
  let busy := if c.macc.isEmpty then 0 else 1
  let slaved := if c.macc.any (fun k => match s.ops.get? k with | some q => q.core != core | none => false) then 4 else 0
  match c.mfault with
  | some f => busy + 2 + slaved + f.code % 256 * 2 ^ 8 + f.krows % 256 * 2 ^ 16
  | none => busy + slaved

/-- MSTAT: known at once (R427). -/
def execMstat (o : Ops) (s : State) : Out :=
  .next (match s.prep .mstat o with
    | .idle => s
    | .wait iss => s.stall iss
    | .go iss ex flt =>
      match ex with
      | [] => s.complete iss .mstat [] flt
      | p :: _ =>
        if !(s.core iss.core).men.contains (s.ctxOf p.2) then s.firstUse iss .mstat [iss.core] ex flt
        else
          let x := if o.aux.getLsbD 0 then (((s.core iss.core).mfault).map (·.tval)).getD 0 else s.mstat iss.core
          (ex.foldl (fun (s : State) q => s.updThread q.1 fun t => t.putDst true o.dst x) s).complete iss .mstat [] flt)

/-! ### MDRAIN (R428) -/

/-- A floating-point type that MDRAIN and most region operations accept. -/
def isFloat (t : Ty) : Bool := [Ty.f32, .f16, .bf16].contains t

/-- The plan of an MDRAIN. -/
def State.mdrainPlan (s : State) (o : Ops) (p : Nat × Thread) : EngPlan :=
  let d := descBase o
  let w := s.descWords p.2 o
  let x (j : Nat) : Nat := (w[j]?).getD 0
  let size := s.sizeOf p.2
  let resen := (x 3).testBit 0
  let drop := (x 3).testBit 1
  let ot := codeTy (bitsAt (x 3) 4 4)
  let rt := codeTy (bitsAt (x 3) 8 4)
  let osz := ot.bits / 8
  let rsz := rt.bits / 8
  let dstr := bitsAt (x 2) 0 16
  let rstr := bitsAt (x 2) 16 16
  let olen := 31 * dstr * 16 + 32 * osz
  let rlen := 31 * rstr * 16 + 32 * rsz
  planOf ([
      offReserved (x 0) d, (isFloat ot && x 0 % osz != 0, 3, d), (isFloat ot && decide (size < x 0 % 2 ^ 19 + olen), 4, d),
      offReserved (x 1) (d + 1), (!resen && x 1 != 0, 5, d + 1), (resen && isFloat rt && x 1 % rsz != 0, 3, d + 1),
      (resen && isFloat rt && decide (size < x 1 % 2 ^ 19 + rlen), 4, d + 1),
      (dstr == 0 || (resen && rstr == 0), 2, d + 2), (!resen && rstr != 0, 5, d + 2),
      (!isFloat ot || (resen && !isFloat rt), 1, d + 3),
      (bitsAt (x 3) 12 20 != 0 || (x 3).testBit 3 || (!resen && bitsAt (x 3) 8 4 != 0), 5, d + 3),
      (x 4 / 2 ^ 17 != 0 || (!drop && x 4 != 0), 5, d + 4), (drop && (bitsAt (x 4) 0 17 == 0 || decide (65536 < bitsAt (x 4) 0 17)), 2, d + 4),
      (!drop && x 5 != 0, 5, d + 5), (!drop && x 6 != 0, 5, d + 6) ] ++ compChecks size (x 7) (d + 7))
    { s.newOp .mdrain p with desc := w, write := some ⟨x 0, x 0 + olen⟩, reads := if resen then [⟨x 1, x 1 + rlen⟩] else [],
                             comp := x 7, setv := 1, pay := 1024 * osz }

/-- MDRAIN (R428, R429). -/
def execMdrain (o : Ops) (s : State) : Out := .next (s.runEngine .mdrain o ownAcc ownAcc fun _ p => s.mdrainPlan o p)

/-! ### The region descriptor (R430, R431) -/

/-- How an operation uses an input: not at all, as a scalar, or as a region of n elements of e bytes. -/
inductive Use where
  | unused
  | scalar
  | region (n e : Nat)
  deriving DecidableEq, Repr

/-- The bytes of a region; 0 for another use. -/
def Use.bytes : Use → Nat
  | .region n e => n * e
  | _ => 0

/-- What a region operation reads: IN0, IN1 and IN2 (R431). -/
def regionUses (k : EngKind) (rows cols isz : Nat) (s1 s2 rs : Bool) : Use × Use × Use :=
  let n := rows * cols
  match k with
  | .rfma => (.region n isz, if s1 then .scalar else .region n isz, if s2 then .scalar else .region n isz)
  | .rscl => (.region n 4, .region rows 1, .region cols 1)
  | .rred => (.region n isz, .unused, .unused)
  | .rexp => (.region n isz, .scalar, if s2 then .scalar else .region rows 4)
  | .rcvt => (.region n isz, .unused, if rs then .scalar else .unused)
  | _ => (.unused, .scalar, .scalar)

/-- The types that a region operation accepts, as input and output (R431). -/
def regionTypes (k : EngKind) (it ot : Ty) : Bool :=
  match k with
  | .rfma | .rexp => isFloat it && isFloat ot
  | .rscl => it == .f32 && ot == .f32
  | .rred => [Ty.f32, .i32, .n32].contains it && ot == it
  | .rcvt => it != .none && it != .e2m1x && it != .q64 && ot != .none && ot != .q64
  | _ => it == .none && (ot == .n32 || ot == .f32)

/-- The largest rounding code that a region operation accepts (R431). -/
def regionRnd (k : EngKind) : Nat :=
  match k with
  | .rred | .rng => 0
  | .rcvt => 4
  | _ => 3

/-- The checks of an input register. -/
def inputChecks (size x reg : Nat) : Use → List Chk
  | .unused => [(x != 0, 5, reg)]
  | .scalar => []
  | .region n e => [offReserved x reg, alignCheck x e reg, rangeCheck size (x % 2 ^ 19) (n * e) reg]

/-- The scoreboard range of an input. -/
def inputRange (x : Nat) : Use → List Range
  | .region n e => [⟨x, x + n * e⟩]
  | _ => []

/-- The bytes that a region operation writes (R433, R431). -/
def regionOut (k : EngKind) (rows cols : Nat) (ot : Ty) : Nat :=
  let n := rows * cols
  if ot = .e2m1x then n / 2 + n / 64 else if k = .rred then rows * (ot.bits / 8) else n * (ot.bits / 8)

/-- The size of an output element in bytes. -/
def outSize (ot : Ty) : Nat := if ot = .e2m1x then 1 else max 1 (ot.bits / 8)

/-- The plan of a region operation. -/
def State.regionPlan (s : State) (k : EngKind) (o : Ops) (p : Nat × Thread) : EngPlan :=
  let d := descBase o
  let w := s.descWords p.2 o
  let x (j : Nat) : Nat := (w[j]?).getD 0
  let size := s.sizeOf p.2
  let cols := bitsAt (x 4) 0 16
  let rows := bitsAt (x 4) 16 16
  let it := codeTy (bitsAt (x 5) 0 4)
  let ot := codeTy (bitsAt (x 5) 4 4)
  let rnd := bitsAt (x 5) 8 3
  let ftz := (x 5).testBit 11
  let s1 := (x 5).testBit 12
  let s2 := (x 5).testBit 13
  let acc := (x 5).testBit 14
  let sub := bitsAt (x 5) 15 3
  let typed := regionTypes k it ot
  let (u0, u1, u2) := regionUses k rows cols (max 1 (it.bits / 8)) s1 s2 (rnd == 4 || ot == .e2m1x)
  let out := regionOut k rows cols ot
  let ins := if typed then inputChecks size (x 1) (d + 1) u0 ++ inputChecks size (x 2) (d + 2) u1 ++ inputChecks size (x 3) (d + 3) u2 else []
  planOf ([
      offReserved (x 0) d, (typed && x 0 % outSize ot != 0, 3, d), (typed && decide (size < x 0 % 2 ^ 19 + out), 4, d),
      (rows == 0 || cols == 0, 2, d + 4), (ot == .e2m1x && cols % 128 != 0, 2, d + 4),
      (!typed || (acc && ot != .f32) || (k == .rred && (decide (5 < sub) || !groupRedOk it sub)), 1, d + 5),
      (decide (regionRnd k < rnd) || (rnd == 4 && ot == .e2m1x), 2, d + 5),
      (bitsAt (x 5) 18 14 != 0 || s1 != (u1 == .scalar) || s2 != (u2 == .scalar) || (sub != 0 && k != .rred) ||
        (acc && k != .rfma && k != .rscl) || (ftz && (k == .rng || (k == .rred && it != .f32))), 5, d + 5),
      (x 7 != 0 && compAction (x 6) != 1, 5, d + 7) ] ++ ins ++ compChecks size (x 6) (d + 6))
    { s.newOp k p with desc := w, write := some ⟨x 0, x 0 + out⟩, reads := inputRange (x 1) u0 ++ inputRange (x 2) u1 ++ inputRange (x 3) u2,
                       comp := x 6, setv := x 7, pay := out }

/-- RFMA (R432). -/
def execRfma (o : Ops) (s : State) : Out := .next (s.runEngine .rfma o noAcc noAcc fun _ p => s.regionPlan .rfma o p)
/-- RSCL (R432). -/
def execRscl (o : Ops) (s : State) : Out := .next (s.runEngine .rscl o noAcc noAcc fun _ p => s.regionPlan .rscl o p)
/-- RRED (R432). -/
def execRred (o : Ops) (s : State) : Out := .next (s.runEngine .rred o noAcc noAcc fun _ p => s.regionPlan .rred o p)
/-- REXP (R432). -/
def execRexp (o : Ops) (s : State) : Out := .next (s.runEngine .rexp o noAcc noAcc fun _ p => s.regionPlan .rexp o p)
/-- RCVT (R433). -/
def execRcvt (o : Ops) (s : State) : Out := .next (s.runEngine .rcvt o noAcc noAcc fun _ p => s.regionPlan .rcvt o p)
/-- RNG, engine form (R432). -/
def execRngEngine (o : Ops) (s : State) : Out := .next (s.runEngine .rngEngine o noAcc noAcc fun _ p => s.regionPlan .rng o p)

/-- RNG, register form: no engine operation (R438). -/
def execRngRegister (o : Ops) (s : State) : Out :=
  .next (s.runPlain .rngRegister o fun s' iss ex => ex.foldl (fun (s' : State) p =>
    let v := s.vals iss .rngRegister o p.1 p.2
    s'.updThread p.1 fun t => t.putDst false o.dst (if o.ty = .f32 then rngF32 v.1 v.2.1 else rng v.1 v.2.1)) s')

/-! ### CPY (R434 to R436) -/

/-- The dimension table: its entries as extent, reserved word and stride (R435). -/
def State.dimTable (s : State) (c : Crew) (off n : Nat) : List (Nat × Nat × Int) :=
  (List.range n).map fun m =>
    let rd (at_ k : Nat) : Nat := s.spadNat c.core (c.spadOff (off + 16 * m + at_)) k
    (rd 0 4, rd 4 4, toSigned 64 (rd 8 8))

/-- The plan of a CPY. The extents multiply only once the table has passed its own range check. -/
def State.cpyPlan (s : State) (o : Ops) (p : Nat × Thread) : EngPlan :=
  let d := descBase o
  let w := s.descWords p.2 o
  let x (j : Nat) : Nat := (w[j]?).getD 0
  let size := s.sizeOf p.2
  let va := x 0 + 2 ^ 32 * x 1
  let soff := bitsAt (x 2) 0 19
  let ndim := bitsAt (x 2) 20 3
  let esz := 2 ^ bitsAt (x 2) 23 2
  let ext0 := x 3
  let fits := ndim == 0 || (decide (x 4 + 16 * ndim ≤ size) && x 4 % 8 == 0)
  let tab := match s.crewOf p.2 with
    | some c => if fits then s.dimTable c (x 4) ndim else []
    | none => []
  let pay := tab.foldl (fun n e => n * e.1) (esz * ext0)
  planOf ([
      (decide (2 ^ 56 ≤ va), 7, d), alignCheck va esz d,
      (bitsAt (x 2) 25 7 != 0, 5, d + 2), alignCheck soff esz (d + 2), (fits && decide (size < soff + pay), 4, d + 2),
      (ext0 == 0 || decide (2 ^ 31 < ext0), 2, d + 3),
      offReserved (x 4) (d + 4), (ndim == 0 && x 4 != 0, 5, d + 4), (ndim != 0 && x 4 % 8 != 0, 3, d + 4),
      (ndim != 0 && decide (size < x 4 % 2 ^ 19 + 16 * ndim), 4, d + 4),
      (tab.any fun e => e.1 == 0, 2, d + 4), (tab.any fun e => e.2.1 != 0, 5, d + 4), (tab.any fun e => e.2.2 % esz != 0, 3, d + 4),
      (x 5 != 0, 5, d + 5), (x 7 != 0 && compAction (x 6) != 1, 5, d + 7) ] ++ compChecks size (x 6) (d + 6))
    { s.newOp .cpy p with
      krows := s.freeOf (s.ctxOf p.2)
      desc := w, table := tab.map fun e => (e.1, e.2.2)
      reads := (if ndim = 0 then [] else [⟨x 4, x 4 + 16 * ndim⟩]) ++ (if (x 2).testBit 19 then [⟨soff, soff + pay⟩] else [])
      write := if (x 2).testBit 19 then none else some ⟨soff, soff + pay⟩
      comp := x 6, setv := x 7, pay := pay }

/-- CPY. -/
def execCpy (o : Ops) (s : State) : Out := .next (s.runEngine .cpy o noAcc noAcc fun _ p => s.cpyPlan o p)

/-! ### Order among operations (R166, R168) -/

/-- Whether two ranges overlap; an empty one overlaps nothing. -/
def Range.overlaps (a b : Range) : Bool := decide (a.lo < a.hi) && decide (b.lo < b.hi) && decide (a.lo < b.hi) && decide (b.lo < a.hi)

/-- Whether a new operation conflicts with an earlier one (R166). -/
def EngOp.conflicts (n e : EngOp) : Bool :=
  n.crew == e.crew && n.core == e.core &&
    ((match n.write with
      | some w => (e.reads.any fun r => w.overlaps r) || (match e.write with | some v => w.overlaps v | none => false)
      | none => false) ||
     (match e.write with | some v => n.reads.any fun r => r.overlaps v | none => false))

/-- Whether an operation must still wait for an earlier one (R166, R168). -/
def State.mustHold (s : State) (id : Nat) (op : EngOp) : Bool :=
  ((s.core op.core).sboard.takeWhile (· != id)).any (fun k => match s.ops.get? k with | some e => op.conflicts e | none => false) ||
    op.accs.any fun c => (s.core c).macc.head? != some id

/-! ### Reads and writes of an operation (R160, R161) -/

/-- What an operation's access comes to: a result, a fault, or a line that is not settled. -/
inductive Got (α : Type) where
  | ok (x : α)
  | flt (f : Flt)
  | wait

/-- The crew whose scratchpad an operation uses. -/
def State.opCrew (s : State) (op : EngOp) : Crew := (s.crews.get? op.crew).getD { ctx := 0, core := op.core, entry := 0, cn := 0 }

/-- The ASID that an operation translates under. -/
def State.opAsid (s : State) (op : EngOp) : Nat := ((s.ctx? op.ctx).map (·.asid)).getD 0

/-- Read n bytes of the issuing crew's scratchpad. -/
def State.opSpad (s : State) (op : EngOp) (off n : Nat) : List Byte :=
  let c := s.opCrew op
  (List.range n).map fun i => s.mem.scratch.read (scratchKey op.core (c.spadOff (off + i)))

/-- Write bytes to the issuing crew's scratchpad, in units of u bytes (R161); fuel counts the units. -/
def State.opSpadWrite (s : State) (op : EngOp) (u : Nat) : Nat → Nat → List Byte → State
  | 0, _, _ => s
  | n + 1, off, b => (s.spadWrite op.core ((s.opCrew op).spadOff off) (b.take u)).opSpadWrite op u n (off + u) (b.drop u)

/-- Read bytes within one line of memory, through the core's L1, which they fill (R160). -/
def State.opChunk (s : State) (op : EngOp) (va len : Nat) : State × Got (List Byte) :=
  match s.translate op.core (s.opAsid op) va .load with
  | (s, .fault f) => (s, .flt f)
  | (s, .miss) => (s, .wait)
  | (s, .hit ga mode e) =>
    let line := lineNo ga
    if !s.quietLine line || (s.core op.core).inflight.contains line then (s.callHost line, .wait)
    else
      let s := (s.flushOwn op.core line).settle line false
      if s.readBad op.core line mode (ga % 128) len then (s, .flt ⟨0x0D, va⟩)
      else
        let b := s.engineLine op.core line mode
        let f : Fill := ⟨op.core, s.opAsid op, va / 128, line, mode, 0, e.testBit 6, e.testBit 7 && pteD e, e.testBit 11, none⟩
        (if (s.core op.core).misses.has line then s else s.keepFill f b (s.badUnits line), .ok ((b.drop (ga % 128)).take len))

/-- Read a range of memory, line by line; fuel bounds the lines. -/
def State.opMem (s : State) (op : EngOp) : Nat → Nat → Nat → State × Got (List Byte)
  | 0, _, _ => (s, .ok [])
  | fuel + 1, va, len =>
    if len = 0 then (s, .ok [])
    else
      let va := va % 2 ^ 64
      let n := min len (128 - va % 128)
      match s.opChunk op va n with
      | (s, .ok b) =>
        match s.opMem op fuel (va + n) (len - n) with
        | (s, .ok r) => (s, .ok (b ++ r))
        | x => x
      | x => x

/-- Read an operand: from the crew's scratchpad when its base is an own-window address, else from memory (R418). -/
def State.opRead (s : State) (op : EngOp) (base va len : Nat) : State × Got (List Byte) :=
  if (ownOff base).isSome then (s, .ok (s.opSpad op (va - ownBase) len)) else s.opMem op (len / 128 + 2) va len

/-- Write bytes within one line of memory as a store with the bypass hint (R160). -/
def State.opStore (s : State) (op : EngOp) (va : Nat) (b : List Byte) : State × Got Nat :=
  match s.translate op.core (s.opAsid op) va .store with
  | (s, .fault f) => (s, .flt f)
  | (s, .miss) => (s, .wait)
  | (s, .hit ga mode _) =>
    let line := lineNo ga
    if !s.quietLine line true || (s.core op.core).inflight.contains line then (s.callHost line true, .wait)
    else (((s.flushOwn op.core line).settle line true).spoilFrame line |>.engineStore op.core line mode (s.frameData line (withOff (ga % 128) b)), .ok line)

/-! ### The work of each operation -/

/-- How one unit of an operation went: it must be tried again, more units follow, it is done, or it met a fault. -/
inductive Verdict where
  | again
  | more
  | done
  | flt (f : Flt)
  deriving DecidableEq, Repr

/-- Record a line that an operation wrote. -/
def EngOp.carry (op : EngOp) (line : Nat) : EngOp := if op.carried.contains line then op else { op with carried := op.carried ++ [line] }

/-- Read the same bytes of n rows of an operand; none of a row after a fault. -/
def State.opRows (s : State) (op : EngOp) (base stride len : Nat) : Nat → Nat → State × Got (List (List Byte))
  | 0, _ => (s, .ok [])
  | n + 1, va =>
    match s.opRead op base (va % 2 ^ 64) len with
    | (s, .ok b) =>
      match s.opRows op base stride len n (va + stride) with
      | (s, .ok r) => (s, .ok (b :: r))
      | x => x
    | (s, .flt f) => (s, .flt f)
    | (s, .wait) => (s, .wait)

/-- One operand's group of rows or columns, as values (R420, R421). -/
def State.mmaGroup (s : State) (op : EngOp) (t : Ty) (base stride n g : Nat) (spo : Int) : State × Got (List (List FVal)) :=
  let len := groupBytes t
  match s.opRows op base stride len n (base + len * g) with
  | (s, .ok rows) =>
    match (if t = .e2m1x then s.opRead op base (ofSigned 64 ((base : Int) + spo)) n else (s, .ok [])) with
    | (s, .ok sp) => (s, .ok ((List.range n).map fun i => groupVals t (((sp[i]?).map (·.toNat)).getD 0) (((rows[i]?).getD []).map (·.toNat))))
    | (s, .flt f) => (s, .flt f)
    | (s, .wait) => (s, .wait)
  | (s, .flt f) => (s, .flt f)
  | (s, .wait) => (s, .wait)

/-- Apply a group to one ACC: rows of A, and 32 columns of B (R421). -/
def Core.applyGroup (c : Core) (a b : List (List FVal)) : Core :=
  { c with acc := accOf fun n => accStep (c.accAt n) ((a[n / 32]?).getD []) ((b[n % 32]?).getD []) }

/-- One group of an MMA (R421). -/
def State.mmaUnit (s : State) (id : Nat) (op : EngOp) (pair : Bool) : State × Verdict :=
  let x (j : Nat) : Nat := (op.desc[j]?).getD 0
  let g := op.krows / 16
  let spo := toSigned 32 (x 7)
  match s.mmaGroup op (codeTy (bitsAt (x 6) 0 4)) (x 0 + 2 ^ 32 * x 1) (x 4) 32 g spo with
  | (s, .flt f) => (s, .flt f)
  | (s, .wait) => (s, .again)
  | (s, .ok a) =>
    match s.mmaGroup op (codeTy (bitsAt (x 6) 4 4)) (x 2 + 2 ^ 32 * x 3) (x 5) (if pair then 64 else 32) g spo with
    | (s, .flt f) => (s, .flt f)
    | (s, .wait) => (s, .again)
    | (s, .ok b) =>
      let s := s.updCore op.core fun c => c.applyGroup a b
      let s := if pair then s.updCore (op.core + 1) fun c => c.applyGroup a (b.drop 32) else s
      let k := 16 * (g + 1)
      ((s.updOp id fun op => { op with krows := k }).setMrow id op k, if k < bitsAt (x 6) 8 8 then .more else .done)

/-- One row of an MLOAD (R426). -/
def State.mloadUnit (s : State) (id : Nat) (op : EngOp) : State × Verdict :=
  match s.opRead op op.ea ((op.ea + 128 * op.krows) % 2 ^ 64) 128 with
  | (s, .flt f) => (s, .flt f)
  | (s, .wait) => (s, .again)
  | (s, .ok b) =>
    let i := op.krows
    let s := s.updCore op.core fun c =>
      { c with acc := accOf fun n => if n / 32 = i then natOf ((b.drop (4 * (n % 32))).take 4) else c.accAt n }
    ((s.updOp id fun op => { op with krows := i + 1 }).setMrow id op (i + 1), if i + 1 < 32 then .more else .done)

/-- One row of an MSAVE (R426). -/
def State.msaveUnit (s : State) (id : Nat) (op : EngOp) : State × Verdict :=
  let c := s.core op.core
  let b := (List.range 32).flatMap fun j => bytesOf 4 (c.accAt (32 * op.pos + j))
  let next := op.pos + 1
  let v : Verdict := if next < 32 then .more else .done
  match ownOff op.ea with
  | some o => ((s.opSpadWrite op 4 32 (o + 128 * op.pos) b).updOp id fun op => { op with pos := next }, v)
  | none =>
    match s.opStore op ((op.ea + 128 * op.pos) % 2 ^ 64) b with
    | (s, .flt f) => (s, .flt f)
    | (s, .wait) => (s, .again)
    | (s, .ok line) => (s.updOp id fun op => { op.carry line with pos := next }, v)

/-- The elements of a scratchpad region. -/
def State.opElems (s : State) (op : EngOp) (off n e : Nat) : List Nat :=
  (List.range n).map fun i => natOf (s.opSpad op (off + i * e) e)

/-- Write elements of e bytes. -/
def State.opPut (s : State) (op : EngOp) (off e : Nat) (l : List Nat) : State :=
  s.opSpadWrite op e l.length off (l.flatMap fun x => bytesOf e x)

/-- The output rows of an MDRAIN, from the first: offset and elements (R429). -/
def State.drainRow (s : State) (op : EngOp) (i : Nat) : Nat × List Nat :=
  let x (j : Nat) : Nat := (op.desc[j]?).getD 0
  let ot := codeTy (bitsAt (x 3) 4 4)
  let rt := codeTy (bitsAt (x 3) 8 4)
  let res := s.opElems op (x 1 + i * bitsAt (x 2) 16 16 * 16) 32 (rt.bits / 8)
  let c := s.core op.core
  (x 0 + i * bitsAt (x 2) 0 16 * 16, (List.range 32).map fun j =>
    let a := c.accAt (32 * i + j)
    let a := if (x 3).testBit 1 then dropout (x 5) (bitsAt (x 4) 0 17) (bitsAt (x 6) 16 16 + i) (bitsAt (x 6) 0 16 + j) a else a
    drained ot (if (x 3).testBit 0 then some (rt, (res[j]?).getD 0) else none) a)

/-- MDRAIN (R429): every element is read before any is written or cleared. -/
def State.mdrainUnit (s : State) (op : EngOp) : State × Verdict :=
  let ot := codeTy (bitsAt ((op.desc[3]?).getD 0) 4 4)
  let rows := (List.range 32).map fun i => s.drainRow op i
  let s := rows.foldl (fun (s : State) r => s.opPut op r.1 (ot.bits / 8) r.2) s
  (if ((op.desc[3]?).getD 0).testBit 2 then s.updCore op.core fun c => { c with acc := FMap.empty } else s, .done)

/-- The output elements of a region operation, in order (R432, R433). -/
def State.regionElems (s : State) (op : EngOp) : List Nat :=
  let x (j : Nat) : Nat := (op.desc[j]?).getD 0
  let cols := bitsAt (x 4) 0 16
  let rows := bitsAt (x 4) 16 16
  let n := rows * cols
  let w := x 5
  let it := codeTy (bitsAt w 0 4)
  let ot := codeTy (bitsAt w 4 4)
  let isz := max 1 (it.bits / 8)
  let s1 := w.testBit 12
  let s2 := w.testBit 13
  let r : RegionSet := ⟨it, ot, Rnd.ofCode (bitsAt w 8 3), w.testBit 11, w.testBit 14⟩
  let a := s.opElems op (x 1) n isz
  let get (l : List Nat) (i : Nat) : Nat := (l[i]?).getD 0
  match op.kind with
  | .rfma =>
    let b := if s1 then [] else s.opElems op (x 2) n isz
    let c := if s2 then [] else s.opElems op (x 3) n isz
    let o := if r.acc then s.opElems op (x 0) n 4 else []
    (List.range n).map fun i => r.fma s1 s2 (get a i) (if s1 then x 2 else get b i) (if s2 then x 3 else get c i) (get o i)
  | .rscl =>
    let b := s.opElems op (x 2) rows 1
    let c := s.opElems op (x 3) cols 1
    let o := if r.acc then s.opElems op (x 0) n 4 else []
    (List.range n).map fun i => r.scale (get a i) (get b (i / cols)) (get c (i % cols)) (get o i)
  | .rexp =>
    let m := if s2 then [] else s.opElems op (x 3) rows 4
    (List.range n).map fun i => r.exp (get a i) (x 2) (if s2 then x 3 else get m (i / cols))
  | .rred => (List.range rows).map fun i => r.reduce (bitsAt w 15 3) ((a.drop (i * cols)).take cols)
  | .rcvt =>
    if ot = .e2m1x then convPlanes r.mode (x 3) (a.map fun y => convValue it 0 r.ftz y)
    else (List.range n).map fun i =>
      let mode := if bitsAt w 8 3 = 4 then Rnd.rs (rsBits (x 3) i) else r.mode
      { r with mode := mode }.conv (get a i)
  | _ => (List.range n).map fun i => r.draw (x 2) ((x 3 + i) % 2 ^ 32)

/-- A region operation (R432). -/
def State.regionUnit (s : State) (op : EngOp) : State × Verdict :=
  let x (j : Nat) : Nat := (op.desc[j]?).getD 0
  (s.opPut op (x 0) (outSize (codeTy (bitsAt (x 5) 4 4))) (s.regionElems op), .done)

/-- The memory address of a copy's element in the dimensions from m = 1 on (R436). -/
def copyAddr : List (Nat × Int) → Nat → Int
  | [], _ => 0
  | (ext, stride) :: r, i => (i % ext : Nat) * stride + copyAddr r (i / ext)

/-- The size of a CPY's elements in bytes (R434). -/
def EngOp.cpySize (op : EngOp) : Nat := 2 ^ bitsAt ((op.desc[2]?).getD 0) 23 2

/-- The number of a CPY's elements. -/
def EngOp.cpyCount (op : EngOp) : Nat := op.pay / op.cpySize

/-- Copy element i of a CPY (R436). -/
def State.cpyElem (s : State) (id : Nat) (op : EngOp) (i : Nat) : State × Got Unit :=
  let x (j : Nat) : Nat := (op.desc[j]?).getD 0
  let esz := op.cpySize
  let ext0 := x 3
  let va := ofSigned 64 (((x 0 + 2 ^ 32 * x 1 + i % ext0 * esz : Nat) : Int) + copyAddr op.table (i / ext0))
  let off := bitsAt (x 2) 0 19 + i * esz
  if (x 2).testBit 19 then
    match s.opStore op va (s.opSpad op off esz) with
    | (s, .flt f) => (s, .flt f)
    | (s, .wait) => (s, .wait)
    | (s, .ok line) => (s.updOp id fun op => op.carry line, .ok ())
  else
    match s.opMem op 2 va esz with
    | (s, .flt f) => (s, .flt f)
    | (s, .wait) => (s, .wait)
    | (s, .ok b) => (s.opSpadWrite op esz 1 off b, .ok ())

/-- Whether a CPY copies element i in its first pass: the elements are copied in no defined order, so the choice is a free value (R161, R437). -/
def EngOp.cpyEarly (op : EngOp) (i : Nat) : Bool := Config.freeBit op.ctx (op.krows + i)

/-- One element of a CPY, or one that its pass leaves out (R436). -/
def State.cpyUnit (s : State) (id : Nat) (op : EngOp) : State × Verdict :=
  let n := op.cpyCount
  let i := op.pos % n
  let v : Verdict := if op.pos + 1 < 2 * n then .more else .done
  match (if op.cpyEarly i == decide (op.pos < n) then s.cpyElem id op i else (s, .ok ())) with
  | (s, .flt f) => (s, .flt f)
  | (s, .wait) => (s, .again)
  | (s, .ok ()) => (s.updOp id fun op => { op with pos := op.pos + 1 }, v)

/-- The elements that a CPY has not copied where it ends on a fault: each holds its old value or its copied value, by a free value (R437). -/
def State.cpyRest (s : State) (id : Nat) (op : EngOp) : State :=
  let n := op.cpyCount
  let left := (List.range n).filter fun i => if op.cpyEarly i then decide (op.pos ≤ i) else decide (op.pos ≤ n + i)
  left.foldl (fun (s : State) i => if Config.freeBit op.ctx (op.krows + n + i) then (s.cpyElem id op i).1 else s) s

/-- One unit of an operation of the matrix, region and copy engines. -/
def State.engineUnit (s : State) (id : Nat) (op : EngOp) : State × Verdict :=
  match op.kind with
  | .mma pair => s.mmaUnit id op pair
  | .mzero => (s.updCore op.core fun c => { c with acc := FMap.empty, mfault := none }, .done)
  | .mload => s.mloadUnit id op
  | .msave => s.msaveUnit id op
  | .mdrain => s.mdrainUnit op
  | .rfma | .rscl | .rred | .rexp | .rcvt | .rng => s.regionUnit op
  | .cpy => s.cpyUnit id op
  | .square _ | .fwCopy _ | .fwWrite _ | .queueAccess _ _ => (s, .done)

/-- After a unit: try again, go on, end, or stop on a fault: PAGE_FAULT and DATA_UNCORRECTABLE suspend the operation and go to firmware (R425). -/
def State.afterUnit (s : State) (id : Nat) (r : Verdict) : State :=
  match r with
  | .again | .more => s.post (.engineOperationStart id)
  | .done => s.post (.engineOperationEnd id)
  | .flt f =>
    if f.code = 0x07 ∨ f.code = 0x0D then
      (s.updOp id fun op => { op with phase := .suspended, fault := some (f.code, f.tval, false) }).fwEvent fun n => { num := n, op := some id }
    else (s.updOp id fun op => { op with fault := some (f.code, f.tval, false) }).post (.engineOperationEnd id)

/-- Start or go on with an operation of the matrix, region and copy engines. MLOAD clears a fault recorded meanwhile (R425). -/
def State.startEngine (s : State) (id : Nat) (op : EngOp) : State :=
  if op.phase = .queued ∧ s.mustHold id op then s.post (.engineOperationStart id)
  else
    let s := if op.phase = .queued ∧ op.kind = .mload then s.updCore op.core fun c => { c with mfault := none } else s
    let s := s.updOp id fun op => { op with phase := .running }
    let (s, v) := s.engineUnit id { op with phase := .running }
    s.afterUnit id v

/-! ### The end of an operation (R162 to R165, R425, R437) -/

/-- The fault that an operation ended on is recorded: on its ACCs, or in the crew's TMASK (R425, R426, R437). -/
def State.recordFault (s : State) (op : EngOp) : State :=
  match op.fault with
  | none => s
  | some (code, tval, fwd) =>
    if op.kind.setsMrow then
      op.accs.foldl (fun (s : State) (k : Nat) => s.updCore k fun c => { c with mfault := some ⟨code, tval, fwd, op.krows, op.crew⟩ }) s
    else s.updCrew (s.maskCrew op.crew) fun c => { c with codes := Nat.lor c.codes (2 ^ code) }

/-- The completion write (R164, R437): a cell write at the bank array, all ones after a fault. -/
def State.complWrite (s : State) (op : EngOp) : State :=
  if compAction op.comp = 0 then s
  else
    let n := compWidth op.comp
    let place : Place := .scratch op.core ((s.opCrew op).spadOff (compOff op.comp))
    let x := if op.fault.isSome then 2 ^ (8 * n) - 1
      else if compAction op.comp = 1 then op.setv
      else s.placeNat place n + op.pay
    s.placeWrite place n x

/-- Free an operation's entries. -/
def State.freeOp (s : State) (id : Nat) (op : EngOp) : State :=
  let s := s.updCore op.core fun c => { c with sboard := c.sboard.filter (· != id) }
  let s := op.accs.foldl (fun (s : State) (k : Nat) => s.updCore k fun c => { c with macc := c.macc.filter (· != id) }) s
  { s with ops := s.ops.del id }

/-- End an operation: its writes leave L1 and are acknowledged, the die writes through, then the entries are freed and the completion word is written (R162, R164, R165). -/
def State.endEngine (s : State) (id : Nat) (op : EngOp) : State :=
  let again (s : State) : State := s.post (.engineOperationEnd id)
  match op.phase with
  | .running =>
    let s := if op.kind = .cpy ∧ op.fault.isSome then s.cpyRest id op else s
    let op := (s.ops.get? id).getD op
    let keys := ((s.core op.core).l1.cells.filter fun p => op.carried.contains p.2.line).map Prod.fst
    again ((keys.foldl (fun (s : State) (k : Nat) => s.cleanL1 op.core k) s).updOp id fun op => { op with phase := .acking })
  | .acking =>
    if op.carried.any fun l => (s.core op.core).inflight.contains l then again s
    else again ((s.dieWriteThrough (dieOf op.core)).updOp id fun op => { op with phase := .through })
  | .through => if s.dieQuiet (dieOf op.core) then ((s.recordFault op).freeOp id op).complWrite op else again s
  | _ => s

/-- ENGINE_OPERATION_RESUME: a suspended operation goes on where it stopped (R425). -/
def execEngineOperationResume (id : Nat) (s : State) : Out :=
  .next (match s.ops.get? id with
    | some op =>
      if op.phase = .suspended then
        (s.updOp id fun op => { op with phase := .running, fault := none }).post (.engineOperationStart id)
      else s
    | none => s)

/-! ### The accumulator between contexts (R325 to R327) -/

/-- Where a context's ACC of a core is saved: 4 KiB for each core from its MSAVE address on. -/
def accArea (c : Context) (core : Nat) : Nat := c.msave + core * 4096

/-- The lines of a context's ACC save area of a core. -/
def accLines (c : Context) (core : Nat) : List Nat := (List.range 33).map fun i => lineNo (accArea c core + min (128 * i) 4095)

/-- The lines that firmware reads or writes when it gives a core's ACC to a context. -/
def State.accNeeds (s : State) (core ctx : Nat) : List Nat :=
  if (s.core core).mown = ctx then []
  else ([(s.core core).mown, ctx].filterMap s.ctx?).flatMap fun c => accLines c core

/-- Write a core's ACC to a context's save area. -/
def State.spillAcc (s : State) (core owner : Nat) : State :=
  match s.ctx? owner with
  | none => s
  | some c =>
    if c.ended then s
    else
    let a := s.core core
    let b := (List.range 1024).flatMap fun n => bytesOf 4 (a.accAt n)
    let s := (accLines c core).foldl (fun (s : State) l => s.settle l true) s
    let s := (List.range 1024).foldl (fun (s : State) n => s.homeWrite (accArea c core + 4 * n) (withOff 0 ((b.drop (4 * n)).take 4))) s
    s.updFw fun w => { w with ctxs := w.ctxs.adjust owner fun c => { c with accSaved := c.accSaved ++ [core] } }

/-- Load a core's ACC from a context's save area, or zero it. -/
def State.reloadAcc (s : State) (core ctx : Nat) : State :=
  match s.ctx? ctx with
  | some c =>
    if c.accSaved.contains core then
      let s := (accLines c core).foldl (fun (s : State) l => s.settle l false) s
      let a := accOf fun n => s.memNat (accArea c core + 4 * n) 4
      let s := s.updCore core fun x => { x with acc := a }
      s.updFw fun w => { w with ctxs := w.ctxs.adjust ctx fun c => { c with accSaved := c.accSaved.filter (· != core) } }
    else s.updCore core fun x => { x with acc := FMap.empty }
  | none => s

/-- A thread that waits for MEN on a core. -/
def Thread.wantsAcc (t : Thread) (core : Nat) : Bool := match t.status with | .waiting (.firstUse l) => l.contains core | _ => false

/-- A first-use thread replays once every core it named is enabled for its context (R326). -/
def State.replayFirst (s : State) : State :=
  { s with threads := s.threads.map fun _ t =>
      match t.status with
      | .waiting (.firstUse l) => if l.all fun k => (s.core k).men.contains (s.ctxOf t) then { t with status := .ready } else t
      | _ => t }

/-- A thread that waits for MEN on a core whose MEN is 0 for its context. -/
def State.wantsMen (s : State) (core : Nat) (t : Thread) : Bool := t.wantsAcc core && !(s.core core).men.contains (s.ctxOf t)

/-- Give a core's ACC to a context (R326): the former owner's is saved, the context's own is loaded or zeroed. MEN is then 1 for that context alone: any other finds MEN by MOWN when it is switched onto the core (R325). -/
def State.giveAcc (s : State) (core ctx : Nat) : State :=
  let c := s.core core
  let s := if c.mown = ctx then s
    else ((if c.mown = 0 then s else s.spillAcc core c.mown).reloadAcc core ctx).updCore core fun x => { x with mown := ctx, mfault := none }
  (s.updCore core fun x => { x with men := [ctx] }).replayFirst

/-- MATRIX_FIRST_USE (R326): firmware gives a core's ACC to the context that asks for it. An operation of the former owner ends first (R168). -/
def execMatrixFirstUse (core : Nat) (s : State) : Out :=
  let i : Instr := .matrixFirstUse core
  .next (s.viaFw i none none fun s _ =>
    match s.threads.find? fun _ t => s.wantsMen core t with
    | none => s.fwDone i
    | some (_, t) =>
      let busy := (s.accNeeds core (s.ctxOf t)).filter fun l => !s.quietLine l true
      if !(s.core core).macc.isEmpty then s.fwWait i 0
      else if !busy.isEmpty then (busy.foldl (fun (s : State) l => s.callHost l true) s).fwWait i 0
      else ((s.giveAcc core (s.ctxOf t)).fwDone i).postOnce i)

end Sys2Proof.Machine
end

