-- ==== Sys2Proof/Machine/Square.lean ====
section
/-!
DEFINITION. The square unit: issue and arrival of Square operations (R456, R470), their reads and writes of memory, and the work of each (R471 to R476, R490 to R493).
-/
namespace Sys2Proof.Machine

/-! ### Issue (R158, R470) -/

/-- The key of a context's Square. -/
def sqKey (ctx q : Nat) : Nat := ctx * 16 + q

/-- A Square, loaded or not. -/
def State.square (s : State) (key : Nat) : Square := s.sq.squares.getD key {}

/-- Change the Squares' state. -/
def State.updSq (s : State) (f : SqState → SqState) : State := { s with sq := f s.sq }

/-- Change a Square. -/
def State.updSquare (s : State) (key : Nat) (f : Square → Square) : State :=
  s.updSq fun q => { q with squares := q.squares.put key (f (s.square key)) }

/-- Fork one thread's Square operation: it takes a scoreboard entry (R166), and the thread waits until the operation is sent. -/
def State.forkSquare (s : State) (c : Opc) (o : Ops) (iss : Issue) (s0 : State) (late : Nat) (p : Nat × Thread) : State :=
  let (a, b, d) := s0.vals iss c o p.1 p.2
  let (s, id) := s.draw
  let op : EngOp :=
    { s.newOp (.square c) p with desc := [a, b, d, o.aux.toNat], late := late, square := sqKey (s0.ctxOf p.2) (o.imm.toNat % 16) }
  let s := { s with ops := s.ops.put id op }
  let s := s.updCore op.core fun c => { c with sboard := c.sboard ++ [id] }
  let s := s.updThread p.1 fun t => { t with status := .waiting .sending, squares := t.squares ++ [(late, op.square)] }
  s.post (.engineOperationStart id)

/-- The common issue of the Square instructions: one operation for each executing thread, in ascending slot order; without a scoreboard entry for each, none is issued (R167). -/
def State.runSquare (s : State) (c : Opc) (o : Ops) : State :=
  match s.prep c o with
  | .idle => s
  | .wait iss => s.stall iss
  | .go iss ex flt =>
    if ex.any fun p => p.2.held then s.stall iss
    else if ex.isEmpty then s.complete iss c [] flt
    else if 32 < (s.core iss.core).sboard.length + ex.length then s.blockBoard iss
    else
      let s1 := s.writeBackAll iss.core
      let (s1, late) := s1.draw
      let (s1, sym) := s1.takeSymbol iss.core iss.group late (ex.map Prod.fst)
      let s1 := ex.foldl (fun (s1 : State) p => s1.updThread p.1 fun t => t.bind sym true false o.dst late) s1
      (ex.foldl (fun (s1 : State) p => s1.forkSquare c o iss s late p) s1).complete iss c [] flt

/-- SQLOAD (R471). -/
def execSqload (o : Ops) (s : State) : Out := .next (s.runSquare .sqload o)
/-- SQLEGAL (R472). -/
def execSqlegal (o : Ops) (s : State) : Out := .next (s.runSquare .sqlegal o)
/-- SQPLAY (R473). -/
def execSqplay (o : Ops) (s : State) : Out := .next (s.runSquare .sqplay o)
/-- SQPLAY.list (R473). -/
def execSqplayList (o : Ops) (s : State) : Out := .next (s.runSquare .sqplayList o)
/-- SQUNDO (R474). -/
def execSqundo (o : Ops) (s : State) : Out := .next (s.runSquare .squndo o)
/-- SQSCORE (R475). -/
def execSqscore (o : Ops) (s : State) : Out := .next (s.runSquare .sqscore o)
/-- SQREAD (R476). -/
def execSqread (o : Ops) (s : State) : Out := .next (s.runSquare .sqread o)
/-- SQSAVE (R491). -/
def execSqsave (o : Ops) (s : State) : Out := .next (s.runSquare .sqsave o)
/-- SQCHECK (R492). -/
def execSqcheck (o : Ops) (s : State) : Out := .next (s.runSquare .sqcheck o)
/-- SQCOMMIT (R493). -/
def execSqcommit (o : Ops) (s : State) : Out := .next (s.runSquare .sqcommit o)

/-! ### Memory accesses of a unit (R470) -/

/-- The bytes of a settled line as a unit reads them: the host section's copy of a host line, else the home's. -/
def State.unitLine (s : State) (line : Nat) (mode : Mode) : List Byte :=
  let r := s.rdcLine 0 line
  let copy := isHost line && mode != .nc && r.st.isSome
  (withOff 0 (s.lineBytes line)).map fun p => if copy then ((r.bytes.get? p.1).map (·.val)).getD p.2 else p.2

/-- A unit reaches a host line of a COH page in die 0's host section, shared to read and owned to write (R77, R112): whether it stands there, or is now asked for. -/
def State.unitHas (s : State) (line : Nat) (mode : Mode) (write : Bool) : State × Bool :=
  let r := s.rdcLine 0 line
  if !isHost line || mode == .nc || r.st == some .m || (!write && r.st.isSome) then (s, true)
  else if r.wait.isSome then (s, false)
  else (s.askHome 0 line false (if write then .rdm else .rds) [], false)

/-- Whether n bytes of a settled line are uncorrectable where a unit reads them: in the host section's copy or at the home (R74). -/
def State.unitBad (s : State) (line : Nat) (mode : Mode) (off n : Nat) : Bool :=
  let r := s.rdcLine 0 line
  let copy := isHost line && mode != .nc && r.st.isSome
  (List.range n).any fun i => if copy then r.bad.contains ((off + i) / 32) else s.bad line (off + i)

/-- Write bytes of a settled line: a host line of a COH page stands in M, where the write is performed and evaluated (R174). -/
def State.unitStore (s : State) (line : Nat) (mode : Mode) (b : LineBytes) : State :=
  let r := s.rdcLine 0 line
  (if isHost line && mode != .nc then s.setRdc 0 line (r.write b) else s).homeWrite (line * 128) b

/-- Read bytes within one line for an operation. -/
def State.unitRead1 (s : State) (op : EngOp) (va n : Nat) : State × Got (List Byte) :=
  if va / 2 ^ 52 = 31 then
    match s.windowTarget op.core (s.opCrew op) va n with
    | .spad k off | .peer k off => if s.spadBadAt k off n then (s, .flt ⟨0x0D, va⟩) else (s, .ok (s.mem.scratch.readN (scratchKey k off) n))
    | .flt f => (s, .flt f)
    | _ => (s, .flt (.access va 7 6))
  else
    match s.translate op.core (s.opAsid op) va .load with
    | (s, .fault f) => (s, .flt f)
    | (s, .miss) => (s, .wait)
    | (s, .hit ga mode _) =>
      let line := lineNo ga
      match s.unitHas line mode false with
      | (s, false) => (s, .wait)
      | (s, true) =>
        if !s.quietLine line then (s.callHost line, .wait)
        else
          let s := s.settle line false
          if s.unitBad line mode (ga % 128) n then (s, .flt ⟨0x0D, va⟩)
          else (s, .ok (((s.unitLine line mode).drop (ga % 128)).take n))

/-- Read a range, line by line; fuel bounds the lines. -/
def State.unitRead (s : State) (op : EngOp) : Nat → Nat → Nat → State × Got (List Byte)
  | 0, _, _ => (s, .ok [])
  | fuel + 1, va, len =>
    if len = 0 then (s, .ok [])
    else
      let va := va % 2 ^ 64
      let n := min len (128 - va % 128)
      match s.unitRead1 op va n with
      | (s, .ok b) =>
        match s.unitRead op fuel (va + n) (len - n) with
        | (s, .ok r) => (s, .ok (b ++ r))
        | x => x
      | x => x

/-- Write bytes within one line for an operation. -/
def State.unitWrite (s : State) (op : EngOp) (va : Nat) (b : List Byte) : State × Got Unit :=
  if va / 2 ^ 52 = 31 then
    match s.windowTarget op.core (s.opCrew op) va b.length with
    | .spad k off | .peer k off => (s.spadWrite k off b, .ok ())
    | .flt f => (s, .flt f)
    | _ => (s, .flt (.access va 7 6))
  else
    match s.translate op.core (s.opAsid op) va .store with
    | (s, .fault f) => (s, .flt f)
    | (s, .miss) => (s, .wait)
    | (s, .hit ga mode _) =>
      let line := lineNo ga
      match s.unitHas line mode true with
      | (s, false) => (s, .wait)
      | (s, true) =>
        if !s.quietLine line true then (s.callHost line true, .wait)
        else (((s.settle line true).spoilFrame line).unitStore line mode (s.frameData line (withOff (ga % 128) b)), .ok ())

/-! ### Results (R469) -/

/-- The result word. -/
def sqWord (j : Judged) (count version : Nat) : Nat := j.status + j.detail * 16 + count % 2 ^ 24 * 256 + version % 2 ^ 32 * 2 ^ 32

/-- How a step of a Square operation went. -/
inductive SqDone where
  | again
  | more
  | fin (word : Nat)
  | flt (f : Flt)
  | pending                               -- served; it ends once its plan is in force (R496)
  deriving DecidableEq, Repr

/-- An operand of an operation. -/
def EngOp.arg (op : EngOp) (n : Nat) : Nat := (op.desc[n]?).getD 0

/-- A result of an operation at its Square. -/
def State.sqFin (s : State) (op : EngOp) (j : Judged) (count : Nat) : State × SqDone := (s, .fin (sqWord j count (s.square op.square).version))

/-- MALFORMED with DETAIL 0 and COUNT 0. -/
def State.sqBad (s : State) (op : EngOp) : State × SqDone := s.sqFin op ⟨2, 0⟩ 0

/-- Whether VCHK is set and the version differs. -/
def State.sqStale (s : State) (op : EngOp) : Bool := (op.arg 3).testBit 0 && op.arg 1 != (s.square op.square).version

/-- The game an operation plays on: its private copy, else the Square's. -/
def State.sqGame (s : State) (id : Nat) (op : EngOp) : Option Game := (s.sq.work.get? id).or (s.square op.square).game

/-- Put the game back after an accepted move: a move on the Square itself raises the version (R464, R492). -/
def State.sqPut (s : State) (id : Nat) (op : EngOp) (g : Game) : State :=
  if s.sq.work.has id then s.updSq fun q => { q with work := q.work.put id g }
  else s.updSquare op.square fun x => { x with version := x.version + 1, game := some g }

/-- Give an operation a private copy. -/
def State.sqCopy (s : State) (id : Nat) (g : Game) : State := s.updSq fun q => { q with work := q.work.put id g }

/-! ### SQLOAD (R471) -/

/-- The key of a learned value (R481). -/
def learnedKey (ctx hash lot : Nat) : Nat := (ctx * 2 ^ 64 + hash) * 4096 + lot

/-- cal_L for each lot of a table: CAL, or the learned value (R471, R483). -/
def calSnapshot (m : FMap Nat) (ctx : Nat) (t : LotTable) : List Nat :=
  (List.range t.lots.length).map fun l => let c := (t.lot l).cal; if c ≠ 0 then c else m.getD (learnedKey ctx t.hash l) 256

/-- The context of an operation. -/
def State.opCtx (s : State) (op : EngOp) : Context := (s.ctx? op.ctx).getD { asid := 0, root := 0 }

/-- A new game for a context. -/
def State.gameOf (s : State) (ctx : Nat) (c : Context) (m : FMap Nat) (t : LotTable) : Game :=
  newGame t (calSnapshot m ctx t) c.perm c.pfirst c.pcount s.dev.id

/-- The next range that reading a lot table needs, from the bytes read so far: the header, the table, then each header line. -/
def tableNext (va : Nat) (buf : List Byte) : Option (Nat × Nat) :=
  let n := buf.length
  if n < 64 then some (va + n, 64 - n)
  else
    let t := tableSize (buf.take 64)
    if n < t then some (va + n, t - n)
    else
      let k := n - t
      ((headerVas (buf.take t))[k / 64]?).map fun a => (a + k % 64, 64 - k % 64)

/-- The table from the bytes read. -/
def tableFrom (va : Nat) (buf : List Byte) : Except Nat LotTable :=
  let t := tableSize (buf.take 64)
  readTable va (buf.take t) (buf.drop t)

/-- Load a table into the operation's Square. -/
def State.sqInstall (s : State) (id : Nat) (op : EngOp) (t : LotTable) : State × SqDone :=
  let g := s.gameOf op.ctx (s.opCtx op) (s.sq.snaps.getD id FMap.empty) t
  if g.broken g.board = 0 then
    (s.updSquare op.square fun x => { version := x.version + 1, game := some g }).sqFin op ⟨0, 0⟩ 0
  else s.sqFin op ⟨1, g.broken g.board⟩ 0

/-- One step of SQLOAD. -/
def State.sqloadStep (s : State) (id : Nat) (op : EngOp) : State × SqDone :=
  let va := op.arg 0
  if va % 64 ≠ 0 then s.sqBad op
  else
    match tableNext va op.buf with
    | some (a, n) =>
      match s.unitRead1 op (a % 2 ^ 64) (min n (128 - a % 128)) with
      | (s, .ok b) => (s.updOp id fun op => { op with buf := op.buf ++ b }, .more)
      | (s, .flt f) => (s, .flt f)
      | (s, .wait) => (s, .again)
    | none =>
      match tableFrom va op.buf with
      | .ok t => s.sqInstall id op t
      | .error d => s.sqFin op ⟨2, d⟩ 0

/-! ### Operations that write a buffer (R472, R476, R491) -/

/-- Store the next n bytes of the operation's buffer. -/
def State.sqStore (s : State) (id : Nat) (op : EngOp) (n : Nat) (j : Judged) (count : Nat) : State × SqDone :=
  if op.buf.isEmpty then s.sqFin op j count
  else
    match s.unitWrite op (op.ea % 2 ^ 64) (op.buf.take n) with
    | (s, .ok ()) => (s.updOp id fun op => { op with buf := op.buf.drop n, ea := op.ea + n, pos := op.pos + 1 }, .more)
    | (s, .flt f) => (s, .flt f)
    | (s, .wait) => (s, .again)

/-- Whether a move matches SQLEGAL's filter. -/
def filterOk (f m : Nat) : Bool := (!f.testBit 12 || moveLot m == bitsAt f 0 12) && (bitsAt f 16 4 == 0 || moveKind m == bitsAt f 16 4)

/-- One step of SQLEGAL. -/
def State.sqlegalStep (s : State) (id : Nat) (op : EngOp) : State × SqDone :=
  let f := op.arg 2
  match (s.square op.square).game with
  | none => s.sqFin op ⟨6, 0⟩ 0
  | some g =>
    if op.arg 0 % 8 ≠ 0 ∨ bitsAt f 13 3 ≠ 0 ∨ bitsAt f 20 12 ≠ 0 ∨ 10 < bitsAt f 16 4 then s.sqBad op
    else if op.krows = 0 then
      let l := g.legalMoves 1 64 fun m => decide (op.arg 1 ≤ m) && filterOk f m
      (s.updOp id fun op => { op with krows := 1, buf := l.flatMap (bytesOf 8), ea := op.arg 0 }, .more)
    else s.sqStore id op 8 ⟨0, 0⟩ op.pos

/-- One step of SQREAD. A view of a Square that is not loaded is zero (R476). -/
def State.sqreadStep (s : State) (id : Nat) (op : EngOp) : State × SqDone :=
  let f := op.arg 2
  let view := bitsAt f 0 4
  let i := bitsAt f 8 12
  let j : Judged := ⟨if (s.square op.square).game.isSome then 0 else 6, 0⟩
  if op.arg 0 % 64 ≠ 0 ∨ bitsAt f 4 4 ≠ 0 ∨ bitsAt f 20 12 ≠ 0 ∨ 3 < view ∨ (view = 0 ∧ i ≠ 0) then s.sqBad op
  else if op.krows = 0 then
    match (s.square op.square).game with
    | none => (s.updOp id fun op => { op with krows := 1, buf := bytesOf 64 0, ea := op.arg 0 }, .more)
    | some g =>
      if g.viewSize view ≤ i then s.sqBad op
      else
        (s.updOp id fun op => { op with krows := 1, buf := bytesOf 64 (g.view (s.square op.square).version view i), ea := op.arg 0 }, .more)
  else s.sqStore id op 64 j 0

/-- One step of SQSAVE (R491). -/
def State.sqsaveStep (s : State) (id : Nat) (op : EngOp) : State × SqDone :=
  let f := op.arg 2
  match (s.square op.square).game with
  | none => s.sqFin op ⟨6, 0⟩ 0
  | some g =>
    let n := g.hist.length
    if op.arg 0 % 64 ≠ 0 ∨ f / 4 ≠ 0 ∨ !g.histOk then s.sqBad op
    else if op.arg 1 < 96 + 8 * n then s.sqFin op ⟨2, 0⟩ n
    else if op.krows = 0 then
      let b := g.record (s.square op.square).version (f.testBit 0) (f.testBit 1)
      (s.updOp id fun op => { op with krows := 1, buf := b, ea := op.arg 0 }, .more)
    else s.sqStore id op 64 ⟨0, 0⟩ n

/-! ### Playing (R473, R474, R492) -/

/-- SQPLAY. -/
def State.sqplayStep (s : State) (id : Nat) (op : EngOp) : State × SqDone :=
  match (s.square op.square).game with
  | none => s.sqFin op ⟨6, 0⟩ 0
  | some g =>
    match g.play 1 (s.sqStale op) (op.arg 0) with
    | (⟨0, _⟩, g) => (s.sqPut id op g).sqFin op ⟨0, 0⟩ 0
    | (j, _) => s.sqFin op j 0

/-- SQUNDO. -/
def State.squndoStep (s : State) (id : Nat) (op : EngOp) : State × SqDone :=
  match (s.square op.square).game with
  | none => s.sqFin op ⟨6, 0⟩ 0
  | some g =>
    if !(g.mask 1).testBit 0 then s.sqFin op ⟨4, 0⟩ 0
    else if s.sqStale op then s.sqFin op ⟨3, 0⟩ 0
    else
      match g.undone with
      | none => s.sqFin op ⟨5, 0⟩ 0
      | some g => (s.sqPut id op g).sqFin op ⟨0, 0⟩ 0

/-- SQSCORE. -/
def State.sqscoreStep (s : State) (op : EngOp) : State × SqDone :=
  (s, .fin (match (s.square op.square).game with | none => 2 ^ 64 - 1 | some g => g.score g.board))

/-- Begin playing n moves of a class that lie at an address; `more` is the VCHK outcome. -/
def State.sqBegin (s : State) (id : Nat) (op : EngOp) (va n cls : Nat) (stale : Bool) : State × SqDone :=
  if stale then s.sqFin op ⟨3, 0⟩ 0
  else (s.updOp id fun op => { op with pos := 1, ea := va, pay := n, comp := cls }, .more)

/-- Open a list of a given count (R473): moves played as class 1, or a portable list played as class 2. -/
def State.sqOpen (s : State) (id : Nat) (op : EngOp) (g : Game) (va count : Nat) (stale : Bool) : State × SqDone :=
  if va % 8 ≠ 0 ∨ 65536 < count then s.sqBad op
  else if count ≠ 0 then s.sqBegin id op va count 1 stale
  else
    match s.unitRead op 2 va 32 with
    | (s, .ok b) =>
      match listHead b with
      | none => s.sqBad op
      | some (h, n) => if h ≠ g.table.hash then s.sqFin op ⟨7, 0⟩ 0 else s.sqBegin id op (va + 32) n 2 stale
    | (s, .flt f) => (s, .flt f)
    | (s, .wait) => (s, .again)

/-- Play the next move of the open list; `fin` is what follows the last. -/
def State.sqNext (s : State) (id : Nat) (op : EngOp) (fin : State → State × SqDone) : State × SqDone :=
  if op.pay ≤ op.krows then fin s
  else
    match s.unitRead1 op ((op.ea + 8 * op.krows) % 2 ^ 64) 8 with
    | (s, .flt f) => (s, .flt f)
    | (s, .wait) => (s, .again)
    | (s, .ok b) =>
      match s.sqGame id op with
      | none => s.sqFin op ⟨6, 0⟩ 0
      | some g =>
        match g.play op.comp false (natOf b) with
        | (⟨0, _⟩, g) => ((s.sqPut id op g).updOp id fun op => { op with krows := op.krows + 1 }, .more)
        | (j, _) => s.sqFin op j op.krows

/-- One step of SQPLAY.list. -/
def State.sqlistStep (s : State) (id : Nat) (op : EngOp) : State × SqDone :=
  match (s.square op.square).game with
  | none => s.sqFin op ⟨6, 0⟩ 0
  | some g =>
    if op.pos = 0 then s.sqOpen id op g (op.arg 0) (op.arg 2) (s.sqStale op)
    else s.sqNext id op fun s => s.sqFin op ⟨0, 0⟩ op.krows

/-- One step of SQCHECK, on a private copy. -/
def State.sqcheckStep (s : State) (id : Nat) (op : EngOp) : State × SqDone :=
  let f := op.arg 2
  match (s.square op.square).game with
  | none => s.sqFin op ⟨6, 0⟩ 0
  | some g =>
    if bitsAt f 17 14 ≠ 0 then s.sqBad op
    else if op.pos = 0 then
      let canon := f.testBit 31
      (s.sqCopy id (if canon then g.restart else g)).sqOpen id op g (op.arg 0) (bitsAt f 0 17) (!canon && s.sqStale op)
    else s.sqNext id op fun s => s.sqFin op ⟨0, 0⟩ op.krows

/-! ### Plan stores and SQCOMMIT (R493, R494) -/

/-- The plan in force under an id; under id 0, the auto plan of a hash. -/
def State.planNamed (s : State) (ctx id hash : Nat) : Option (Nat × Plan) :=
  s.sq.plans.find? fun n p => p.ctx == ctx && p.id == id && (id != 0 || p.game.table.hash == hash) &&
    !(s.sq.changes.any fun c => c.old == some n)

/-- The plans that a context's store holds. -/
def State.planCount (s : State) (ctx : Nat) : Nat :=
  (s.sq.plans.filter fun n p => p.ctx == ctx && !(s.sq.changes.any fun c => c.old == some n)).size

/-- Put a plan into its store. -/
def State.storePlan (s : State) (p : Plan) : State × Nat :=
  let (s, n) := s.draw
  (s.updSq fun q => { q with plans := q.plans.put n p }, n)

/-- Start a write of a 64-bit value by the command processor, for a queue, or by firmware, for none; it carries a tag (R179). -/
def State.fwWrite (s : State) (ctx queue tag va x : Nat) : State :=
  let (s, id) := s.draw
  let op : EngOp := { kind := .fwWrite queue, core := ((s.ctx? ctx).map (·.pfirst)).getD 0, crew := 0, ctx := ctx, tid := 0, tag := tag, ea := va, setv := x }
  { s with ops := s.ops.put id op }.post (.engineOperationStart id)

/-- Start the giving write of 1 to a retire word, if one is named (R496). -/
def State.retireWord (s : State) (ctx va : Nat) : State := if va = 0 then s else s.fwWrite ctx 0 s.curTag va 1

/-- Install a plan (R496): at once under a free id, else as a pending changeover. -/
def State.install (s : State) (p : Plan) (retire : Nat) (op queue : Option Nat) : State × Bool :=
  match s.planNamed p.ctx p.id 0 with
  | none => (((s.storePlan p).1).retireWord p.ctx retire, true)
  | some _ =>
    let c : Changeover := { ctx := p.ctx, id := p.id, plan := p, retire := retire, op := op, queue := queue }
    ((s.updSq fun q => { q with changes := q.changes ++ [c] }).postOnce (.planFlip p.ctx p.id), false)

/-- Run the default player on a game as a context's firmware does (R484, R485). -/
def State.runPlayer (s : State) (ctx : Nat) (g : Game) : State × Game × Nat :=
  let c := (s.ctx? ctx).getD { asid := 0, root := 0 }
  let (g, n, cur) := g.run c.cap c.budget 0 0
  (s.updSq fun q => { q with cursor := q.cursor.put ctx cur }, g, n)

/-- The last part of SQCOMMIT: the default player, the store, the retire word's translation, the installation. -/
def State.sqFinish (s : State) (id : Nat) (op : EngOp) : State × SqDone :=
  match s.sqGame id op with
  | none => s.sqFin op ⟨6, 0⟩ 0
  | some g =>
    let (s, g, n) := if op.setv.testBit 1 then s.runPlayer op.ctx g else (s, g, 0)
    let pid := op.arg 1
    let retire := op.arg 2
    if 256 ≤ s.planCount op.ctx ∧ (s.planNamed op.ctx pid 0).isNone then s.sqBad op
    else
      match (if retire = 0 then (s, .hit 0 .coh 0) else s.translate op.core (s.opAsid op) retire .store) with
      | (s, .fault f) => (s, .flt f)
      | (s, .miss) => (s, .again)
      | (s, .hit _ _ _) =>
        let p : Plan := { ctx := op.ctx, id := pid, calen := op.setv.testBit 0, game := { g with undo := [], hist := [] } }
        let word := sqWord ⟨0, 0⟩ (op.krows + n) (s.square op.square).version
        match s.install p retire (some id) none with
        | (s, true) => (s, .fin word)
        | (s, false) => (s.updOp id fun op => { op with result := word }, .pending)

/-- Open the plan record of an SQCOMMIT (R487, R493). -/
def State.sqRecord (s : State) (id : Nat) (op : EngOp) (g : Game) : State × SqDone :=
  let va := op.arg 0
  if va % 64 ≠ 0 then s.sqBad op
  else
    match s.unitRead op 2 va 96 with
    | (s, .ok b) =>
      match recordHead (b.take 64), listHead (b.drop 64) with
      | some (calen, auto, size), some (h, n) =>
        if size ≠ 96 + 8 * n then s.sqBad op
        else if h ≠ g.table.hash then s.sqFin op ⟨7, 0⟩ 0
        else
          let f := (if calen then 1 else 0) + if auto || (op.arg 3).testBit 0 then 2 else 0
          ((s.sqCopy id g.restart).updOp id fun op => { op with setv := f }).sqBegin id op (va + 96) n 2 false
      | _, _ => s.sqBad op
    | (s, .flt f) => (s, .flt f)
    | (s, .wait) => (s, .again)

/-- One step of SQCOMMIT. -/
def State.sqcommitStep (s : State) (id : Nat) (op : EngOp) : State × SqDone :=
  match (s.square op.square).game with
  | none => s.sqFin op ⟨6, 0⟩ 0
  | some g =>
    if op.arg 1 = 0 ∨ 65535 < op.arg 1 ∨ op.arg 2 % 8 ≠ 0 then s.sqBad op
    else if op.pos = 0 then
      if op.arg 0 = 0 then
        if !g.histOk then s.sqBad op
        else
          let f := if (op.arg 3).testBit 0 then 2 else 0
          ((s.sqCopy id g).updOp id fun op => { op with pos := 2, setv := f }, .more)
      else s.sqRecord id op g
    else if op.pos = 1 then s.sqNext id op fun s => (s.updOp id fun op => { op with pos := 2 }, .more)
    else s.sqFinish id op

/-! ### Service in order of arrival (R456) -/

/-- One step of a Square operation. -/
def State.squareStep (s : State) (id : Nat) (op : EngOp) : State × SqDone :=
  match op.kind with
  | .square .sqload => s.sqloadStep id op
  | .square .sqlegal => s.sqlegalStep id op
  | .square .sqplay => s.sqplayStep id op
  | .square .sqplayList => s.sqlistStep id op
  | .square .squndo => s.squndoStep id op
  | .square .sqscore => s.sqscoreStep op
  | .square .sqread => s.sqreadStep id op
  | .square .sqsave => s.sqsaveStep id op
  | .square .sqcheck => s.sqcheckStep id op
  | .square .sqcommit => s.sqcommitStep id op
  | _ => (s, .fin 0)

/-- Take an operation out of its Square's order of arrival. -/
def State.leaveSquare (s : State) (id : Nat) (op : EngOp) : State :=
  s.updSq fun q => { q with
    arrived := q.arrived.adjust op.square fun l => l.filter (· != id)
    work := q.work.del id
    snaps := q.snaps.del id }

/-- A thread's operations of a Square, in issue order. -/
def State.sqOpsOf (s : State) (tid key : Nat) : List (Nat × EngOp) :=
  s.ops.cells.filter fun p => p.2.tid == tid && p.2.square == key && (match p.2.kind with | .square _ => true | _ => false)

/-- End an operation and return its result (R470). -/
def State.sqAnswer (s : State) (id : Nat) (op : EngOp) : State :=
  (s.freeOp id op).post (.pendingValueArrival [op.tid] op.late op.result none)

/-- An operation has its result. The results of one thread's operations of a Square return in issue order (R260), so that one behind a commit whose plan is not yet in force is kept until then. -/
def State.sqReturn (s : State) (id : Nat) (op : EngOp) (word : Nat) : State :=
  let s := (s.leaveSquare id op).updOp id fun x => { x with phase := .ended, result := word }
  ((s.sqOpsOf op.tid op.square).takeWhile fun p => p.2.phase == .ended).foldl (fun s p => s.sqAnswer p.1 p.2) s

/-- After a step. -/
def State.afterSquare (s : State) (id : Nat) (op : EngOp) (r : SqDone) : State :=
  match r with
  | .again | .more => s.post (.engineOperationStart id)
  | .fin w => s.sqReturn id op w
  | .pending => (s.updOp id fun op => { op with phase := .acking }).leaveSquare id op
  | .flt f =>
    if f.code = 0x07 ∨ f.code = 0x0D then
      (s.updOp id fun op => { op with phase := .suspended, fault := some (f.code, f.tval, false) }).fwEvent fun n => { num := n, op := some id }
    else (s.updOp id fun op => { op with fault := some (f.code, f.tval, false) }).post (.engineOperationEnd id)

/-- Whether an earlier operation of the same bundle has not arrived (R470). -/
def State.bundleBefore (s : State) (id : Nat) (op : EngOp) : Bool :=
  s.ops.any fun k q => decide (k < id) && q.late == op.late && (q.phase == .queued || q.phase == .through)

/-- An operation is sent and arrives at its Square: the thread continues. -/
def State.arriveSquare (s : State) (id : Nat) (op : EngOp) : State :=
  let s := s.updThread op.tid fun t => if t.status = .waiting .sending then t.go else t
  let snaps (q : SqState) : FMap (FMap Nat) := if op.kind = .square .sqload then q.snaps.put id q.learned else q.snaps
  let s := s.updSq fun q => { q with arrived := q.arrived.put op.square (q.arrived.getD op.square [] ++ [id]), snaps := snaps q }
  (s.updOp id fun op => { op with phase := .running }).post (.engineOperationStart id)

/-- Start or go on with a Square operation: the core's writes and the die's are acknowledged before it is sent (R143, R158). -/
def State.startSquare (s : State) (id : Nat) (op : EngOp) : State :=
  match op.phase with
  | .queued =>
    if s.coreQuiet op.core id then ((s.dieWriteThrough (dieOf op.core)).updOp id fun op => { op with phase := .through }).post (.engineOperationStart id)
    else s.post (.engineOperationStart id)
  | .through =>
    if s.dieQuiet (dieOf op.core) && !s.bundleBefore id op then s.arriveSquare id op else s.post (.engineOperationStart id)
  | .running =>
    if (s.sq.arrived.getD op.square []).head? ≠ some id then s.post (.engineOperationStart id)
    else
      let (s, r) := s.squareStep id op
      s.afterSquare id op r
  | _ => s

/-- COUNT of an operation that a fault ends (R469): moves written, or moves applied. -/
def EngOp.faultCount (op : EngOp) : Nat :=
  match op.kind with
  | .square .sqlegal => op.pos
  | .square .sqplayList | .square .sqcheck | .square .sqcommit => op.krows
  | _ => 0

/-- End a Square operation on a fault: MALFORMED with DETAIL 15 (R470). -/
def State.endSquare (s : State) (id : Nat) (op : EngOp) : State :=
  s.sqReturn id op (sqWord ⟨2, 15⟩ op.faultCount (s.square op.square).version)

end Sys2Proof.Machine
end

