-- ==== Sys2Proof/Machine/Queues.lean ====
section
/-!
DEFINITION. Queues as the command processor works on them: control blocks, halts, prefetch and the order of packets (R293 to R298, R303 to R305, R307), and the start and end of every engine operation (R162 to R168, R298).
-/
namespace Sys2Proof.Machine

/-! ### Control blocks (R295, R307) -/

/-- The copy of a control block in force. -/
def Queue.cb (q : Queue) : QCopy := if q.index % 2 = 0 then q.a else q.b

/-- CONTROL_BLOCK_FLIP: the copy not selected is written, then the index word flips. -/
def Queue.flip (q : Queue) (c : QCopy) : Queue := if q.index % 2 = 0 then { q with b := c, index := 1 } else { q with a := c, index := 0 }

/-- An event's change of a control block; a block that already carries the event's number stays. -/
def Queue.change (q : Queue) (n : Nat) (f : QCopy → QCopy) : Queue := if q.cb.seq = n then q else q.flip { f q.cb with seq := n }

/-- A queue. -/
def State.queue? (s : State) (q : Nat) : Option Queue := s.fw.queues.get? q

/-- Change a queue. -/
def State.updRing (s : State) (q : Nat) (f : Queue → Queue) : State := s.updFw fun w => { w with queues := w.queues.adjust q f }

/-- Change a queue's control block: a firmware event leaves its number in SEQ, the command processor's own changes leave SEQ as it is (R295, R307, log 142). -/
def State.updBlock (s : State) (q : Nat) (ev : Option Nat) (f : QCopy → QCopy) : State :=
  s.updRing q fun x => match ev with
    | some n => x.change n f
    | none => x.flip (f x.cb)

/-- Whether a queue processes packets: RUNNING, in a context that has not ended, and no checkpoint holds it (R295, R316, R509). -/
def State.queueRuns (s : State) (x : Queue) : Bool :=
  x.cb.state == 1 && !s.fw.drain && ((s.ctx? x.ctx).map fun c => !c.ended).getD false

/-- Free the monitors of a queue's tail word and signals. -/
def State.freeWaits (s : State) (q : Nat) : State :=
  (s.mem.mons.filter fun m => match m.who with | .tail k => k == q | .sig k => k == q | _ => false).foldl (fun s m => s.unregister m) s

/-- Ask for the frames of a queue's ended launches to be freed (R300). -/
def State.askFree (s : State) (q : Nat) : State :=
  (s.fw.launches.cells.filter fun p => p.2.queue == q && p.2.ended).foldl (fun (s : State) p => s.postOnce (.launchEnd p.1)) s

/-- The index of the ring packet that a queue works on: the head (R297, R305). -/
def State.headOf (s : State) (q : Nat) : Nat := ((s.queue? q).map fun x => x.cb.head).getD 0

/-- A firmware event halts a queue at a packet (R295, R297): nothing further is processed until a restart. -/
def State.halt (s : State) (q cause fault index : Nat) (ev : Option Nat) : State :=
  let s := s.freeWaits q
  let s := s.updBlock q ev fun c => { c with state := 2, hcause := cause, qfault := fault, qval := index }
  (s.updRing q fun x => { x with cur := none, levels := [], fetched := [] }).askFree q

/-- The command processor hands a halt over to firmware (R306). -/
def State.haltEvent (s : State) (q cause fault index : Nat) : State :=
  s.fwEvent fun n => { num := n, queue := some q, halt := some (cause, fault, index) }

/-- Whether a halt of a queue has been handed over and has not run. -/
def State.halting (s : State) (q : Nat) : Bool := s.fw.events.any fun e => e.queue == some q && e.halt.isSome

/-- The command processor as the maker of an access in a queue's context; a COMPLETE carries the tag of the launch it follows (R179). -/
def State.queueOp (s : State) (q : Nat) (x : Queue) : EngOp :=
  { kind := .fwWrite q, core := ((s.ctx? x.ctx).map (·.pfirst)).getD 0, crew := 0, ctx := x.ctx, tid := 0,
    tag := if x.cur.any fun p => bitsAt (p.headD 0) 0 8 == 8 then x.tag else s.curTag }
/-! ### Packets (R296, R297) -/

/-- A quadword of a packet. -/
def pq (p : List Nat) (n : Nat) : Nat := (p[n]?).getD 0
/-- TYPE. -/
def pktType (p : List Nat) : Nat := bitsAt (pq p 0) 0 8
/-- BAR. -/
def pktBar (p : List Nat) : Bool := (pq p 0).testBit 8
/-- OVERLAP. -/
def pktOverlap (p : List Nat) : Bool := (pq p 0).testBit 9

/-- The number of header bits above 16 that a type names, and of its quadwords. -/
def pktShape : Nat → Nat × Nat
  | 1 => (4, 4)
  | 2 => (2, 3)
  | 3 => (1, 2)
  | 4 => (0, 3)
  | 6 => (0, 2)
  | 7 => (0, 3)
  | 8 => (0, 2)
  | _ => (0, 0)

/-- Whether a packet of a known type is malformed by its fields (R297). -/
def pktBad (p : List Nat) : Bool :=
  let t := pktType p
  let h := pq p 0
  let (ops, quads) := pktShape t
  bitsAt h 10 6 != 0 || (h.testBit 9 && t != 1) || bitsAt h (16 + ops) (48 - ops) != 0 ||
  (List.range 8).any (fun i => decide (quads < i) && pq p i != 0) ||
  (match t with
    | 1 => bitsAt h 16 2 == 3 || pq p 1 % 64 != 0 || decide (2 ^ 16 ≤ pq p 2) || bitsAt (pq p 4) 0 11 == 0 ||
        decide (1024 < bitsAt (pq p 4) 0 11) || bitsAt (pq p 4) 11 5 != 0 || bitsAt (pq p 4) 32 32 != 0
    | 2 => bitsAt h 16 2 == 0 || (List.range (bitsAt h 16 2)).any fun j => pq p (j + 1) % 8 != 0
    | 3 => pq p 1 % 8 != 0
    | 4 => pq p 3 == 0 || decide (2 ^ 40 < pq p 3)
    | 6 => pq p 1 % 64 != 0 || pq p 2 == 0 || decide (65536 < pq p 2)
    | 7 => pq p 1 % 64 != 0 || pq p 2 == 0 || decide (65535 < pq p 2) || pq p 3 % 64 != 0
    | 8 => pq p 1 % 8 != 0
    | _ => false)

/-- The step that processes a packet of a type. -/
def pktStep (q : Nat) : Nat → Instr
  | 1 => .packetLaunch q
  | 2 => .packetWaitsig q
  | 3 => .packetSignal q
  | 4 => .packetCopy q
  | 5 => .packetFetchfence q
  | 6 => .packetIndirect q
  | 7 => .packetPlan q
  | 8 => .packetComplete q
  | _ => .packetNop q

/-- The number of the firmware event that runs the packet in hand (R306). -/
def State.packetEvent (s : State) (q : Nat) : Option Nat :=
  match (s.queue? q).bind (·.cur) with
  | some p => (s.fwRunning (pktStep q (pktType p))).map fun e => e.2.num
  | none => none

/-- Halt a queue at its ring packet: the event that runs the packet does it, else the command processor hands the halt over (R306). -/
def State.stopQueue (s : State) (q cause fault : Nat) : State :=
  match s.packetEvent q with
  | some n => s.halt q cause fault (s.headOf q) (some n)
  | none => s.haltEvent q cause fault (s.headOf q)

/-- Halt a queue on a malformed packet (R297). -/
def State.malformed (s : State) (q : Nat) : State := s.stopQueue q 2 0

/-- A fault of an access for a queue: ACCESS halts it, a firmware-first fault goes to firmware (R297). -/
def State.queueFault (s : State) (q : Nat) (x : Queue) (again : Instr) (f : Flt) : State :=
  if f.code = 0x08 then s.stopQueue q 1 0x08
  else
    let (s, id) := s.draw
    let op : EngOp := { s.queueOp q x with kind := .queueAccess q again, phase := .suspended, fault := some (f.code, f.tval, false) }
    { s with ops := s.ops.put id op }.fwEvent fun n => { num := n, queue := some q, op := some id }

/-- Whether an access of a queue, or its halt, is with firmware. -/
def State.queueHeld (s : State) (q : Nat) : Bool :=
  s.halting q || s.ops.any fun _ o => match o.kind with | .queueAccess k _ => k == q | _ => false

/-- The packet in hand is looked at again. -/
def State.pokeQueue (s : State) (q : Nat) : State :=
  match (s.queue? q).bind (·.cur) with
  | some p => s.postOnce (pktStep q (pktType p))
  | none => s

/-! ### The order of packets (R298, R303 to R305) -/

/-- The packet in hand is finished: a ring packet moves HEAD and the head word on (R295, R298). -/
def State.finishPacket (s : State) (q : Nat) : State :=
  match s.queue? q with
  | none => s
  | some x =>
    let ev := s.packetEvent q
    let tag := (s.queueOp q x).tag
    let s := s.updRing q fun x => { x with cur := none }
    let s := if x.levels.isEmpty then
        (s.updBlock q ev fun c => { c with head := (c.head + 1) % 2 ^ 64 }).fwWrite x.ctx q tag x.cb.heada ((x.cb.head + 1) % 2 ^ 64)
      else s
    s.postOnce (.commandProcessorPrefetch q)

/-- Take a packet in hand: a barrier packet of an aborting queue is skipped, a malformed one halts the queue (R297, R303). -/
def State.takePacket (s : State) (q : Nat) (x : Queue) (p : List Nat) : State :=
  let skip := x.abort && pktBar p
  let s := (s.updRing q fun _ => { x with cur := some p, abort := skip }).postOnce (.commandProcessorPrefetch q)
  if 8 < pktType p then s.malformed q
  else if skip then s.finishPacket q
  else if pktBad p then s.malformed q
  else s.post (pktStep q (pktType p))

/-- Take the next packet, ask for it, close a finished buffer (R305), or wait for the tail (R294). -/
def State.queueGo (s : State) (q : Nat) : State :=
  match s.queue? q with
  | none => s
  | some x =>
    if !s.queueRuns x || x.cur.isSome || s.queueHeld q then s
    else
      match x.levels, x.fetched with
      | [], p :: r => s.takePacket q { x with fetched := r } p
      | [], [] => if x.cb.head < x.tail then s.postOnce (.commandProcessorPrefetch q) else s.postOnce (.tailWordWake q)
      | l :: ls, _ =>
        match l.fetched with
        | p :: r => s.takePacket q { x with levels := { l with fetched := r, next := l.next + 1 } :: ls } p
        | [] => if l.next < l.count then s.postOnce (.commandProcessorPrefetch q)
          else (s.updRing q fun x => { x with levels := ls }).finishPacket q

/-- The address of the next packet to read at the current level, up to 8 packets ahead and below the tail (R304). -/
def Queue.nextRead (x : Queue) : Option Nat :=
  let c := x.cb
  match x.levels with
  | [] =>
    let i := c.head + (if x.cur.isSome then 1 else 0) + x.fetched.length
    if i < x.tail ∧ x.fetched.length < 8 then some (c.base + i % 2 ^ c.logn * 64) else none
  | l :: _ =>
    let i := l.next + l.fetched.length
    if i < l.count ∧ l.fetched.length < 8 then some (l.addr + i * 64) else none

/-- Keep a packet that was read at the current level. -/
def Queue.keep (x : Queue) (p : List Nat) : Queue :=
  match x.levels with
  | [] => { x with fetched := x.fetched ++ [p] }
  | l :: ls => { x with levels := { l with fetched := l.fetched ++ [p] } :: ls }

/-- Whether nothing that was read is left at the current level. -/
def Queue.dry (x : Queue) : Bool := match x.levels with | [] => x.fetched.isEmpty | l :: _ => l.fetched.isEmpty

/-- The eight quadwords of a packet. -/
def packetOf (b : List Byte) : List Nat := (List.range 8).map fun i => natOf ((b.drop (8 * i)).take 8)

/-- COMMAND_PROCESSOR_PREFETCH (R304): one packet is read; a fault matters only for the packet that is needed next. -/
def State.prefetchPacket (s : State) (q : Nat) : State :=
  match s.queue? q with
  | none => s
  | some x =>
    if !s.queueRuns x || s.queueHeld q then s
    else
      match x.nextRead with
      | none => s.queueGo q
      | some va =>
        match s.unitRead1 (s.queueOp q x) (va % 2 ^ 64) 64 with
        | (s, .ok b) => (s.updRing q fun x => x.keep (packetOf b)).queueGo q
        | (s, .wait) => s.post (.commandProcessorPrefetch q)
        | (s, .flt f) => if x.cur.isNone && x.dry then s.queueFault q x (.commandProcessorPrefetch q) f else s.queueGo q

/-- COMMAND_PROCESSOR_PREFETCH. -/
def execCommandProcessorPrefetch (queue : Nat) (s : State) : Out := .next (s.prefetchPacket queue)

/-- The launches of a queue that have not ended. -/
def State.launchesOf (s : State) (q : Nat) : List (Nat × Launch) := s.fw.launches.cells.filter fun p => p.2.queue == q && !p.2.ended

/-- Whether an earlier launch or copy of a queue has not ended (R298). -/
def State.earlierOpen (s : State) (q : Nat) (x : Queue) : Bool := !(s.launchesOf q).isEmpty || !x.copies.isEmpty

/-- Process the packet in hand, when it is of a type and the queue may act. -/
def State.onPacket (s : State) (q type : Nat) (f : State → Queue → List Nat → State) : State :=
  match s.queue? q with
  | none => s
  | some x =>
    match x.cur with
    | some p => if s.queueRuns x && !s.queueHeld q && pktType p == type then f s x p else s
    | none => s

/-! ### The operations that serve queues -/

/-- The next chunk of a COPY within one line on both sides (R298). -/
def copyChunk (src dst left : Nat) : Nat := min left (min (128 - src % 128) (128 - dst % 128))

/-- One chunk of a COPY packet's copy. -/
def State.copyUnit (s : State) (id : Nat) (op : EngOp) : State × Verdict :=
  let src := (op.arg 0 + op.pos) % 2 ^ 64
  let dst := (op.arg 1 + op.pos) % 2 ^ 64
  let n := copyChunk src dst (op.arg 2 - op.pos)
  match s.unitRead1 op src n with
  | (s, .flt f) => (s, .flt f)
  | (s, .wait) => (s, .again)
  | (s, .ok b) =>
    match s.unitWrite op dst b with
    | (s, .flt f) => (s, .flt f)
    | (s, .wait) => (s, .again)
    | (s, .ok ()) => (s.updOp id fun op => { op with pos := op.pos + n }, if op.pos + n < op.arg 2 then .more else .done)

/-- Whether an earlier write of the same word by the command processor or by firmware has not been performed. -/
def State.writeBefore (s : State) (id : Nat) (op : EngOp) : Bool :=
  s.ops.any fun k o => decide (k < id) && o.ctx == op.ctx && o.ea == op.ea && (match o.kind with | .fwWrite _ => true | _ => false)

/-- A write of a 64-bit word by the command processor or by firmware, in order for each word. -/
def State.wordUnit (s : State) (id : Nat) (op : EngOp) : State × Verdict :=
  if s.writeBefore id op then (s, .again)
  else
    match s.unitWrite op op.ea (bytesOf 8 op.setv) with
    | (s, .flt f) => (s, .flt f)
    | (s, .wait) => (s, .again)
    | (s, .ok ()) => (s, .done)

/-- ENGINE_OPERATION_START: one unit of an operation's work. -/
def State.startOp (s : State) (id : Nat) (op : EngOp) : State :=
  match op.kind with
  | .square _ => s.startSquare id op
  | .fwCopy _ =>
    let (s, v) := s.copyUnit id op
    s.afterUnit id v
  | .fwWrite _ =>
    let (s, v) := s.wordUnit id op
    s.afterUnit id v
  | .queueAccess _ again => { s with ops := s.ops.del id }.post again
  | _ => s.startEngine id op

/-- ENGINE_OPERATION_START. -/
def execEngineOperationStart (id : Nat) (s : State) : Out :=
  .next (match s.ops.get? id with
    | some op => if op.phase = .suspended then s else s.startOp id op
    | none => s)

/-- The index of the packet that an operation is for: a COPY's own, which others may have followed (R297). -/
def State.opIndex (s : State) (q : Nat) (op : EngOp) : Nat := match op.kind with | .fwCopy _ => op.arg 3 | _ => s.headOf q

/-- Hand over the halt of a queue on the fault that an operation for it ended on (R297, R306). -/
def State.opHalt (s : State) (q : Nat) (op : EngOp) : State :=
  match op.fault with
  | some (code, _, _) => if q = 0 then s else s.haltEvent q 1 code (s.opIndex q op)
  | none => s

/-- ENGINE_OPERATION_END. -/
def State.endOp (s : State) (id : Nat) (op : EngOp) : State :=
  match op.kind with
  | .square _ => s.endSquare id op
  | .fwCopy q =>
    let s := { s with ops := s.ops.del id }.updRing q fun x => { x with copies := x.copies.filter (· != id) }
    (s.opHalt q op).pokeQueue q
  | .fwWrite q => { s with ops := s.ops.del id }.opHalt q op
  | .queueAccess q _ => { s with ops := s.ops.del id }.opHalt q op
  | _ => s.endEngine id op

/-- ENGINE_OPERATION_END. -/
def execEngineOperationEnd (id : Nat) (s : State) : Out :=
  .next (match s.ops.get? id with
    | some op => if op.phase = .suspended then s else s.endOp id op
    | none => s)

end Sys2Proof.Machine
end

