-- ==== Sys2Proof/Machine/Preempt.lean ====
section
/-!
DEFINITION. Taking cores away from crews: discard, save and resume of a crew, and the end of a context (R178, R288, R290, R316, R319 to R323, R327).
-/
namespace Sys2Proof.Machine

/-! ### Stopping a crew -/

/-- Whether an event in flight concerns a thread that a test names, other than a walk. -/
def aboutThread (f : Nat → Bool) : Instr → Bool
  | .cellOperationRequest c => f c.tid
  | .spoilListHeldRegistration c => f c.tid
  | .peerWindowRequest tid _ _ _ _ => f tid
  | .illTimedReport tid => f tid
  | .remoteBarrierArrival tid _ _ _ => f tid
  | .remoteQueueRequest tid _ _ _ _ _ _ _ => f tid
  | .pendingValueArrival tids _ _ _ => tids.any f
  | .peerLinkRequest (.cell c) => f c.tid
  | .peerLinkRequest (.red tid _ _ _ _) => f tid
  | .peerLinkRequest (.wake tid _) => f tid
  | _ => false

/-- Drop the walks that threads asked for: they ask again when they issue again. -/
def State.dropWalks (s : State) (f : Nat → Bool) : State :=
  { s with due := s.due.filter fun e => match e with | .pageWalk _ _ _ _ reqs => !reqs.any fun r => r.2.any f | _ => true }

/-- A thread of a crew. -/
def State.isOf (s : State) (crew tid : Nat) : Bool := ((s.threads.get? tid).map fun t => t.crew == crew).getD false

/-- Stop a crew's issue: for a save where its groups' next boundaries are, for a discard where its threads stand (R320, R322). -/
def State.stopCrew (s : State) (k : Nat) (halt : Bool) : State := s.updCrew k fun c => { c with phase := .saving, halt := halt }

/-- A discard drops the giving operations whose writes have not been performed: the write-backs already made stand (R150). -/
def State.dropGiving (s : State) (k : Nat) : State :=
  let mine (e : Instr) : Option CellOp := match e with | .cellOperationRequest c => if c.giving && s.isOf k c.tid then some c else none | _ => none
  (s.due.filterMap mine).foldl (fun (s : State) c => s.cancelCell c) { s with due := s.due.filter fun e => (mine e).isNone }

/-- Whether an operation must end before its crew's resources go: all but a Square operation that has arrived (R170, R322). -/
def EngOp.holds (o : EngOp) : Bool :=
  o.phase != .ended && (match o.kind with | .square _ => o.phase == .queued || o.phase == .through | _ => true)

/-- A thread that has sent something and not heard, or for which firmware spills and reloads an accumulator (R333). -/
def Thread.awaitsAck (t : Thread) : Bool :=
  !t.takes.isEmpty || (match t.status with | .waiting .sending | .waiting (.acks _) | .waiting (.firstUse _) => true | _ => false)

/-- Whether the groups of a crew that stops stand where it is taken (R320, R322). -/
def State.crewStands (s : State) (k : Nat) : Bool :=
  ((s.crews.get? k).map (·.halt)).getD false || !s.groups.keys.any fun n =>
    (s.threads.any fun i t => t.crew == k && gkey (coreOf i) t.group == n) && !s.atBoundary n

/-- Whether a stopped crew stands where it is taken and has nothing on its way: operations, reconciliations and messages (R150, R170, R322). -/
def State.crewQuiet (s : State) (k : Nat) : Bool :=
  s.crewStands k && !s.due.any (aboutThread (s.isOf k)) && !(s.ops.any fun _ o => o.crew == k && o.holds) &&
    !(s.threads.any fun _ t => t.crew == k && t.awaitsAck)

/-! ### Names of threads in the tables -/

/-- A monitor of a thread under another name. -/
def Monitor.rename (m : Monitor) (f : Nat → Nat) : Monitor :=
  match m.who with
  | .waitw tid d ea => { m with who := .waitw (f tid) d ea }
  | .await tid late slot ty ea => { m with who := .await (f tid) late slot ty ea }
  | _ => m

/-- A crew's queue whose waiting threads have other names. -/
def CrewQueue.rename (q : CrewQueue) (f : Nat → Nat) : CrewQueue :=
  { q with pushers := q.pushers.map fun p => (f p.1, p.2), poppers := q.poppers.map f }

/-- A firmware event about a thread under another name. -/
def FwEvent.rename (e : FwEvent) (f : Nat → Nat) : FwEvent := { e with tid := e.tid.map f }

/-- A pair half done whose threads have other names. -/
def Issue.rename (i : Issue) (core group : Nat) (f : Nat → Nat) : Issue :=
  { i with core := core, group := group, slots := i.slots.map f, snap := i.snap.cells.foldl (fun m p => m.put (f p.1) p.2) FMap.empty }

/-- An event about threads under other names. -/
def renameEvent (f : Nat → Nat) : Instr → Instr
  | .pendingValueArrival tids late v bad => .pendingValueArrival (tids.map f) late v bad
  | .spoilListHeldRegistration c => .spoilListHeldRegistration { c with tid := f c.tid }
  | .peerLinkRequest (.wake tid t) => .peerLinkRequest (.wake (f tid) t)
  | .illTimedReport tid => .illTimedReport (f tid)
  | e => e

/-- Rename threads wherever they wait, and in the events on their way to them (R265, R323). -/
def State.renameWaits (s : State) (f : Nat → Nat) : State :=
  let s := { s with due := s.due.map (renameEvent f), threads := s.threads.map fun _ t => { t with mates := t.mates.map f } }
  let s := s.updMem fun m => { m with mons := m.mons.map fun x => x.rename f, held := m.held.map fun c => { c with tid := f c.tid } }
  let s := { s with
    ops := s.ops.map fun _ o => { o with tid := f o.tid }
    crews := s.crews.map fun _ c => { c with queues := c.queues.map fun _ q => q.rename f, saveMons := c.saveMons.map fun (x : Monitor) => x.rename f } }
  s.updFw fun w => { w with
    frames := w.frames.map fun _ r => { r with owner := r.owner.map f }
    launches := w.launches.map fun _ l => { l with disps := l.disps.map fun _ d => { d with wait := d.wait.map f } }
    events := w.events.map fun (e : FwEvent) => e.rename f
    running := w.running.map fun _ (e : FwEvent) => e.rename f
    waiting := w.waiting.map fun _ (e : FwEvent) => e.rename f }

/-! ### The scratchpad of a crew -/

/-- The crew offset of a physical offset in a crew's granules. -/
def Crew.offIn (c : Crew) (off : Nat) : Option Nat :=
  match c.granules.findIdx? (· == off / 8192) with
  | some i => some (i * 8192 + off % 8192)
  | none => none

/-- A core's scratchpad monitors in a crew's granules, by crew offset (R178). -/
def State.spadMons (s : State) (c : Crew) : List Monitor :=
  s.mem.mons.filterMap fun m =>
    match m.place with
    | .scratch k off => if k = c.core then (c.offIn off).map fun o => { m with place := .scratch k o } else none
    | .mem _ => none

/-- The listed bytes of a crew's scratchpad, by crew offset. -/
def State.spadBytes (s : State) (c : Crew) : LineBytes :=
  s.mem.scratch.cells.filterMap fun p => if p.1 / 2 ^ 19 = c.core then (c.offIn (p.1 % 2 ^ 19)).map fun o => (o, p.2) else none

/-- Give a crew's granules back to L1 (R62). -/
def State.freeGrans (s : State) (k : Nat) (c : Crew) : State :=
  let s := s.updCore c.core fun x => { x with lentOut := x.lentOut.filter fun g => !c.granules.contains g }
  (s.updCrew k fun c => { c with granules := [], released := true }).postOnce (.dispatchCrewStart c.core)

/-! ### DISCARD_PREEMPTION (R320) -/

/-- Forget firmware's events and held registrations about threads. -/
def State.forgetThreads (s : State) (f : Nat → Bool) : State :=
  let keep (e : FwEvent) : Bool := !((e.tid.map f).getD false)
  let s := s.updMem fun m => { m with held := m.held.filter fun c => !f c.tid }
  (s.updFw fun w => { w with
    events := w.events.filter keep
    running := w.running.filter fun _ e => keep e
    waiting := w.waiting.filter fun _ e => keep e
    launches := w.launches.map fun _ l => { l with disps := l.disps.map fun _ d => { d with wait := d.wait.filter fun k => !f k } } }).pokeFw

/-- A discarded crew as it is queued again: its handle, frame, argument records and tag stay (R320). -/
def Crew.again (c : Crew) : Crew :=
  { c with
    prio := c.ceil, phase := .queued, nosteal := true, edge := 0, kregs := FMap.empty, kgen := FMap.empty, bar := 0
    nbars := FMap.empty, queues := FMap.empty, codes := 0, retired := 0, discard := false, coords := [], live := 0, halt := false }

/-- Discard a crew that is quiet. -/
def State.discardNow (s : State) (k : Nat) (c : Crew) : State :=
  let tids := (s.threadsOf k).map Prod.fst
  let s := s.dropWalks tids.contains
  let s := tids.foldl (fun (s : State) n => s.removeThread n) (s.forgetThreads tids.contains)
  let s := s.updDisp c.launch c.lot (dieOf c.core) fun d => { d with coords := (d.coords ++ c.coords).mergeSort }
  let s := (s.freeGrans k c).updCrew k Crew.again
  (s.updCore c.core fun x => { x with queue := x.queue ++ [k] }).postOnce (.dispatchCrewStart c.core)

/-- DISCARD_PREEMPTION: the crew stops, and is discarded once its operations have run to their end; a crew that is not, or no longer, discardable is saved (R288, R333). -/
def execDiscardPreemption (crew : Nat) (s : State) : Out :=
  .next (match s.crews.get? crew with
    | none => s
    | some c =>
      match c.phase with
      | .running => (s.stopCrew crew c.discard).post (if c.discard then .discardPreemption crew else .savePreemption crew)
      | .saving =>
        if !c.discard then (s.updCrew crew fun c => { c with halt := false }).postOnce (.savePreemption crew)
        else
        let s := s.dropGiving crew
        if s.crewQuiet crew then s.discardNow crew c
        else s.post (.discardPreemption crew)
      | _ => s)

/-! ### SAVE_PREEMPTION (R322) -/

/-- The key of a saved crew's thread that stood in a slot. -/
def savedKey (crew slot : Nat) : Nat := (512 + crew) * 1024 + slot

/-- A thread as it is saved: a queued REGX.GET is withdrawn and issued again on resume (R248). -/
def Thread.stored (t : Thread) : Thread := { t with status := if t.status = .waiting .regx then .ready else t.status }

/-- Move threads to other keys, changed. -/
def State.moveThreads (s : State) (l : List (Nat × Thread)) (f : Nat → Nat) (g : Nat → Thread → Thread) : State :=
  let gone := l.foldl (fun (m : FMap Thread) p => m.del p.1) s.threads
  { s with threads := l.foldl (fun (m : FMap Thread) p => m.put (f p.1) (g p.1 p.2)) gone }

/-- Save a crew that is quiet, at its groups' boundaries: its threads, groups and scratchpad are copied out, its slots, granules and blocks freed. -/
def State.saveNow (s : State) (k : Nat) (c : Crew) : State :=
  let ts := s.threadsOf k
  let mine := ts.map Prod.fst
  let name (n : Nat) : Nat := if mine.contains n then savedKey k (slotOf n) else n
  let slots := (ts.map fun p => p.2.group).eraseDups
  let grps : FMap Group := slots.foldl (fun (m : FMap Group) g =>
    match s.groups.get? (gkey c.core g) with
    | some x => m.put g { x with half := x.half.map fun i => i.rename (512 + k) g name }
    | none => m) FMap.empty
  let spad := s.spadBytes c
  let mons := s.spadMons c
  let here (x : Monitor) : Bool := match x.place with | .scratch n off => n == c.core && (c.offIn off).isSome | .mem _ => false
  let s := (s.mem.mons.filter here).foldl (fun (s : State) m => s.unregister m) s
  let s := s.updCrew k fun c => { c with phase := .saved, saveGroups := grps, saveSpad := spad, saveMons := mons }
  let s := mine.foldl (fun (s : State) n => s.dropSymbols n) (s.dropWalks mine.contains)
  let s := s.updCore c.core fun x => { x with xqueue := x.xqueue.filter fun n => !mine.contains n }
  let s := (s.moveThreads ts name fun _ t => t.stored).renameWaits name
  let s := slots.foldl (fun (s : State) g => s.postOnce (.parkedSubgroupResume (512 + k) g)) s
  let s := slots.foldl (fun (s : State) g =>
    if (s.members c.core g).isEmpty then { s with groups := s.groups.del (gkey c.core g) } else s) s
  (s.freeGrans k c).postOnce (.regxBlockGrant c.core)

/-- SAVE_PREEMPTION: issue stops; once load-bound registers have arrived and operations and reconciliations have ended, the crew is saved. A queued crew leaves its queue. -/
def execSavePreemption (crew : Nat) (s : State) : Out :=
  .next (match s.crews.get? crew with
    | none => s
    | some c =>
      match c.phase with
      | .running => (s.stopCrew crew false).post (.savePreemption crew)
      | .saving =>
        if s.crewQuiet crew && !((s.threadsOf crew).any fun p => s.loadBound p.2) then s.saveNow crew c
        else s.post (.savePreemption crew)
      | .queued =>
        (s.updCore c.core (Core.unqueue · crew)).updCrew crew fun c => { c with phase := .saved }
      | .draining | .zeroed => s.post (.savePreemption crew)
      | .finished | .saved => s)

/-! ### CREW_RESUME (R323) -/

/-- The thread slots that a saved crew takes: each thread's own where it is free, else the lowest free ones. -/
def State.resumeSlots (s : State) (core : Nat) (old : List Nat) : Option (List (Nat × Nat)) :=
  let free := s.freeThreads core 1024
  let same := old.filter free.contains
  let moved := old.filter fun n => !free.contains n
  let rest := free.filter fun n => !same.contains n
  if rest.length < moved.length then none else some (same.map (fun n => (n, n)) ++ moved.zip rest)

/-- Copy one line of a thread-local block. -/
def State.copyTlsLine (s : State) (op : EngOp) (va dst : Nat) : State :=
  match s.opChunk op va 128 with
  | (s, .ok b) => (s.opStore op dst b).1
  | (s, _) => s

/-- Firmware copies a thread's 16 KiB block to its new slot (R323). -/
def State.copyTls (s : State) (core ctx a b : Nat) : State :=
  let op : EngOp := { kind := .fwWrite 0, core := core, crew := 0, ctx := ctx, tid := 0 }
  ((tlsLines a).zip (tlsLines b)).foldl (fun (s : State) p => s.copyTlsLine op p.1 p.2) s

/-- Firmware writes the kept lines of a thread's block to its new slot (R323). -/
def State.putTls (s : State) (core ctx a b : Nat) (kept : FMap (List Byte)) : State :=
  let op : EngOp := { kind := .fwWrite 0, core := core, crew := 0, ctx := ctx, tid := 0 }
  (kept.cells.filter fun p => p.1 / 128 == a).foldl (fun (s : State) p => (s.opStore op (tlsOf (core * 1024 + b) + 128 * (p.1 % 128)) p.2).1) s

/-- Put a late value's symbol back for a thread (R250). -/
def State.symbolFor (s : State) (core tid id : Nat) : State :=
  s.updCore core fun c => { c with symbols := c.symbols.put id ((c.symbols.getD id []) ++ [tid]) }

/-- Bind a resumed thread's saved forms again. -/
def State.rebind (s : State) (core tid : Nat) : State :=
  match s.threads.get? tid with
  | none => s
  | some t =>
    let ids := (t.regs.vals.filterMap fun r => match r.live? with | some (.sym id _) => some id | _ => none).eraseDups
    ids.foldl (fun (s : State) id => s.symbolFor core tid id) s

/-- The registration that a monitor stands for. -/
def Monitor.request (m : Monitor) : CellOp :=
  let ty : Ty := if m.wide then .n64 else .n32
  match m.who with
  | .waitw tid d ea => ⟨tid, .waitw m.cmp, ty, m.place, .coh, ea, m.oper, 0, none, d, 0, false, m.take, false, false, 0⟩
  | .await tid late slot t ea => ⟨tid, .await, t, m.place, .coh, ea, 0, 0, some late, .none, slot, false, false, false, false, 0⟩
  | _ => ⟨0, .await, ty, m.place, .coh, 0, 0, 0, none, .none, 0, false, false, false, false, 0⟩

/-- Register a saved scratchpad monitor again, at its new place; a full spoil list holds it (R177, R178). -/
def State.remonitor (s : State) (c : Crew) (m : Monitor) : State :=
  let m := match m.place with | .scratch k o => { m with place := .scratch k (c.spadOff o) } | .mem _ => m
  match s.register m with
  | some s => s
  | none => s.updMem fun x => { x with held := x.held ++ [m.request] }

/-- Write the saved scratchpad into a crew's new granules, which leave L1 (R60). -/
def State.fillGrans (s : State) (core : Nat) (gs : List Nat) (c : Crew) (b : LineBytes) : State :=
  let ways := (s.core core).l1.cells.filter fun p => gs.contains p.2.way
  let s := (ways.foldl (fun (s : State) p => s.evictL1 core p.1) s).zeroGranules core gs
  s.updMem fun m => { m with scratch := b.foldl (fun x p => x.write (scratchKey core (c.spadOff p.1)) p.2) m.scratch }

/-- Resume a saved crew in given thread and group slots. -/
def State.resumeIn (s : State) (k : Nat) (c : Crew) (slots : List (Nat × Nat)) (grps : List (Nat × Nat)) : State :=
  let core := c.core
  let name (n : Nat) : Nat := if n / 1024 = 512 + k then core * 1024 + ((slots.lookup (n % 1024)).getD 0) else n
  let gs := s.freeGranules core c.crec.granules
  let c' : Crew := { c with
    phase := .running, granules := gs, released := gs.isEmpty, saveGroups := FMap.empty, saveSpad := [], saveTls := FMap.empty, saveMons := [], remoteSaved := [] }
  let s := slots.foldl (fun (s : State) p =>
    if c.saveTls.has (p.1 * 128) then s.putTls core c.ctx p.1 p.2 c.saveTls
    else if p.1 = p.2 then s else s.copyTls core c.ctx (core * 1024 + p.1) (core * 1024 + p.2)) s
  let s := (s.enableFor core c.ctx).updCore core fun x => { x with lentOut := x.lentOut ++ gs }
  let s := (s.fillGrans core gs c' c.saveSpad).updCrew k fun _ => c'
  let ts := s.threadsOf k
  let s := s.moveThreads ts name fun _ t => { t with group := (grps.lookup t.group).getD t.group }
  let s := grps.foldl (fun (s : State) p =>
    match c.saveGroups.get? p.1 with
    | some g => { s with groups := s.groups.put (gkey core p.2) { g with half := g.half.map fun i => i.rename core p.2 name } }
    | none => s) (s.renameWaits name)
  let s := (c.saveMons.map fun m => m.rename name).foldl (fun (s : State) m => s.remonitor c' m) s
  let s := ts.foldl (fun (s : State) p => s.rebind core (name p.1)) s
  let s := grps.foldl (fun (s : State) p => s.postOnce (.parkedSubgroupResume core p.2)) s
  let s := c.remoteSaved.foldl (fun (s : State) x => (s.nbarArrive k none x.1 x.2).1) s
  (s.softInvalidate core).selfInvalidate (dieOf core)

/-- CREW_RESUME: on the core where it was saved, once its slots, groups, blocks and granules are free there. -/
def State.resumeCrew (s : State) (k : Nat) (c : Crew) : State :=
  let again (s : State) : State := s.post (.crewResume k)
  let ts := s.threadsOf k
  if ts.isEmpty then c.remoteSaved.foldl (fun (s : State) x => (s.nbarArrive k none x.1 x.2).1) (s.enqueue k { c with phase := .queued, remoteSaved := [] })
  else
    let asid := ((s.ctx? c.ctx).map (·.asid)).getD 0
    let gs := (ts.map fun p => p.2.group).eraseDups
    let free := s.freeGroups c.core gs.length
    let blocks := (c.saveGroups.filter fun _ g => g.block).size
    match s.resumeSlots c.core (ts.map fun p => slotOf p.1) with
    | none => again s
    | some slots =>
      let moved := slots.filter fun p => p.1 != p.2 || c.saveTls.has (p.1 * 128)
      let room := free.length == gs.length && (s.freeGranules c.core c.crec.granules).length == c.crec.granules &&
        decide ((s.groups.filter fun n g => n / 64 == c.core && g.block).size + blocks ≤ 16) &&
        (s.residents c.core ++ s.residents (mate c.core)).all (fun q => q.2.ctx == c.ctx) && s.coreFor c.core c && s.coreFor (mate c.core) c
      let quiet := moved.all fun p => s.tlsQuiet c.core asid (c.core * 1024 + p.1) && s.tlsQuiet c.core asid (c.core * 1024 + p.2)
      let (s, kept) := if room && quiet then s.keepBlocks c.core c.ctx asid k (slots.map Prod.snd) else (s, false)
      if kept then s.resumeIn k ((s.crews.get? k).getD c) slots (gs.zip free) else again s

/-- CREW_RESUME. -/
def execCrewResume (crew : Nat) (s : State) : Out :=
  .next (match s.crews.get? crew with
    | some c => if c.phase = .saved then s.resumeCrew crew c else s
    | none => s)

/-! ### CONTEXT_END (R316) -/

/-- Drop what is on its way for threads. -/
def State.dropDue (s : State) (f : Nat → Bool) : State :=
  let cut (e : Instr) : Option Instr :=
    match e with
    | .pendingValueArrival tids late v bad =>
      let l := tids.filter fun k => !f k
      if l.isEmpty then none else some (.pendingValueArrival l late v bad)
    | .pageWalk core asid pc need reqs => some (.pageWalk core asid pc need (reqs.map fun r => (r.1, r.2.filter fun k => !f k)))
    | e => if aboutThread f e then none else some e
  ({ s with due := s.due.filterMap cut }).updMem fun m =>
    { m with homes := m.homes.map fun _ h => { h with txn := h.txn.map fun (t : Txn) => { t with fin := t.fin.filter fun e => !aboutThread f e } } }

/-- Stop a crew for good, with no save. -/
def State.killCrew (s : State) (k : Nat) (c : Crew) : State :=
  let s := (s.threadsOf k).foldl (fun (s : State) p => s.removeThread p.1) s
  let s := s.updCore c.core fun x =>
    { x.unqueue k with lentOut := x.lentOut.filter fun g => !c.granules.contains g }
  { s with crews := s.crews.del k }.postOnce (.dispatchCrewStart c.core)

/-- Forget an engine operation. -/
def State.killOp (s : State) (id : Nat) (op : EngOp) : State := (s.leaveSquare id op).freeOp id op

/-- Forget what the square units hold for a context (R481, R494). -/
def State.killSquares (s : State) (ctx : Nat) : State :=
  let s := s.updSq fun q => { q with
    squares := q.squares.filter fun k _ => k / 16 != ctx
    arrived := q.arrived.filter fun k _ => k / 16 != ctx
    plans := q.plans.filter fun _ p => p.ctx != ctx
    changes := q.changes.filter fun c => c.ctx != ctx
    learned := q.learned.filter fun k _ => k / 2 ^ 76 != ctx
    cursor := q.cursor.del ctx }
  match s.sq.changes with
  | c :: _ => s.postOnce (if c.tag.isSome then .planRetire c.ctx c.id else .planFlip c.ctx c.id)
  | [] => s

/-- End a context: its crews stop at once, its queues halt; its pages and save areas stay. MOWN keeps its value (R327). -/
def State.endContext (s : State) (ctx : Nat) : State :=
  match s.ctx? ctx with
  | none => s
  | some x =>
    if x.ended then s
    else
      let tids := (s.threads.filter fun _ t => s.ctxOf t == ctx).keys
      let ids := (s.ops.filter fun _ o => o.ctx == ctx).keys
      let s := (s.dropDue tids.contains).forgetThreads tids.contains
      let s := (s.ops.cells.filter fun p => p.2.ctx == ctx).foldl (fun (s : State) p => s.killOp p.1 p.2) s
      let s := (s.crews.cells.filter fun p => p.2.ctx == ctx).foldl (fun (s : State) p => s.killCrew p.1 p.2) s
      let s := ((s.fw.queues.cells.filter fun p => p.2.ctx == ctx).map Prod.fst).foldl (fun (s : State) q => s.haltEvent q 1 0x0D (s.headOf q)) s
      let about (e : FwEvent) : Bool := (e.op.map ids.contains).getD false
      let s := s.updFw fun w => { w with
        launches := w.launches.filter fun _ l => l.ctx != ctx
        frames := w.frames.filter fun k _ => k / 2 ^ 57 != x.asid
        events := w.events.filter fun e => !about e
        running := w.running.filter fun _ e => !about e
        ctxs := w.ctxs.put ctx { x with ended := true, hold := none } }
      (s.killSquares ctx).pokeFw

/-- CONTEXT_END. -/
def execContextEnd (ctx : Nat) (s : State) : Out := .next (s.endContext ctx)

end Sys2Proof.Machine
end

