-- ==== Sys2Proof/Machine/Firmware.lean ====
section
/-!
DEFINITION. The Rololnov complex: events and their watchdog, firmware-first traps, shootdowns, migrations and mode changes, phase tags and firmware registers, context switches (R16, R48 to R55, R91, R179 to R182, R306, R307, R315, R324, R325).
-/
namespace Sys2Proof.Machine

/-! ### Events (R306, R307) -/

/-- Whether a queue's ordering lock is taken by an event that runs or waits for hardware. -/
def State.queueLocked (s : State) (q : Nat) : Bool :=
  s.fw.running.any (fun _ e => e.queue == some q) || s.fw.waiting.any fun _ e => e.queue == some q

/-- The oldest event whose queue's lock is free. -/
def State.nextEvent (s : State) : Option FwEvent :=
  s.fw.events.find? fun e => match e.queue with | some q => !s.queueLocked q | none => true

/-- The run of a halt that was handed over: a queue that runs is halted (R297, R306). -/
def State.runHalt (s : State) (e : FwEvent) (cause fault index : Nat) : State :=
  match e.queue with
  | some q => if ((s.queue? q).map fun x => x.cb.state == 1).getD false then s.halt q cause fault index (some e.num) else s
  | none => s

/-- FIRMWARE_EVENT_RUN: an idle firmware core takes the oldest event. Firmware runs once bring-up is complete (R510). -/
def execFirmwareEventRun (fwcore : Nat) (s : State) : Out :=
  .next (if 12 ≤ fwcore ∨ s.fw.running.has fwcore ∨ s.dev.step < 8 then s
    else
      match s.nextEvent with
      | none => s
      | some e =>
        let s := s.updFw fun w => { w with events := w.events.erase e }
        match e.halt with
        | some (cause, fault, index) => (s.runHalt e cause fault index).pokeFw
        | none =>
          let s := s.updFw fun w => { w with running := w.running.put fwcore e }
          let s := match e.act with | some i => s.post i | none => s
          s.pokeFw)

/-- FIRMWARE_EVENT_CONTINUATION: hardware reports completion, and the event is queued again. -/
def execFirmwareEventContinuation (ev : Nat) (s : State) : Out :=
  .next (match s.fw.waiting.get? ev with
    | some e => (s.updFw fun w => { w with waiting := w.waiting.del ev, events := w.events ++ [e] }).pokeFw
    | none => s)

/-! ### Page table entries (R31) -/

/-- The end of the thread-local areas of the 512 cores (R25). -/
def tlsEnd : Nat := 0x0100_0004_0000_0000

/-- Whether an address lies in root entries 16 to 30 at or beyond the end of the thread-local areas, where firmware makes no entry valid (R25). -/
def beyondTls (va : Nat) : Bool := decide (tlsEnd ≤ va % 2 ^ 57) && decide (va % 2 ^ 57 < 31 * 2 ^ 52)

/-- An entry as firmware writes it in root entries 16 to 30 (R25, R274): a leaf of a thread-local area has R, W and RED set, X clear, TGT = 0 and MODE COH; an entry for an address at or beyond their end is not valid. -/
def areaEntry (w : EntryWrite) : Nat :=
  let span := 2 ^ (if w.level = 0 then 52 else pageBits w.level)
  let lo := w.va % 2 ^ 57 / span * span
  if lo < 16 * 2 ^ 52 ∨ 31 * 2 ^ 52 ≤ lo then w.entry
  else if tlsEnd ≤ lo ∨ (pteLeaf w.entry ∧ tlsEnd < lo + span) then withBits w.entry 0 1 0
  else if pteLeaf w.entry then withBits (withBits (withBits (withBits w.entry 2 4 0) 6 2 3) 8 1 0) 11 1 1
  else w.entry

/-- A leaf of some context's table: ASID, address of the entry, entry, virtual address, number of frames, and the first frame by global physical address. -/
structure Mapping where
  asid  : Nat
  addr  : Nat
  entry : Nat
  va    : Nat
  n     : Nat
  frame : Nat
  deriving DecidableEq, Repr

/-- Every leaf of every context, valid or in migration, that maps device HBM or host memory, whose modes firmware chooses (R35, R91). -/
def State.allMappings (s : State) : List Mapping :=
  s.fw.ctxs.vals.flatMap fun c =>
    (leavesOf s.mem.bytes 4 0 c.root 0).filterMap fun (a, e, va) =>
      let (lo, n) := leafLines s.mem.bytes c va a e
      if pteTgt e < 2 then some { asid := c.asid, addr := a, entry := e, va := va, n := n / 512, frame := lo / 512 } else none

/-- Whether two mappings share a frame. -/
def Mapping.meets (a b : Mapping) : Bool := decide (a.frame < b.frame + b.n) && decide (b.frame < a.frame + a.n)

/-- The mappings that share frames with some, directly or through others: a mode change covers them all. -/
def growMappings (l : List Mapping) : Nat → List Mapping → List Mapping
  | 0, sel => sel
  | k + 1, sel =>
    match l.filter fun m => !sel.contains m && sel.any m.meets with
    | [] => sel
    | more => growMappings l k (sel ++ more)

/-- The mappings of a frame, and of the frames that their leaves map with it (R91). -/
def State.mappings (s : State) (frame : Nat) : List Mapping :=
  let l := s.allMappings
  growMappings l l.length (l.filter fun m => decide (m.frame ≤ frame) && decide (frame < m.frame + m.n))

/-- The mapping that an entry would make. -/
def mappingOf (w : EntryWrite) (asid addr : Nat) : Mapping :=
  { asid := asid, addr := addr, entry := w.entry, va := w.va, n := 2 ^ (pageBits w.level - 16), frame := leafGa w.level w.entry (w.va / 2 ^ pageBits w.level * 2 ^ pageBits w.level) / 65536 }

/-- Write one entry of a context's table; false when the tables above it do not exist. A leaf takes the mode that its frames are mapped with, and a change of their mode follows in the order of R91 (R91, log 144). -/
def State.writeEntry (s : State) (c : Context) (w : EntryWrite) : State × Bool :=
  match (if w.level ≤ 3 then entryAt s.mem.bytes w.va w.level 0 c.root else none) with
  | some a =>
    let w := { w with entry := areaEntry w }
    let m := mappingOf w c.asid a
    let old := if w.level ≠ 0 ∧ pteV w.entry ∧ pteLeaf w.entry ∧ pteTgt w.entry < 2 then s.allMappings.find? fun x => x.meets m else none
    match old with
    | some x =>
      let e := if obtained x.entry = obtained w.entry then w.entry else withBits w.entry 4 2 (pteMode x.entry)
      let s := s.homeWriteNat a 8 e
      (if e = w.entry then s else s.postOnce (.frameModeChange m.frame (pteMode w.entry)), true)
    | none => (s.homeWriteNat a 8 w.entry, true)
  | none => (s, false)

/-- Write entries in order; false when one could not be. -/
def State.writeEntries (s : State) (c : Context) (l : List EntryWrite) : State × Bool :=
  l.foldl (fun a w => let r := a.1.writeEntry c w; (r.1, a.2 && r.2)) (s, true)

/-! ### Shootdowns (R51, R52) -/

/-- Whether two ranges overlap. -/
def meetsRange (a n b m : Nat) : Bool := decide (a < b + m) && decide (b < a + n)

/-- Whether the tag of a buffered translation is one of an ASID in a range. -/
def leafIn (asid va len key : Nat) : Bool :=
  let bits := pageBits (key / 2 ^ 41 % 4)
  key / 2 ^ 43 % 2 ^ 16 == asid && meetsRange (key % 2 ^ 41 * 2 ^ bits) (2 ^ bits) va len

/-- A registration that a full spoil list holds is taken back: it has read nothing, and the thread issues its instruction again (R52, R177). -/
def State.unhold (s : State) (c : CellOp) : State :=
  let s := s.updMem fun m => { m with held := m.held.filter (· != c) }
  let s := s.updThread c.tid fun t =>
    { t with status := .ready, joins := t.joins.filter (fun x => c.late != some x), owed := t.owed.filter fun x => c.late != some x }
  match c.late with
  | some id => s.awaitDone id [c.tid]
  | none => s.checkMatesOf c.tid

/-- The registrations that a full spoil list holds for an ASID's range. -/
def State.heldIn (s : State) (asid va len : Nat) : List CellOp :=
  s.mem.held.filter fun c => (match c.place with | .mem _ => true | .scratch _ _ => false) && decide (va ≤ c.ea) && decide (c.ea < va + len) &&
    ((s.threads.get? c.tid).map fun t => s.asidOf t == asid).getD false

/-- Steps 2 and 3 of a shootdown: the buffers lose the range, registrations held for it are taken back, L1 lines of the range leave, and every die writes its SELF lines through. -/
def State.shootNow (s : State) (asid va len : Nat) : State :=
  let s := s.updMem fun m => { m with
    tlb := m.tlb.filter fun k _ => !leafIn asid va len k
    dtlb := m.dtlb.filter fun _ x => !leafIn asid va len x.tag }
  let s := (s.heldIn asid va len).foldl State.unhold s
  let s := s.cores.cells.foldl (fun (s : State) p =>
    (p.2.l1.keys.filter fun k => k / 2 ^ 50 == asid && meetsRange (k % 2 ^ 50 * 128) 128 va len).foldl (fun (s : State) k => s.evictL1 p.1 k) s) s
  (List.range 4).foldl (fun (s : State) d => s.dieWriteThrough d) s

/-- Whether an event is a fill on its way for an ASID. -/
def fillOf (asid : Nat) : Instr → Bool
  | .homeDieAccess _ (.fill f) _ => f.asid == asid
  | _ => false

/-- Whether an RDC line holds a fill for an ASID. -/
def RdcLine.fills (l : RdcLine) (asid : Nat) : Bool := l.works.any fun w => match w with | .fill f => f.asid == asid | _ => false

/-- Whether an event is a cell operation, read or write, that an ASID's thread made on a page, or one of a thread that has ended since. -/
def State.cellOfAsid (s : State) (asid : Nat) (e : Instr) : Bool :=
  let mine (tid : Nat) : Bool := ((s.threads.get? tid).map fun t => s.asidOf t == asid).getD true
  match e with
  | .cellOperationRequest c => (match c.place with | .mem _ => mine c.tid | .scratch _ _ => false)
  | .peerLinkRequest (.cell c) => mine c.tid
  | .peerLinkRequest (.red tid _ _ _ _) => mine tid
  | _ => false

/-- Step 4: every access translated under the old entry has been performed: loads, cell operations and registrations among them (R51). -/
def State.shootQuiet (s : State) (asid : Nat) : Bool :=
  !s.due.any (fillOf asid) && !s.mem.rdc.any (fun _ l => l.fills asid) && s.cores.all (fun _ c => !c.misses.any fun _ l => l.any fun f => f.asid == asid) &&
    !s.due.any (s.cellOfAsid asid) && s.cores.keys.all (fun c => s.coreQuiet c (2 ^ 64)) && (List.range 4).all fun d => s.dieQuiet d

/-- SHOOTDOWN: it is complete once every access under the old entry has been performed. -/
def execShootdown (asid va len : Nat) (s : State) : Out :=
  let i : Instr := .shootdown asid va len
  .next (s.viaFw i none (some asid) fun s _ =>
    let s := s.shootNow asid va len
    if s.shootQuiet asid then s.fwDone i else s.fwWait i 0)

/-! ### Firmware-first traps (R47 to R50, R54, R315) -/

/-- Firmware's event about a thread or an operation is finished. -/
def State.trapDone (s : State) (f : FwEvent → Bool) : State :=
  (s.updFw fun w => { w with
    events := w.events.filter fun e => !f e
    running := w.running.filter fun _ e => !f e }).pokeFw

/-- PARKED_SUBGROUP_RESUME: the threads of a parked sub-group of a group are Ready again once every one of their pages is resolved (R49). -/
def execParkedSubgroupResume (core group : Nat) (s : State) : Out :=
  .next (
    let mine (k : Nat) (t : Thread) : Bool := coreOf k == core && t.group == group
    let stuck := s.threads.cells.filterMap fun p =>
      match p.2.status with
      | .parked x => if mine p.1 p.2 && !x.done then some x.sub else none
      | _ => none
    { s with threads := s.threads.map fun k t =>
        match t.status with
        | .parked x => if mine k t && !stuck.contains x.sub then { t with status := .ready } else t
        | _ => t })

/-- Mark a parked thread's fault resolved, and let its sub-group look. -/
def State.resolvePark (s : State) (tid : Nat) : State :=
  match s.threads.get? tid with
  | some t =>
    match t.status with
    | .parked p => (s.updThread tid fun t => { t with status := .parked { p with done := true } }).postOnce (.parkedSubgroupResume (coreOf tid) t.group)
    | _ => s
  | none => s

/-- Whether an event is a migration or a mode change that has begun and has not resumed a page (R53, R91). -/
def State.moves (s : State) (asid va : Nat) (e : FwEvent) : Bool :=
  decide (0 < e.step) && (match e.act with
    | some (.pageMigration a v _) => a == asid && v % 2 ^ 57 / 65536 == va % 2 ^ 57 / 65536
    | some (.frameModeChange f _) => (s.mappings f).any fun m => m.asid == asid && decide (m.va ≤ va % 2 ^ 57) && decide (va % 2 ^ 57 < m.va + m.n * 65536)
    | _ => false)

/-- Whether the page of a fault is being migrated, from the mark to step 6, so that firmware never forwards it (R54). -/
def State.migrating (s : State) (asid va : Nat) : Bool :=
  (match s.ctxOfAsid asid with
    | some (_, c) =>
      (List.range 4).any fun level => match entryAt s.mem.bytes va level 0 c.root with
        | some a => isMarked (natOf (s.mem.bytes.readN a 8))
        | none => false
    | none => false) ||
  s.fw.events.any (s.moves asid va) || s.fw.running.any (fun _ e => s.moves asid va e) || s.fw.waiting.any fun _ e => s.moves asid va e

/-- Forward a parked thread's fault to the user (R315, R317); for an affinity address the SPAWN is done again without it (R271). -/
def State.forwardPark (s : State) (tid : Nat) (t : Thread) (p : Park) : State :=
  let s := s.postOnce (.parkedSubgroupResume (coreOf tid) t.group)   -- the rest of the sub-group may wait for nothing more (R49)
  if p.aff then s.updThread tid fun t => { t with status := .ready, replay := true }
  else (s.updThread tid fun t => { t with status := .ready }).takeTrap tid p.code t.pc (BitVec.ofNat 64 p.tval) true

/-- The unit of an uncorrectable address has been read again correctly. -/
def State.reread (s : State) (asid va : Nat) : State :=
  match s.walk asid va with
  | .leaf level _ e => s.updMem fun m => { m with poison := m.poison.filter (· != leafGa level e va / 32) }
  | .fault _ _ => s

/-- What firmware decides on a parked thread; a page beyond the thread-local areas is forwarded (R25). -/
def State.decideThread (s : State) (tid : Nat) (t : Thread) (p : Park) (choice : FwChoice) : State :=
  let asid := s.asidOf t
  let va := p.tval % 2 ^ 57
  let mine (e : FwEvent) : Bool := e.tid == some tid
  match (if p.code = 0x07 ∧ beyondTls va then FwChoice.forward else choice) with
  | .resolve l =>
    let s := match s.ctxOfAsid asid with | some (_, c) => (s.writeEntries c l).1 | none => s
    (s.resolvePark tid).trapDone mine
  | .reread => ((s.reread asid va).resolvePark tid).trapDone mine
  | .forward => if p.code = 0x07 ∧ s.migrating asid va then s else (s.forwardPark tid t p).trapDone mine
  | .endContext => (s.endContext (s.ctxOf t)).trapDone mine

/-- What firmware decides on a suspended operation: it goes on, or ends on the fault (R50, R425, R470). -/
def State.decideOp (s : State) (n : Nat) (op : EngOp) (choice : FwChoice) : State :=
  let asid := s.opAsid op
  let (code, tval, _) := op.fault.getD (0, 0, false)
  let mine (e : FwEvent) : Bool := e.op == some n
  match (if code = 0x07 ∧ beyondTls (tval % 2 ^ 57) then FwChoice.forward else choice) with
  | .resolve l =>
    let s := match s.ctxOfAsid asid with | some (_, c) => (s.writeEntries c l).1 | none => s
    (s.post (.engineOperationResume n)).trapDone mine
  | .reread => ((s.reread asid (tval % 2 ^ 57)).post (.engineOperationResume n)).trapDone mine
  | .forward =>
    if code = 0x07 ∧ s.migrating asid (tval % 2 ^ 57) then s
    else ((s.updOp n fun op => { op with phase := .running, fault := some (code, tval, true) }).post (.engineOperationEnd n)).trapDone mine
  | .endContext => (s.endContext op.ctx).trapDone mine

/-- FIRMWARE_FIRST_TRAP_EVENT: firmware, running the event, decides. -/
def execFirmwareFirstTrapEvent (who : Faulter) (choice : FwChoice) (s : State) : Out :=
  .next (match who with
    | .thread tid =>
      match s.threads.get? tid, s.fw.running.find? fun _ e => e.tid == some tid with
      | some t, some _ => match t.status with | .parked p => s.decideThread tid t p choice | _ => s.trapDone fun e => e.tid == some tid
      | none, some _ => s.trapDone fun e => e.tid == some tid
      | _, none => s
    | .op n =>
      match s.ops.get? n, s.fw.running.find? fun _ e => e.op == some n with
      | some op, some _ => if op.phase = .suspended then s.decideOp n op choice else s.trapDone fun e => e.op == some n
      | none, some _ => s.trapDone fun e => e.op == some n
      | _, none => s)

/-! ### Pages that move or change their mode (R53, R91) -/

/-- The line that a message or request is about. -/
def msgLine : Instr → Option Nat
  | .homeDieAccess l _ _ | .rds _ l _ | .rdm _ l _ | .upg _ l _ | .rdg _ l _ _ | .wbm _ l _ | .inv _ l _ | .invAck _ l _ => some l
  | .gatherRecall _ l | .gatherData _ l _ _ | .data _ l _ _ | .grant _ l _ | .wbAck _ l | .retry _ l _ => some l
  | .retryBackoffExpiry _ l | .rdsU _ l | .wbmU _ l _ | .gatherDataU _ l _ _ | .hostMemrd l _ | .hostMemwr l _ | .birsp l _ => some l
  | .cellOperationRequest c => match c.place with | .mem ga => some (lineNo ga) | .scratch _ _ => none
  | _ => none

/-- Whether a line lies in a range of physical addresses. -/
def lineIn (lo len line : Nat) : Bool := decide (lo ≤ line * 128) && decide (line * 128 < lo + len)

/-- Whether nothing about a range of memory is in progress, and the host holds no copy of it. -/
def State.rangeQuiet (s : State) (lo len : Nat) : Bool :=
  !s.due.any (fun e => match msgLine e with | some l => lineIn lo len l | none => false) &&
    s.mem.homes.all fun l h => !lineIn lo len l || (h.txn.isNone && !s.hostCopy l true)

/-- Recall every copy and delta of a range to its home (R53 step 3); the host's copies are called with BISnpInv, which its BIRsp answers (R114). -/
def State.recallRange (s : State) (lo len : Nat) : State :=
  let s := (s.mem.homes.keys.filter (lineIn lo len)).foldl (fun (s : State) l => if s.quietLine l true then s.settle l true else s.callHost l true) s
  let keys := s.mem.rdc.keys.filter fun k => lineIn lo len (k % 2 ^ 60)
  keys.foldl (fun (s : State) k => s.setRdc (k / 2 ^ 60) (k % 2 ^ 60) {}) s

/-- An address moved from one frame to another. -/
def movedGa (old new ga : Nat) : Nat := if ga / 65536 = old then new * 65536 + ga % 65536 else ga

/-- A place moved from one frame to another. -/
def movedPlace (old new : Nat) : Place → Place
  | .mem ga => .mem (movedGa old new ga)
  | p => p

/-- A thread parked as on a page fault of a migrating page (R54). -/
def Thread.parkOn (t : Thread) (va sub : Nat) : Thread :=
  { t with status := .parked ⟨0x07, transTval va 3 0, va % 2 ^ 57 / 65536, false, false, sub⟩, restore := some t.latches }

/-- Free a thread's entry on a migrating page, and park the thread: a WAITW, which it stands at, and a held registration are issued again in full; an AWAIT that it has passed is registered again for it (R178). -/
def State.freeOnMove (s : State) (va old new : Nat) (m : Monitor) : State :=
  let sub := s.fresh
  match m.who with
  | .waitw tid _ _ => ((s.unregister m).updThread tid fun t => t.parkOn va sub).checkMatesOf tid
  | .await tid _ _ _ _ =>
    let r := m.request
    (s.unregister m).updThread tid fun t =>
      let t := { t with again := t.again ++ [{ r with place := movedPlace old new r.place }] }
      if t.status = .ready then t.parkOn va sub else t
  | _ => s

/-- Free the entries of threads on a migrating page; the command processor's move with it (R178). -/
def State.moveMons (s : State) (page old new : Nat) : State :=
  let off (p : Place) : Option Nat := match p with | .mem ga => if ga / 65536 = old then some (ga % 65536) else none | .scratch _ _ => none
  let s := (s.mem.mons.filter fun m => (off m.place).isSome).foldl (fun (s : State) m => { s.freeOnMove (page * 65536 + (off m.place).getD 0) old new m with fresh := s.fresh + 1 }) s
  let s := (s.mem.held.filter fun c => (off c.place).isSome).foldl (fun (s : State) c =>
    { ((s.unhold c).updThread c.tid fun t => t.parkOn (page * 65536 + (off c.place).getD 0) s.fresh).checkMatesOf c.tid with fresh := s.fresh + 1 }) s
  s.updMem fun m => { m with mons := m.mons.map fun x => { x with place := movedPlace old new x.place } }

/-- The records of frames and continuations follow the page. -/
def State.moveRecords (s : State) (old new : Nat) : State :=
  let s := s.updFw fun w => { w with frames := w.frames.map fun _ f => { f with ga := movedGa old new f.ga } }
  { s with crews := s.crews.map fun _ c => { c with cont := c.cont.map fun x => (movedPlace old new x.1, x.2) } }

/-- Copy a frame's 64 KiB to another frame (R53 step 4). -/
def State.copyFrame (s : State) (old new : Nat) : State :=
  s.updMem fun m =>
    let kept := m.bytes.filter fun k _ => k / 65536 != new
    { m with bytes := (m.bytes.cells.filter fun p => p.1 / 65536 == old).foldl (fun x p => x.write (new * 65536 + p.1 % 65536) p.2) kept }

/-- Whether a fault of an ASID is on a page. -/
def onPage (page tval : Nat) : Bool := tval % 2 ^ 57 / 65536 == page

/-- Resume every sub-group and operation that waits for a page (R53 step 6). -/
def State.resumePage (s : State) (asid page : Nat) : State :=
  let ts := s.threads.cells.filter fun p =>
    match p.2.status with | .parked x => x.code == 0x07 && onPage page x.tval && s.asidOf p.2 == asid | _ => false
  let os := s.ops.cells.filter fun p =>
    p.2.phase == .suspended && s.opAsid p.2 == asid && ((p.2.fault.map fun f => f.1 == 0x07 && onPage page f.2.1).getD false)
  let s := ts.foldl (fun (s : State) p => (s.resolvePark p.1).trapDone fun e => e.tid == some p.1) s
  let s := (s.threads.cells.filter fun p => s.asidOf p.2 == asid).foldl (fun (s : State) p =>
    let l := p.2.again.filter fun c => c.ea % 2 ^ 57 / 65536 == page
    l.foldl (fun (s : State) c => s.post (.cellOperationRequest { c with tid := p.1 })) (if l.isEmpty then s else s.updThread p.1 fun t => { t with again := t.again.filter fun c => !l.contains c })) s
  os.foldl (fun (s : State) p => (s.post (.engineOperationResume p.1)).trapDone fun e => e.op == some p.1) s

/-- The entry of a migrated page: the new frame, valid, A and D clear (R53 step 5, R54). -/
def newEntry (e frame : Nat) : Nat := withBits (withBits (unmarked e) 16 36 frame) 9 2 0

/-- A running event keeps a value for its later steps. -/
def State.fwKeep (s : State) (i : Instr) (x : Nat) : State :=
  match s.fwRunning i with
  | some (k, e) => s.updFw fun w => { w with running := w.running.put k { e with keep := x } }
  | none => s

/-- Whether a page can move: a valid 64 KiB leaf of device HBM whose frame is not exposed to the host (R55). -/
def movable (e : Nat) : Bool :=
  pteV e && pteLeaf e && pteTgt e == 0 && !badLeaf 3 e && populated (ptePfn e * 65536) && !Config.exposed (ptePfn e)

/-- Whether a page may migrate to a frame of populated memory. -/
def mayMigrate (e frame : Nat) : Bool := movable e && populated (frame * 65536)

/-- The steps of a migration: 0 mark and shoot down, 1 recall, copy, write the entry and shoot down again, 2 resume. -/
def State.migrate (s : State) (i : Instr) (ev : FwEvent) (asid va frame : Nat) : State :=
  let page := va % 2 ^ 57 / 65536
  let base := page * 65536
  match (s.ctxOfAsid asid).bind fun c => entryAt s.mem.bytes va 3 0 c.2.root with
  | none => s.fwDone i
  | some addr =>
    let e := s.memNat addr 8
    let old := ptePfn e
    if ev.step = 0 then
      if mayMigrate e frame then ((s.homeWriteNat addr 8 (marking e)).shootNow asid base 65536).fwWait i 1 else s.fwDone i
    else
      let s := s.shootNow asid base 65536
      if !s.shootQuiet asid then s.fwWait i ev.step
      else if ev.step = 1 then
        let s := s.recallRange (old * 65536) 65536
        if !s.rangeQuiet (old * 65536) 65536 then s.fwWait i 1
        else
          let s := ((s.moveMons page old frame).moveRecords old frame).copyFrame old frame
          (((s.homeWriteNat addr 8 (newEntry e frame)).shootNow asid base 65536).fwKeep i e).fwWait i 2
      else (s.resumePage asid page).fwDone i

/-- PAGE_MIGRATION: a 64 KiB page of an ASID moves to a frame. -/
def execPageMigration (asid va frame : Nat) (s : State) : Out :=
  let i : Instr := .pageMigration asid va frame
  .next (s.viaFw i none (some asid) fun s ev => s.migrate i ev asid va frame)

/-- Shoot down every mapping of a list. -/
def State.shootAll (s : State) (l : List Mapping) : State := l.foldl (fun (s : State) x => s.shootNow x.asid x.va (x.n * 65536)) s

/-- The steps of a mode change of a frame of device HBM or host memory: 0 shoot every mapping down, 1 recall and write the new entries, 2 resume. -/
def State.changeMode (s : State) (i : Instr) (ev : FwEvent) (frame mode : Nat) : State :=
  let l := s.mappings frame
  if ev.step = 0 then
    let s := l.foldl (fun (s : State) x => s.homeWriteNat x.addr 8 (marking x.entry)) s
    (s.shootAll l).fwWait i 1
  else
    let s := s.shootAll l
    if !(l.all fun x => s.shootQuiet x.asid) then s.fwWait i ev.step
    else if ev.step = 1 then
      let s := l.foldl (fun (s : State) x => s.recallRange (x.frame * 65536) (x.n * 65536)) s
      if !(l.all fun x => s.rangeQuiet (x.frame * 65536) (x.n * 65536)) then s.fwWait i 1
      else
        let s := l.foldl (fun (s : State) x => s.homeWriteNat x.addr 8 (withBits (unmarked x.entry) 4 2 mode)) s
        (s.shootAll l).fwWait i 2
    else
      (l.foldl (fun (s : State) x => (List.range x.n).foldl (fun (s : State) n => s.resumePage x.asid (x.va / 65536 + n)) s) s).fwDone i

/-- FRAME_MODE_CHANGE: every mapping of a frame gets a mode: 0 COH, 1 SELF, 2 NC. -/
def execFrameModeChange (frame mode : Nat) (s : State) : Out :=
  let i : Instr := .frameModeChange frame mode
  .next (s.viaFw i none none fun s ev => if 2 < mode then s.fwDone i else s.changeMode i ev frame mode)

/-! ### Phase tags (R179 to R182) -/

/-- Whether an un-ended launch counts for its tag: not while every crew of it is saved. -/
def State.launchCounts (s : State) (n : Nat) (l : Launch) : Bool :=
  let cs := s.crews.filter fun _ c => c.launch == n
  !l.ended && (cs.size == 0 || cs.any fun _ c => c.phase != .saved)

/-- The dies of a pitch, ascending. -/
def pitchDies (g : Game) (k : Nat) : List Nat :=
  let (a, b) := (g.board.lot k).pitch.span g.dev
  (List.range 4).filter (touches a (b - a))

/-- The die of a queue's command processor: that of the first core of its context's partition (log 95). -/
def State.queueDie (s : State) (ctx : Nat) : Nat := dieOf (((s.ctx? ctx).map (·.pfirst)).getD 0)

/-- Whether a launch that has not ended is held on a die: by the command processor and dispatchers of its queue's die and of its lots' pitches (R180, log 95). -/
def State.launchOn (s : State) (die : Nat) (l : Launch) : Bool :=
  s.queueDie l.ctx == die || (l.todo ++ l.lots).any fun k => (pitchDies l.game k).contains die

/-- Whether a queue's command processor holds a COMPLETE of a tag (R179, R180). -/
def Queue.completes (x : Queue) (tag : Nat) : Bool := x.tag == tag && x.cur.any fun p => pktType p == 8

/-- The thread, with the die, that an event on its way counts for. -/
def eventThread : Instr → Option Nat
  | .cellOperationRequest c => some c.tid
  | .spoilListHeldRegistration c => some c.tid
  | .peerWindowRequest tid _ _ _ _ => some tid
  | .remoteBarrierArrival tid _ _ _ => some tid
  | .remoteQueueRequest tid _ _ _ _ _ _ _ => some tid
  | .peerLinkRequest (.cell c) => some c.tid
  | .peerLinkRequest (.red tid _ _ _ _) => some tid
  | _ => none

/-- Whether a node of a die holds a store, request or message of a tag that is not finished: a core, an RDC slice or a link port (R179, R180). -/
def State.itemsOn (s : State) (die tag : Nat) : Bool :=
  (s.cores.any fun k c => dieOf k == die && c.tags.any fun line l => l.contains tag && c.busyOn line) ||
  (s.mem.rdcTags.any fun k l => k / 2 ^ 60 == die && l.contains tag && s.dieBusy die (k % 2 ^ 60)) ||
  s.due.any fun e => match eventThread e with
    | some tid => dieOf (coreOf tid) == die && s.threadTag tid == tag
    | none => false

/-- Whether a tag is quiet on a die: no node of the die counts an item for it, and no crew of it is resident, queued or shelved there (R180). -/
def State.quietOn (s : State) (die tag : Nat) : Bool :=
  !(s.crews.any fun _ c => c.tag == tag && dieOf c.core == die && c.phase != .saved) &&
  !(s.ops.any fun _ o => o.tag == tag && dieOf o.core == die) &&
  !(s.fw.launches.any fun n l => l.tag == tag && s.launchCounts n l && s.launchOn die l) &&
  !(s.fw.queues.any fun _ x => s.queueDie x.ctx == die && x.completes tag) && !s.itemsOn die tag

/-- Whether a tag is quiet on the package. -/
def State.tagQuiet (s : State) (tag : Nat) : Bool := (List.range 4).all fun d => s.quietOn d tag

/-- The phase register of a die: CUR, QUIET0 and QUIET1 (R181). -/
def State.phaseReg (s : State) (die : Nat) : Nat :=
  s.fw.cur.getD die 0 + (if s.quietOn die 0 then 2 else 0) + if s.quietOn die 1 then 4 else 0

/-- Write CUR of a die: ignored when the tag is not quiet there (R181). -/
def State.writePhase (s : State) (die value : Nat) : State :=
  if die < 4 ∧ s.quietOn die (value % 2) then s.updFw fun w => { w with cur := w.cur.put die (value % 2) } else s

/-- PHASE_REGISTER_WRITE. -/
def execPhaseRegisterWrite (die value : Nat) (s : State) : Out := .next (s.writePhase die value)

/-- Write the same CUR to all four dies, once the tag is quiet on each of them (R181, R324). -/
def State.setTag (s : State) (tag : Nat) : State :=
  if s.tagQuiet (tag % 2) then s.updFw fun w => { w with cur := (List.range 4).foldl (fun (m : FMap Nat) d => m.put d (tag % 2)) w.cur } else s

/-- FIRMWARE_REGISTER_WRITE: reserved fields ignore what is written (R16); DIRBI (R104), the phase register (R181) and the error counters (R516) have a layout. -/
def execFirmwareRegisterWrite (pa value : Nat) (s : State) : Out :=
  let off := pa - 0x8_0000_0000_0000
  let die := off / 0x0100_0000
  let reg := off % 0x0100_0000
  .next (if pa < 0x8_0000_0000_0000 ∨ 0x10_0000_0000_0000 ≤ pa ∨ pa % 8 ≠ 0 then s
    else if die < 4 ∧ reg = 0x4000 then s.updFw fun w => { w with dirbi := w.dirbi.put die (value % 2 ^ 48) }
    else if die < 4 ∧ reg = 0x4100 then s.writePhase die value
    else if die < 4 ∧ reg = 0x4200 then
      s.updFw fun w => { w with ce := w.ce.put die (value % 2 ^ 32), ue := w.ue.put die (bitsAt value 32 16) }
    else s.updFw fun w => { w with regs := w.regs.put pa (value % 2 ^ 64) })

/-! ### CONTEXT_SWITCH (R324, R325) -/

/-- The cores of a context's partition. -/
def Context.cores (c : Context) : List Nat := (List.range c.pcount).map (· + c.pfirst)

/-- Switch a core to a context: MEN follows MOWN (R325), and the core takes the context's skip age limit (R311, R506). Its mate, when it is given to another context, is given to none (R326, R480). -/
def State.switchCore (s : State) (core ctx : Nat) : State :=
  let limit := ((s.ctx? ctx).map (·.skip)).getD 16
  (s.updCore core fun c => { c with
    ctx := ctx
    ageLimit := limit
    men := if c.mown = ctx then [ctx] else c.men.filter (· != ctx) }).updCore (mate core) fun c => { c with ctx := if c.ctx = ctx then ctx else 0 }

/-- The crews that must be saved before a context takes its partition: those of the outgoing context, and those of other contexts resident on its cores or on their mates (R324, R480). -/
def State.inTheWay (s : State) (out inc : Nat) (c : Context) : List Nat :=
  (s.crews.filter fun _ x => x.phase != .saved && x.phase != .finished &&
    (x.ctx == out || (x.ctx != inc && x.resident && (c.cores.contains x.core || c.cores.contains (mate x.core))))).keys

/-- CONTEXT_SWITCH: every crew of the outgoing context is saved, CUR changes, and the incoming context takes the cores; its launches wait for the outgoing tag. -/
def execContextSwitch (out inc : Nat) (s : State) : Out :=
  .next (match s.ctx? inc with
    | none => s
    | some c =>
      let live := s.inTheWay out inc c
      let old := s.curTag
      if !live.isEmpty then (live.foldl (fun (s : State) k => s.postOnce (.savePreemption k)) s).post (.contextSwitch out inc)
      else if !s.tagQuiet (1 - old) then s.post (.contextSwitch out inc)
      else
        let s := c.cores.foldl (fun (s : State) k => s.switchCore k inc) (s.setTag (1 - old))
        let s := s.updFw fun w => { w with ctxs := w.ctxs.adjust inc fun c => { c with hold := some old } }
        let s := ((s.crews.filter fun _ x => x.ctx == inc && x.phase == .saved).keys).foldl (fun (s : State) k => s.post (.crewResume k)) s
        c.cores.foldl (fun (s : State) k => if (s.core k).queue.isEmpty then s else s.postOnce (.dispatchCrewStart k)) s)

/-! ### The watchdog (R307) -/

/-- Halt the queue an event serves. -/
def State.watchHalt (s : State) (e : FwEvent) : State := match e.queue with | some q => s.halt q 4 0 (s.headOf q) (some e.num) | none => s

/-- Finish the mailbox command in progress with a result (R505). -/
def State.mbFinish (s : State) (tag result : Nat) (payload : List Nat) : State :=
  { s with dev := { s.dev with status := result + tag % 2 ^ 16 * 2 ^ 32 + 2 ^ 63, payload := payload, busy := none } }

/-- The tag of a mailbox command. -/
def mboxOf : Instr → Option Mbox
  | .queueStart m _ _ _ _ _ | .queueStop m _ | .queueRestart m _ | .contextCreate m _ _ _ _ | .contextRelease m _ => some m
  | .setPartition m _ _ _ | .setPerm m _ _ _ _ | .setPlayer m _ _ _ | .setTiming m _ _ _ _ | .map m _ _ _ _ => some m
  | .readCounters m _ | .checkpoint m _ _ | .restore m _ _ | .attest m _ | .powerCap m _ | .download m _ _ | .setFabric m _ _ => some m
  | _ => none

/-- End every context that holds an ASID, and complete a shootdown of a range. -/
def State.abandon (s : State) (asid va len : Nat) : State :=
  let s := (s.fw.ctxs.cells.filter fun p => p.2.asid == asid).foldl (fun (s : State) p => s.endContext p.1) s
  s.post (.shootdown asid va len)

/-- Write the entries of a frame's or a page's mappings back valid. -/
def State.unmarkAll (s : State) (l : List (Nat × Nat)) : State :=
  l.foldl (fun (s : State) x => if isMarked x.2 then s.homeWriteNat x.1 8 (unmarked x.2) else s) s

/-- The fate of an event whose budget has expired three times in a row. -/
def State.eventFate (s : State) (e : FwEvent) : State :=
  match e.act with
  | none =>
    match e.tid, e.op with
    | some tid, _ =>
      match s.threads.get? tid with
      | some t => match t.status with
        | .parked p => if p.code = 0x07 ∧ s.migrating (s.asidOf t) (p.tval % 2 ^ 57) then s else s.forwardPark tid t p
        | _ => s
      | none => s
    | none, some n =>
      match s.ops.get? n with
      | some op =>
        let f := op.fault.getD (0, 0, false)
        if f.1 = 0x07 ∧ s.migrating (s.opAsid op) (f.2.1 % 2 ^ 57) then s
        else (s.updOp n fun op => { op with phase := .running, fault := some (f.1, f.2.1, true) }).post (.engineOperationEnd n)
      | none => s
    | none, none => s
  | some (.shootdown asid va len) => s.abandon asid va len
  | some (.pageMigration asid va _) =>
    let a := (s.ctxOfAsid asid).bind fun c => entryAt s.mem.bytes va 3 0 c.2.root
    let s := match a with
      | some a => if e.step = 2 then s.homeWriteNat a 8 (unmarked e.keep) else s.unmarkAll [(a, s.memNat a 8)]
      | none => s
    s.abandon asid (va / 65536 * 65536) 65536
  | some (.frameModeChange frame _) =>
    let l := s.mappings frame
    let s := s.unmarkAll (l.map fun x => (x.addr, x.entry))
    l.foldl (fun (s : State) x => s.abandon x.asid x.va (x.n * 65536)) s
  | some (.matrixFirstUse core) =>
    match s.threads.find? fun _ t => s.wantsMen core t with
    | some (_, t) => s.endContext (s.ctxOf t)
    | none => s
  | some (.map m ctx va len _) =>
    let s := s.mbFinish m.tag 5 []
    if e.step = 0 then s else match s.ctx? ctx with | some c => s.abandon c.asid va len | none => s
  | some i =>
    match mboxOf i with
    | some m => s.mbFinish m.tag 5 []
    | none => s.watchHalt e

/-- Put an event back at the head of its queue's order. -/
def putBack (e : FwEvent) (l : List FwEvent) : List FwEvent :=
  match e.queue with
  | none => e :: l
  | some q => l.takeWhile (fun x => x.queue != some q) ++ e :: l.dropWhile fun x => x.queue != some q

/-- WATCHDOG_EXPIRY: the core is reset, and its event runs again or meets its fate. -/
def execWatchdogExpiry (fwcore : Nat) (s : State) : Out :=
  .next (match s.fw.running.get? fwcore with
    | none => s
    | some e =>
      let s := match e.act with | some i => { s with due := s.due.erase i } | none => s
      let s := if 2 ≤ e.expiries then s.eventFate e else s
      let s := s.updFw fun w => { w with running := w.running.del fwcore }
      if 2 ≤ e.expiries then s.pokeFw
      else (s.updFw fun w => { w with events := putBack { e with expiries := e.expiries + 1 } w.events }).pokeFw)

end Sys2Proof.Machine
end

