-- ==== Sys2Proof/Machine/Packets.lean ====
section
/-!
DEFINITION. The packets of a queue other than LAUNCH and PLAN, and the command processor's waits on tail words and signals (R293, R294, R298, R301 to R305).
-/
namespace Sys2Proof.Machine

/-! ### Waiting on a word (R171, R294, R302) -/

/-- A taking read of a 64-bit word for a queue, with the place it was read at. -/
def State.queueWord (s : State) (q : Nat) (x : Queue) (va : Nat) : State × Got (Nat × Nat) :=
  let op := s.queueOp q x
  match s.unitRead1 op va 8 with
  | (s, .ok b) =>
    match s.xlate op.core (s.opAsid op) va .load with
    | .hit ga _ _ => (s, .ok (ga, natOf b))
    | _ => (s, .ok (0, natOf b))
  | (s, .wait) => (s, .wait)
  | (s, .flt f) => (s, .flt f)

/-- Register a monitor in firmware's name; where no table has room the event comes again. -/
def State.watchWord (s : State) (m : Monitor) (again : Instr) : State :=
  match s.register m with
  | some s => s
  | none => s.postOnce again

/-- The monitor on a tail word: not equal to the head. -/
def tailMonitor (q ga head : Nat) : Monitor := ⟨.mem ga, true, 1, head, true, false, .tail q, 0, 0⟩
/-- The monitor on a signal: less than 1, signed. -/
def sigMonitor (q ga : Nat) : Monitor := ⟨.mem ga, true, 2, 1, true, false, .sig q, 0, 0⟩

/-! ### TAIL_WORD_WAKE (R294) -/

/-- The tail is read: beyond the ring it halts the queue, at the head it is watched, else packets follow. -/
def State.tailRead (s : State) (i : Instr) (n q : Nat) (x : Queue) (ga tail : Nat) : State :=
  let head := x.cb.head
  if tail < head ∨ 2 ^ x.cb.logn < tail - head then (s.halt q 3 0 head (some n)).fwDone i
  else
    let s := ((s.fwDone i).freeWaits q).updRing q fun x => { x with tail := tail }
    if tail = head then s.watchWord (tailMonitor q ga head) (.tailWordWake q) else s.queueGo q

/-- TAIL_WORD_WAKE, an event of firmware. -/
def execTailWordWake (queue : Nat) (s : State) : Out :=
  let i : Instr := .tailWordWake queue
  .next (s.viaFw i (some queue) none fun s ev =>
    match s.queue? queue with
    | none => s.fwDone i
    | some x =>
      if !s.queueRuns x || s.queueHeld queue then s.fwDone i
      else
        match s.queueWord queue x x.cb.taila with
        | (s, .wait) => s.fwWait i 0
        | (s, .flt f) => (s.fwDone i).queueFault queue x i f
        | (s, .ok (ga, tail)) => s.tailRead i ev.num queue x ga tail)

/-! ### NOP, FETCHFENCE and INDIRECT (R298, R304, R305) -/

/-- PACKET_NOP. -/
def execPacketNop (queue : Nat) (s : State) : Out := .next (s.onPacket queue 0 fun s _ _ => s.finishPacket queue)

/-- PACKET_FETCHFENCE: what was read ahead is discarded at every level, and read again. -/
def execPacketFetchfence (queue : Nat) (s : State) : Out :=
  .next (s.onPacket queue 5 fun s x _ =>
    if s.earlierOpen queue x then s
    else (s.updRing queue fun x => { x with fetched := [], levels := x.levels.map fun l => { l with fetched := [] } }).finishPacket queue)

/-- PACKET_INDIRECT: the buffer is one further level; at level 4 the queue halts with INDIRECT_DEPTH. -/
def execPacketIndirect (queue : Nat) (s : State) : Out :=
  .next (s.onPacket queue 6 fun s x p =>
    if 4 ≤ x.levels.length then s.stopQueue queue 1 0x14
    else
      (s.updRing queue fun x => { x with cur := none, levels := { addr := pq p 1, count := pq p 2 } :: x.levels }).postOnce
        (.commandProcessorPrefetch queue))

/-! ### WAITSIG (R302) -/

/-- Read the signals at some addresses in order, with their places. -/
def State.readSignals (q : Nat) (x : Queue) : List Nat → State → State × Got (List (Nat × Nat))
  | [], s => (s, .ok [])
  | va :: r, s =>
    match s.queueWord q x va with
    | (s, .ok v) =>
      match State.readSignals q x r s with
      | (s, .ok l) => (s, .ok (v :: l))
      | y => y
    | (s, .wait) => (s, .wait)
    | (s, .flt f) => (s, .flt f)

/-- What a WAITSIG does with its signals: abort on a negative one, proceed when all are zero, else watch the positive ones. -/
def State.judgeSignals (s : State) (q : Nat) (l : List (Nat × Nat)) : State :=
  if l.any fun v => decide (toSigned 64 v.2 < 0) then
    ((s.updBlock q none fun c => { c with aborts := (c.aborts + 1) % 2 ^ 32 }).updRing q fun x => { x with abort := true }).finishPacket q
  else if l.all fun v => v.2 == 0 then s.finishPacket q
  else (l.filter fun v => v.2 != 0).foldl (fun (s : State) v => s.watchWord (sigMonitor q v.1) (.packetWaitsig q)) s

/-- PACKET_WAITSIG. -/
def execPacketWaitsig (queue : Nat) (s : State) : Out :=
  .next (s.onPacket queue 2 fun s x p =>
    let s := s.freeWaits queue
    match State.readSignals queue x ((List.range (bitsAt (pq p 0) 16 2)).map fun j => pq p (j + 1)) s with
    | (s, .ok l) => s.judgeSignals queue l
    | (s, .wait) => s.postOnce (.packetWaitsig queue)
    | (s, .flt f) => s.queueFault queue x (.packetWaitsig queue) f)

/-- WAITSIG_WAKE: the signals are read again. -/
def execWaitsigWake (queue : Nat) (s : State) : Out :=
  .next (s.onPacket queue 2 fun s _ _ => (s.freeWaits queue).postOnce (.packetWaitsig queue))

/-! ### SIGNAL and COMPLETE (R298, R301) -/

/-- A write of a packet has been tried: it is performed and the packet finished, tried again, or faults. -/
def State.afterWrite (s : State) (q : Nat) (x : Queue) (i : Instr) (r : Got Unit) : State :=
  match r with
  | .ok () => (s.finishPacket q).askFree q
  | .wait => s.postOnce i
  | .flt f => s.queueFault q x i f

/-- An atomic addition to a 64-bit word by the command processor. -/
def State.unitAdd (s : State) (op : EngOp) (va x : Nat) : State × Got Unit :=
  match s.translate op.core (s.opAsid op) va .atom with
  | (s, .fault f) => (s, .flt f)
  | (s, .miss) => (s, .wait)
  | (s, .hit _ _ _) =>
    match s.unitRead1 op va 8 with
    | (s, .ok b) => s.unitWrite op va (bytesOf 8 ((natOf b + x) % 2 ^ 64))
    | (s, .wait) => (s, .wait)
    | (s, .flt f) => (s, .flt f)

/-- PACKET_SIGNAL: a giving write of the value, or an atomic addition. -/
def execPacketSignal (queue : Nat) (s : State) : Out :=
  .next (s.onPacket queue 3 fun s x p =>
    if s.earlierOpen queue x then s
    else
      let op := s.queueOp queue x
      let (s, r) := if (pq p 0).testBit 16 then s.unitAdd op (pq p 1) (pq p 2) else s.unitWrite op (pq p 1) (bytesOf 8 (pq p 2))
      s.afterWrite queue x (.packetSignal queue) r)

/-- PACKET_COMPLETE: a giving write of the value to the completion word. -/
def execPacketComplete (queue : Nat) (s : State) : Out :=
  .next (s.onPacket queue 8 fun s x p =>
    if s.earlierOpen queue x then s
    else
      let (s, r) := s.unitWrite (s.queueOp queue x) (pq p 1) (bytesOf 8 (pq p 2))
      s.afterWrite queue x (.packetComplete queue) r)

/-! ### COPY (R298) -/

/-- The core whose number stands for the copy engines of a destination's home die. -/
def State.copyCore (s : State) (op : EngOp) (dst : Nat) : Nat :=
  match s.xlate op.core (s.opAsid op) dst .store with
  | .hit ga _ _ => if isHbm (lineNo ga) then homeDie (lineNo ga) * 128 else op.core
  | _ => op.core

/-- Fork the copy of a COPY packet. -/
def State.forkCopy (s : State) (q : Nat) (x : Queue) (p : List Nat) : State :=
  let (s, id) := s.draw
  let op := s.queueOp q x
  let op := { op with kind := .fwCopy q, core := s.copyCore op (pq p 2), tag := s.curTag, desc := [pq p 1, pq p 2, pq p 3, x.cb.head] }
  let s := { s with ops := s.ops.put id op }.updRing q fun x => { x with copies := x.copies ++ [id] }
  s.post (.engineOperationStart id)

/-- A packet that firmware performs: its event is queued when the packet is ready, and performs it when it runs (R306). -/
def State.packetFw (s : State) (i : Instr) (q type : Nat) (ready : State → Queue → Bool) (body : State → Queue → List Nat → State) : State :=
  match s.fwRunning i with
  | some _ => (s.onPacket q type body).fwDone i
  | none => s.onPacket q type fun s x _ => if ready s x then s.viaFw i (some q) none fun s _ => s else s

/-- PACKET_COPY: its set-up is an event of firmware; the packet finishes at once and the copy ends later. -/
def execPacketCopy (queue : Nat) (s : State) : Out :=
  .next (s.packetFw (.packetCopy queue) queue 4 (fun s x => !s.earlierOpen queue x) fun s x p => (s.forkCopy queue x p).finishPacket queue)

end Sys2Proof.Machine
end

