-- ==== Sys2Proof/Machine/Launch.lean ====
section
/-!
DEFINITION. LAUNCH and PLAN packets: plans for launches, launch frames, lots and their crews, the end of a launch, calibration, changeover and retirement (R298 to R300, R308, R309, R311, R455, R460, R480, R482, R494 to R496).
-/
namespace Sys2Proof.Machine

/-! ### Reading a lot table (R299, R452) -/

/-- The bytes of a lot table and of its header lines; fuel bounds the pieces. -/
def State.tableBytes (op : EngOp) (va : Nat) : Nat → List Byte → State → State × Got (List Byte)
  | 0, buf, s => (s, .ok buf)
  | fuel + 1, buf, s =>
    match tableNext va buf with
    | none => (s, .ok buf)
    | some (a, n) =>
      match s.unitRead1 op (a % 2 ^ 64) (min n (128 - a % 128)) with
      | (s, .ok b) => State.tableBytes op va fuel (buf ++ b) s
      | (s, .wait) => (s, .wait)
      | (s, .flt f) => (s, .flt f)

/-- Firmware reads a lot table and goes on with it; a table that fails the check of R471 is a malformed packet. -/
def State.withTable (s : State) (i : Instr) (q : Nat) (x : Queue) (va : Nat) (f : State → LotTable → State) : State :=
  match State.tableBytes (s.queueOp q x) va (2 ^ 22) [] s with
  | (s, .wait) => s.fwWait i 0
  | (s, .flt e) => (s.fwDone i).queueFault q x i e
  | (s, .ok b) =>
    match tableFrom va b with
    | .ok t => f s t
    | .error _ => s.malformed q

/-! ### The lots of a launch (R308, R495) -/

/-- The lots that have crews of their own, in the plan's order; in ROOT mode the first alone. -/
def lotsOf (g : Game) (mode : Nat) : List Nat :=
  let l := g.board.order.filter fun k => (g.board.lot k).role != 2
  if mode = 2 then l.take 1 else l

/-- The lot whose crews compute a lot: a fusion consumer's producer. -/
def Board.maker (b : Board) (k : Nat) : Nat := if (b.lot k).role = 2 then (b.lot k).partner else k

/-- The lots that a lot waits for: the one before it in its pitch's sequence, and the producers of its edges (R495). -/
def lotPreds (g : Game) (k : Nat) : List Nat :=
  let b := g.board
  let before := ((lotsOf g 0).takeWhile (· != k)).filter fun j => (b.lot j).pitch == (b.lot k).pitch
  let prods := (g.table.edges.filter fun e => (b.pair k).contains e.cons).map fun e => b.maker e.prod
  (before.drop (before.length - 1)) ++ prods.filter (· != k)

/-- Whether every lot that a lot waits for is done. -/
def Launch.ready (l : Launch) (k : Nat) : Bool := l.mode == 2 || (lotPreds l.game k).all l.done.contains

/-- The argument record of a launched crew (R455). -/
def argRecord (l : Launch) (k tile : Nat) : List Byte :=
  let s := l.game.board.lot k
  bytesOf 8 l.argb ++ bytesOf 2 k ++ bytesOf 2 s.variant ++ bytesOf 4 tile ++ (List.range 8).flatMap (fun d => bytesOf 1 (s.log2 d)) ++
    (List.range 8).flatMap (fun d => bytesOf 4 (((l.game.table.lot k).ext[d]?).getD 0)) ++ bytesOf 8 l.game.table.va

/-- The crew record of a launched crew: the entry's, with SPAD replaced by the footprint and X by XBUD (R460). -/
def launchRec (g : Game) (k : Nat) : CrewRec :=
  let v := g.variantOf g.board k
  { k := v.k, x := (g.board.lot k).xbud == 1, q := v.q, spad := g.footprint g.board k }

/-- A crew of a lot on a core. -/
def launchCrew (n : Nat) (l : Launch) (k core cix tile : Nat) : Crew :=
  let g := l.game
  { ctx := l.ctx, core := core, entry := BitVec.ofNat 64 (g.table.image + (g.variantOf g.board k).entry), crec := launchRec g k, cn := l.threads,
    cix := cix, frm := BitVec.ofNat 64 l.frame, args := [argRecord l k tile], prio := l.prio, ceil := l.prio, tag := l.tag, launch := n, lot := k,
    home := core }

/-- The cores of a lot's pitch, ascending. -/
def lotCores (g : Game) (k : Nat) : List Nat :=
  let (a, b) := (g.board.lot k).pitch.span g.dev
  (List.range (b - a)).map (a + ·)

/-- The core, cix and tile index of each crew of a lot (R308). -/
def crewPlaces (l : Launch) (k : Nat) : List (Nat × Nat × Nat) :=
  let cs := lotCores l.game k
  let all := 2 ^ 32 - 1
  match l.mode with
  | 0 => cs.zipIdx.map fun p => (p.1, p.2, all)
  | 1 => (List.range (l.game.tileCount l.game.board k)).map fun t => ((cs[t % cs.length]?).getD 0, t, t)
  | _ => [((cs.head?).getD 0, 0, all)]

/-- The key of a launch's frame. -/
def State.launchKey (s : State) (l : Launch) : Nat := frameKey (((s.ctx? l.ctx).map (·.asid)).getD 0) l.frame

/-- The place of a launch's frame. -/
def State.launchGa (s : State) (l : Launch) : Nat := ((s.fw.frames.get? (s.launchKey l)).map (·.ga)).getD 0

/-- Enqueue one crew of a lot. -/
def State.enqueueLaunch (s : State) (n : Nat) (l : Launch) (k : Nat) (p : Nat × Nat × Nat) : State :=
  let (s, c) := s.draw
  s.enqueue c { launchCrew n l k p.1 p.2.1 p.2.2 with gset := c }

/-- Enqueue a lot's crews: the pitch's slot mode is set on its cores, and the frame counts the threads (R300, R308, R495). -/
def State.enqueueLot (s : State) (n : Nat) (l : Launch) (k : Nat) : State :=
  let m := l.game.board.mode (l.game.board.lot k).pitch
  let s := (lotCores l.game k).foldl (fun (s : State) c => s.updCore c fun x => { x with slots := m }) s
  let places := crewPlaces l k
  let add := places.length * l.threads
  let ga := s.launchGa l
  let s := s.frameWrite ga (withOff 12 (bytesOf 4 (s.memNat (ga + 12) 4 + add) ++ bytesOf 4 (s.memNat (ga + 16) 4 + add)))
  let s := places.foldl (fun (s : State) p => s.enqueueLaunch n l k p) s
  s.updFw fun w => { w with launches := w.launches.adjust n fun l => { l with todo := l.todo.filter (· != k), lots := l.lots ++ [k] } }

/-! ### Dispensers (R309) -/

/-- The dispensers of a PERSIST lot; each starts with the others' counts. -/
def lotDisps (g : Game) (block k : Nat) : List (Nat × Disp) :=
  let b := if block = 0 then 64 else block
  let ds := pitchDies g k
  let shares := ds.zipIdx.map fun d => (d.1, (List.range (g.tileCount g.board k)).filter fun c => c / b % ds.length == d.2)
  let counts : FMap Nat := shares.foldl (fun (m : FMap Nat) x => m.put x.1 x.2.length) FMap.empty
  shares.map fun x => (dispKey k x.1, { coords := x.2, reports := counts.del x.1 })

/-! ### Homes (R495) -/

/-- The die on which page k of a tensor belongs. -/
def pageHome (c : Context) (home k : Nat) : Nat :=
  if home = 7 then
    let ds := (List.range 4).filter (touches c.pfirst c.pcount)
    (ds[k % ds.length]?).getD 0
  else home

/-- Whether a page lies on a die, or cannot move there. -/
def State.pageAt (s : State) (c : Context) (va die : Nat) : Bool :=
  match entryAt s.mem.bytes va 3 0 c.root with
  | none => true
  | some a =>
    let e := s.memNat a 8
    !isMarked e && (!movable e || homeDie (ptePfn e * 512) == die)

/-- Whether every page of every tensor lies at the plan's home. -/
def State.homesSet (s : State) (c : Context) (g : Game) : Bool :=
  (g.table.tensors.zip g.board.homes).all fun x =>
    (List.range (ceilDiv x.1.bytes 65536)).all fun k => s.pageAt c (x.1.base + k * 65536) (pageHome c x.2 k)

/-! ### PACKET_LAUNCH (R298, R300, R308, R494) -/

/-- The plan that a LAUNCH names, the auto plan being built on first use; none is a malformed packet. -/
def State.launchPlan (s : State) (ctx : Nat) (c : Context) (id : Nat) (t : LotTable) : State × Option Plan :=
  match s.planNamed ctx id t.hash with
  | some (_, p) => (s, if p.void || p.game.table.hash != t.hash then none else some p)
  | none =>
    if id ≠ 0 then (s, none)
    else
      let g := s.gameOf ctx c s.sq.learned t
      if 256 ≤ s.planCount ctx || g.broken g.board != 0 then (s, none)
      else
        let (s, g, _) := s.runPlayer ctx g
        let p : Plan := { ctx := ctx, id := 0, calen := true, game := { g with undo := [], hist := [] } }
        ((s.storePlan p).1, some p)

/-- The highest free index of an arena below a bound. -/
def highestFree (used : List Nat) : Nat → Option Nat
  | 0 => none
  | n + 1 => if used.contains n then highestFree used n else some n

/-- Whether a launch's crews fit one share in threads and granules (R311), and MAXTHR (R448). -/
def launchFits (g : Game) (threads : Nat) (lots : List Nat) : Bool :=
  decide (threads ≤ g.table.maxthr) && lots.all fun k =>
    let (t, n, _) := shareOf (g.board.mode (g.board.lot k).pitch)
    decide (threads ≤ t) && decide ((launchRec g k).granules ≤ n)

/-- Take a launch frame of the first core of the partition, and start the launch: the lots that wait on none are enqueued. -/
def State.startLaunch (s : State) (q : Nat) (x : Queue) (c : Context) (l : Launch) (ga : Nat) : State :=
  let asid := c.asid
  let s := s.frameWrite ga (withOff 0 (newFrame 0 c.pfirst 0))
  let s := s.updFw fun w => { w with frames := w.frames.put (frameKey asid l.frame) { ga := ga, owner := none, launch := true } }
  let (s, n) := s.draw
  let s := (s.updRing q fun x => { x with tag := l.tag }).updFw fun w => { w with
    launches := w.launches.put n l
    ctxs := w.ctxs.adjust x.ctx fun c => { c with hold := none } }
  ((l.todo.filter l.ready).foldl (fun (s : State) k => s.enqueueLot n l k) s).finishPacket q

/-- The launch of a packet under a plan. -/
def launchFrom (q : Nat) (x : Queue) (p : List Nat) (plan : Plan) (t : LotTable) (tag frame : Nat) : Launch :=
  let g := { plan.game with table := t }
  let mode := bitsAt (pq p 0) 16 2
  let block := bitsAt (pq p 4) 16 16
  let lots := lotsOf g mode
  let disps : FMap Disp :=
    if mode = 0 then (lots.flatMap (lotDisps g block)).foldl (fun (m : FMap Disp) d => m.put d.1 d.2) FMap.empty else FMap.empty
  { queue := q, ctx := x.ctx, frame := frame, tag := tag, mode := mode, prio := bitsAt (pq p 0) 18 2, argb := pq p 3, threads := bitsAt (pq p 4) 0 11,
    block := block, game := g, calen := plan.calen, todo := lots, disps := disps }

/-- Place a launch: it waits for the tag of a switched-out context, for its tensors' pages and for a free frame. -/
def State.placeLaunch (s : State) (i : Instr) (q : Nat) (x : Queue) (p : List Nat) (c : Context) (plan : Plan) (t : LotTable) : State :=
  let g := { plan.game with table := t }
  let held := match c.hold with | some tag => !s.tagQuiet tag | none => false
  if !launchFits g (bitsAt (pq p 4) 0 11) (lotsOf g (bitsAt (pq p 0) 16 2)) then s.malformed q
  else if held || !s.homesSet c g then s.fwWait i 0
  else
    match highestFree (s.framesTaken c.asid c.pfirst) arenaFrames with
    | none => s.fwWait i 0
    | some idx =>
      let h := frameHandle c.pfirst idx
      match s.translate c.pfirst c.asid h .atom with
      | (s, .miss) => s.fwWait i 0
      | (s, .fault f) => (s.fwDone i).queueFault q x i f
      | (s, .hit ga _ _) =>
        if !s.quietLine (lineNo ga) true then (s.callHost (lineNo ga) true).fwWait i 0
        else s.startLaunch q x c (launchFrom q x p plan t s.curTag h) ga

/-- PACKET_LAUNCH: its placement is an event of firmware. -/
def execPacketLaunch (queue : Nat) (s : State) : Out :=
  let i : Instr := .packetLaunch queue
  .next (s.packetFw i queue 1
    (fun s x => ((x.cur.map pktOverlap).getD false) || !s.earlierOpen queue x)
    fun s x p => s.withTable i queue x (pq p 1) fun s t =>
      match s.ctx? x.ctx with
      | none => s
      | some c =>
        match s.launchPlan x.ctx c (bitsAt (pq p 2) 0 16) t with
        | (s, none) => s.malformed queue
        | (s, some plan) => s.placeLaunch i queue x p c plan t)

/-! ### The end of lots (R147, R482, R495) -/

/-- Whether a crew of a lot, or a descendant of one, has not ended. -/
def State.lotOpen (s : State) (n k : Nat) : Bool := s.crews.any fun _ c => c.launch == n && c.lot == k

/-- The value of calibration after a completion (R482). -/
def calStep (cal m e : Nat) : Nat :=
  let q := min 4096 (max 16 (256 * m / e))
  ((cal : Int) + ((q : Int) - cal).tdiv 8).toNat

/-- Update the calibration of a completed lot. -/
def State.calibrate (s : State) (l : Launch) (k : Nat) : State :=
  if !l.calen then s
  else
    let g := l.game
    let clk := (s.core (((lotCores g k).head?).getD 0)).clk
    let key := learnedKey l.ctx g.table.hash k
    let v := calStep (s.sq.learned.getD key 256) (clk - l.begun.getD k clk) (g.timeWith g.board k 256)
    s.updSq fun q => { q with learned := q.learned.put key v }

/-- Change a launch. -/
def State.updLaunch (s : State) (n : Nat) (f : Launch → Launch) : State := s.updFw fun w => { w with launches := w.launches.adjust n f }

/-- Advance the reconciliation of an ended lot: the cores write back, the dies write through, then the lot is done. -/
def State.settleLot (n k : Nat) (s : State) : State :=
  match s.fw.launches.get? n with
  | none => s
  | some l =>
    if l.done.contains k || s.lotOpen n k then s
    else
      match l.recon.getD k 0 with
      | 0 => (s.cores.keys.foldl (fun (s : State) c => s.sourceCore c) (s.calibrate l k)).updLaunch n fun l => { l with recon := l.recon.put k 1 }
      | 1 =>
        if s.cores.keys.all fun c => s.coreQuiet c (2 ^ 64) then
          ((List.range 4).foldl (fun (s : State) d => s.dieWriteThrough d) s).updLaunch n fun l => { l with recon := l.recon.put k 2 }
        else s
      | _ =>
        if (List.range 4).all fun d => s.dieQuiet d then s.updLaunch n fun l => { l with done := l.done ++ [k] } else s

/-- Advance every lot of a launch. -/
def State.settleLots (s : State) (n : Nat) : State :=
  match s.fw.launches.get? n with
  | some l => l.lots.foldl (fun (s : State) k => State.settleLot n k s) s
  | none => s

/-- What is due for a launch: lots that may be enqueued, reconciliations, its end. -/
def State.pokeLaunch (s : State) (n : Nat) : State :=
  match s.fw.launches.get? n with
  | none => s
  | some l =>
    let s := (l.todo.filter l.ready).foldl (fun (s : State) k => s.postOnce (.lotEnqueue n k)) s
    if l.ended then s
    else if (l.lots.any fun k => !l.done.contains k && !s.lotOpen n k) || (l.todo.isEmpty && l.lots.all l.done.contains) then s.postOnce (.launchEnd n)
    else s

/-- LOT_ENQUEUE: a later lot's crews are enqueued once every lot it waits for is done. -/
def execLotEnqueue (launch lot : Nat) (s : State) : Out :=
  .next (
    let s := s.settleLots launch
    let s := match s.fw.launches.get? launch with
      | some l =>
        let line := lineNo (s.launchGa l)
        if !(l.todo.contains lot && l.ready lot) then s
        else if s.quietLine line true then s.enqueueLot launch l lot
        else s.callHost line true
      | none => s
    s.pokeLaunch launch)

/-! ### LAUNCH_END (R300) -/

/-- Whether a queue has in hand a packet that waits for launches to end and signals it. -/
def State.signalsNext (s : State) (q : Nat) : Bool :=
  match (s.queue? q).bind (·.cur) with
  | some p => pktType p == 3 || pktType p == 8
  | none => false

/-- Free the frame of an ended launch, once what signals its end has been performed. -/
def State.freeLaunch (s : State) (n : Nat) (l : Launch) : State :=
  let ga := s.launchGa l
  if s.signalsNext l.queue then s
  else if !s.quietLine (lineNo ga) true then (s.callHost (lineNo ga) true).post (.launchEnd n)
  else
    let s := s.frameWrite (ga + 8) [(0, BitVec.ofNat 8 (s.memNat (ga + 8) 1 / 4 * 4))]
    let key := s.launchKey l
    s.updFw fun w => { w with frames := w.frames.del key, launches := w.launches.del n }

/-- Whether a launch's frame has joined. -/
def State.launchJoined (s : State) (l : Launch) : Bool := ((s.fw.frames.get? (s.launchKey l)).map (·.joined)).getD false

/-- LAUNCH_END: the launch ends when its frame has joined and every lot is done; its frame is freed afterwards. -/
def execLaunchEnd (launch : Nat) (s : State) : Out :=
  .next (
    let s := s.settleLots launch
    match s.fw.launches.get? launch with
    | none => s
    | some l =>
      if l.ended then s.freeLaunch launch l
      else if l.todo.isEmpty && l.lots.all l.done.contains && s.launchJoined l then
        ((s.updLaunch launch fun l => { l with ended := true }).pokeQueue l.queue).postOnce (.launchEnd launch)
      else s.pokeLaunch launch)

/-! ### PACKET_PLAN (R299) -/

/-- Read n move words; fuel is n. -/
def State.readMoves (op : EngOp) : Nat → Nat → State → State × Got (List Nat)
  | 0, _, s => (s, .ok [])
  | n + 1, va, s =>
    match s.unitRead1 op (va % 2 ^ 64) 8 with
    | (s, .ok b) =>
      match State.readMoves op n (va + 8) s with
      | (s, .ok l) => (s, .ok (natOf b :: l))
      | x => x
    | (s, .wait) => (s, .wait)
    | (s, .flt f) => (s, .flt f)

/-- Replay moves as class 2; none when one is not accepted (R478). -/
def Game.replay (g : Game) : List Nat → Option Game
  | [] => some g
  | m :: r =>
    match g.play 2 false m with
    | (⟨0, _⟩, g) => Game.replay g r
    | _ => none

/-- Steps 5 and 6: the default player, the store, the installation. -/
def State.planInstall (s : State) (q : Nat) (x : Queue) (id : Nat) (calen auto : Bool) (g : Game) : State :=
  let (s, g, _) := if auto then s.runPlayer x.ctx g else (s, g, 0)
  if id = 0 ∨ 256 ≤ s.planCount x.ctx ∧ (s.planNamed x.ctx id 0).isNone then s.malformed q
  else
    let p : Plan := { ctx := x.ctx, id := id, calen := calen, game := { g with undo := [], hist := [] } }
    match s.install p 0 none (some q) with
    | (s, true) => s.finishPacket q
    | (s, false) => s

/-- Steps 3 and 4: the record, its list and the replay, on the canonical state of a table. -/
def State.planRecord (s : State) (i : Instr) (q : Nat) (x : Queue) (va id : Nat) (g : Game) : State :=
  let op := s.queueOp q x
  let bad (s : State) (f : Flt) : State := (s.fwDone i).queueFault q x i f
  if g.broken g.board != 0 then s.malformed q
  else
    match s.unitRead op 2 va 96 with
    | (s, .wait) => s.fwWait i 0
    | (s, .flt f) => bad s f
    | (s, .ok b) =>
      match recordHead (b.take 64), listHead (b.drop 64) with
      | some (calen, auto, size), some (h, n) =>
        if size ≠ 96 + 8 * n ∨ h ≠ g.table.hash then s.malformed q
        else
          match State.readMoves op n (va + 96) s with
          | (s, .wait) => s.fwWait i 0
          | (s, .flt f) => bad s f
          | (s, .ok ms) =>
            match g.replay ms with
            | none => s.malformed q
            | some g => s.planInstall q x id calen auto g
      | _, _ => s.malformed q

/-- Whether a queue's PLAN waits for its plan to be in force. -/
def State.planPending (s : State) (q : Nat) : Bool := s.sq.changes.any fun c => c.queue == some q && c.tag.isNone

/-- PACKET_PLAN: an event of firmware; the packet finishes when its plan is in force. -/
def execPacketPlan (queue : Nat) (s : State) : Out :=
  let i : Instr := .packetPlan queue
  .next (s.packetFw i queue 7 (fun s _ => (s.launchesOf queue).isEmpty && !s.planPending queue) fun s x p =>
    if s.planPending queue then s
    else s.withTable i queue x (pq p 3) fun s t =>
      match s.ctx? x.ctx with
      | none => s
      | some c => s.planRecord i queue x (pq p 1) (bitsAt (pq p 2) 0 16) (s.gameOf x.ctx c s.sq.learned t))

/-! ### Changeover and retirement (R496) -/

/-- The operation or packet that waits for a plan to be in force ends. -/
def State.planInForce (s : State) (c : Changeover) : State :=
  let s := match c.op.bind fun o => (s.ops.get? o).map fun x => (o, x) with
    | some (o, x) => s.sqReturn o x x.result
    | none => s
  match c.queue with
  | some q => s.onPacket q 7 fun s _ _ => s.finishPacket q
  | none => s

/-- PLAN_FLIP: when the other tag is quiet, CUR changes and the new plan is in force. -/
def execPlanFlip (ctx id : Nat) (s : State) : Out :=
  .next (match s.sq.changes with
    | [] => s
    | c :: r =>
      if c.ctx ≠ ctx ∨ c.id ≠ id ∨ c.tag.isSome then s
      else
        let t := s.curTag
        if !s.tagQuiet (1 - t) then s.post (.planFlip ctx id)
        else
          let old := (s.planNamed ctx id 0).map Prod.fst
          let s := ((s.setTag (1 - t)).storePlan c.plan).1
          let s := s.updSq fun q => { q with changes := { c with tag := some t, old := old } :: r }
          (s.planInForce c).post (.planRetire ctx id))

/-- Firmware releases the fetch-path and translation state of a plan's code (R496). -/
def State.dropCode (s : State) (asid : Nat) (t : LotTable) : State :=
  let lines (k : Nat) : Bool := k / 2 ^ 51 == asid && meetsRange (k % 2 ^ 51 * 64) 64 t.image t.isize
  let s := { s with cores := s.cores.map fun _ c => { c with fetch := c.fetch.filter fun k _ => !lines k } }
  s.updMem fun m => { m with
    tlb := m.tlb.filter fun k _ => !leafIn asid t.image t.isize k
    dtlb := m.dtlb.filter fun _ x => !leafIn asid t.image t.isize x.tag }

/-- Retire the old plan of the changeover in progress: it leaves the store and its retire word is given; the next changeover follows. -/
def State.retirePlan (s : State) (c : Changeover) (r : List Changeover) : State :=
  let asid := ((s.ctx? c.ctx).map (·.asid)).getD 0
  let s := match c.old.bind fun n => (s.sq.plans.get? n).map fun p => (n, p) with
    | some (n, p) => (s.updSq fun q => { q with plans := q.plans.del n }).dropCode asid p.game.table
    | none => s
  let s := (s.updSq fun q => { q with changes := r }).retireWord c.ctx c.retire
  match r with
  | d :: _ => s.postOnce (.planFlip d.ctx d.id)
  | [] => s

/-- PLAN_RETIRE: when the old tag is quiet. -/
def execPlanRetire (ctx id : Nat) (s : State) : Out :=
  .next (match s.sq.changes with
    | [] => s
    | c :: r =>
      match c.tag with
      | none => s
      | some t =>
        if c.ctx ≠ ctx ∨ c.id ≠ id then s
        else if s.tagQuiet t then s.retirePlan c r
        else s.post (.planRetire ctx id))

end Sys2Proof.Machine
end

