-- ==== Sys2Proof/Machine/HostIf.lean ====
section
/-!
DEFINITION. The mailbox and its commands: queues, contexts, maps, counters, checkpoints, attestation, the firmware download and the fabric (R505 to R509, R511 to R515).
-/
namespace Sys2Proof.Machine

/-! ### The mailbox (R505, R511) -/

/-- RESULT codes. -/
def mbOk : Nat := 0
def mbBusy : Nat := 1
def mbBadOpcode : Nat := 2
def mbBadArg : Nat := 3
def mbDenied : Nat := 4
def mbFailed : Nat := 5

/-- A status word with DONE set. -/
def statusWord (result tag : Nat) : Nat := result + tag % 2 ^ 16 * 2 ^ 32 + 2 ^ 63
/-- A command word with GO set. -/
def commandWord (opcode tag : Nat) : Nat := opcode % 2 ^ 16 + tag % 2 ^ 16 * 2 ^ 32 + 2 ^ 63

/-- Change the outside's records. -/
def State.updDev (s : State) (f : Dev → Dev) : State := { s with dev := f s.dev }

/-- Finish a command at once, as the boot ROM does or a refusal with BUSY. -/
def State.mbReply (s : State) (m : Mbox) (opcode result : Nat) : State :=
  { s with dev := { s.dev with status := statusWord result m.tag, command := commandWord opcode m.tag % 2 ^ 63 } }

/-- Firmware takes a command: it clears GO and DONE. -/
def State.mbTake (s : State) : State := { s with dev := { s.dev with status := s.dev.status % 2 ^ 63, command := s.dev.command % 2 ^ 63 } }

/-- Finish the command whose event runs. -/
def State.mbEnd (s : State) (i : Instr) (m : Mbox) (result : Nat) (payload : List Nat) : State := (s.fwDone i).mbFinish m.tag result payload

/-- The queue that a command concerns, whose ordering lock its event holds (R306). -/
def mbQueue : Instr → Option Nat
  | .queueStop _ q | .queueRestart _ q => some q
  | _ => none

/-- The number of the event that performs a command. -/
def State.mbEvent (s : State) (i : Instr) : Option Nat := (s.fwRunning i).map fun e => e.2.num

/-- Issue a mailbox command: the boot ROM refuses it, an unfinished one makes it BUSY, else it is an event, whose run is the body. -/
def State.viaMailbox (s : State) (i : Instr) (m : Mbox) (opcode : Nat) (body : State → FwEvent → State) : State :=
  match s.fwRunning i with
  | some (_, e) =>
    if e.step ≠ 0 then body s e
    else if m.reserved then s.mbTake.mbEnd i m mbBadArg []
    else body s.mbTake e
  | none =>
    if s.dev.step ≤ 3 then s.mbReply m opcode mbBadOpcode
    else if s.dev.busy.isSome then s.mbReply m opcode mbBusy
    else
      { s with dev := { s.dev with command := commandWord opcode m.tag, busy := some m.tag } }.fwEvent fun n => { num := n, queue := mbQueue i, act := some i }

/-- A command that runs once: it has a result and a payload. -/
def State.viaMailbox1 (s : State) (i : Instr) (m : Mbox) (opcode : Nat) (body : State → State × Nat × List Nat) : State :=
  s.viaMailbox i m opcode fun s _ =>
    let (s, r, l) := body s
    s.mbEnd i m r l

/-- A context that the host may name: one that exists and has not ended. -/
def State.liveCtx (s : State) (ctx : Nat) : Option Context := (s.ctx? ctx).filter fun c => !c.ended

/-! ### Queues (R295, R506) -/

/-- Whether the arguments of QUEUE_START are in range (R293). -/
def queueArgs (base taila heada logn : Nat) : Bool :=
  base % 64 == 0 && taila % 8 == 0 && heada % 8 == 0 && decide (4 ≤ logn) && decide (logn ≤ 16) &&
    decide (base < 2 ^ 64) && decide (taila < 2 ^ 64) && decide (heada < 2 ^ 64)

/-- A queue's control block is written STOPPED, then set RUNNING; its number is returned. -/
def State.startQueue (s : State) (ev : Option Nat) (ctx : Nat) (c : Context) (base taila heada logn : Nat) : State × Nat × List Nat :=
  let (s, q) := s.draw
  let cb : QCopy := { base := base, taila := taila, heada := heada, logn := logn, asid := c.asid }
  let s := s.updFw fun w => { w with queues := w.queues.put q { ctx := ctx, a := cb } }
  ((s.updBlock q ev fun c => { c with state := 1 }).postOnce (.tailWordWake q), mbOk, [q])

/-- QUEUE_START. -/
def execQueueStart (m : Mbox) (ctx base taila heada logn : Nat) (s : State) : Out :=
  let i : Instr := .queueStart m ctx base taila heada logn
  .next (s.viaMailbox1 i m 0x0001 fun s =>
    match s.liveCtx ctx with
    | none => (s, mbDenied, [])
    | some c => if queueArgs base taila heada logn then s.startQueue (s.mbEvent i) ctx c base taila heada logn else (s, mbBadArg, []))

/-- A queue of a live context. -/
def State.liveQueue (s : State) (q : Nat) : Option Queue := (s.queue? q).filter fun x => (s.liveCtx x.ctx).isSome

/-- QUEUE_STOP. -/
def execQueueStop (m : Mbox) (queue : Nat) (s : State) : Out :=
  .next (s.viaMailbox1 (.queueStop m queue) m 0x0002 fun s =>
    if (s.liveQueue queue).isSome then (s.halt queue 5 0 (s.headOf queue) (s.mbEvent (.queueStop m queue)), mbOk, []) else (s, mbDenied, []))

/-- QUEUE_RESTART: a halted queue resumes at QVAL. -/
def execQueueRestart (m : Mbox) (queue : Nat) (s : State) : Out :=
  .next (s.viaMailbox1 (.queueRestart m queue) m 0x0003 fun s =>
    match s.liveQueue queue with
    | none => (s, mbDenied, [])
    | some x =>
      if x.cb.state ≠ 2 then (s, mbBadArg, [])
      else ((s.updBlock queue (s.mbEvent (.queueRestart m queue)) fun c => { c with state := 1, hcause := 0, head := c.qval }).postOnce (.tailWordWake queue), mbOk, []))

/-! ### Contexts (R29, R316, R506) -/

/-- The lowest context id that no context has and no MOWN names (R327). -/
def State.freeCtx (s : State) : Nat :=
  let used := s.fw.ctxs.keys ++ s.cores.vals.map (·.mown)
  lowestFree used (used.length + 1) 1

/-- CONTEXT_CREATE: firmware records the root, which is 256-byte aligned (R30), and a save area, and maps the thread-local entries (R25). -/
def execContextCreate (m : Mbox) (asid root msave : Nat) (tl : List EntryWrite) (s : State) : Out :=
  .next (s.viaMailbox1 (.contextCreate m asid root msave tl) m 0x0010 fun s =>
    if asid = 0 ∨ 2 ^ 16 ≤ asid ∨ root % 256 ≠ 0 ∨ !populated root ∨ s.fw.ctxs.any (fun _ c => c.asid == asid) then (s, mbBadArg, [])
    else
      let id := s.freeCtx
      let c : Context := { asid := asid, root := root, msave := msave }
      let s := s.updFw fun w => { w with ctxs := w.ctxs.put id c }
      ((s.writeEntries c tl).1, mbOk, [id]))

/-- Forget a context, its queues, and what the fetch paths and cores hold of it. -/
def State.dropContext (s : State) (ctx asid : Nat) : State :=
  let s := s.updFw fun w => { w with ctxs := w.ctxs.del ctx, queues := w.queues.filter fun _ x => x.ctx != ctx }
  { s with cores := s.cores.map fun _ c => { c with
      fetch := c.fetch.filter fun k _ => k / 2 ^ 51 != asid
      men := c.men.filter (· != ctx)
      ctx := if c.ctx = ctx then 0 else c.ctx } }

/-- CONTEXT_RELEASE: the context ends, and its ids are free once no translation of its ASID is in use. -/
def execContextRelease (m : Mbox) (ctx : Nat) (s : State) : Out :=
  let i : Instr := .contextRelease m ctx
  .next (s.viaMailbox i m 0x0011 fun s _ =>
    match s.ctx? ctx with
    | none => s.mbEnd i m mbDenied []
    | some c =>
      let s := (s.endContext ctx).shootNow c.asid 0 (2 ^ 57)
      if s.shootQuiet c.asid then (s.dropContext ctx c.asid).mbEnd i m mbOk [] else s.fwWait i 1)

/-! ### Partitions, masks and the players (R479, R480, R484, R506) -/

/-- Whether no operation is at a Square of a context (R477). -/
def State.squaresIdle (s : State) (ctx : Nat) : Bool := s.sq.arrived.all fun k l => k / 16 != ctx || l.isEmpty

/-- Change every loaded Square of a context; the first component says whether the version rises. -/
def State.mapSquares (s : State) (ctx : Nat) (f : Square → Game → Square) : State :=
  s.updSq fun q => { q with squares := q.squares.map fun k x => if k / 16 = ctx then (match x.game with | some g => f x g | none => x) else x }

/-- A Square under new bounds: canonical when its state breaks an invariant, else kept with an empty undo stack and an incomplete history (R480). -/
def rebound (pfirst pcount : Nat) (x : Square) (g : Game) : Square :=
  let g := { g with pfirst := pfirst, pcount := pcount }
  { version := x.version + 1, game := some (if g.broken g.board ≠ 0 then g.restart else { g with undo := [], histOk := false }) }

/-- Whether a plan has a pitch outside the bounds. -/
def Plan.outside (p : Plan) (pfirst pcount : Nat) : Bool := p.game.board.pitches.any fun x => !x.inside p.game.dev pfirst pcount

/-- A plan under new bounds. -/
def Plan.rebound (p : Plan) (ctx pfirst pcount : Nat) : Plan := if p.ctx = ctx then { p with void := p.void || p.outside pfirst pcount } else p

/-- The effects of a change of partition, in the order of R480. -/
def State.repartition (s : State) (ctx pfirst pcount : Nat) : State :=
  let s := s.updFw fun w => { w with ctxs := w.ctxs.adjust ctx fun c => { c with pfirst := pfirst, pcount := pcount } }
  let s := s.mapSquares ctx (rebound pfirst pcount)
  let plan (p : Plan) : Plan := p.rebound ctx pfirst pcount
  s.updSq fun q => { q with
    plans := (q.plans.filter fun _ p => p.ctx != ctx || p.id != 0).map fun _ p => plan p
    changes := q.changes.map fun c => { c with plan := plan c.plan } }

/-- SET_PARTITION. -/
def execSetPartition (m : Mbox) (ctx pfirst pcount : Nat) (s : State) : Out :=
  let i : Instr := .setPartition m ctx pfirst pcount
  .next (s.viaMailbox i m 0x0012 fun s _ =>
    if (s.liveCtx ctx).isNone then s.mbEnd i m mbDenied []
    else if pcount = 0 ∨ 512 < pfirst + pcount then s.mbEnd i m mbBadArg []
    else if s.squaresIdle ctx then (s.repartition ctx pfirst pcount).mbEnd i m mbOk []
    else s.fwWait i 1)

/-- SET_PERM. -/
def execSetPerm (m : Mbox) (ctx perm0 perm1 perm2 : Nat) (s : State) : Out :=
  let i : Instr := .setPerm m ctx perm0 perm1 perm2
  let l := [perm0, perm1, perm2]
  .next (s.viaMailbox i m 0x0013 fun s _ =>
    if (s.liveCtx ctx).isNone then s.mbEnd i m mbDenied []
    else if l.any fun p => decide (0x7FF < p) then s.mbEnd i m mbBadArg []
    else if s.squaresIdle ctx then
      let s := s.updFw fun w => { w with ctxs := w.ctxs.adjust ctx fun c => { c with perm := l } }
      (s.mapSquares ctx fun x g => { x with game := some { g with perms := l } }).mbEnd i m mbOk []
    else s.fwWait i 1)

/-- SET_PLAYER. -/
def execSetPlayer (m : Mbox) (ctx budget cap : Nat) (s : State) : Out :=
  .next (s.viaMailbox1 (.setPlayer m ctx budget cap) m 0x0014 fun s =>
    if (s.liveCtx ctx).isNone then (s, mbDenied, [])
    else if 4096 < budget ∨ cap = 0 ∨ 65536 < cap then (s, mbBadArg, [])
    else (s.updFw fun w => { w with ctxs := w.ctxs.adjust ctx fun c => { c with budget := budget, cap := cap } }, mbOk, []))

/-- SET_TIMING: the ageing interval is at most 2^20 cycles (R271); the skip age limit holds on the cores of the partition (R311). -/
def execSetTiming (m : Mbox) (ctx ageing skip : Nat) (steal : Bool) (s : State) : Out :=
  .next (s.viaMailbox1 (.setTiming m ctx ageing skip steal) m 0x0015 fun s =>
    match s.liveCtx ctx with
    | none => (s, mbDenied, [])
    | some c =>
      if 2 ^ 20 < ageing ∨ skip = 0 ∨ 255 < skip then (s, mbBadArg, [])
      else
        let s := s.updFw fun w => { w with ctxs := w.ctxs.adjust ctx fun c => { c with ageing := ageing, skip := skip, steal := steal } }
        (c.cores.foldl (fun (s : State) k => s.updCore k fun x => { x with ageLimit := skip }) s, mbOk, []))

/-! ### MAP (R51, R506) -/

/-- Whether the entries of a MAP lie in its range. -/
def mapArgs (va len : Nat) (l : List EntryWrite) : Bool :=
  l.all fun w => decide (w.level ≤ 3) && decide (va ≤ w.va) && decide (w.va < va + len) && decide (w.entry < 2 ^ 64)

/-- MAP: the entries are written, then the range is shot down; step 1 waits for the shootdown, step 2 too after a table above an entry was missing. -/
def execMap (m : Mbox) (ctx va len : Nat) (entries : List EntryWrite) (s : State) : Out :=
  let i : Instr := .map m ctx va len entries
  .next (s.viaMailbox i m 0x0020 fun s e =>
    match s.liveCtx ctx with
    | none => s.mbEnd i m mbDenied []
    | some c =>
      if 2 ^ 56 < va + len then s.mbEnd i m mbDenied []
      else if !mapArgs va len entries then s.mbEnd i m mbBadArg []
      else
        let (s, ok) := if e.step = 0 then s.writeEntries c entries else (s, e.step == 1)
        let s := s.shootNow c.asid va len
        if s.shootQuiet c.asid then s.mbEnd i m (if ok then mbOk else mbFailed) [] else s.fwWait i (if ok then 1 else 2))

/-! ### Counters, attestation and power (R104, R513, R515, R516) -/

/-- The average of the last samples of power. -/
def Dev.average (d : Dev) : Nat := if d.samples.isEmpty then 0 else total d.samples / d.samples.length

/-- READ_COUNTERS: DIRBI, CE, UE, the average power, the cap and the throttled intervals. -/
def execReadCounters (m : Mbox) (die : Nat) (s : State) : Out :=
  .next (s.viaMailbox1 (.readCounters m die) m 0x0030 fun s =>
    if 4 ≤ die then (s, mbBadArg, [])
    else
      (s, mbOk, [s.fw.dirbi.getD die 0, s.fw.ce.getD die 0, s.fw.ue.getD die 0, s.dev.average, s.dev.cap, s.dev.throttled]))

/-- The fields of an attestation report. -/
def State.report (s : State) (nonce : Nat) : List Nat :=
  [nonce, s.dev.measure, s.dev.svn, s.dev.id, Config.serial] ++ s.fw.ctxs.vals.flatMap fun c => [c.asid, c.pfirst, c.pcount]

/-- A report as one number, for signing. -/
def reportNum (l : List Nat) : Nat := l.foldl (fun n x => n * 2 ^ 384 + x % 2 ^ 384) 1

/-- ATTEST. -/
def execAttest (m : Mbox) (nonce : Nat) (s : State) : Out :=
  .next (s.viaMailbox1 (.attest m nonce) m 0x0050 fun s =>
    let r := s.report (nonce % 2 ^ 384)
    (s, mbOk, r ++ [Config.rsaSign (reportNum r), Config.slhSign (reportNum r)]))

/-- POWER_CAP. -/
def execPowerCap (m : Mbox) (watts : Nat) (s : State) : Out :=
  .next (s.viaMailbox1 (.powerCap m watts) m 0x0060 fun s =>
    if watts < 1000 ∨ 3000 < watts then (s, mbBadArg, []) else ({ s with dev := { s.dev with cap := watts } }, mbOk, []))

/-! ### CHECKPOINT and RESTORE (R509) -/

/-- The key of a checkpoint image. -/
def imageKey (dev base : Nat) : Nat := dev * 2 ^ 64 + base

/-- Write every cached byte home: L1 lines leave and the dies write through. -/
def State.flushAll (s : State) : State :=
  let s := s.cores.cells.foldl (fun (s : State) p => p.2.l1.keys.foldl (fun (s : State) k => s.evictL1 p.1 k) s) s
  (List.range 4).foldl (fun (s : State) d => s.dieWriteThrough d) s

/-- Whether no write of a core or die is on its way. -/
def State.allQuiet (s : State) : Bool := s.cores.keys.all (fun c => s.coreQuiet c (2 ^ 64)) && (List.range 4).all fun d => s.dieQuiet d

/-- Go on after a drain: host accesses, crews and queues. -/
def State.endDrain (s : State) : State :=
  let s := s.updFw fun w => { w with drain := false }
  let s := ((s.crews.filter fun _ c => c.phase == .saved).keys).foldl (fun (s : State) k => s.postOnce (.crewResume k)) s
  s.fw.queues.keys.foldl (fun (s : State) q => (s.pokeQueue q).postOnce (.commandProcessorPrefetch q)) s

/-- The steps of a drain: 1 every crew is saved, and CUR changes, 2 the old tag is quiet and caches are written home, 3 memory stands still and the work is done. -/
def State.drainStep (s : State) (i : Instr) (e : FwEvent) (work : State → State) : State :=
  if e.step ≤ 1 then
    let s := s.updFw fun w => { w with drain := true }
    let live := s.crews.filter fun _ c => c.phase != .saved && c.phase != .finished
    let s := live.keys.foldl (fun (s : State) k => s.postOnce (.savePreemption k)) s
    if live.size ≠ 0 ∨ !s.tagQuiet (1 - s.curTag) then s.fwWait i 1 else (s.setTag (1 - s.curTag)).fwWait i 2
  else if e.step = 2 then
    if s.tagQuiet (1 - s.curTag) then s.flushAll.fwWait i 3 else s.fwWait i 2
  else if !s.allQuiet then s.fwWait i 3
  else
    let s := s.recallRange 0 (2 ^ 42)
    if s.rangeQuiet 0 (2 ^ 42) then work s else s.fwWait i 3

/-- CHECKPOINT: device memory is streamed to the safe tier at a drain point. -/
def execCheckpoint (m : Mbox) (dev base : Nat) (s : State) : Out :=
  let i : Instr := .checkpoint m dev base
  .next (s.viaMailbox i m 0x0040 fun s e =>
    if !s.peerKnown dev then s.mbEnd i m mbDenied []
    else s.drainStep i e fun s =>
      let img := s.mem.bytes.filter fun k _ => isHbm (lineNo k)
      ({ s with dev := { s.dev with image := s.dev.image.put (imageKey dev base) img } }.endDrain).mbEnd i m mbOk [])

/-- Device memory takes an image; no cached copy or translation of the old contents is left, and monitors see the new values. -/
def State.takeImage (s : State) (img : Memory) : State :=
  let s := s.updMem fun m => { m with
    bytes := img.cells.foldl (fun (b : Memory) p => b.write p.1 p.2) (m.bytes.filter fun k _ => !isHbm (lineNo k))
    homes := m.homes.filter fun l _ => !isHbm l
    hcache := FMap.empty
    rdc := m.rdc.filter fun k _ => !isHbm (k % 2 ^ 60)
    poison := m.poison.filter fun u => !isHbm (u / 4)
    tlb := FMap.empty
    dtlb := FMap.empty }
  let s := { s with cores := s.cores.map fun _ c => { c with l1 := c.l1.filter fun _ l => !isHbm l.line, fetch := FMap.empty } }
  s.evaluate fun m => match m.place with | .mem ga => isHbm (lineNo ga) | .scratch _ _ => false

/-- RESTORE: the image is written back at a drain point. -/
def execRestore (m : Mbox) (dev base : Nat) (s : State) : Out :=
  let i : Instr := .restore m dev base
  .next (s.viaMailbox i m 0x0041 fun s e =>
    if !s.peerKnown dev then s.mbEnd i m mbDenied []
    else
      match s.dev.image.get? (imageKey dev base) with
      | none => s.mbEnd i m mbFailed []
      | some img => s.drainStep i e fun s => ((s.takeImage img).endDrain).mbEnd i m mbOk [])

/-! ### DOWNLOAD (R511, R512) -/

/-- The header fields that both signatures cover, as one number. -/
def signedFields (x : Image) : Nat := (x.svn * 2 + if x.raiseSvn then 1 else 0) * 2 ^ 64 + x.size

/-- Whether the boot ROM accepts an image. -/
def Dev.accepts (d : Dev) (x : Image) : Bool :=
  Config.rsaVerifies x.digest (signedFields x) x.sigRsa && Config.slhVerifies x.digest (signedFields x) x.sigSlh && decide (d.minSvn ≤ x.svn)

/-- The boot ROM verifies an image: it runs, or the ROM waits at step 2 for another. -/
def State.romDownload (s : State) (m : Mbox) (size : Nat) (x : Image) : State :=
  if size = 0 ∨ 67108864 < size ∨ size < x.header then s.mbReply m 0x0070 mbBadArg
  else if !s.dev.accepts x then (s.mbReply m 0x0070 mbFailed).updDev fun d => { d with step := 2 }
  else
    ((s.mbReply m 0x0070 mbOk).updDev fun d => { d with
      step := 4
      svn := x.svn
      measure := x.digest
      minSvn := if x.raiseSvn then x.svn else d.minSvn }).postOnce .powerUp

/-- DOWNLOAD: served by the boot ROM up to step 3, denied by firmware afterwards. -/
def execDownload (m : Mbox) (size : Nat) (image : Image) (s : State) : Out :=
  .next (if s.dev.step ≤ 3 then (if m.reserved then s.mbReply m 0x0070 mbBadArg else s.romDownload m size image)
    else s.viaMailbox1 (.download m size image) m 0x0070 fun s => (s, mbDenied, []))

/-! ### SET_FABRIC (R507) -/

/-- The entries of a routing table in host memory, as numbers, from the bytes that CXL.io reads return. -/
def State.routeTable (s : State) (pa : Nat) : List Nat :=
  let bytes := (List.range 1025).flatMap fun k => s.unitLine (lineNo (hostGa pa) + k) .coh
  let b := bytes.drop (pa % 128)
  (List.range 32768).map fun k => natOf ((b.drop (4 * k)).take 4)

/-- The device ids that have a route, with their port masks. -/
def routesOf (l : List Nat) : FMap Nat := ⟨(l.zipIdx.filter fun p => p.1 != 0).map fun p => (p.2, p.1)⟩

/-- SET_FABRIC: only while no context exists; a reserved bit in the table leaves the previous one in force. -/
def execSetFabric (m : Mbox) (dev table : Nat) (s : State) : Out :=
  .next (s.viaMailbox1 (.setFabric m dev table) m 0x0071 fun s =>
    if s.fw.ctxs.size ≠ 0 then (s, mbDenied, [])
    else
      let l := s.routeTable table
      if 2 ^ 15 ≤ dev ∨ l.any (fun x => decide (2 ^ 18 ≤ x)) then (s, mbBadArg, [])
      else (s.updDev fun d => { d with id := dev, routes := routesOf l, fabric := true }, mbOk, []))

end Sys2Proof.Machine
end

