-- ==== Sys2Proof/Machine/Lane.lean ====
section
/-!
DEFINITION. The predicate and lane instructions (R240 to R245).
-/
namespace Sys2Proof.Machine

/-- PLOP (R241). -/
def execPlop (o : Ops) (s : State) : Out := .next (s.runAlu .plop o fun a b _ => aluPlop o a b)

/-- PMOV (R242). -/
def execPmov (o : Ops) (s : State) : Out := .next (s.runAlu .pmov o fun a _ _ => aluPmov o a)

/-- Run a lane instruction: each executing thread receives its own result, computed from the whole list of executing threads (R240). A thread's result may instead be a wait. -/
def State.runLanes (s : State) (c : Opc) (o : Ops) (f : Issue → List (Nat × Thread) → List (Nat × LaneOut)) : State :=
  match s.cur with
  | none => s
  | some iss =>
    let ex := s.executing iss o
    let flt := ex.filterMap fun p => (s.preFault iss c o p.1 p.2).map fun f => (p.1, f)
    let outs := f iss (ex.filter fun p => (s.preFault iss c o p.1 p.2).isNone)
    if outs.any (fun p => p.2 == .wait) || ex.any (fun p => p.2.halfBusy (c.pairDst o) o.dst) then s.stall iss
    else s.completeOut iss c o outs flt

/-- A thread's first operand. -/
def State.opA (s : State) (iss : Issue) (c : Opc) (o : Ops) (p : Nat × Thread) : Opnd := (s.operands iss c o p.1 p.2).1

/-- The ballot of a predicate: bit lane(t) for each thread where it is true (R243). -/
def ballot (l : List (Nat × Bool)) : Nat := l.foldl (fun acc p => if p.2 then Nat.lor acc (2 ^ p.1) else acc) 0

/-- The value VOTE gives every executing thread (R243): lanes with their predicates. -/
def voteValue (code : Nat) (l : List (Nat × Bool)) : Nat :=
  match code with
  | 0 => predBits (l.all Prod.snd)
  | 1 => predBits (l.any Prod.snd)
  | _ => ballot l

/-- VOTE (R243). -/
def execVote (o : Ops) (s : State) : Out :=
  .next (s.runLanes .vote o fun iss ex =>
    let x := voteValue (o.aux.toNat % 4) (ex.map fun p => (p.2.lane, asPred (s.opA iss .vote o p).val))
    ex.map fun p => (p.1, .value x))

/-- The live thread of a group at a lane. -/
def State.atLane (s : State) (core g lane : Nat) : Option (Nat × Thread) :=
  s.threads.find? fun k t => coreOf k == core && t.group == g && t.lane == lane

/-- SHFL: the register read may belong to a thread that does not execute (R244). -/
def execShfl (o : Ops) (s : State) : Out :=
  .next (s.runLanes .shfl o fun iss ex => ex.map fun p =>
    let b := (s.operands iss .shfl o p.1 p.2).2.1
    let src := (s.atLane iss.core iss.group (shflLane (o.aux.toNat % 4) p.2.lane b.val)).getD p
    match b, s.opA iss .shfl o src with
    | .known _, .known x => (p.1, .value x)
    | _, _ => (p.1, .wait))

/-- Insert by lane, for the ascending order of reductions (R245). -/
def insertLane (x : Nat × Nat × Nat) : List (Nat × Nat × Nat) → List (Nat × Nat × Nat)
  | [] => [x]
  | y :: r => if x.1 ≤ y.1 then x :: y :: r else y :: insertLane x r

/-- The executing threads as (lane, key, value), in ascending lane order. -/
def laneOrder (l : List (Nat × Nat × Nat)) : List (Nat × Nat × Nat) := l.foldr insertLane []

/-- A value as a reduction returns it: a NaN is the canonical one (R245, R335). -/
def quietOf (t : Ty) (x : Nat) : Nat := if t = .f32 ∧ fp32.value (lowBits 32 x) = .nan then fp32.nan else x

/-- The inclusive prefixes of a reduction, with each thread's key (R245). -/
def prefixes (f : Nat → Nat → Nat) : Option Nat → List (Nat × Nat × Nat) → List (Nat × Nat)
  | _, [] => []
  | none, (_, k, x) :: r => (k, x) :: prefixes f (some x) r
  | some acc, (_, k, x) :: r => (k, f acc x) :: prefixes f (some (f acc x)) r

/-- The prefixes of the executing threads' values; none while one is pending. -/
def State.groupPrefixes (s : State) (c : Opc) (o : Ops) (iss : Issue) (ex : List (Nat × Thread)) : Option (List (Nat × Nat)) :=
  if ex.any (fun p => !(s.opA iss c o p).isKnown) then none
  else some (prefixes (combine o.ty (o.aux.toNat % 8)) none
    (laneOrder (ex.map fun p => (p.2.lane, p.1, quietOf o.ty (s.opA iss c o p).val))))

/-- GRED: every executing thread receives the whole reduction (R245). -/
def execGred (o : Ops) (s : State) : Out :=
  .next (s.runLanes .gred o fun iss ex =>
    match s.groupPrefixes .gred o iss ex with
    | none => ex.map fun p => (p.1, .wait)
    | some l =>
      let acc := (l.getLast?.map Prod.snd).getD 0
      ex.map fun p => (p.1, .value acc))

/-- GSCAN: every executing thread receives its inclusive prefix (R245). -/
def execGscan (o : Ops) (s : State) : Out :=
  .next (s.runLanes .gscan o fun iss ex =>
    match s.groupPrefixes .gscan o iss ex with
    | none => ex.map fun p => (p.1, .wait)
    | some l => l.map fun p => (p.1, .value p.2))

end Sys2Proof.Machine
end

