-- ==== Sys2Proof/Machine/Link.lean ====
section
/-!
DEFINITION. Yareot Link, bring-up, power samples and patrol scrubs (R153, R507, R508, R510, R514, R516).
-/
namespace Sys2Proof.Machine

/-! ### Ports and routes (R507) -/

/-- The lowest port with a route to a peer that is not taken down. -/
def State.portTo (s : State) (dev : Nat) : Option Nat :=
  (List.range 18).find? fun p => (s.dev.routes.getD dev 0).testBit p && !s.dev.down.contains p

/-- The peer that a request is about, if it leaves this package. -/
def peerOfReq : LinkReq → Option Nat
  | .fetch _ line => some (peerOf line)
  | .write _ line _ => some (peerOf line)
  | .cell c => match c.place with | .mem ga => some (peerOf (lineNo ga)) | .scratch _ _ => none
  | .red _ ga _ _ _ => some (peerOf (lineNo ga))
  | _ => none

/-- What the order of requests over the ports is kept by: a die and line, a source core's cells, a peer's die, a thread's wakes (R507). -/
def linkOrder : LinkReq → List Nat
  | .fetch d l => [5, d, l]
  | .write d l _ => [5, d, l]
  | .cell c => [6, coreOf c.tid]
  | .red tid _ _ _ _ => [6, coreOf tid]
  | .inRead d _ | .inWrite d _ _ | .inAtom d _ _ _ _ | .inCas d _ _ _ _ => [7, d]
  | .wake tid _ => [8, tid]

/-- A request that cannot be performed yet goes back ahead of the later ones of its order. -/
def State.linkAgain (s : State) (r : LinkReq) : State :=
  s.repost (fun e => match e with | .peerLinkRequest q => linkOrder q == linkOrder r | _ => false) (.peerLinkRequest r)

/-- A request has been delivered: its port's replays are no longer consecutive. -/
def State.delivered (s : State) (dev : Nat) : State :=
  match s.portTo dev with
  | some p => s.updDev fun d => { d with replays := d.replays.del p }
  | none => s

/-! ### Requests (R153, R507) -/

/-- A request of this package, performed once at the peer's home slice. -/
def State.performOut (s : State) (r : LinkReq) : State :=
  match r with
  | .fetch die line => s.post (.data die line (s.lineBytes line) false)
  | .write die line b => (s.homeWrite (line * 128) b).post (.wbAck die line)
  | .cell c => s.performCell c
  | .red _ ga op ty x => s.homeWriteNat ga (ty.bits / 8) (combine ty op (s.memNat ga (ty.bits / 8)) x)
  | _ => s

/-- A peer's access to a line: at the home slice once the line is ready; false while it must wait, as a request of another die does for outstanding invalidations (R99). -/
def State.peerTurn (s : State) (line : Nat) (write : Bool) : State × Bool := if isHbm line then s.cellTurn line write true none else (s, true)

/-- A peer's request; memory of a peer changes only by its own writes. -/
def State.performIn (s : State) (r : LinkReq) : State :=
  let again (s : State) : State := s.linkAgain r
  match r with
  | .inRead _ line =>
    match s.peerTurn line false with
    | (s, true) => s
    | (s, false) => again s
  | .inWrite _ line b =>
    match s.peerTurn line true with
    | (s, true) => s.homeWrite (line * 128) b
    | (s, false) => again s
  | .inAtom _ ga op ty x =>
    match s.peerTurn (lineNo ga) true with
    | (s, true) => s.homeWriteNat ga (ty.bits / 8) (combine ty op (s.memNat ga (ty.bits / 8)) x)
    | (s, false) => again s
  | .inCas _ ga ty expected x =>
    let n := ty.bits / 8
    match s.peerTurn (lineNo ga) true with
    | (s, true) => if s.memNat ga n = lowBits (8 * n) expected then s.homeWriteNat ga n x else s
    | (s, false) => again s
  | _ => s

/-- A monitor wake from a peer: the waiting thread's read returns the value (R172, R175). -/
def State.peerWake (s : State) (tid value : Nat) : State :=
  match s.mem.mons.find? fun m => match m.who with | .waitw k _ _ => k == tid | _ => false with
  | some m =>
    match m.who with
    | .waitw _ dst _ =>
      let s := (s.unregister m).readDone tid m.wide dst value
      if m.take then s.takingRecon (coreOf tid) else s
    | _ => s
  | none => s

/-- PEER_LINK_REQUEST: a request with no route up waits. -/
def execPeerLinkRequest (r : LinkReq) (s : State) : Out :=
  .next (match r with
    | .wake tid value => s.peerWake tid value
    | r =>
      match peerOfReq r with
      | none => s.performIn r
      | some dev => if (s.portTo dev).isSome then (s.delivered dev).performOut r else s.linkAgain r)

/-- FLIT_REPLAY: the flit is asked for again; the sixteenth consecutive replay takes the port down. -/
def execFlitReplay (port : Nat) (s : State) : Out :=
  .next (if 18 ≤ port ∨ s.dev.down.contains port then s
    else
      let n := s.dev.replays.getD port 0 + 1
      let s := s.updDev fun d => { d with replays := d.replays.put port n }
      if 16 ≤ n then s.postOnce (.portDown port) else s)

/-- PORT_DOWN: requests in flight go by the other ports with a route. -/
def execPortDown (port : Nat) (s : State) : Out :=
  .next (if 18 ≤ port ∨ s.dev.down.contains port then s
    else s.updDev fun d => { d with down := d.down ++ [port], replays := d.replays.del port })

/-! ### PEER_UNREACHABLE_TIMEOUT (R508) -/

/-- End every context of a list. -/
def State.endContexts (s : State) (l : List Nat) : State := l.foldl (fun (s : State) c => s.endContext c) s

/-- The units of a line are uncorrectable. -/
def State.poisonLine (s : State) (line : Nat) : State := s.updMem fun m => { m with poison := m.poison ++ (List.range 4).map (line * 4 + ·) }

/-- The context of a thread. -/
def State.ctxOfTid (s : State) (tid : Nat) : Nat := ((s.threads.get? tid).map s.ctxOf).getD 0

/-- A read to an unreachable peer is given DATA_UNCORRECTABLE. -/
def State.failRead (s : State) (c : CellOp) : State :=
  match c.late with
  | some id =>
    let s := s.updThread c.tid fun t => { t with takes := t.takes.filter (· != id) }
    let s := if c.kind = .await then s.updThread c.tid fun t => { t with joins := t.joins.filter (· != id), status := if t.status = .waiting .sending then .ready else t.status } else s
    s.post (.pendingValueArrival [c.tid] id 0 (some c.ea))
  | none => (s.park c.tid ⟨0x0D, c.ea⟩).checkMatesOf c.tid

/-- One outstanding request to a peer that no port reaches. -/
def State.failReq (s : State) (r : LinkReq) : State :=
  match r with
  | .fetch die line => (s.poisonLine line).post (.data die line (s.lineBytes line) false)
  | .write die line _ => ((s.endContexts (s.ctxsOf line)).post (.wbAck die line))
  | .cell c =>
    match c.kind with
    | .take | .waitw _ | .await | .pollf => s.failRead c
    | _ => s.endContext (s.ctxOfTid c.tid)
  | .red tid _ _ _ _ => s.endContext (s.ctxOfTid tid)
  | _ => s

/-- Whether an event is a request to a peer. -/
def toPeer (dev : Nat) : Instr → Bool
  | .peerLinkRequest r => peerOfReq r == some dev
  | _ => false

/-- PEER_UNREACHABLE_TIMEOUT: no port has had a route to the peer for 10 ms. -/
def execPeerUnreachableTimeout (dev : Nat) (s : State) : Out :=
  .next (if (s.portTo dev).isSome then s
    else
      let l := s.due.filter (toPeer dev)
      let s := { s with due := s.due.filter fun e => !toPeer dev e }
      l.foldl (fun (s : State) e => match e with | .peerLinkRequest r => s.failReq r | _ => s) s)

/-! ### POWER_UP (R510) -/

/-- The state after a power cycle: what lies outside the package and the fuses stay. -/
def State.powerCycle (s : State) : State :=
  { State.reset with
    mem := { bytes := s.mem.bytes.filter fun k _ => !isHbm (lineNo k) }
    dev := { minSvn := s.dev.minSvn, image := s.dev.image }
    due := [.powerUp], picks := s.picks, free := s.free, fresh := s.fresh, turn := s.turn }

/-- Ungate the next cluster. -/
def State.ungateNext (s : State) : State :=
  match (List.range 64).find? fun k => (s.core (8 * k)).gated with
  | some k => (List.range 8).foldl (fun (s : State) i => s.updCore (8 * k + i) fun c => { c with gated := false }) s
  | none => s.updDev fun d => { d with step := 7 }

/-- Enable the matrix arrays of the next cluster. -/
def State.enableNext (s : State) : State :=
  match (List.range 64).find? fun k => !(s.core (8 * k)).marray with
  | some k => (List.range 8).foldl (fun (s : State) i => s.updCore (8 * k + i) fun c => { c with marray := true }) s
  | none => (s.updDev fun d => { d with step := 8 }).pokeFw

/-- One action of bring-up; steps 2 and 3 are the host's download and the ROM's check. -/
def State.bringUp (s : State) : State :=
  match s.dev.step with
  | 1 => s.updDev fun d => { d with step := 2 }
  | 4 => (s.updDev fun d => { d with step := 5 }).post .powerUp
  | 5 => ((s.updMem fun m => { m with hcache := FMap.empty, homes := FMap.empty, mons := [], held := [] }).updDev fun d => { d with step := 6 }).post .powerUp
  | 6 => s.ungateNext.post .powerUp
  | 7 => let s := s.enableNext; if s.dev.step = 8 then s else s.post .powerUp
  | 2 | 3 => s
  | _ => s.powerCycle

/-- POWER_UP: the next action of bring-up; once it is complete, a new power-up. -/
def execPowerUp (s : State) : Out := .next s.bringUp

/-! ### POWER_SAMPLE (R514) -/

/-- POWER_SAMPLE: throttling follows the average of the last eight samples, and changes time only; an interval is spent throttled while the issue rate stays lowered (R515, log 111). -/
def execPowerSample (watts : Nat) (s : State) : Out :=
  .next (if s.dev.step < 8 then s
    else
      let s := s.updDev fun d => { d with samples := (watts :: d.samples).take 8 }
      let above := decide (s.dev.cap < s.dev.average)
      let steps := if above then s.dev.throttle + 1 else s.dev.throttle - 1
      s.updDev fun d => { d with throttle := steps, throttled := if steps = 0 then d.throttled else d.throttled + 1 })

/-! ### PATROL_SCRUB (R516) -/

/-- Count a corrected error or an uncorrectable unit of a die; both counters saturate. -/
def State.countError (s : State) (die : Nat) (correctable : Bool) : State :=
  s.updFw fun w =>
    if correctable then { w with ce := w.ce.put die (min (2 ^ 32 - 1) (w.ce.getD die 0 + 1)) }
    else { w with ue := w.ue.put die (min (2 ^ 16 - 1) (w.ue.getD die 0 + 1)) }

/-- Mark a unit poisoned. -/
def State.poisonUnit (s : State) (line unit : Nat) : State :=
  let u := line * 4 + unit % 4
  s.updMem fun m => { m with poison := if m.poison.contains u then m.poison else m.poison ++ [u] }

/-- The die whose registers count an error. -/
def errDie : ErrAt → Nat
  | .home line => if isHbm line then homeDie line else 0
  | .l1 core _ | .spad core => dieOf core
  | .rdc die _ | .spoil die => die

/-- An uncorrectable unit of HBM, which is poisoned, or of a home-cache line: a dirty one is poisoned, a clean one dropped and read from HBM again. -/
def State.homeError (s : State) (line unit : Nat) : State :=
  match s.mem.hcache.get? line with
  | some h =>
    if h.dirty then s.poisonUnit line unit
    else if h.reading then s
    else (s.updMem fun m => { m with hcache := m.hcache.put line { h with reading := true } }).post (.hbmReadReturn line)
  | none => s.poisonUnit line unit

/-- An uncorrectable word of an L1 line: a word with a dirty or delta byte stays so until it is read, written whole or written back; a clean one is dropped, to be fetched again. -/
def State.l1Error (s : State) (core key word : Nat) : State :=
  let hit (l : L1Line) : L1Line :=
    if (List.range 4).any (fun i => ((l.bytes.get? (word * 4 + i)).map (·.dirty)).getD false) then { l with bad := insertDie word l.bad }
    else { l with bytes := l.bytes.filter fun k _ => k / 4 != word }
  s.updCore core fun c => { c with l1 := c.l1.adjust key hit }

/-- An uncorrectable unit of an RDC line: in a dirty or gather line it is poisoned, a clean line is dropped and fetched again when it is next used. -/
def State.rdcError (s : State) (die line unit : Nat) : State :=
  let l := s.rdcLine die line
  if l.st = some .g ∨ (l.bytes.cells.any fun p => p.2.dirty) = true then s.setRdc die line { l with bad := insertDie unit l.bad }
  else if l.st.isSome ∧ l.wait.isNone then s.setRdc die line { l with st := none, bytes := FMap.empty, bad := [] }
  else s

/-- The context that owns a registration. -/
def State.ctxOfMon (s : State) (m : Monitor) : Nat :=
  match m.who with
  | .waitw tid _ _ | .await tid _ _ _ _ => s.ctxOfTid tid
  | .tail q | .sig q => ((s.queue? q).map (·.ctx)).getD 0

/-- An error that the code cannot correct, in part `n` of the array: a unit of a line at its home or in an RDC, a word of an L1 line or of a scratchpad, an entry of a spoil list (R74, R177, R516). A corrupt spoil-list entry ends the owning contexts (R316). -/
def State.uncorrectable (s : State) (n : Nat) : ErrAt → State
  | .home line => if isHbm line then s.homeError line n else s.rdcError 0 line n
  | .l1 core key => s.l1Error core key n
  | .rdc die line => s.rdcError die line n
  | .spad core => s.updMem fun m => { m with spadBad := insertDie (wordKey core (n * 4)) m.spadBad }
  | .spoil die => s.endThose ((s.mem.mons.filter fun m => m.spoil && m.die == die && m.index == n).map s.ctxOfMon)

/-- Whether part `n` of an array exists. -/
def errReal (n : Nat) : ErrAt → Bool
  | .home _ => decide (n < 4)
  | .l1 core _ => decide (core < 512) && decide (n < 32)
  | .rdc die _ => decide (die < 4) && decide (n < 4)
  | .spad core => decide (core < 512) && decide (n < 114688)
  | .spoil die => decide (die < 4) && decide (n < spoilRoom)

/-- PATROL_SCRUB: an error is found, by a scrubber or by the code of the part where it lies, and counted on its die; a correctable one is corrected in place. -/
def execPatrolScrub (place : ErrAt) (n : Nat) (correctable : Bool) (s : State) : Out :=
  .next (if !errReal n place then s
    else
      let s := s.countError (errDie place) correctable
      if correctable then s else s.uncorrectable n place)

end Sys2Proof.Machine
end

