-- ==== Sys2Proof/Machine/Dispatch.lean ====
section
/-!
DEFINITION. The dispatch of a step to the meaning of its instruction or event: one arm for each row of the opcode table.
-/
namespace Sys2Proof.Machine

/-- The meaning of an instruction or event in a state. -/
def exec (i : Instr) (s : State) : Host.Outcome State Fault Refusal :=
  match i with
  | .nop o => Sys2Proof.Machine.execNop o s
  | .bra o => Sys2Proof.Machine.execBra o s
  | .brx o => Sys2Proof.Machine.execBrx o s
  | .call o => Sys2Proof.Machine.execCall o s
  | .callx o => Sys2Proof.Machine.execCallx o s
  | .ret o => Sys2Proof.Machine.execRet o s
  | .exit o => Sys2Proof.Machine.execExit o s
  | .syncg o => Sys2Proof.Machine.execSyncg o s
  | .yield o => Sys2Proof.Machine.execYield o s
  | .prio o => Sys2Proof.Machine.execPrio o s
  | .bkpt o => Sys2Proof.Machine.execBkpt o s
  | .iadd o => Sys2Proof.Machine.execIadd o s
  | .isub o => Sys2Proof.Machine.execIsub o s
  | .imul o => Sys2Proof.Machine.execImul o s
  | .imulh o => Sys2Proof.Machine.execImulh o s
  | .imad o => Sys2Proof.Machine.execImad o s
  | .idiv o => Sys2Proof.Machine.execIdiv o s
  | .irem o => Sys2Proof.Machine.execIrem o s
  | .imin o => Sys2Proof.Machine.execImin o s
  | .imax o => Sys2Proof.Machine.execImax o s
  | .iabs o => Sys2Proof.Machine.execIabs o s
  | .ineg o => Sys2Proof.Machine.execIneg o s
  | .icmp o => Sys2Proof.Machine.execIcmp o s
  | .isel o => Sys2Proof.Machine.execIsel o s
  | .and o => Sys2Proof.Machine.execAnd o s
  | .or o => Sys2Proof.Machine.execOr o s
  | .xor o => Sys2Proof.Machine.execXor o s
  | .not o => Sys2Proof.Machine.execNot o s
  | .andn o => Sys2Proof.Machine.execAndn o s
  | .shl o => Sys2Proof.Machine.execShl o s
  | .shr o => Sys2Proof.Machine.execShr o s
  | .sar o => Sys2Proof.Machine.execSar o s
  | .rotl o => Sys2Proof.Machine.execRotl o s
  | .bfx o => Sys2Proof.Machine.execBfx o s
  | .bfi o => Sys2Proof.Machine.execBfi o s
  | .popc o => Sys2Proof.Machine.execPopc o s
  | .clz o => Sys2Proof.Machine.execClz o s
  | .ctz o => Sys2Proof.Machine.execCtz o s
  | .brev o => Sys2Proof.Machine.execBrev o s
  | .lea o => Sys2Proof.Machine.execLea o s
  | .mov o => Sys2Proof.Machine.execMov o s
  | .movi o => Sys2Proof.Machine.execMovi o s
  | .movh o => Sys2Proof.Machine.execMovh o s
  | .idot4 o => Sys2Proof.Machine.execIdot4 o s
  | .fadd o => Sys2Proof.Machine.execFadd o s
  | .fsub o => Sys2Proof.Machine.execFsub o s
  | .fmul o => Sys2Proof.Machine.execFmul o s
  | .ffma o => Sys2Proof.Machine.execFfma o s
  | .fmin o => Sys2Proof.Machine.execFmin o s
  | .fmax o => Sys2Proof.Machine.execFmax o s
  | .fcmp o => Sys2Proof.Machine.execFcmp o s
  | .frcp o => Sys2Proof.Machine.execFrcp o s
  | .frsq o => Sys2Proof.Machine.execFrsq o s
  | .fsqrt o => Sys2Proof.Machine.execFsqrt o s
  | .fdiv o => Sys2Proof.Machine.execFdiv o s
  | .fexp2 o => Sys2Proof.Machine.execFexp2 o s
  | .flog2 o => Sys2Proof.Machine.execFlog2 o s
  | .fsin o => Sys2Proof.Machine.execFsin o s
  | .fcos o => Sys2Proof.Machine.execFcos o s
  | .ftanh o => Sys2Proof.Machine.execFtanh o s
  | .fclass o => Sys2Proof.Machine.execFclass o s
  | .frnd o => Sys2Proof.Machine.execFrnd o s
  | .fscalb o => Sys2Proof.Machine.execFscalb o s
  | .fdot2 o => Sys2Proof.Machine.execFdot2 o s
  | .fdot4 o => Sys2Proof.Machine.execFdot4 o s
  | .cvt o => Sys2Proof.Machine.execCvt o s
  | .pack o => Sys2Proof.Machine.execPack o s
  | .unpack o => Sys2Proof.Machine.execUnpack o s
  | .plop o => Sys2Proof.Machine.execPlop o s
  | .pmov o => Sys2Proof.Machine.execPmov o s
  | .vote o => Sys2Proof.Machine.execVote o s
  | .shfl o => Sys2Proof.Machine.execShfl o s
  | .gred o => Sys2Proof.Machine.execGred o s
  | .gscan o => Sys2Proof.Machine.execGscan o s
  | .ld o => Sys2Proof.Machine.execLd o s
  | .st o => Sys2Proof.Machine.execSt o s
  | .lds o => Sys2Proof.Machine.execLds o s
  | .sts o => Sys2Proof.Machine.execSts o s
  | .ldk o => Sys2Proof.Machine.execLdk o s
  | .pref o => Sys2Proof.Machine.execPref o s
  | .atom o => Sys2Proof.Machine.execAtom o s
  | .atomc o => Sys2Proof.Machine.execAtomc o s
  | .red o => Sys2Proof.Machine.execRed o s
  | .give o => Sys2Proof.Machine.execGive o s
  | .take o => Sys2Proof.Machine.execTake o s
  | .waitw o => Sys2Proof.Machine.execWaitw o s
  | .cwb o => Sys2Proof.Machine.execCwb o s
  | .cinv o => Sys2Proof.Machine.execCinv o s
  | .spawn o => Sys2Proof.Machine.execSpawn o s
  | .await o => Sys2Proof.Machine.execAwait o s
  | .pollf o => Sys2Proof.Machine.execPollf o s
  | .fret o => Sys2Proof.Machine.execFret o s
  | .stealpt o => Sys2Proof.Machine.execStealpt o s
  | .cbar o => Sys2Proof.Machine.execCbar o s
  | .nbar o => Sys2Proof.Machine.execNbar o s
  | .qpush o => Sys2Proof.Machine.execQpush o s
  | .qpop o => Sys2Proof.Machine.execQpop o s
  | .tfetch o => Sys2Proof.Machine.execTfetch o s
  | .regxGet o => Sys2Proof.Machine.execRegxGet o s
  | .regxPut o => Sys2Proof.Machine.execRegxPut o s
  | .kset o => Sys2Proof.Machine.execKset o s
  | .symq o => Sys2Proof.Machine.execSymq o s
  | .resolve o => Sys2Proof.Machine.execResolve o s
  | .trap o => Sys2Proof.Machine.execTrap o s
  | .eret o => Sys2Proof.Machine.execEret o s
  | .getsr o => Sys2Proof.Machine.execGetsr o s
  | .setsr o => Sys2Proof.Machine.execSetsr o s
  | .regionB o => Sys2Proof.Machine.execRegionB o s
  | .regionE o => Sys2Proof.Machine.execRegionE o s
  | .mmaSolo o => Sys2Proof.Machine.execMmaSolo o s
  | .mmaPair o => Sys2Proof.Machine.execMmaPair o s
  | .mzero o => Sys2Proof.Machine.execMzero o s
  | .mload o => Sys2Proof.Machine.execMload o s
  | .msave o => Sys2Proof.Machine.execMsave o s
  | .mdrain o => Sys2Proof.Machine.execMdrain o s
  | .mstat o => Sys2Proof.Machine.execMstat o s
  | .rfma o => Sys2Proof.Machine.execRfma o s
  | .rscl o => Sys2Proof.Machine.execRscl o s
  | .rred o => Sys2Proof.Machine.execRred o s
  | .rexp o => Sys2Proof.Machine.execRexp o s
  | .rcvt o => Sys2Proof.Machine.execRcvt o s
  | .cpy o => Sys2Proof.Machine.execCpy o s
  | .rngEngine o => Sys2Proof.Machine.execRngEngine o s
  | .rngRegister o => Sys2Proof.Machine.execRngRegister o s
  | .sqload o => Sys2Proof.Machine.execSqload o s
  | .sqlegal o => Sys2Proof.Machine.execSqlegal o s
  | .sqplay o => Sys2Proof.Machine.execSqplay o s
  | .sqplayList o => Sys2Proof.Machine.execSqplayList o s
  | .squndo o => Sys2Proof.Machine.execSqundo o s
  | .sqscore o => Sys2Proof.Machine.execSqscore o s
  | .sqread o => Sys2Proof.Machine.execSqread o s
  | .sqsave o => Sys2Proof.Machine.execSqsave o s
  | .sqcheck o => Sys2Proof.Machine.execSqcheck o s
  | .sqcommit o => Sys2Proof.Machine.execSqcommit o s
  | .issueClock core => Sys2Proof.Machine.execIssueClock core s
  | .fetchLineReturn core asid vline => Sys2Proof.Machine.execFetchLineReturn core asid vline s
  | .regroup core => Sys2Proof.Machine.execRegroup core s
  | .pendingValueArrival tids late value bad => Sys2Proof.Machine.execPendingValueArrival tids late value bad s
  | .scrubberVisit core => Sys2Proof.Machine.execScrubberVisit core s
  | .pageWalk core asid pc need reqs => Sys2Proof.Machine.execPageWalk core asid pc need reqs s
  | .cellOperationRequest c => Sys2Proof.Machine.execCellOperationRequest c s
  | .spoilListHeldRegistration c => Sys2Proof.Machine.execSpoilListHeldRegistration c s
  | .peerWindowRequest tid ctx core off k => Sys2Proof.Machine.execPeerWindowRequest tid ctx core off k s
  | .illTimedReport tid => Sys2Proof.Machine.execIllTimedReport tid s
  | .homeDieAccess line w served => Sys2Proof.Machine.execHomeDieAccess line w served s
  | .hbmReadReturn line => Sys2Proof.Machine.execHbmReadReturn line s
  | .rds die line served => Sys2Proof.Machine.execRds die line served s
  | .rdm die line served => Sys2Proof.Machine.execRdm die line served s
  | .upg die line served => Sys2Proof.Machine.execUpg die line served s
  | .rdg die line k served => Sys2Proof.Machine.execRdg die line k served s
  | .wbm die line bytes => Sys2Proof.Machine.execWbm die line bytes s
  | .inv die line owner => Sys2Proof.Machine.execInv die line owner s
  | .invAck die line bytes => Sys2Proof.Machine.execInvAck die line bytes s
  | .gatherRecall die line => Sys2Proof.Machine.execGatherRecall die line s
  | .gatherData die line delta asked => Sys2Proof.Machine.execGatherData die line delta asked s
  | .data die line bytes m => Sys2Proof.Machine.execData die line bytes m s
  | .grant die line m => Sys2Proof.Machine.execGrant die line m s
  | .wbAck die line => Sys2Proof.Machine.execWbAck die line s
  | .retry die line k => Sys2Proof.Machine.execRetry die line k s
  | .retryBackoffExpiry die line => Sys2Proof.Machine.execRetryBackoffExpiry die line s
  | .rdsU die line => Sys2Proof.Machine.execRdsU die line s
  | .wbmU die line bytes => Sys2Proof.Machine.execWbmU die line bytes s
  | .gatherDataU die line k delta => Sys2Proof.Machine.execGatherDataU die line k delta s
  | .hostSnoop line => Sys2Proof.Machine.execHostSnoop line s
  | .hostCacheData line bytes m => Sys2Proof.Machine.execHostCacheData line bytes m s
  | .hostMemrd line snoop => Sys2Proof.Machine.execHostMemrd line snoop s
  | .hostMemwr line bytes => Sys2Proof.Machine.execHostMemwr line bytes s
  | .birsp line bytes => Sys2Proof.Machine.execBirsp line bytes s
  | .peerLinkRequest r => Sys2Proof.Machine.execPeerLinkRequest r s
  | .flitReplay port => Sys2Proof.Machine.execFlitReplay port s
  | .portDown port => Sys2Proof.Machine.execPortDown port s
  | .peerUnreachableTimeout dev => Sys2Proof.Machine.execPeerUnreachableTimeout dev s
  | .engineOperationStart op => Sys2Proof.Machine.execEngineOperationStart op s
  | .engineOperationEnd op => Sys2Proof.Machine.execEngineOperationEnd op s
  | .engineOperationResume op => Sys2Proof.Machine.execEngineOperationResume op s
  | .crewLaunchDrain crew => Sys2Proof.Machine.execCrewLaunchDrain crew s
  | .crewFirstIssueGrant crew => Sys2Proof.Machine.execCrewFirstIssueGrant crew s
  | .granuleRelease crew => Sys2Proof.Machine.execGranuleRelease crew s
  | .dispatchCrewStart core => Sys2Proof.Machine.execDispatchCrewStart core s
  | .skipAgeLimitReached core => Sys2Proof.Machine.execSkipAgeLimitReached core s
  | .affinityAgeingExpiry crew => Sys2Proof.Machine.execAffinityAgeingExpiry crew s
  | .crewSteal core => Sys2Proof.Machine.execCrewSteal core s
  | .continuationResume core cont => Sys2Proof.Machine.execContinuationResume core cont s
  | .crewEnd crew => Sys2Proof.Machine.execCrewEnd crew s
  | .shelveGroup core => Sys2Proof.Machine.execShelveGroup core s
  | .unshelveGroup core shelf => Sys2Proof.Machine.execUnshelveGroup core shelf s
  | .remoteBarrierArrival tid handle id count => Sys2Proof.Machine.execRemoteBarrierArrival tid handle id count s
  | .remoteQueueRequest tid handle queue push dst wide nb pred => Sys2Proof.Machine.execRemoteQueueRequest tid handle queue push dst wide nb pred s
  | .regxBlockGrant core => Sys2Proof.Machine.execRegxBlockGrant core s
  | .dispenserStealRequest launch lot thief victim => Sys2Proof.Machine.execDispenserStealRequest launch lot thief victim s
  | .dispenserStealReply launch lot thief victim coords left => Sys2Proof.Machine.execDispenserStealReply launch lot thief victim coords left s
  | .discardPreemption crew => Sys2Proof.Machine.execDiscardPreemption crew s
  | .savePreemption crew => Sys2Proof.Machine.execSavePreemption crew s
  | .crewResume crew => Sys2Proof.Machine.execCrewResume crew s
  | .contextSwitch out inc => Sys2Proof.Machine.execContextSwitch out inc s
  | .contextEnd ctx => Sys2Proof.Machine.execContextEnd ctx s
  | .firmwareFirstTrapEvent who choice => Sys2Proof.Machine.execFirmwareFirstTrapEvent who choice s
  | .parkedSubgroupResume core group => Sys2Proof.Machine.execParkedSubgroupResume core group s
  | .matrixFirstUse core => Sys2Proof.Machine.execMatrixFirstUse core s
  | .shootdown asid va len => Sys2Proof.Machine.execShootdown asid va len s
  | .pageMigration asid va frame => Sys2Proof.Machine.execPageMigration asid va frame s
  | .frameModeChange frame mode => Sys2Proof.Machine.execFrameModeChange frame mode s
  | .firmwareEventRun fwcore => Sys2Proof.Machine.execFirmwareEventRun fwcore s
  | .firmwareEventContinuation ev => Sys2Proof.Machine.execFirmwareEventContinuation ev s
  | .watchdogExpiry fwcore => Sys2Proof.Machine.execWatchdogExpiry fwcore s
  | .tailWordWake queue => Sys2Proof.Machine.execTailWordWake queue s
  | .commandProcessorPrefetch queue => Sys2Proof.Machine.execCommandProcessorPrefetch queue s
  | .packetNop queue => Sys2Proof.Machine.execPacketNop queue s
  | .packetLaunch queue => Sys2Proof.Machine.execPacketLaunch queue s
  | .packetWaitsig queue => Sys2Proof.Machine.execPacketWaitsig queue s
  | .waitsigWake queue => Sys2Proof.Machine.execWaitsigWake queue s
  | .packetSignal queue => Sys2Proof.Machine.execPacketSignal queue s
  | .packetCopy queue => Sys2Proof.Machine.execPacketCopy queue s
  | .packetFetchfence queue => Sys2Proof.Machine.execPacketFetchfence queue s
  | .packetIndirect queue => Sys2Proof.Machine.execPacketIndirect queue s
  | .packetPlan queue => Sys2Proof.Machine.execPacketPlan queue s
  | .packetComplete queue => Sys2Proof.Machine.execPacketComplete queue s
  | .lotEnqueue launch lot => Sys2Proof.Machine.execLotEnqueue launch lot s
  | .launchEnd launch => Sys2Proof.Machine.execLaunchEnd launch s
  | .planFlip ctx id => Sys2Proof.Machine.execPlanFlip ctx id s
  | .planRetire ctx id => Sys2Proof.Machine.execPlanRetire ctx id s
  | .phaseRegisterWrite die value => Sys2Proof.Machine.execPhaseRegisterWrite die value s
  | .firmwareRegisterWrite pa value => Sys2Proof.Machine.execFirmwareRegisterWrite pa value s
  | .queueStart m ctx base taila heada logn => Sys2Proof.Machine.execQueueStart m ctx base taila heada logn s
  | .queueStop m queue => Sys2Proof.Machine.execQueueStop m queue s
  | .queueRestart m queue => Sys2Proof.Machine.execQueueRestart m queue s
  | .contextCreate m asid root msave tl => Sys2Proof.Machine.execContextCreate m asid root msave tl s
  | .contextRelease m ctx => Sys2Proof.Machine.execContextRelease m ctx s
  | .setPartition m ctx pfirst pcount => Sys2Proof.Machine.execSetPartition m ctx pfirst pcount s
  | .setPerm m ctx perm0 perm1 perm2 => Sys2Proof.Machine.execSetPerm m ctx perm0 perm1 perm2 s
  | .setPlayer m ctx budget cap => Sys2Proof.Machine.execSetPlayer m ctx budget cap s
  | .setTiming m ctx ageing skip steal => Sys2Proof.Machine.execSetTiming m ctx ageing skip steal s
  | .map m ctx va len entries => Sys2Proof.Machine.execMap m ctx va len entries s
  | .readCounters m die => Sys2Proof.Machine.execReadCounters m die s
  | .checkpoint m dev base => Sys2Proof.Machine.execCheckpoint m dev base s
  | .restore m dev base => Sys2Proof.Machine.execRestore m dev base s
  | .attest m nonce => Sys2Proof.Machine.execAttest m nonce s
  | .powerCap m watts => Sys2Proof.Machine.execPowerCap m watts s
  | .download m size image => Sys2Proof.Machine.execDownload m size image s
  | .setFabric m dev table => Sys2Proof.Machine.execSetFabric m dev table s
  | .powerUp => Sys2Proof.Machine.execPowerUp s
  | .powerSample watts => Sys2Proof.Machine.execPowerSample watts s
  | .patrolScrub place n correctable => Sys2Proof.Machine.execPatrolScrub place n correctable s
  | .hostWriteAck line core => Sys2Proof.Machine.execHostWriteAck line core s

end Sys2Proof.Machine
end

