-- ==== Sys2Proof/Machine/Turn.lean ====
section
/-!
DEFINITION. Which event is taken next when no instruction is in hand, and the state that a word under test runs in (logs 9, 10).
-/
namespace Sys2Proof.Machine

/-! ### The order of events -/

/-- The channel of a message: messages of one channel arrive in the order in which they were sent. A core's remote arrivals and pushes take effect in the order of their issue (R287, R289), a thread's results of one Square in issue order (R260), and a core's launch drains in the order of the grants (R61). -/
def channel (s : State) : Instr → Option (List Nat)
  | .rds d l _ | .rdm d l _ | .upg d l _ | .rdg d l _ _ | .rdsU d l => some [1, d, l]
  | .wbm d l _ | .wbmU d l _ | .invAck d l _ | .gatherData d l _ _ | .gatherDataU d l _ _ => some [1, d, l]
  | .inv d l _ | .gatherRecall d l | .data d l _ _ | .grant d l _ | .wbAck d l | .retry d l _ => some [2, d, l]
  | .homeDieAccess l w _ =>
    match w with
    | .fill f => some [3, f.core, l]
    | .write c _ => some [3, c, l]
    | .flush c _ _ => some [3, c, l]
  | .peerWindowRequest tid _ core _ _ => some [4, coreOf tid, core]
  | .peerLinkRequest r => some (linkOrder r)
  | .remoteBarrierArrival tid _ _ _ | .remoteQueueRequest tid _ _ _ _ _ _ _ => some [9, coreOf tid]
  | .pendingValueArrival tids late _ _ =>
    ((tids.head?.bind s.threads.get?).bind fun t => t.squares.find? fun p => p.1 == late).map fun p => [10, tids.headD 0, p.2]
  | .crewLaunchDrain k => (s.crews.get? k).map fun c => [11, c.core]
  | _ => none

/-- Take an event out of a list by position. -/
def takeAt (l : List Instr) (n : Nat) : Option (Instr × List Instr) :=
  match l.drop n with
  | [] => none
  | e :: r => some (e, l.take n ++ r)

/-- The position of the oldest event of the channel of the event at a position. -/
def State.oldestOf (s : State) (l : List Instr) (n : Nat) : Nat :=
  match (l[n]?).bind (channel s) with
  | some c => (l.findIdx? fun e => channel s e == some c).getD n
  | none => n

/-- Take the event in flight at a position, or the oldest one of its channel. -/
def State.takeDue (s : State) (n : Nat) : State × Option Instr :=
  match takeAt s.due (s.oldestOf s.due n) with
  | some (e, r) => ({ s with due := r }, some e)
  | none => (s, none)

/-- The cores that run. -/
def State.running (s : State) : List Nat := (s.cores.filter fun _ c => !c.gated).keys

/-- With no pick listed, events in flight and the cores' clocks alternate, oldest event first and cores in turn. -/
def State.fairTurn (s : State) : State × Option Instr :=
  let cs := s.running
  let s' := { s with turn := s.turn + 1 }
  if !s.due.isEmpty && (s.turn % 2 == 0 || cs.isEmpty) then s'.takeDue 0
  else (s', (cs[s.turn / 2 % cs.length]?).map .issueClock)

/-- The next event: the one that the head of the picks names, a position in flight or, beyond it, a core's clock; else the fair one. -/
def State.takeTurn (s : State) : State × Option Instr :=
  match s.picks with
  | [] => s.fairTurn
  | p :: r =>
    let s := { s with picks := r }
    if p < s.due.length then s.takeDue p else (s, some (.issueClock (p - s.due.length)))

/-! ### A word under test -/

/-- The line word of a line that holds one word in slot 0 and zeros elsewhere: PAR bit 0 and LPAR (R192, R193). -/
def testLine (w : Nat) : List Byte :=
  let par := if evenOnes 96 w then 0 else 2 ^ 9
  let lpar := if evenOnes 32 par then 0 else 2 ^ 14
  bytesOf 12 (w % 2 ^ 96) ++ bytesOf 48 0 ++ bytesOf 4 (par + lpar)

/-- The PC at which a word under test stands. -/
def testPc : DWord := 0x1_0000

/-- A state with the word put where core 0 issues next: the crew, group and thread that a launch would have started, their line in the fetch path, and the bundle in hand (log 20). -/
def State.withWord (s : State) (w : Nat) : State :=
  { s with
    threads := s.threads.put 0 { crew := 1, group := 0, lane := 0, tix := 0, pc := testPc }
    groups := s.groups.put 0 { crew := 1, gix := 0 }
    crews := s.crews.put 1 { ctx := 1, core := 0, entry := testPc, cn := 1, phase := .running, gset := 1, live := 1 }
    cores := s.cores.put 0 { s.core 0 with gated := false, marray := true, fetch := (s.core 0).fetch.put (fetchKey 1 testPc.toNat) (.line (testLine w)) }
    fw := { s.fw with ctxs := s.fw.ctxs.put 1 { asid := 1, root := 0 } }
    cur := some { core := 0, group := 0, pc := testPc, slots := [0], second := false, pair := false, snap := FMap.empty }
    fresh := max s.fresh 2 }

end Sys2Proof.Machine
end

