-- ==== Sys2Proof/Machine/Step.lean ====
section
/-!
DEFINITION. One step: the instruction in hand is decoded and runs; with none in hand, the next event runs.
-/
namespace Sys2Proof.Machine

/-- One step of the machine. -/
def step (s : State) : Host.Outcome State Fault Refusal :=
  match s.cur with
  | some iss =>
    match s.curWord iss with
    | some w =>
      match decode w with
      | .ok i => exec i s
      | .error y => .next (s.undecoded iss w y)
    | none => .next s.letGo
  | none =>
    match s.takeTurn with
    | (t, some e) => exec e t
    | (t, none) => .next t

/-- The state with an instruction word where the next step fetches it; the bits above nbits are zero. -/
def State.withFetchWord (s : State) (nbits w : Nat) : State := s.withWord (w % 2 ^ nbits)

end Sys2Proof.Machine
end

