-- ==== Sys2Proof/Safety.lean ====
section
/-!
DEFINITION. What counts as a safe run: invariants of the state that steps keep, and the absence of a stop.
-/
namespace Sys2Proof.Machine

/-- Whether an outcome is a next state. -/
def Out.goes (r : Out) : Prop := ∃ t, r = .next t

/-- The memory invariant: device, host and peer memory and every scratchpad are in canonical form (log 1). -/
def State.memWf (s : State) : Prop := Memory.wf s.mem.bytes = true ∧ Memory.wf s.mem.scratch = true

/-- Whether a state is reached from another by some number of steps that each give a next state. -/
inductive Reaches (s : State) : State → Prop where
  | refl : Reaches s s
  | next (t u : State) : Reaches s t → step t = .next u → Reaches s u

/-! ### The vocabulary of the claims about one instruction -/

/-- The bundle in hand stands in its group: its threads are distinct, of the group's core and of the group, Ready and at the instruction (R220). -/
structure State.Holds (s : State) (iss : Issue) : Prop where
  cur   : s.cur = some iss
  once  : iss.slots.Nodup
  home  : ∀ k ∈ iss.slots, coreOf k = iss.core
  group : ∀ k ∈ iss.slots, ∀ t, s.threads.get? k = some t → t.group = iss.group
  ready : ∀ k ∈ iss.slots, ∀ t, s.threads.get? k = some t → t.status = .ready ∧ t.pc = iss.pc

/-- No executing thread meets a fault that precedes the instruction's own (R214): all its operands are there. -/
def State.Sound (s : State) (iss : Issue) (c : Opc) (o : Ops) : Prop :=
  ∀ p ∈ s.executing iss o, s.preFault iss c o p.1 p.2 = none

/-- Every source of every executing thread is known, and no half of a register pair that holds a 64-bit form is written alone (R255). -/
def State.Known (s : State) (iss : Issue) (c : Opc) (o : Ops) : Prop :=
  ∀ p ∈ s.executing iss o,
    (s.operands iss c o p.1 p.2).1.isKnown = true ∧ (s.operands iss c o p.1 p.2).2.1.isKnown = true ∧
    (s.operands iss c o p.1 p.2).2.2.isKnown = true ∧
    p.2.halfBusy (c.pairDst o) o.dst = false ∧ s.descPending c o p.2 = false

/-- A destination holds a value: a register, a pair by its two halves, or a predicate; p7 takes none (R202, R222). -/
def Thread.Has (t : Thread) (wide : Bool) (d : Dst) (x : Nat) : Prop :=
  match d with
  | .v n => t.reg n.toNat = .known (BitVec.ofNat 32 x) ∧ (wide = true → t.reg (n.toNat + 1) = .known (BitVec.ofNat 32 (x / 2 ^ 32)))
  | .p n => n = 7 ∨ t.pred n.toNat = asPred x
  | _ => True

/-- Registers and predicates other than a destination are the same. -/
def Thread.SameBut (t u : Thread) (wide : Bool) (d : Dst) : Prop :=
  (∀ m : Nat, (∀ n, d = .v n → m ≠ n.toNat ∧ (wide = true → m ≠ n.toNat + 1)) → u.reg m = t.reg m) ∧
  (∀ m : Nat, (∀ n, d = .p n → m ≠ n.toNat) → u.pred m = t.pred m)

/-- What no register instruction changes in a thread: its place, its return stack, its trap registers and what it awaits. -/
def Thread.SameRest (t u : Thread) : Prop :=
  u.crew = t.crew ∧ u.group = t.group ∧ u.lane = t.lane ∧ u.tix = t.tix ∧ u.status = t.status ∧ u.stack = t.stack ∧
  u.depth = t.depth ∧ u.trap = t.trap ∧ u.joins = t.joins ∧ u.takes = t.takes ∧ u.late = t.late ∧ u.restore = t.restore ∧
  u.owed = t.owed ∧ u.was = t.was ∧ u.squares = t.squares ∧ u.sqJoin = t.sqJoin ∧ u.again = t.again ∧ u.mates = t.mates ∧ u.replay = t.replay

/-- Registers and predicates are the same. -/
def Thread.Keeps (t u : Thread) : Prop := (∀ n, u.reg n = t.reg n) ∧ (∀ n, u.pred n = t.pred n)

/-- The premises under which an instruction in hand has its own effect: it is in hand, no executing thread meets a fault of its operands, and they are known. -/
structure State.Runs (s : State) (iss : Issue) (c : Opc) (o : Ops) : Prop where
  holds : s.Holds iss
  sound : s.Sound iss c o
  known : s.Known iss c o

/-- Everything outside the threads and the record of the issue is the same: groups but one, crews, other cores, memory, operations, firmware, the package's outside, the Squares, events in flight and the model's counters. -/
structure State.SameOutside (s t : State) (core g : Nat) : Prop where
  groups : ∀ k, k ≠ gkey core g → t.groups.get? k = s.groups.get? k
  block  : (t.groups.get? (gkey core g)).map (·.block) = (s.groups.get? (gkey core g)).map (·.block)
  crews  : t.crews = s.crews
  cores  : ∀ c, c ≠ core → t.core c = s.core c
  core   : t.core core = { s.core core with tried := [] }
  mem    : t.mem = s.mem
  ops    : t.ops = s.ops
  fw     : t.fw = s.fw
  dev    : t.dev = s.dev
  sq     : t.sq = s.sq
  due    : t.due = s.due
  picks  : t.picks = s.picks
  free   : t.free = s.free
  fresh  : t.fresh = s.fresh
  turn   : t.turn = s.turn

end Sys2Proof.Machine
end

