-- ==== Sys2Proof/Certificates/Slice0/Obligations.lean ====
section
/-!
DEFINITION. The statements about the Z4, for the provers.
-/
open Sys2Proof Sys2Proof.Machine

/-! ### Fetch, decode and the step (R191, R198 to R213) -/

/-- When the fetch path holds the line at the program counter in hand and its slot's word decodes, a step is that instruction's meaning; a word that does not decode faults its executing threads; with nothing in hand a step is the meaning of the event whose turn it is. -/
def StepRunsDecoded : Prop :=
  ∀ (s : State) (iss : Issue) (b : List Byte), s.cur = some iss →
    s.fetched iss.core (s.groupAsid (gkey iss.core iss.group)) iss.pc.toNat = some (.line b) →
    (∀ i, decodeBytes ((b.drop (12 * slotNo iss.pc)).take 12) = .ok i → step s = exec i s) ∧
    (∀ y, decodeBytes ((b.drop (12 * slotNo iss.pc)).take 12) = .error y →
      step s = .next (s.undecoded iss (BitVec.ofNat 96 (lineSlot b (slotNo iss.pc))) y))

/-- With no instruction in hand, a step takes the next event out of those in flight, or a core's clock, and is its meaning. -/
def StepTakesEvent : Prop :=
  ∀ (s t : State) (e : Instr), s.cur = none → s.takeTurn = (t, some e) → step s = exec e t ∧ t.threads = s.threads ∧ t.mem = s.mem

/-- A step runs the decoded instruction in hand, and otherwise the event whose turn it is: both parts above. -/
def Obligations.StepRunsInstructionsAndEvents : Prop := StepRunsDecoded ∧ StepTakesEvent

/-- Words that the spec gives bit by bit, each as its bits [95:64], [63:32] and [31:0], decode to the instructions they stand for; a word of an unused MAJ does not decode (R198 to R213, R266, R353, R366, R385, R416, R468, R490). -/
def Obligations.WordsDecode : Prop :=
  decode (0x10164060#32 ++ 0x19FF0000#32 ++ 0x00000001#32) =
    .ok (.iadd ⟨true, 1, .i32, false, false, false, .v 6, .v 6, .imm, .none, 0, 1⟩) ∧
  decode (0x4D3DC0E0#32 ++ 0x0C000009#32 ++ 0x00000018#32) =
    .ok (.cvt ⟨false, 7, .q64, false, false, false, .v 14, .v 3, .none, .none, 9, 24⟩) ∧
  decode (0x6699C080#32 ++ 0x10060000#32 ++ 0x00000010#32) =
    .ok (.atom ⟨false, 7, .n32, false, true, false, .v 8, .v 4, .v 6, .none, 0, 16⟩) ∧
  decode (0x7001C140#32 ++ 0x30070301#32 ++ 0x00000020#32) =
    .ok (.spawn ⟨false, 7, .none, false, false, false, .v 20, .v 12, .v 7, .v 12, 1, 32⟩) ∧
  decode (0x7401C000#32 ++ 0x50140003#32 ++ 0x00000000#32) =
    .ok (.stealpt ⟨false, 7, .none, false, false, false, .none, .v 20, .v 20, .none, 3, 0⟩) ∧
  decode (0x8801C002#32 ++ 0x20000000#32 ++ 0x00000000#32) =
    .ok (.mmaSolo ⟨false, 7, .none, false, false, false, .none, .k 8, .none, .none, 0, 0⟩) ∧
  decode (0x9A01C040#32 ++ 0x18000000#32 ++ 0x00000002#32) =
    .ok (.sqplay ⟨false, 7, .none, false, false, false, .v 4, .v 6, .none, .none, 0, 2⟩) ∧
  decode (0xA001C040#32 ++ 0x18090281#32 ++ 0x00000002#32) =
    .ok (.sqcommit ⟨false, 7, .none, false, false, false, .v 4, .v 6, .v 9, .v 10, 1, 2⟩) ∧
  decode (0x0B000000#32 ++ 0#32 ++ 0#32) = .error .unusedMaj

/-- Encoding then decoding gives back every well-formed instruction, with every operand at every value the encoding admits. -/
def Obligations.DecodeOfEncode : Prop :=
  ∀ i : Instr, i.wf = true → i.view.isSome = true → decode (encode i) = .ok i

/-- Each instruction word has one meaning: what it decodes to is well formed and encodes back to the same word. -/
def Obligations.EncodeOfDecode : Prop :=
  ∀ (w : IWord) (i : Instr), decode w = .ok i → i.wf = true ∧ i.view.isSome = true ∧ encode i = w

/-! ### Instructions that compute in registers (R205, R221, R222, R347 to R378, R241, R242) -/

/-- The function of the operands that each register instruction computes. -/
def aluFn : Opc → Option (Ops → Nat → Nat → Nat → Nat)
  | .iadd => some fun o a b _ => aluIadd o a b | .isub => some fun o a b _ => aluIsub o a b
  | .imul => some fun o a b _ => aluImul o a b | .imulh => some fun o a b _ => aluImulh o a b
  | .imad => some fun o a b d => aluImad o a b d | .idiv => some fun o a b _ => aluIdiv o a b
  | .irem => some fun o a b _ => aluIrem o a b | .imin => some fun o a b _ => aluImin o a b
  | .imax => some fun o a b _ => aluImax o a b | .iabs => some fun o a _ _ => aluIabs o a
  | .ineg => some fun o a _ _ => aluIneg o a | .icmp => some fun o a b _ => aluIcmp o a b
  | .isel => some fun o a b d => aluIsel o a b d | .and => some fun o a b _ => aluAnd o a b
  | .or => some fun o a b _ => aluOr o a b | .xor => some fun o a b _ => aluXor o a b
  | .not => some fun o a _ _ => aluNot o a | .andn => some fun o a b _ => aluAndn o a b
  | .shl => some fun o a b _ => aluShl o a b | .shr => some fun o a b _ => aluShr o a b
  | .sar => some fun o a b _ => aluSar o a b | .rotl => some fun o a b _ => aluRotl o a b
  | .bfx => some fun o a b _ => aluBfx o a b | .bfi => some fun o a b d => aluBfi o a b d
  | .popc => some fun o a _ _ => aluPopc o a | .clz => some fun o a _ _ => aluClz o a
  | .ctz => some fun o a _ _ => aluCtz o a | .brev => some fun o a _ _ => aluBrev o a
  | .lea => some fun o a b _ => aluLea o a b | .mov => some fun o a _ _ => aluMov o a
  | .movi => some fun o _ _ _ => aluMovi o | .movh => some fun o a _ _ => aluMovh o a
  | .idot4 => some fun o a b d => aluIdot4 o a b d | .fadd => some fun o a b _ => aluFadd o a b
  | .fsub => some fun o a b _ => aluFsub o a b | .fmul => some fun o a b _ => aluFmul o a b
  | .ffma => some fun o a b d => aluFfma o a b d | .fmin => some fun o a b _ => aluFmin o a b
  | .fmax => some fun o a b _ => aluFmax o a b | .fcmp => some fun o a b _ => aluFcmp o a b
  | .frcp => some fun o a _ _ => aluFrcp o a | .frsq => some fun o a _ _ => aluFrsq o a
  | .fsqrt => some fun o a _ _ => aluFsqrt o a | .fdiv => some fun o a b _ => aluFdiv o a b
  | .fexp2 => some fun o a _ _ => aluFexp2 o a | .flog2 => some fun o a _ _ => aluFlog2 o a
  | .fsin => some fun o a _ _ => aluFsin o a | .fcos => some fun o a _ _ => aluFcos o a
  | .ftanh => some fun o a _ _ => aluFtanh o a | .fclass => some fun o a _ _ => aluFclass o a
  | .frnd => some fun o a _ _ => aluFrnd o a | .fscalb => some fun o a b _ => aluFscalb o a b
  | .fdot2 => some fun o a b d => aluFdot2 o a b d | .fdot4 => some fun o a b d => aluFdot4 o a b d
  | .cvt => some fun o a b d => aluCvt o a b d | .pack => some fun o a b d => aluPack o a b d
  | .unpack => some fun o a b _ => aluUnpack o a b | .plop => some fun o a b _ => aluPlop o a b
  | .pmov => some fun o a _ _ => aluPmov o a
  | _ => none

/-- The result of a register instruction for a thread: its function of the three operands as the thread reads them. -/
def aluOf (g : Ops → Nat → Nat → Nat → Nat) (s : State) (iss : Issue) (c : Opc) (o : Ops) (p : Nat × Thread) : Nat :=
  g o (s.vals iss c o p.1 p.2).1 (s.vals iss c o p.1 p.2).2.1 (s.vals iss c o p.1 p.2).2.2

/-- Every register instruction completes once its operands are there and known: each executing thread's destination holds the result, its other registers and predicates are as they were, and the thread stands at the next step. -/
def RegisterResults : Prop :=
  ∀ c g, aluFn c = some g → ∀ (o : Ops) (s : State) (iss : Issue), s.Holds iss → s.Sound iss c o → s.Known iss c o →
    ∃ t, exec (c.mk o) s = .next t ∧ ∀ p ∈ s.executing iss o, ∃ u, t.threads.get? p.1 = some u ∧
      u.Has ((c.fmtOf o).dst == .v64) o.dst (aluOf g s iss c o p) ∧
      p.2.SameBut u ((c.fmtOf o).dst == .v64) o.dst ∧ p.2.SameRest u ∧ u.pc = nextPc iss.pc

/-- The latches of an executing thread after a register instruction: b0 holds the low 32 bits of the result and b0 to b6 have moved one place on, unless the next step lies in another line, where every latch is invalid. -/
def LatchesShift : Prop :=
  ∀ c g, aluFn c = some g → ∀ (o : Ops) (s : State) (iss : Issue), s.Holds iss → s.Sound iss c o → s.Known iss c o →
    ∃ t, exec (c.mk o) s = .next t ∧ ∀ p ∈ s.executing iss o, ∃ u, t.threads.get? p.1 = some u ∧
      (lineOf (nextPc iss.pc) = lineOf iss.pc →
        u.latch 0 = some (BitVec.ofNat 32 (aluOf g s iss c o p)) ∧ ∀ n, n < 7 → u.latch (n + 1) = p.2.latch n) ∧
      (lineOf (nextPc iss.pc) ≠ lineOf iss.pc → ∀ n, u.latch n = none)

/-- Every register instruction completes with its result in its destination and its latches shifted: both parts above. -/
def Obligations.RegisterInstructions : Prop := RegisterResults ∧ LatchesShift

/-- The frame of every register instruction: memory, crews, other groups, other cores and everything else outside the group's threads are as they were; a thread of another group is untouched; a thread of the group that does not execute keeps its registers and predicates, its b0 becomes invalid, and it moves on only if it stood at the instruction. -/
def Obligations.RegisterFrame : Prop :=
  ∀ c g, aluFn c = some g → ∀ (o : Ops) (s t : State) (iss : Issue), s.Holds iss → s.Sound iss c o → s.Known iss c o →
    exec (c.mk o) s = .next t →
      s.SameOutside t iss.core iss.group ∧
      (∀ a, t.mem.bytes.read a = s.mem.bytes.read a) ∧
      (∀ k v, s.threads.get? k = some v → ¬(coreOf k = iss.core ∧ v.group = iss.group) → t.threads.get? k = some v) ∧
      (∀ k v, s.threads.get? k = some v → coreOf k = iss.core → v.group = iss.group → (∀ p ∈ s.executing iss o, p.1 ≠ k) →
        ∃ u, t.threads.get? k = some u ∧ (∀ n, u.reg n = v.reg n) ∧ (∀ n, u.pred n = v.pred n) ∧ v.SameRest u ∧ u.latch 0 = none ∧
          (u.pc = v.pc ∨ (k ∈ iss.slots ∧ v.status = .ready ∧ v.pc = iss.pc ∧ u.pc = nextPc iss.pc)))

/-! ### What the integer and logic instructions compute, in bit vectors (R354 to R364) -/

/-- Element i of a packed operand or result, 16 bits. -/
def elem16 (x i : Nat) : BitVec 16 := BitVec.ofNat 16 (x / 2 ^ (16 * i))

/-- An operand at the width of the TYPE. -/
def atTy (o : Ops) (x : Nat) : BitVec o.ty.bits := BitVec.ofNat o.ty.bits x

/-- The arithmetic instructions at the TYPE width n, modulo 2^n, and each 16-bit element by itself for .x2 (R354). -/
def IntegerArithmetic : Prop :=
  ∀ (o : Ops) (a b d : Nat),
    (o.x2 = false →
      atTy o (aluIadd o a b) = atTy o a + atTy o b ∧ atTy o (aluIsub o a b) = atTy o a - atTy o b ∧
      atTy o (aluIneg o a) = - atTy o a ∧ atTy o (aluImul o a b) = atTy o a * atTy o b ∧
      atTy o (aluImad o a b d) = atTy o a * atTy o b + atTy o d) ∧
    atTy o (aluImulh o a b) =
      (if o.ty.signed then BitVec.ofInt o.ty.bits ((atTy o a).toInt * (atTy o b).toInt / 2 ^ o.ty.bits)
       else BitVec.ofNat o.ty.bits ((atTy o a).toNat * (atTy o b).toNat / 2 ^ o.ty.bits)) ∧
    (o.x2 = true → ∀ i, i < 2 →
      elem16 (aluIadd o a b) i = elem16 a i + elem16 b i ∧ elem16 (aluIsub o a b) i = elem16 a i - elem16 b i ∧
      elem16 (aluIneg o a) i = - elem16 a i ∧ elem16 (aluImul o a b) i = elem16 a i * elem16 b i)

/-- IDIV and IREM truncate toward zero, signed for .i and unsigned for .n, and every case is defined: division by zero gives all ones and a (R355). -/
def Division : Prop :=
  ∀ (o : Ops) (a b : Nat), o.ty ∈ [Ty.i32, .n32, .i64, .n64] →
    (atTy o b = 0 → atTy o (aluIdiv o a b) = BitVec.allOnes o.ty.bits ∧ atTy o (aluIrem o a b) = atTy o a) ∧
    (atTy o b ≠ 0 → o.ty.signed = true →
      atTy o (aluIdiv o a b) = BitVec.sdiv (atTy o a) (atTy o b) ∧ atTy o (aluIrem o a b) = BitVec.srem (atTy o a) (atTy o b)) ∧
    (atTy o b ≠ 0 → o.ty.signed = false →
      atTy o (aluIdiv o a b) = atTy o a / atTy o b ∧ atTy o (aluIrem o a b) = atTy o a % atTy o b)

/-- The logic instructions are bitwise at the TYPE width (R359). -/
def Logic : Prop :=
  ∀ (o : Ops) (a b : Nat), o.x2 = false →
    atTy o (aluAnd o a b) = atTy o a &&& atTy o b ∧ atTy o (aluOr o a b) = atTy o a ||| atTy o b ∧
    atTy o (aluXor o a b) = atTy o a ^^^ atTy o b ∧ atTy o (aluAndn o a b) = atTy o a &&& ~~~(atTy o b) ∧
    atTy o (aluNot o a) = ~~~(atTy o a)

/-- The shifts: the count is the unsigned low 32 bits of its operand; a count of the width or more gives 0, or the sign's fill for SAR; ROTL rotates by the count modulo the width (R360). -/
def Shifts : Prop :=
  ∀ (o : Ops) (a b : Nat), o.x2 = false →
    atTy o (aluShl o a b) = atTy o a <<< (b % 2 ^ 32) ∧ atTy o (aluShr o a b) = atTy o a >>> (b % 2 ^ 32) ∧
    atTy o (aluSar o a b) = (atTy o a).sshiftRight (b % 2 ^ 32) ∧ atTy o (aluRotl o a b) = (atTy o a).rotateLeft (b % 2 ^ 32)

/-- BREV writes the bits of a in reverse order, CLZ and CTZ count the zero bits above the highest and below the lowest set bit, and POPC the set bits, each of the operand at the TYPE width (R362). -/
def BitCounts : Prop :=
  ∀ (o : Ops) (a : Nat),
    atTy o (aluBrev o a) = (atTy o a).reverse ∧
    aluPopc o a = ((List.range o.ty.bits).filter fun i => (atTy o a).getLsbD i).length ∧
    (aluClz o a ≤ o.ty.bits ∧ (∀ i, i < aluClz o a → (atTy o a).getMsbD i = false) ∧
      (aluClz o a < o.ty.bits → (atTy o a).getMsbD (aluClz o a) = true)) ∧
    (aluCtz o a ≤ o.ty.bits ∧ (∀ i, i < aluCtz o a → (atTy o a).getLsbD i = false) ∧
      (aluCtz o a < o.ty.bits → (atTy o a).getLsbD (aluCtz o a) = true))

/-- What the logic, shift and bit-count instructions compute: the three parts above (R359, R360, R362). -/
def Obligations.BitInstructions : Prop := Logic ∧ Shifts ∧ BitCounts

/-- ICMP compares signed for .i and .q64 and unsigned for .n, by the code in AUX[2:0]; its value is 0 or 1 (R357). IMIN and IMAX give the smaller and the larger operand by the same order (R356). -/
def Comparisons : Prop :=
  ∀ (o : Ops) (a b : Nat), (o.ty.isInt = true ∨ o.ty = .q64) →
    let x := atTy o a
    let y := atTy o b
    let lt : Bool := if o.ty.signed then x.slt y else x.ult y
    (o.aux.toNat % 8 = 0 → aluIcmp o a b = if x = y then 1 else 0) ∧ (o.aux.toNat % 8 = 1 → aluIcmp o a b = if x = y then 0 else 1) ∧
    (o.aux.toNat % 8 = 2 → aluIcmp o a b = if lt then 1 else 0) ∧
    (o.aux.toNat % 8 = 3 → aluIcmp o a b = if lt ∨ x = y then 1 else 0) ∧
    (o.aux.toNat % 8 = 4 → aluIcmp o a b = if lt ∨ x = y then 0 else 1) ∧
    (o.aux.toNat % 8 = 5 → aluIcmp o a b = if lt then 0 else 1) ∧
    (o.x2 = false → atTy o (aluImin o a b) = (if lt then x else y) ∧ atTy o (aluImax o a b) = (if lt then y else x))

/-- What the integer arithmetic instructions compute: addition to multiplication, division, and the comparisons, all three parts above (R354 to R357). -/
def Obligations.ArithmeticInstructions : Prop := IntegerArithmetic ∧ Division ∧ Comparisons

/-! ### Lanes (R243 to R245) -/

/-- The first operand of a thread, as a number. -/
def firstVal (s : State) (iss : Issue) (c : Opc) (o : Ops) (p : Nat × Thread) : Nat := (s.vals iss c o p.1 p.2).1

/-- A thread after a register instruction that gave it a value: its destination holds it, the rest of it is as it was, and it stands at the next step. -/
def Gave (t : State) (c : Opc) (o : Ops) (iss : Issue) (p : Nat × Thread) (x : Nat) : Prop :=
  ∃ u, t.threads.get? p.1 = some u ∧ u.Has ((c.fmtOf o).dst == .v64) o.dst x ∧
    p.2.SameBut u ((c.fmtOf o).dst == .v64) o.dst ∧ p.2.SameRest u ∧ u.pc = nextPc iss.pc

/-- VOTE: every executing thread receives whether all of them have their predicate true, whether any has, or the ballot with bit lane(q) set for each executing thread q whose predicate is true (R243). -/
def VoteResults : Prop :=
  ∀ (o : Ops) (s : State) (iss : Issue), s.Holds iss → s.Sound iss .vote o → s.Known iss .vote o →
    ∃ t x, exec (.vote o) s = .next t ∧ s.SameOutside t iss.core iss.group ∧
      (∀ p ∈ s.executing iss o, Gave t .vote o iss p x) ∧
      (o.aux.toNat % 4 = 0 → x = if ∀ q ∈ s.executing iss o, asPred (firstVal s iss .vote o q) = true then 1 else 0) ∧
      (o.aux.toNat % 4 = 1 → x = if ∃ q ∈ s.executing iss o, asPred (firstVal s iss .vote o q) = true then 1 else 0) ∧
      (2 ≤ o.aux.toNat % 4 → ∀ n, x.testBit n = true ↔
        ∃ q ∈ s.executing iss o, q.2.lane = n ∧ asPred (firstVal s iss .vote o q) = true)

/-- SHFL: every executing thread receives the first operand of the live thread of its group at the lane that its mode and second operand select, whether that thread executes or not, and its own where no thread is there (R244). -/
def ShuffleResults : Prop :=
  ∀ (o : Ops) (s : State) (iss : Issue), s.Holds iss → s.Sound iss .shfl o → s.Known iss .shfl o →
    (∀ p ∈ s.executing iss o, ∀ q, s.atLane iss.core iss.group (shflLane (o.aux.toNat % 4) p.2.lane (s.vals iss .shfl o p.1 p.2).2.1) = some q →
      (s.operands iss .shfl o q.1 q.2).1.isKnown = true) →
    ∃ t, exec (.shfl o) s = .next t ∧ s.SameOutside t iss.core iss.group ∧
      ∀ p ∈ s.executing iss o, Gave t .shfl o iss p (firstVal s iss .shfl o
        ((s.atLane iss.core iss.group (shflLane (o.aux.toNat % 4) p.2.lane (s.vals iss .shfl o p.1 p.2).2.1)).getD p))

/-- An operand of a reduction: a NaN is the canonical one (R245, R335). -/
def reduced (o : Ops) (x : Nat) : Nat := if o.ty = .f32 ∧ fp32.value (lowBits 32 x) = .nan then 0x7FC00000 else x

/-- Combine values from the left. -/
def fold1 (f : Nat → Nat → Nat) : List Nat → Nat
  | [] => 0
  | x :: r => r.foldl f x

/-- GRED and GSCAN combine the executing threads' values in ascending lane order, and a NaN among them is the canonical one: GRED gives every thread the whole, GSCAN each its inclusive prefix (R245, R335). -/
def GroupReductions : Prop :=
  ∀ (o : Ops) (s : State) (iss : Issue) (c : Opc), s.Holds iss → (c = .gred ∨ c = .gscan) → s.Sound iss c o → s.Known iss c o →
    ∃ t, exec (c.mk o) s = .next t ∧ s.SameOutside t iss.core iss.group ∧
      ∃ l : List (Nat × Nat × Nat), List.Perm l ((s.executing iss o).map fun p => (p.2.lane, p.1, reduced o (firstVal s iss c o p))) ∧
        l.Pairwise (fun a b => a.1 ≤ b.1) ∧
        ∀ p ∈ s.executing iss o,
          (c = .gred → Gave t c o iss p (fold1 (combine o.ty (o.aux.toNat % 8)) (l.map (·.2.2)))) ∧
          (c = .gscan → ∀ n, (l[n]?).map (·.2.1) = some p.1 →
            Gave t c o iss p (fold1 (combine o.ty (o.aux.toNat % 8)) ((l.take (n + 1)).map (·.2.2))))

/-- What the instructions across the lanes of a group give: votes, shuffles, reductions and scans, the three parts above (R243 to R245). -/
def Obligations.LaneInstructions : Prop := VoteResults ∧ ShuffleResults ∧ GroupReductions


/-! ### Control and system instructions (R231 to R247, R262, R264, R319, R328 to R332) -/

/-- A thread after an instruction that wrote none of its registers and left it Ready at the next step. -/
def Passed (t : State) (iss : Issue) (p : Nat × Thread) : Prop :=
  ∃ u, t.threads.get? p.1 = some u ∧ p.2.Keeps u ∧ p.2.SameRest u ∧ u.pc = nextPc iss.pc

/-- NOP, YIELD and REGION.B change nothing but the place of the executing threads: the registers, the memory, the crews and everything else are as they were (R232, R237, R319). -/
def NoEffect : Prop :=
  ∀ (c : Opc) (o : Ops) (s : State) (iss : Issue), c ∈ [Opc.nop, .yield, .regionB] → s.Runs iss c o →
    ∃ t, exec (c.mk o) s = .next t ∧ s.SameOutside t iss.core iss.group ∧ ∀ p ∈ s.executing iss o, Passed t iss p

/-- Whether a crew is the crew of an executing thread, or one of its gather set, which is one crew for issue (R273). -/
def OfTheCrew (s : State) (iss : Issue) (o : Ops) (k : Nat) : Prop :=
  (∃ p ∈ s.executing iss o, p.2.crew = k) ∨
    ∃ p ∈ s.executing iss o, ∃ a b, s.crews.get? p.2.crew = some a ∧ s.crews.get? k = some b ∧ b.gset ≠ 0 ∧ b.gset = a.gset

/-- PRIO sets the priority of the threads' crew, with every crew of its gather set, to the smaller of IMM32 and the crew's ceiling, and changes no other crew and no register (R238, R273). -/
def PriorityIsCapped : Prop :=
  ∀ (o : Ops) (s : State) (iss : Issue), s.Runs iss .prio o → s.crews.rising = true →
    ∃ t, exec (.prio o) s = .next t ∧ t.mem = s.mem ∧ (∀ p ∈ s.executing iss o, Passed t iss p) ∧
      (∀ k c, OfTheCrew s iss o k → s.crews.get? k = some c → t.crews.get? k = some { c with prio := min o.imm.toNat c.ceil }) ∧
      (∀ k, ¬OfTheCrew s iss o k → t.crews.get? k = s.crews.get? k)

/-- REGION.E ends discardability for the crew: it can no longer be discarded and the coordinates it drew are committed (R290, R319). -/
def RegionEndCommits : Prop :=
  ∀ (o : Ops) (s : State) (iss : Issue), s.Runs iss .regionE o →
    ∃ t, exec (.regionE o) s = .next t ∧ t.mem = s.mem ∧ (∀ p ∈ s.executing iss o, Passed t iss p) ∧
      (∀ p ∈ s.executing iss o, ∀ c, s.crews.get? p.2.crew = some c →
        t.crews.get? p.2.crew = some { c with discard := false, coords := [] }) ∧
      (∀ k, (∀ p ∈ s.executing iss o, p.2.crew ≠ k) → t.crews.get? k = s.crews.get? k)

/-- NOP, YIELD, REGION.B, PRIO and REGION.E complete, each with its own effect on its crew and none on anything else: the three parts above (R232, R237, R238, R290, R319). -/
def Obligations.HintsToTheCrew : Prop := NoEffect ∧ PriorityIsCapped ∧ RegionEndCommits

/-- The value of each system register for a thread (R328 to R330): TVEC, TCAUSE, TPC, TVAL, TMASK, CTX, MOWN, MROW, CLK, the free extended blocks, ASID and MEN. -/
def SysValue (s : State) (k : Nat) (t : Thread) (n x : Nat) : Prop :=
  (n = 0 → x = t.trap.tvec.toNat) ∧ (n = 1 → x = t.trap.tcause.toNat) ∧ (n = 2 → x = t.trap.tpc.toNat) ∧
  (n = 3 → x = t.trap.tval.toNat) ∧ (n = 8 → x = t.trap.mrow.toNat) ∧
  (n = 4 → ∀ c, s.crews.get? (s.maskCrew t.crew) = some c → x / 2 ^ 32 = c.retired ∧ x % 2 = 0 ∧
    ∀ i, 1 ≤ i → i < 32 → (x.testBit i = true ↔ i ≤ 20 ∧ c.codes.testBit i = true)) ∧
  (n = 6 → x = (s.core (coreOf k)).mown % 2 ^ 32) ∧ (n = 9 → x = (s.core (coreOf k)).clk) ∧
  (n = 10 → x = 16 - (s.groups.cells.filter fun g => g.1 / 64 == coreOf k && decide (g.1 % 64 < 32) && g.2.block).length) ∧
  (∀ c, s.crews.get? t.crew = some c →
    (n = 5 → x = c.ctx % 2 ^ 32) ∧ (n = 12 → x = if c.ctx ∈ (s.core (coreOf k)).men then 1 else 0) ∧
    (∀ e, s.fw.ctxs.get? c.ctx = some e → n = 11 → x = e.asid % 2 ^ 16))

/-- GETSR gives each executing thread the register that AUX names, known at once, in its 64-bit destination (R328, R332). -/
def SystemRegisterReads : Prop :=
  ∀ (o : Ops) (s : State) (iss : Issue), s.Runs iss .getsr o →
    ∃ t, exec (.getsr o) s = .next t ∧ s.SameOutside t iss.core iss.group ∧ ∀ p ∈ s.executing iss o,
      ∃ u x, t.threads.get? p.1 = some u ∧ SysValue s p.1 p.2 o.aux.toNat x ∧ u.Has true o.dst x ∧
        p.2.SameBut u true o.dst ∧ p.2.SameRest u ∧ u.pc = nextPc iss.pc

/-- SETSR writes TVEC, or TPC while INH is 1; a write of TPC with INH clear has no effect, and nothing else of the thread changes (R328, R332). -/
def SystemRegisterWrites : Prop :=
  ∀ (o : Ops) (s : State) (iss : Issue), s.Runs iss .setsr o →
    ∃ t, exec (.setsr o) s = .next t ∧ s.SameOutside t iss.core iss.group ∧ ∀ p ∈ s.executing iss o,
      ∃ u, t.threads.get? p.1 = some u ∧ p.2.Keeps u ∧ u.pc = nextPc iss.pc ∧ u.status = .ready ∧ u.stack = p.2.stack ∧
        (o.aux = 0 → u.trap = { p.2.trap with tvec := BitVec.ofNat 64 (s.vals iss .setsr o p.1 p.2).1 }) ∧
        (o.aux = 2 → p.2.trap.tcause.getLsbD 8 = true →
          u.trap = { p.2.trap with tpc := BitVec.ofNat 64 (s.vals iss .setsr o p.1 p.2).1, tpcSet := true }) ∧
        (o.aux ≠ 0 → (o.aux = 2 → p.2.trap.tcause.getLsbD 8 = false) → u.trap = p.2.trap)

/-- GETSR reads and SETSR writes the system registers: both parts above (R328 to R332). -/
def Obligations.SystemRegisters : Prop := SystemRegisterReads ∧ SystemRegisterWrites

/-- Whether a register operand is Known for a thread. -/
def KnownReg (s : State) (t : Thread) : Src → Prop
  | .v n => ∃ w, t.reg n.toNat = .known w
  | .k n => ∀ c, s.crews.get? t.crew = some c → (c.kregs.get? n.toNat).isSome = true
  | _ => True

/-- SYMQ gives the predicate true exactly when the register is in any state other than Known, without waiting for it (R262). -/
def QueryOfSymbols : Prop :=
  ∀ (o : Ops) (s : State) (iss : Issue), s.Holds iss → s.Sound iss .symq o →
    ∃ t, exec (.symq o) s = .next t ∧ s.SameOutside t iss.core iss.group ∧ ∀ p ∈ s.executing iss o,
      ∃ u x, t.threads.get? p.1 = some u ∧ (asPred x = true ↔ ¬KnownReg s (iss.view p.1 p.2) o.sa) ∧ u.Has false o.dst x ∧
        p.2.SameBut u false o.dst ∧ p.2.SameRest u ∧ u.pc = nextPc iss.pc

/-- RESOLVE lets a thread continue once every register it names, or every register with AUX 0, is Known; until then the thread is Waiting at the instruction (R264). -/
def ResolveWaits : Prop :=
  ∀ (o : Ops) (s : State) (iss : Issue), s.Holds iss → s.Sound iss .resolve o →
    ∃ t, exec (.resolve o) s = .next t ∧ t.mem = s.mem ∧ t.crews = s.crews ∧ ∀ p ∈ s.executing iss o,
      let all := o.aux.toNat % 4 = 0
      let done := if all then ∀ n v, (n, v) ∈ p.2.regs.cells → ∃ w, v = RegVal.known w else KnownReg s p.2 o.sa ∧ KnownReg s p.2 o.sb ∧ KnownReg s p.2 o.sc
      ∃ u, t.threads.get? p.1 = some u ∧ p.2.Keeps u ∧
        (done → u.status = .ready ∧ u.pc = nextPc iss.pc) ∧ (¬done → (∃ w, u.status = .waiting w) ∧ u.pc = iss.pc)

/-- SYMQ tells, and RESOLVE waits for, pending values: both parts above (R262, R264). -/
def Obligations.PendingQueries : Prop := QueryOfSymbols ∧ ResolveWaits

/-! ### Transfers of control (R194, R195, R199, R233, R234) -/

/-- A target that a branch or call may enter (R233): aligned, canonical, outside root entry 31, in a line that is had and passes its checks, at a slot whose TGT bit is 1. -/
structure Enterable (s : State) (core asid target : Nat) : Prop where
  aligned : target / 8 % 8 = 0 ∧ target % 8 ≤ 4
  inside  : target < 2 ^ 57 ∧ target / 2 ^ 52 ≠ 31
  line    : ∃ b, s.fetched core asid target = some (.line b) ∧ lineFault b (BitVec.ofNat 64 target) = none ∧
    lineTgt (lineWord b) (target % 8) = true

/-- The target of a transfer: the line of the instruction moved by the signed line offset IMM32[31:3], at the slot IMM32[2:0] (R195), or the 64-bit register operand (R233). -/
def targetOf (s : State) (iss : Issue) (c : Opc) (o : Ops) (p : Nat × Thread) : Nat :=
  match c with
  | .bra | .call =>
    (BitVec.ofNat 64 (lineOf iss.pc) + (((o.imm.sshiftRight 3).signExtend 64) <<< 6) + (o.imm &&& 7).setWidth 64).toNat
  | _ => (s.vals iss c o p.1 p.2).1

/-- A thread after a transfer: it stands at its target with its registers as they were and every latch invalid (R206). -/
def Went (t : State) (p : Nat × Thread) (target : Nat) (stack : List DWord) (depth : Nat) : Prop :=
  ∃ u, t.threads.get? p.1 = some u ∧ u.pc = BitVec.ofNat 64 target ∧ u.status = .ready ∧ p.2.Keeps u ∧ u.trap = p.2.trap ∧
    u.stack = stack ∧ u.depth = depth ∧ ∀ n, u.latch n = none

/-- A thread of the bundle whose guard is false stands at the next step with its registers as they were (R199, R220). -/
def Skipped (s t : State) (iss : Issue) (o : Ops) : Prop :=
  ∀ k v, k ∈ iss.slots → s.threads.get? k = some v → v.status = .ready → v.pc = iss.pc → (∀ p ∈ s.executing iss o, p.1 ≠ k) →
    ∃ u, t.threads.get? k = some u ∧ u.pc = nextPc iss.pc ∧ v.Keeps u ∧ u.stack = v.stack

/-- BRA and BRX take each executing thread to its target; a thread whose guard is false goes on to the next step (R199, R233). -/
def BranchesTaken : Prop :=
  ∀ (c : Opc) (o : Ops) (s : State) (iss : Issue), (c = .bra ∨ c = .brx) → s.Runs iss c o →
    (∀ p ∈ s.executing iss o, Enterable s iss.core (s.asidOf p.2) (targetOf s iss c o p)) →
    ∃ t, exec (c.mk o) s = .next t ∧ t.mem = s.mem ∧ t.crews = s.crews ∧ Skipped s t iss o ∧
      ∀ p ∈ s.executing iss o, Went t p (targetOf s iss c o p) p.2.stack p.2.depth

/-- CALL and CALLX push the address of the step after the instruction on the return stack and go to the target (R233, R234). -/
def CallsPush : Prop :=
  ∀ (c : Opc) (o : Ops) (s : State) (iss : Issue), (c = .call ∨ c = .callx) → s.Runs iss c o →
    (∀ p ∈ s.executing iss o, Enterable s iss.core (s.asidOf p.2) (targetOf s iss c o p) ∧ p.2.stack.length < 8 ∧ p.2.depth < 136) →
    ∃ t, exec (c.mk o) s = .next t ∧ t.mem = s.mem ∧ t.crews = s.crews ∧ Skipped s t iss o ∧
      ∀ p ∈ s.executing iss o, Went t p (targetOf s iss c o p) (nextPc iss.pc :: p.2.stack) (p.2.depth + 1)

/-- RET pops the most recent return address and goes there, whatever the TGT bit of its slot (R233, R234). -/
def ReturnPops : Prop :=
  ∀ (o : Ops) (s : State) (iss : Issue) (x : Nat × Thread → Nat), s.Runs iss .ret o →
    (∀ p ∈ s.executing iss o, s.stackTop p.1 p.2 = .go (x p) ∧ x p / 8 % 8 = 0 ∧ x p % 8 ≤ 4 ∧ x p < 2 ^ 57 ∧ x p / 2 ^ 52 ≠ 31 ∧
      ∃ b, s.fetched iss.core (s.asidOf p.2) (x p) = some (.line b)) →
    ∃ t, exec (.ret o) s = .next t ∧ t.mem = s.mem ∧ t.crews = s.crews ∧ Skipped s t iss o ∧
      ∀ p ∈ s.executing iss o, Went t p (x p) (p.2.stack.drop 1) (p.2.depth - 1) ∧ ∀ y r, p.2.stack = y :: r → x p = y.toNat

/-- Branches, calls and returns that meet no fault: the three parts above (R199, R206, R233, R234). -/
def Obligations.Transfers : Prop := BranchesTaken ∧ CallsPush ∧ ReturnPops

/-! ### Taking an exception and returning from one (R207, R208, R214, R223, R313 to R319, R332) -/

/-- A thread that has entered its handler (R317): the PC at TVEC, TCAUSE with its code and INH set, TPC and TVAL written, no latch valid, and every register as it was. -/
def Handles (t : State) (p : Nat × Thread) (pc : DWord) (code tval : Nat) : Prop :=
  ∃ u, t.threads.get? p.1 = some u ∧ u.pc = p.2.trap.tvec ∧ u.status = .ready ∧ u.trap.tcause.toNat % 256 = code ∧
    u.trap.tcause.getLsbD 8 = true ∧ u.trap.tcause.getLsbD 9 = false ∧ u.trap.tpc = pc ∧ u.trap.tval = BitVec.ofNat 64 tval ∧
    u.trap.tvec = p.2.trap.tvec ∧ (∀ n, u.latch n = none) ∧ p.2.Keeps u ∧ u.stack = p.2.stack

/-- Whether a user fault retires a thread (R317): a handler runs, none is set, or its address is not a valid PC. -/
def NoHandler (v : Thread) : Prop :=
  v.trap.tcause.getLsbD 8 = true ∨ v.trap.tvec = 0 ∨ 2 ^ 57 ≤ v.trap.tvec.toNat ∨ v.trap.tvec.toNat / 8 % 8 ≠ 0 ∨ 4 < v.trap.tvec.toNat % 8

/-- TRAP and BKPT take every executing thread to its handler with code 0x10 or 0x11, TPC the step after the instruction and TVAL IMM32; a thread without a handler is retired and its code is recorded in TMASK (R239, R317, R330, R332). -/
def TrapInstructions : Prop :=
  ∀ (c : Opc) (o : Ops) (s : State) (iss : Issue), (c = .trap ∨ c = .bkpt) → s.Runs iss c o →
    let code := if c = .trap then 0x10 else 0x11
    ∃ t, exec (c.mk o) s = .next t ∧ Skipped s t iss o ∧ ∀ p ∈ s.executing iss o,
      (¬NoHandler p.2 → Handles t p (nextPc iss.pc) code o.imm.toNat) ∧
      (NoHandler p.2 → t.threads.get? p.1 = none ∧
        ∀ r, s.crews.get? (s.maskCrew p.2.crew) = some r → ∃ r', t.crews.get? (s.maskCrew p.2.crew) = some r' ∧ r'.codes.testBit code = true)

/-- A fault of an operand is taken before the instruction has any effect: REG_EXT_ABSENT, or LATCH_INVALID with the number of the latch, with TPC the instruction and the latches as they stood recorded; other threads of the bundle go on (R207, R208, R214, R223, R317). -/
def OperandFaultsTrap : Prop :=
  ∀ c g, aluFn c = some g → ∀ (o : Ops) (s : State) (iss : Issue), s.Holds iss → s.Known iss c o →
    ∃ t, exec (c.mk o) s = .next t ∧ ∀ p ∈ s.executing iss o, ¬NoHandler p.2 → p.2.late = none →
      (∀ f, s.extFault c o p.1 p.2 = some f → Handles t p iss.pc f.code f.tval) ∧
      (∀ n, s.extFault c o p.1 p.2 = none → o.sa = .latch n → (iss.view p.1 p.2).latch n.toNat = none →
        Handles t p iss.pc 0x04 n.toNat ∧
        (p.2.restore = none → ∃ u, t.threads.get? p.1 = some u ∧ u.trap.saved = some p.2.latches))

/-- TRAP, BKPT and the faults of operands take the exception that the rules describe: both parts above (R207, R208, R239, R317, R330, R332). -/
def Obligations.TrapsAreTaken : Prop := TrapInstructions ∧ OperandFaultsTrap

/-- ERET with a handler running returns the thread to TPC with INH cleared and CODE kept; its recorded latches return with it unless a SETSR of TPC has executed. With INH clear it has no effect (R208, R332). -/
def Obligations.ExceptionReturn : Prop :=
  ∀ (o : Ops) (s : State) (iss : Issue), s.Runs iss .eret o →
    (∀ p ∈ s.executing iss o, p.2.trap.tcause.getLsbD 8 = true → p.2.trap.tpcSet = true →
      Enterable s iss.core (s.asidOf p.2) p.2.trap.tpc.toNat) →
    ∃ t, exec (.eret o) s = .next t ∧ t.mem = s.mem ∧ t.crews = s.crews ∧ Skipped s t iss o ∧ ∀ p ∈ s.executing iss o,
      ∃ u, t.threads.get? p.1 = some u ∧ p.2.Keeps u ∧ u.status = .ready ∧ (∀ n, u.latch n = none) ∧ u.stack = p.2.stack ∧
        (p.2.trap.tcause.getLsbD 8 = true → u.pc = p.2.trap.tpc ∧ u.trap.tcause.getLsbD 8 = false ∧
          u.trap.tcause.toNat % 256 = p.2.trap.tcause.toNat % 256 ∧ u.trap.tvec = p.2.trap.tvec ∧
          (p.2.trap.tpcSet = false → u.restore = p.2.trap.saved) ∧ (p.2.trap.tpcSet = true → u.restore = none)) ∧
        (p.2.trap.tcause.getLsbD 8 = false → u.pc = nextPc iss.pc ∧ u.trap = p.2.trap)

/-- A branch or call to a target that is not aligned, or a RET with an empty return stack, changes nothing but takes the thread to its handler: ILLEGAL_TARGET with the target, or RETURN_STACK with 0 (R195, R233, R234). -/
def Obligations.TransferFaults : Prop :=
  ∀ (c : Opc) (o : Ops) (s : State) (iss : Issue), s.Runs iss c o →
    (c ∈ [Opc.bra, .brx, .call, .callx] →
      (∀ p ∈ s.executing iss o, targetOf s iss c o p / 8 % 8 ≠ 0 ∨ 4 < targetOf s iss c o p % 8) →
      ∃ t, exec (c.mk o) s = .next t ∧ Skipped s t iss o ∧
        ∀ p ∈ s.executing iss o, ¬NoHandler p.2 → Handles t p iss.pc 0x02 (targetOf s iss c o p)) ∧
    (c = .ret → (∀ p ∈ s.executing iss o, p.2.stack = [] ∧ p.2.depth = 0) →
      ∃ t, exec (c.mk o) s = .next t ∧ Skipped s t iss o ∧ ∀ p ∈ s.executing iss o, ¬NoHandler p.2 → Handles t p iss.pc 0x12 0)

/-! ### Ending and waiting (R219, R235, R236) -/

/-- EXIT ends each executing thread; a crew whose last thread ends is finished and its end is due (R235, R278). -/
def ExitEnds : Prop :=
  ∀ (o : Ops) (s : State) (iss : Issue), s.Runs iss .exit o →
    ∃ t, exec (.exit o) s = .next t ∧ t.mem.bytes = s.mem.bytes ∧ t.mem.scratch = s.mem.scratch ∧ (∀ p ∈ s.executing iss o, t.threads.get? p.1 = none) ∧
      ∀ k c, s.executing iss o ≠ [] → (∀ p ∈ s.executing iss o, p.2.crew = k) → s.crews.get? k = some c →
        ∃ c', t.crews.get? k = some c' ∧ c'.live = c.live - (s.executing iss o).length ∧
          (c.live = (s.executing iss o).length → c'.phase = .finished ∧ Instr.crewEnd k ∈ t.due)

/-- SYNCG holds each executing thread until every live thread of its group waits at SYNCG; then all of them go on at the step after their own (R236). -/
def GroupBarrier : Prop :=
  ∀ (o : Ops) (s : State) (iss : Issue), s.Runs iss .syncg o → s.executing iss o ≠ [] → s.threads.rising = true →
    let there (k : Nat) (v : Thread) := v.status = .waiting .syncg ∨ ∃ p ∈ s.executing iss o, p.1 = k
    let all := ∀ k v, s.threads.get? k = some v → coreOf k = iss.core → v.group = iss.group → there k v
    ∃ t, exec (.syncg o) s = .next t ∧ s.SameOutside t iss.core iss.group ∧
      ∀ k v, s.threads.get? k = some v → coreOf k = iss.core → v.group = iss.group → there k v →
        ∃ u, t.threads.get? k = some u ∧ v.Keeps u ∧
          (all → u.status = .ready ∧ u.pc = nextPc v.pc) ∧ (¬all → u.status = .waiting .syncg ∧ u.pc = v.pc)

/-- EXIT ends threads and SYNCG gathers a group: both parts above (R235, R236). -/
def Obligations.EndsAndGroupBarrier : Prop := ExitEnds ∧ GroupBarrier

/-! ### Extended blocks and crew-uniform registers (R223, R247, R259, R268, R291) -/

/-- Whether a group holds an extended block. -/
def HasBlock (s : State) (core g : Nat) : Prop := ∃ x, s.groups.get? (gkey core g) = some x ∧ x.block = true

/-- A thread after an instruction that gives it a predicate at most: its registers as they were, and it stands at the next step. -/
def Told (t : State) (o : Ops) (iss : Issue) (p : Nat × Thread) (x : Nat) : Prop :=
  ∃ u, t.threads.get? p.1 = some u ∧ u.status = .ready ∧ u.pc = nextPc iss.pc ∧ (∀ n, n < 32 → u.reg n = p.2.reg n) ∧
    (o.flag = true → u.Has false o.dst x)

/-- REGX.GET gives the group a block when one is free for it and no older request waits, with v32 and above 0; a group that holds one keeps its registers. Otherwise .nb tells the threads so at once and the plain form makes them wait, queued in order. REGX.PUT gives the block back. Registers below v32 never change (R247). -/
def RegisterBlocks : Prop :=
  ∀ (o : Ops) (s : State) (iss : Issue), (∀ n, o.dst ≠ .v n) → s.executing iss o ≠ [] → (s.groups.get? (gkey iss.core iss.group)).isSome = true →
    let held := HasBlock s iss.core iss.group
    let free := s.blockFree iss.core iss.group = true ∧ (s.core iss.core).xqueue = []
    (s.Runs iss .regxGet o → (∀ p ∈ s.executing iss o, ∃ c, s.crews.get? p.2.crew = some c ∧ c.crec.x = true) →
      ∃ t, exec (.regxGet o) s = .next t ∧ t.mem = s.mem ∧ t.crews = s.crews ∧
        (held ∨ free → HasBlock t iss.core iss.group ∧ ∀ p ∈ s.executing iss o, Told t o iss p 1 ∧
          ∃ u, t.threads.get? p.1 = some u ∧ (held → p.2.SameBut u false o.dst) ∧ (¬held → ∀ n, 32 ≤ n → u.reg n = .known 0)) ∧
        (¬held → ¬free → o.flag = true → ¬HasBlock t iss.core iss.group ∧ ∀ p ∈ s.executing iss o, Told t o iss p 0) ∧
        (¬held → ¬free → o.flag = false → (t.core iss.core).xqueue = (s.core iss.core).xqueue ++ (s.executing iss o).map Prod.fst ∧
          ∀ p ∈ s.executing iss o, ∃ u, t.threads.get? p.1 = some u ∧ u.status = .waiting .regx ∧ u.pc = iss.pc ∧ p.2.Keeps u)) ∧
    (s.Runs iss .regxPut o →
      ∃ t, exec (.regxPut o) s = .next t ∧ t.mem = s.mem ∧ t.crews = s.crews ∧ ¬HasBlock t iss.core iss.group ∧
        ∀ p ∈ s.executing iss o, ∃ u, t.threads.get? p.1 = some u ∧ u.status = .ready ∧ u.pc = nextPc iss.pc ∧
          (∀ n, n < 32 → u.reg n = p.2.reg n) ∧ (held → ∀ n, 32 ≤ n → u.reg n = .known 0))

/-- KSET: the lowest-slot executing thread writes the crew's register, or its pair for a 64-bit TYPE; the other executing threads fault with K_WRITER, and all of them do when it was written in this crew-barrier generation already (R291). -/
def CrewUniformWrites : Prop :=
  ∀ (o : Ops) (s : State) (iss : Issue) (n : BitVec 6) (p : Nat × Thread) (r : List (Nat × Thread)) (c : Crew), s.Runs iss .kset o →
    o.dst = .k n → s.executing iss o = p :: r → s.crews.get? p.2.crew = some c →
    let x := (s.vals iss .kset o p.1 p.2).1
    let twice := c.kgen.get? n.toNat = some c.bar ∨ (o.ty.is64 = true ∧ c.kgen.get? (n.toNat + 1) = some c.bar)
    ∃ t, exec (.kset o) s = .next t ∧
      (∀ q ∈ r, ¬NoHandler q.2 → ∃ u, t.threads.get? q.1 = some u ∧ u.pc = q.2.trap.tvec ∧ u.trap.tcause.toNat % 256 = 0x06 ∧
        u.trap.tval = BitVec.ofNat 64 (0x80 + n.toNat) ∧ u.trap.tpc = iss.pc) ∧
      (twice → ¬NoHandler p.2 → ∃ u, t.threads.get? p.1 = some u ∧ u.pc = p.2.trap.tvec ∧ u.trap.tcause.toNat % 256 = 0x06) ∧
      (¬twice → (∃ u, t.threads.get? p.1 = some u ∧ u.pc = nextPc iss.pc ∧ u.status = .ready ∧
          ∀ m w, p.2.reg m = .known w → u.reg m = .known w) ∧
        (r = [] → ∃ d, t.crews.get? p.2.crew = some d ∧ d.kregs.get? n.toNat = some (BitVec.ofNat 32 x) ∧ d.kgen.get? n.toNat = some c.bar ∧
          (o.ty.is64 = true → d.kregs.get? (n.toNat + 1) = some (BitVec.ofNat 32 (x / 2 ^ 32))) ∧
          ∀ m, m ≠ n.toNat → (o.ty.is64 = true → m ≠ n.toNat + 1) → d.kregs.get? m = c.kregs.get? m))

/-- Register blocks and crew-uniform registers. REGX.GET, in a group that holds a block or that may have a free one, gives the group its block and every executing thread goes on; REGX.PUT, in a group that holds one, gives it back and every executing thread goes on; KSET, by one thread on a register not yet written in this crew-barrier generation, writes it and the thread goes on (R247, R268, R291). -/
def Obligations.BlocksAndUniformRegisters : Prop :=
  (∀ (o : Ops) (s : State) (iss : Issue), (∀ n, o.dst ≠ .v n) → s.executing iss o ≠ [] → (s.groups.get? (gkey iss.core iss.group)).isSome = true →
    (s.Runs iss .regxGet o → (∀ p ∈ s.executing iss o, ∃ c, s.crews.get? p.2.crew = some c ∧ c.crec.x = true) →
      (HasBlock s iss.core iss.group ∨ s.blockFree iss.core iss.group = true ∧ (s.core iss.core).xqueue = []) →
      ∃ t, exec (.regxGet o) s = .next t ∧ t.mem = s.mem ∧ t.crews = s.crews ∧ HasBlock t iss.core iss.group ∧ ∀ p ∈ s.executing iss o, Told t o iss p 1) ∧
    (s.Runs iss .regxPut o → HasBlock s iss.core iss.group →
      ∃ t, exec (.regxPut o) s = .next t ∧ t.mem = s.mem ∧ t.crews = s.crews ∧ ¬HasBlock t iss.core iss.group ∧
        ∀ p ∈ s.executing iss o, ∃ u, t.threads.get? p.1 = some u ∧ u.status = .ready ∧ u.pc = nextPc iss.pc ∧ (∀ n, n < 32 → u.reg n = p.2.reg n) ∧
          ∀ n, 32 ≤ n → u.reg n = .known 0)) ∧
  (∀ (o : Ops) (s : State) (iss : Issue) (n : BitVec 6) (p : Nat × Thread) (c : Crew), s.Runs iss .kset o → o.dst = .k n → s.executing iss o = [p] →
    s.crews.get? p.2.crew = some c → c.kgen.get? n.toNat ≠ some c.bar → (o.ty.is64 = true → c.kgen.get? (n.toNat + 1) ≠ some c.bar) →
    let x := (s.vals iss .kset o p.1 p.2).1
    ∃ t d u, exec (.kset o) s = .next t ∧ t.mem = s.mem ∧ t.crews.get? p.2.crew = some d ∧ d.kregs.get? n.toNat = some (BitVec.ofNat 32 x) ∧
      d.kgen.get? n.toNat = some c.bar ∧ (o.ty.is64 = true → d.kregs.get? (n.toNat + 1) = some (BitVec.ofNat 32 (x / 2 ^ 32))) ∧
      t.threads.get? p.1 = some u ∧ u.pc = nextPc iss.pc ∧ u.status = .ready) ∧
  RegisterBlocks ∧ CrewUniformWrites

/-! ### Loads and stores (R22, R58, R249, R257, R381 to R391) -/

/-- The value of a load from its bytes: little-endian, extended to the TYPE (R14, R222, R388). -/
def loaded (o : Ops) (w : Nat) (b : List Byte) : Nat := if o.x2 || w = 16 then natOf b else extendTo o.ty (natOf b)

/-- The number of registers of a load's destination. -/
def loadRegs (o : Ops) (quad : Bool) : Nat := if quad then 4 else if o.ty.is64 then 2 else 1

/-- A thread whose load has been issued: its destination is bound to a late value, its other registers are as they were, and it stands at the next step (R249, R251). -/
def Issued (t : State) (o : Ops) (regs : Nat) (iss : Issue) (p : Nat × Thread) (id : Nat) : Prop :=
  ∃ u, t.threads.get? p.1 = some u ∧ u.status = .ready ∧ u.pc = nextPc iss.pc ∧ (∀ m, u.pred m = p.2.pred m) ∧
    ∀ n, o.dst = .v n → (u.reg n.toNat).late? = some (.sym id 0) ∧ ∀ m, (m < n.toNat ∨ n.toNat + regs ≤ m) → u.reg m = p.2.reg m

/-- The access of a thread's load or store: LDS and STS at a crew offset, LDK at the first executing thread's address for all, LD and ST at the thread's address. -/
def memAccess (s : State) (iss : Issue) (c : Opc) (o : Ops) (p : Nat × Thread) : Access :=
  match c with
  | .lds => s.offsetAt .lds o (accWidth o (quadOf o)) iss p
  | .sts => s.offsetAt .sts o (accWidth o (quadOf o)) iss p
  | .ldk => s.plainAt .ldk o (accWidth o false) .load iss (((s.executing iss o).head?).getD p)
  | .st => s.plainAt .st o (accWidth o (quadOf o)) .store iss p
  | _ => s.plainAt .ld o (accWidth o (quadOf o)) .load iss p

/-- Whether a load or store reads or writes. -/
def memKind (c : Opc) : Acc := if c = .st ∨ c = .sts then .store else .load

/-- The premises under which a memory instruction performs: no join or taking read holds a thread, and no earlier operation of the core on an accessed line is on its way (R60, R125, R144, R279). -/
def Unheld (s : State) (iss : Issue) (c : Opc) (o : Ops) : Prop :=
  ∀ p ∈ s.executing iss o, p.2.held = false ∧ s.blockedBy iss.core (memKind c) (memAccess s iss c o p) = false

/-- An L1 hit of a thread: its core holds the line under the address, no other copy of it, and every byte is there, dirty or of the current generation (R37, R58, R145). -/
structure Hits (s : State) (core asid ea w : Nat) (l : L1Line) : Prop where
  aligned : ea % w = 0 ∧ ea < 2 ^ 57 ∧ ea / 2 ^ 52 ≠ 31
  held    : (s.core core).l1.get? (l1Key asid ea) = some l
  plain   : l.gath = none
  alone   : ∀ k x, (k, x) ∈ (s.core core).l1.cells → x.line = l.line → k = l1Key asid ea

/-- LD, LDS and LDK bind their destination to a late value and go on; the value of scratchpad bytes, or of bytes that L1 holds, then arrives, extended to the TYPE. A miss waits for the line's fill, and one fill of the line is on its way to the home. No load changes memory. LDK reads once, at the lowest-slot thread's address, for every executing thread (R37, R58, R249, R387 to R391). -/
def Obligations.LoadsArrive : Prop :=
  ∀ (c : Opc) (o : Ops) (s : State) (iss : Issue), (c = .ld ∨ c = .lds ∨ c = .ldk) → s.Runs iss c o → Unheld s iss c o →
    let quad := c ≠ .ldk ∧ quadOf o = true
    let w := accWidth o (decide quad)
    let regs := loadRegs o (decide quad)
    (∀ place : Nat × Thread → Nat × Nat, (∀ p ∈ s.executing iss o, (memAccess s iss c o p).tgt = .spad (place p).1 (place p).2 ∧ s.spadBadAt (place p).1 (place p).2 w = false) →
      ∃ t id, exec (c.mk o) s = .next t ∧ t.mem = s.mem ∧ t.crews = s.crews ∧ ∀ p ∈ s.executing iss o, Issued t o regs iss p id ∧
        ∃ tids, p.1 ∈ tids ∧ (c ≠ .ldk → tids = [p.1]) ∧
          Instr.pendingValueArrival tids id (loaded o w (s.mem.scratch.readN (scratchKey (place p).1 (place p).2) w)) none ∈ t.due) ∧
    (c = .ld → ∀ b : Nat × Thread → List Byte, (∀ p ∈ s.executing iss o, ∃ l,
        Hits s iss.core (s.asidOf p.2) (memAccess s iss c o p).ea w l ∧ l.r = true ∧ l.badAt ((memAccess s iss c o p).ea % 128) w = false ∧
        l.take? (s.core iss.core).gen ((memAccess s iss c o p).ea % 128) w = some (b p)) →
      ∃ t id, exec (.ld o) s = .next t ∧ t.mem = s.mem ∧ t.crews = s.crews ∧ ∀ p ∈ s.executing iss o, Issued t o regs iss p id ∧
        Instr.pendingValueArrival [p.1] id (loaded o w (b p)) none ∈ t.due) ∧
    (c = .ld → 0 < w → ∀ ga : Nat × Thread → Nat, (∀ p ∈ s.executing iss o, (∃ mode e, (memAccess s iss c o p).tgt = .page (ga p) mode e) ∧
        isHbm (lineNo (ga p)) = true ∧ homeDie (lineNo (ga p)) = dieOf iss.core ∧
        (s.core iss.core).l1.get? (l1Key (s.asidOf p.2) (memAccess s iss c o p).ea) = none ∧
        (∀ k x, (k, x) ∈ (s.core iss.core).l1.cells → x.line ≠ lineNo (ga p)) ∧ (s.core iss.core).misses.get? (lineNo (ga p)) = none) →
      ∃ t id, exec (.ld o) s = .next t ∧ t.mem = s.mem ∧ t.crews = s.crews ∧ ∀ p ∈ s.executing iss o, Issued t o regs iss p id ∧
        (∃ f l, Instr.homeDieAccess (lineNo (ga p)) (.fill f) false ∈ t.due ∧ f.core = iss.core ∧ (t.core iss.core).misses.get? (lineNo (ga p)) = some (f :: l)) ∧
        ∃ l f d, (t.core iss.core).misses.get? (lineNo (ga p)) = some l ∧ f ∈ l ∧ f.core = iss.core ∧ f.load = some d ∧
          d.tids = [p.1] ∧ d.late = id ∧ d.off = ga p % 128 ∧ d.width = w ∧ d.ty = o.ty)

/-- PENDING_VALUE_ARRIVAL makes every register of its threads that is bound to the value known: the part it names, or the transformed integer form a * x + b of it; registers bound to nothing or to another value, other Ready threads and memory are as they were (R251, R257). -/
def Obligations.ValueArrives : Prop :=
  ∀ (tids : List Nat) (id value : Nat) (s : State),
    ∃ t, exec (.pendingValueArrival tids id value none) s = .next t ∧ t.mem = s.mem ∧ t.crews = s.crews ∧
      ∀ k v, s.threads.get? k = some v → v.status = .ready → ∃ u, t.threads.get? k = some u ∧ u.status = .ready ∧ u.pc = v.pc ∧
        (∀ n, u.pred n = v.pred n) ∧ (∀ n w, v.reg n = .known w → u.reg n = .known w) ∧
        (∀ n part half, k ∈ tids → v.reg n = .plain (.sym id part) 32 half →
          u.reg n = .known (BitVec.ofNat 32 (bitsAt value (32 * part) 32 / 2 ^ (32 * half)))) ∧
        (∀ n part w half a b, k ∈ tids → v.reg n = .int (.sym id part) w half a b →
          u.reg n = .known (BitVec.ofNat 32 ((a * bitsAt value (w * part) w + b) % 2 ^ w / 2 ^ (32 * half)))) ∧
        (∀ n, (∀ part, (v.reg n).late? ≠ some (.sym id part)) → u.reg n = v.reg n) ∧ (k ∉ tids → ∀ n, u.reg n = v.reg n)

/-- No registered WAITW belongs to an executing thread: one that waits does not execute (R401). -/
def NoWaiter (s : State) (iss : Issue) (o : Ops) : Prop :=
  ∀ p ∈ s.executing iss o, ∀ m ∈ s.mem.mons, ∀ d ea, m.who ≠ .waitw p.1 d ea

/-- ST and STS write their bytes, little-endian, in ascending slot order; a later thread's bytes go over an earlier one's. A scratchpad store changes those bytes of the scratchpad at once and no other byte. A store that hits a writable L1 line, on which no frame lies, makes the bytes dirty there and changes nothing at the home. Registers never change (R14, R58, R65, R275, R387, R389, R390). -/
def Obligations.StoresWrite : Prop :=
  ∀ (c : Opc) (o : Ops) (s : State) (iss : Issue), (c = .st ∨ c = .sts) → s.Runs iss c o → Unheld s iss c o → quadWaits s o = false → NoWaiter s iss o →
    let w := accWidth o (quadOf o)
    let byte (p : Nat × Thread) (i : Nat) : Byte := BitVec.ofNat 8 (s.storeData c o iss p.1 p.2 / 256 ^ i)
    (∀ a : Nat × Thread → Nat, (∀ p ∈ s.executing iss o, ∃ k off, (memAccess s iss c o p).tgt = .spad k off ∧ a p = scratchKey k off) →
      ∃ t, exec (c.mk o) s = .next t ∧ t.mem.bytes = s.mem.bytes ∧ (∀ p ∈ s.executing iss o, Passed t iss p) ∧
        (∀ x, (∀ p ∈ s.executing iss o, x < a p ∨ a p + w ≤ x) → t.mem.scratch.read x = s.mem.scratch.read x) ∧
        ∀ l p r, s.executing iss o = l ++ p :: r → ∀ i, i < w → (∀ q ∈ r, a p + i < a q ∨ a q + w ≤ a p + i) →
          t.mem.scratch.read (a p + i) = byte p i) ∧
    (c = .st → (∀ p ∈ s.executing iss o, ∃ l, Hits s iss.core (s.asidOf p.2) (memAccess s iss c o p).ea w l ∧ l.w = true ∧ s.frameOn l.line = none) →
      ∃ t, exec (.st o) s = .next t ∧ t.mem = s.mem ∧ t.crews = s.crews ∧ (∀ p ∈ s.executing iss o, Passed t iss p) ∧
        ∀ l p r, s.executing iss o = l ++ p :: r → ∀ i, i < w →
          let key (q : Nat × Thread) := l1Key (s.asidOf q.2) (memAccess s iss c o q).ea
          let off (q : Nat × Thread) := (memAccess s iss c o q).ea % 128
          (∀ q ∈ r, key q ≠ key p ∨ off p + i < off q ∨ off q + w ≤ off p + i) →
          ∃ x, (t.core iss.core).l1.get? (key p) = some x ∧ x.bytes.get? (off p + i) = some ⟨byte p i, true⟩)

/-- A misaligned access changes nothing but takes the thread to its handler with MISALIGNED and the address, whatever its place; a scratchpad access outside the crew's allocation ends the thread (R68, R313, R314, R384). -/
def Obligations.MemoryFaults : Prop :=
  ∀ (c : Opc) (o : Ops) (s : State) (iss : Issue), c ∈ [Opc.ld, .st, .lds, .sts] → s.Runs iss c o →
    (∀ p ∈ s.executing iss o, p.2.held = false) → quadWaits s o = false →
    let w := accWidth o (quadOf o)
    ((∀ p ∈ s.executing iss o, (memAccess s iss c o p).ea % w ≠ 0) →
      ∃ t, exec (c.mk o) s = .next t ∧ ∀ p ∈ s.executing iss o, ¬NoHandler p.2 → Handles t p iss.pc 0x0A (memAccess s iss c o p).ea) ∧
    ((c = .lds ∨ c = .sts) → (∀ p ∈ s.executing iss o, (memAccess s iss c o p).ea % w = 0 ∧
        ∃ r, s.crews.get? p.2.crew = some r ∧ r.spadSize < (memAccess s iss c o p).ea + w) →
      ∃ t, exec (c.mk o) s = .next t ∧ ∀ p ∈ s.executing iss o, t.threads.get? p.1 = none)

/-! ### Cells (R125, R139 to R143, R393 to R401) -/

/-- One executing thread, free to access memory, whose access has a given target. -/
structure Alone (s : State) (iss : Issue) (c : Opc) (o : Ops) (p : Nat × Thread) : Prop where
  runs : s.Runs iss c o
  one  : s.executing iss o = [p]
  free : p.2.held = false
  mons : ∀ m ∈ s.mem.mons, ∀ d ea, m.who ≠ .waitw p.1 d ea

/-- What a cell instruction does to its cell, as translation judges it. -/
def cellKind (c : Opc) : Acc := match c with | .atom | .atomc => .atom | .red => .red | .give => .store | _ => .load

/-- The access of a cell instruction's thread: its width is the TYPE's. -/
def cellAccess (s : State) (iss : Issue) (c : Opc) (o : Ops) (p : Nat × Thread) : Access := s.accessAt c o (o.ty.bits / 8) (cellKind c) iss p

/-- Scratchpad after a cell operation: the cell's bytes hold a value, and no other byte of scratchpad or memory changes. -/
def CellHolds (s t : State) (k off n x : Nat) : Prop :=
  t.mem.bytes = s.mem.bytes ∧ (∀ i, i < n → t.mem.scratch.read (scratchKey k off + i) = BitVec.ofNat 8 (x / 256 ^ i)) ∧
    ∀ a, (a < scratchKey k off ∨ scratchKey k off + n ≤ a) → t.mem.scratch.read a = s.mem.scratch.read a

/-- A thread whose registers other than its destination are as they were stands at the next step. -/
def GoesOn (t : State) (o : Ops) (iss : Issue) (p : Nat × Thread) : Prop :=
  ∃ u, t.threads.get? p.1 = some u ∧ u.status = .ready ∧ u.pc = nextPc iss.pc ∧ (∀ m, u.pred m = p.2.pred m) ∧
    ∀ m, (∀ n, o.dst = .v n → m < n.toNat ∨ n.toNat + 2 ≤ m) → u.reg m = p.2.reg m

/-- On the crew's own scratchpad a cell instruction without .give is performed at once: ATOM combines the operand into the cell, ATOMC writes its new value when the cell holds the expected one, RED combines and TAKE only reads; ATOM with a destination, ATOMC and TAKE return the old value. WAITW gives the value and goes on when its comparison holds, else the thread waits with a monitor registered (R131, R139, R171, R395 to R401). -/
def Obligations.CellsInScratchpad : Prop :=
  ∀ (c : Opc) (o : Ops) (s : State) (iss : Issue) (p : Nat × Thread) (k off : Nat), c ∈ [Opc.atom, .atomc, .red, .take, .waitw] →
    Alone s iss c o p → o.aux.getLsbD 3 = false → (cellAccess s iss c o p).tgt = .spad k off → s.blockedBy iss.core (cellKind c) (cellAccess s iss c o p) = false →
    s.spadBadAt k off (o.ty.bits / 8) = false → o.ty.bits = (if o.ty.is64 then 64 else 32) → (∀ n, o.dst ≠ .p n) →
    let n := o.ty.bits / 8
    let old := s.spadNat k off n
    let a := (s.vals iss c o p.1 p.2).2.1 % 2 ^ o.ty.bits
    let b := (s.vals iss c o p.1 p.2).2.2 % 2 ^ o.ty.bits
    let holds := cmpHolds (waitCmp o) o.ty.is64 old a = true
    ∃ t, exec (c.mk o) s = .next t ∧
      (c = .atom → CellHolds s t k off n (combine o.ty (o.aux.toNat % 8) old a)) ∧
      (c = .atomc → CellHolds s t k off n (if old = a then b else old)) ∧
      (c = .red → CellHolds s t k off n (combine o.ty (o.aux.toNat % 8) old a)) ∧
      (c = .take → CellHolds s t k off n old) ∧ (c = .waitw → CellHolds s t k off n old) ∧
      (c ≠ .waitw → GoesOn t o iss p) ∧
      ((c = .atom ∧ o.flag = true) ∨ c = .atomc ∨ c = .take → ∃ id, Instr.pendingValueArrival [p.1] id (extendTo o.ty old) none ∈ t.due ∧
        ∀ u, t.threads.get? p.1 = some u → ∀ m, o.dst = .v m → (u.reg m.toNat).late? = some (.sym id 0)) ∧
      (c = .waitw → holds → GoesOn t o iss p ∧ ∃ u, t.threads.get? p.1 = some u ∧ u.Has o.ty.is64 o.dst old) ∧
      (c = .waitw → ¬holds → ∃ u, t.threads.get? p.1 = some u ∧ u.status = .waiting .monitor ∧ u.pc = iss.pc ∧ p.2.Keeps u)

/-- A cell instruction on a page sends one request for each executing thread, with its operands, to the cell's point of serialisation; a giving one, and WAITW, holds its thread until it is sent, and the others go on. GIVE on the own scratchpad is sent likewise (R125, R140, R143, R394 to R401). -/
def Obligations.CellsAreSent : Prop :=
  ∀ (c : Opc) (o : Ops) (s : State) (iss : Issue), c ∈ [Opc.atom, .atomc, .take, .give, .waitw, .red] → s.Runs iss c o → NoWaiter s iss o →
    (c = .red → o.aux.getLsbD 3 = true ∨ o.aux.getLsbD 5 = true) →
    (∀ p ∈ s.executing iss o, p.2.held = false ∧ s.blockedBy iss.core (cellKind c) (cellAccess s iss c o p) = false ∧
      ((∃ ga mode e, (cellAccess s iss c o p).tgt = .page ga mode e ∧ mode ≠ .nc ∧ isHost (lineNo ga) = false) ∨
        (c = .give ∧ ∃ k off, (cellAccess s iss c o p).tgt = .spad k off))) →
    let giving := c = .give ∨ (c ∈ [Opc.atom, .atomc, .red] ∧ o.aux.getLsbD 3 = true)
    ∃ t, exec (c.mk o) s = .next t ∧ ∀ p ∈ s.executing iss o, ∃ u x, t.threads.get? p.1 = some u ∧ Instr.cellOperationRequest x ∈ t.due ∧
      x.tid = p.1 ∧ x.ty = o.ty ∧ x.a = (s.vals iss c o p.1 p.2).2.1 % 2 ^ o.ty.bits ∧ x.b = (s.vals iss c o p.1 p.2).2.2 % 2 ^ o.ty.bits ∧
      x.sent = false ∧ (x.giving = true ↔ giving) ∧
      (∀ ga mode e, (cellAccess s iss c o p).tgt = .page ga mode e → x.place = .mem ga ∧ x.mode = mode) ∧
      (∀ k off, (cellAccess s iss c o p).tgt = .spad k off → x.place = .scratch k off) ∧
      (c = .atom → x.kind = .atom (o.aux.toNat % 8)) ∧ (c = .atomc → x.kind = .atomc) ∧ (c = .take → x.kind = .take) ∧ (c = .give → x.kind = .give) ∧
      (c = .waitw → x.kind = .waitw (waitCmp o)) ∧ (c = .red → x.kind = .red (o.aux.toNat % 8)) ∧
      (giving ∨ c = .waitw → u.status = .waiting .sending ∧ u.pc = iss.pc) ∧
      (¬(giving ∨ c = .waitw) → u.status = .ready ∧ u.pc = nextPc iss.pc)

/-- The line at its home: no copy anywhere, nothing in progress, and no delta in the home die's L1s, so that memory holds its value (R92, R93, R98). -/
structure Idle (s : State) (line : Nat) : Prop where
  home : s.home line = {}
  mask : s.mem.gmask.getD (sliceKey line) [] = []

/-- The read of n bytes of memory as a number. -/
def memNum (s : State) (ga n : Nat) : Nat := natOf (s.mem.bytes.readN ga n)

/-- What a cell operation does to memory bytes at its place: the cell's bytes hold a value and no other byte changes. -/
def MemHolds (s t : State) (ga n x : Nat) : Prop :=
  (∀ i, i < n → t.mem.bytes.read (ga + i) = BitVec.ofNat 8 (x / 256 ^ i)) ∧ (∀ a, (a < ga ∨ ga + n ≤ a) → t.mem.bytes.read a = s.mem.bytes.read a) ∧
    t.mem.scratch = s.mem.scratch

/-- CELL_OPERATION_REQUEST performs the operation at the home of a line of the core's own die once nothing precedes it, all at one instant: ATOM, ATOMC, RED and GIVE write what the rules give, TAKE reads, and ATOM, ATOMC and TAKE return the old value; the thread of a giving operation then goes on. While an earlier operation of the core on the line is under way, it waits. (The return of a .total operation that has been performed already is no such request) (R125, R131, R139 to R143, R396 to R400). -/
def Obligations.CellsAtHome : Prop :=
  ∀ (c : CellOp) (s : State) (ga : Nat), c.place = .mem ga → (∀ x, c.kind ≠ .finish x) →
    ((s.due.any (earlierCell c) = true ∨ s.cellFollows c = true) →
      exec (.cellOperationRequest c) s = .next { s with due := s.due ++ [.cellOperationRequest c] }) ∧
    (s.due.any (earlierCell c) = false → s.cellFollows c = false → (c.giving = true → c.sent = true ∧ s.dieQuiet (dieOf (coreOf c.tid)) = true ∧ s.saves c.tid = false) →
      s.frameOn (lineNo ga) = none → isHbm (lineNo ga) = true → homeDie (lineNo ga) = dieOf (coreOf c.tid) → Idle s (lineNo ga) → s.mem.poison = [] → c.kind ≠ .await → c.kind ≠ .pollf →
      let n := c.ty.bits / 8
      let old := memNum s ga n
      ∃ t, exec (.cellOperationRequest c) s = .next t ∧
        (∀ op, c.kind = .atom op ∨ c.kind = .red op → MemHolds s t ga n (combine c.ty op old c.a)) ∧
        (c.kind = .atomc → MemHolds s t ga n (if old = c.a % 2 ^ (8 * n) then c.b else old)) ∧
        (c.kind = .give → MemHolds s t ga n c.a) ∧ (c.kind = .take → MemHolds s t ga n old) ∧ (c.kind = .fret → MemHolds s t ga 8 c.a) ∧
        ((∃ op, c.kind = .atom op) ∨ c.kind = .atomc ∨ c.kind = .take →
          ∀ id, c.late = some id → Instr.pendingValueArrival [c.tid] id (extendTo c.ty old) none ∈ t.due) ∧
        (∀ v, s.threads.get? c.tid = some v → c.giving = true → v.status = .waiting .sending → (∀ m ∈ s.mem.mons, ∀ d ea, m.who ≠ .waitw c.tid d ea) →
          (∀ cmp, c.kind ≠ .waitw cmp) → ∃ u, t.threads.get? c.tid = some u ∧ u.status = .ready ∧ u.pc = nextPc v.pc ∧ v.Keeps u))

/-- Every other thread of a WAITW's bundle that still waits there has had its read performed (R173). -/
def MatesRead (s : State) (tid : Nat) (v : Thread) : Prop :=
  ∀ k ∈ v.mates, k ≠ tid → ∀ w, s.threads.get? k = some w → w.mates = v.mates → w.unread = false

/-- A request to another core's window is performed at its bank array when the address is still held by a crew of the context: a load returns the bytes, a store writes them; otherwise it is ill-timed, and the report switches each of its threads OFF. A registration held on a full spoil list is performed when it is taken up: a thread whose comparison holds has its value, and goes on once every thread of its bundle has had its read performed (R23, R67, R68, R173, R177, R391). -/
def Obligations.WindowsAndRegistrations : Prop :=
  ∀ (tid ctx core off : Nat) (s : State),
    (∀ k, s.spadHeld ctx core off = false → (∀ d, k ≠ .load d) → exec (.peerWindowRequest tid ctx core off k) s = .next { s with due := s.due ++ [.illTimedReport tid] }) ∧
    (∀ d, s.spadHeld ctx core off = false → exec (.peerWindowRequest tid ctx core off (.load d)) s = .next { s with due := s.due ++ d.tids.map Instr.illTimedReport }) ∧
    (∀ d, s.spadHeld ctx core off = true → s.spadBadAt core off d.width = false → ∃ t, exec (.peerWindowRequest tid ctx core off (.load d)) s = .next t ∧ t.mem = s.mem ∧ t.threads = s.threads ∧
      Instr.pendingValueArrival d.tids d.late (loadValue { d with off := 0 } (s.mem.scratch.readN (scratchKey core off) d.width)) none ∈ t.due) ∧
    (∀ n x, s.spadHeld ctx core off = true → ∃ t, exec (.peerWindowRequest tid ctx core off (.store n x)) s = .next t ∧ CellHolds s t core off n x) ∧
    (∀ v, s.threads.get? tid = some v → ∃ t, exec (.illTimedReport tid) s = .next t ∧ t.threads.get? tid = none ∧ t.mem.bytes = s.mem.bytes ∧
      ∀ r, s.crews.get? (s.maskCrew v.crew) = some r → ∃ r', t.crews.get? (s.maskCrew v.crew) = some r' ∧ r'.codes.testBit 0x09 = true) ∧
    (∀ c cmp v, c.kind = .waitw cmp → s.threads.get? c.tid = some v → s.cellBad c.place (c.ty.bits / 8) = false →
      s.placeBad c.place (if c.ty.is64 then 8 else 4) = false →
      ∃ t u, exec (.spoilListHeldRegistration c) s = .next t ∧ t.threads.get? c.tid = some u ∧
        (cmpHolds cmp c.ty.is64 (s.placeNat c.place (c.ty.bits / 8)) c.a = true → u.Has c.ty.is64 c.dst (s.placeNat c.place (if c.ty.is64 then 8 else 4)) ∧
          (c.tid ∉ v.mates ∨ MatesRead s c.tid v → u.status = .ready ∧ u.pc = nextPc v.pc) ∧
          (c.tid ∈ v.mates → ¬MatesRead s c.tid v → u.status = .waiting .read ∧ u.pc = v.pc)) ∧
        (cmpHolds cmp c.ty.is64 (s.placeNat c.place (c.ty.bits / 8)) c.a = false → u.status = .waiting .monitor ∧ u.pc = v.pc ∧
          (t.mem.held ≠ s.mem.held ∨ t.mem.mons.length = s.mem.mons.length + 1)))

/-! ### Cache hints and ranges (R80, R392, R402 to R404) -/

/-- PREF changes no register and no memory and never waits or faults. CWB and CINV over a range of no bytes only go on; CWB of a range whose dirty lines go to the core's own die sends each line's dirty bytes home, leaves the line clean and holds its thread until they are acknowledged (R392, R402, R403). -/
def Obligations.HintsAndRanges : Prop :=
  ∀ (o : Ops) (s : State) (iss : Issue),
    (s.Runs iss .pref o → NoWaiter s iss o → ∃ t, exec (.pref o) s = .next t ∧ t.mem.scratch = s.mem.scratch ∧ ∀ p ∈ s.executing iss o,
      ∃ u, t.threads.get? p.1 = some u ∧ p.2.Keeps u ∧ u.status = .ready ∧ u.pc = nextPc iss.pc) ∧
    (∀ c, (c = .cwb ∨ c = .cinv) → s.Runs iss c o → (∀ p ∈ s.executing iss o, p.2.held = false ∧ (s.vals iss c o p.1 p.2).2.1 % 2 ^ 32 = 0 ∧
        s.blockedBy iss.core (if c = .cwb then .load else .store) (s.rangeAt c o (if c = .cwb then .load else .store) iss p) = false) →
      ∃ t, exec (c.mk o) s = .next t ∧ t.mem = s.mem ∧ ∀ p ∈ s.executing iss o, Passed t iss p) ∧
    (∀ p key l, s.Runs iss .cwb o → s.executing iss o = [p] → p.2.held = false → (s.rangeAt .cwb o .load iss p).tgt = .page (2 ^ 80) .coh 0 →
      s.blockedBy iss.core .load (s.rangeAt .cwb o .load iss p) = false →
      s.rangeLines iss.core (s.asidOf p.2) (s.rangeAt .cwb o .load iss p).ea ((s.vals iss .cwb o p.1 p.2).2.1 % 2 ^ 32) = [key] →
      (s.core iss.core).l1.get? key = some l → l.gath = none → isHbm l.line = true → homeDie l.line = dieOf iss.core → dirtyOf l.bytes ≠ [] →
      ∃ t u, exec (.cwb o) s = .next t ∧ t.mem = s.mem ∧ Instr.homeDieAccess l.line (.write iss.core (dirtyOf l.bytes)) false ∈ t.due ∧
        (t.core iss.core).l1.get? key = some { l with bytes := cleanBytes l.bytes } ∧ (t.core iss.core).inflight = (s.core iss.core).inflight ++ [l.line] ∧
        t.threads.get? p.1 = some u ∧ u.status = .waiting (.acks [l.line]) ∧ u.pc = iss.pc) ∧
    (∀ p key l, s.Runs iss .cinv o → s.executing iss o = [p] → p.2.held = false → (s.rangeAt .cinv o .store iss p).tgt = .page (2 ^ 80) .coh 0 →
      s.blockedBy iss.core .store (s.rangeAt .cinv o .store iss p) = false → s.cinvWaits o = false →
      s.rangeLines iss.core (s.asidOf p.2) (s.rangeAt .cinv o .store iss p).ea ((s.vals iss .cinv o p.1 p.2).2.1 % 2 ^ 32) = [key] →
      (s.core iss.core).l1.get? key = some l → l.gath = none → dirtyOf l.bytes = [] → ((s.core iss.core).inflight.contains l.line) = false →
      ∃ t, exec (.cinv o) s = .next t ∧ t.mem = s.mem ∧ (t.core iss.core).l1.get? key = none ∧ Passed t iss p)

/-! ### Frames (R269 to R282) -/

/-- The frame that a handle operand names lies in memory, at the home of an idle line of which the core holds no copy. -/
structure FrameHere (s : State) (iss : Issue) (c : Opc) (o : Ops) (p : Nat × Thread) (a : Acc) (ga : Nat) : Prop where
  place : ∃ mode e, (s.frameAt c o 12 a iss p).tgt = .page (ga + 12) mode e
  idle  : Idle s (lineNo (ga + 12))
  quiet : s.quietLine (lineNo (ga + 12)) = true
  copies : ∀ k x, (k, x) ∈ (s.core iss.core).l1.cells → x.line ≠ lineNo (ga + 12)

/-- SPAWN. A thread count of 0 or above 1024, a crew that fits no share, or a malformed header gives the thread its status and nothing else. Otherwise the thread receives the handle of its arena's first free frame, which memory then holds with its parent, its spawning core and its count, and a crew of that entry and record is queued at the core where it is placed, with the argument bytes as they stood (R269, R271, R275, R276). -/
def Obligations.SpawnQueues : Prop :=
  ∀ (o : Ops) (s : State) (iss : Issue) (p : Nat × Thread), Alone s iss .spawn o p → (∀ n, o.dst ≠ .p n) → s.crews.rising = true →
    (∀ n, s.spawnPlan iss o p = .status n → ∃ t u, exec (.spawn o) s = .next t ∧ t.mem = s.mem ∧ t.fw = s.fw ∧
      t.threads.get? p.1 = some u ∧ u.Has true o.dst n ∧ p.2.SameBut u true o.dst ∧ u.status = .ready ∧ u.pc = nextPc iss.pc) ∧
    (∀ n entry r k pl args i ga mode e c, s.spawnPlan iss o p = .go n entry r k pl args → s.frameAsks iss.core (s.asidOf p.2) 1 = [] →
      freeFrames (s.framesTaken (s.asidOf p.2) iss.core) 1 = [i] → s.crews.get? p.2.crew = some c → s.storeUsed (dieOf iss.core) + n ≤ 1048576 →
      s.xlate iss.core (s.asidOf p.2) (frameHandle iss.core i) .atom = .hit ga mode e → Idle s (lineNo ga) →
      (∀ key x, (key, x) ∈ (s.core iss.core).l1.cells → x.line ≠ lineNo ga) →
      ∃ t u d, exec (.spawn o) s = .next t ∧ t.threads.get? p.1 = some u ∧ u.Has true o.dst (frameHandle iss.core i) ∧ p.2.SameBut u true o.dst ∧
        u.status = .ready ∧ u.pc = nextPc iss.pc ∧ t.crews.get? s.fresh = some d ∧ d.entry = entry ∧ d.crec = r ∧ d.cn = n ∧ d.core = k ∧ d.place = pl ∧
        d.phase = .queued ∧ d.ctx = c.ctx ∧ d.prio = c.prio ∧ d.tag = c.tag ∧ d.frm.toNat = frameHandle iss.core i % 2 ^ 64 ∧ d.args = splitArgs n args ∧
        s.fresh ∈ (t.core k).queue ∧ (t.fw.frames.get? (frameKey (s.asidOf p.2) (frameHandle iss.core i))).isSome = true ∧
        (pl = .loc → t.mem.bytes = s.mem.bytes.writeAt ga (withOff 0 (newFrame c.frm.toNat iss.core n))))

/-- AWAIT sends a read of the frame's outstanding count for each executing thread, binds the destination, holds the thread's later memory accesses and its issue until it is sent; POLLF reads the count and the status at once, known, and FRET sends the extended value to its slot of the own frame (R260, R279 to R281). -/
def Obligations.FrameReads : Prop :=
  ∀ (o : Ops) (s : State) (iss : Issue),
    (s.Runs iss .await o → (∀ p ∈ s.executing iss o, p.2.takes = [] ∧ s.blockedBy iss.core .load (s.frameAt .await o 12 .load iss p) = false ∧
        ∃ ga mode e, (s.frameAt .await o 12 .load iss p).tgt = .page ga mode e ∧ isHost (lineNo ga) = false) → NoWaiter s iss o →
      ∃ t id, exec (.await o) s = .next t ∧ ∀ p ∈ s.executing iss o, ∃ u x, t.threads.get? p.1 = some u ∧ u.status = .waiting .sending ∧ u.pc = iss.pc ∧
        u.joins = p.2.joins ++ [id] ∧ (∀ n, o.dst = .v n → o.ty ≠ .none → (u.reg n.toNat).late? = some (.sym id 0)) ∧
        Instr.cellOperationRequest x ∈ t.due ∧ x.tid = p.1 ∧ x.kind = .await ∧ x.late = some id ∧ x.slot = o.imm.toNat % 4 ∧ x.ty = o.ty ∧
        ∀ ga mode e, (s.frameAt .await o 12 .load iss p).tgt = .page ga mode e → x.place = .mem ga) ∧
    (s.Runs iss .pollf o → (∀ n, o.dst ≠ .p n) →
      ∀ ga : Nat × Thread → Nat, (∀ p ∈ s.executing iss o, p.2.takes = [] ∧ s.blockedBy iss.core .load (s.frameAt .pollf o 12 .load iss p) = false ∧
        FrameHere s iss .pollf o p .load (ga p) ∧ s.placeBad (.mem (ga p + 8)) 8 = false) →
      ∃ t, exec (.pollf o) s = .next t ∧ t.mem.bytes = s.mem.bytes ∧ t.mem.scratch = s.mem.scratch ∧ t.crews = s.crews ∧ ∀ p ∈ s.executing iss o, ∃ u, t.threads.get? p.1 = some u ∧
        u.Has true o.dst (memNum s (ga p + 12) 4 + 2 ^ 32 * memNum s (ga p + 8) 4) ∧ p.2.SameBut u true o.dst ∧ p.2.SameRest u ∧ u.pc = nextPc iss.pc) ∧
    (s.Runs iss .fret o → NoWaiter s iss o → (∀ p ∈ s.executing iss o, p.2.takes = [] ∧ s.blockedBy iss.core .store (s.fretAt o iss p) = false ∧
        ∃ ga mode e, (s.fretAt o iss p).tgt = .page ga mode e ∧ isHost (lineNo ga) = false) →
      ∃ t, exec (.fret o) s = .next t ∧ ∀ p ∈ s.executing iss o, ∃ u x, t.threads.get? p.1 = some u ∧ p.2.Keeps u ∧ u.status = .ready ∧ u.pc = nextPc iss.pc ∧
        Instr.cellOperationRequest x ∈ t.due ∧ x.tid = p.1 ∧ x.kind = .fret ∧ x.a = fretValue o (s.vals iss .fret o p.1 p.2).2.1 ∧ x.giving = false ∧
        ∀ ga mode e, (s.fretAt o iss p).tgt = .page ga mode e → x.place = .mem ga)

/-- STEALPT goes on as if it were not there when the frame's OFFERED bit is set, the crew has registers, queues or scratchpad of its own, or the return stack is deeper than 3. Otherwise the rest of the thread is offered: the thread ends, the frame holds the continuation PC, the saved registers and the return stack with OFFERED set, and a crew of one continuation is queued on the core (R278, R282). -/
def Obligations.StealPoint : Prop :=
  ∀ (o : Ops) (s : State) (iss : Issue) (p : Nat × Thread) (ga : Nat) (c : Crew), Alone s iss .stealpt o p → FrameHere s iss .stealpt o p .atom ga →
    s.blockedBy iss.core .atom (s.frameAt .stealpt o 12 .atom iss p) = false → s.crews.get? p.2.crew = some c →
    let may := c.crec.k = 0 ∧ c.crec.spad = 0 ∧ c.crec.q = 0 ∧ p.2.depth ≤ 3 ∧ (memNum s (ga + 8) 4).testBit 2 = false
    (¬may → ∃ t, exec (.stealpt o) s = .next t ∧ t.mem = s.mem ∧ Passed t iss p) ∧
    (∀ regs, may → p.2.crew ≠ s.fresh → p.2.depth = p.2.stack.length → (iss.view p.1 p.2).savedRegs (stealArgs o).2 (stealArgs o).1 = some regs →
      ∃ t d, exec (.stealpt o) s = .next t ∧ t.threads.get? p.1 = none ∧ t.crews.get? s.fresh = some d ∧ d.cont = some (.mem (ga + 12), p.2.tix) ∧
        d.phase = .queued ∧ d.core = iss.core ∧ d.place = .anyc ∧ s.fresh ∈ (t.core iss.core).queue ∧
        t.mem.bytes = s.mem.bytes.writeAt ga (offerBytes (memNum s (ga + 8) 4) (nextPc iss.pc).toNat (c.prio % 4) (stealArgs o).1 (stealArgs o).2 regs
          (p.2.stack.reverse.map fun x => bytesOf 8 x.toNat)))

/-! ### Barriers, queues and coordinates of a crew (R286 to R290, R309) -/

/-- CBAR holds each executing thread until every live thread of its crew waits at CBAR; then all go on at the step after their own and the crew's generation advances (R286). -/
def CrewBarrier : Prop :=
  ∀ (o : Ops) (s : State) (iss : Issue) (crew : Nat) (c : Crew), s.Runs iss .cbar o → s.executing iss o ≠ [] → s.threads.rising = true →
    (∀ p ∈ s.executing iss o, p.2.crew = crew) → s.crews.get? crew = some c →
    let there (k : Nat) (v : Thread) := v.status = .waiting .cbar ∨ ∃ p ∈ s.executing iss o, p.1 = k
    let all := ∀ k v, s.threads.get? k = some v → v.crew = crew → there k v
    ∃ t, exec (.cbar o) s = .next t ∧ t.mem = s.mem ∧ (all → t.crews.get? crew = some { c with bar := c.bar + 1 }) ∧ (¬all → t.crews.get? crew = some c) ∧
      ∀ k v, s.threads.get? k = some v → v.crew = crew → there k v →
        ∃ u, t.threads.get? k = some u ∧ v.Keeps u ∧ (all → u.status = .ready ∧ u.pc = nextPc v.pc) ∧ (¬all → u.status = .waiting .cbar ∧ u.pc = v.pc)

/-- An NBAR at a barrier of the own crew arrives once: the first arrival of a generation fixes the count; the arrival that completes it lets every thread that waits there go on and opens a new generation, and any other makes its thread wait. A count that differs from the fixed one takes BARRIER_COUNT. With .remote, the arrival is sent to the crew that the handle names (R287). -/
def NamedBarrier : Prop :=
  ∀ (o : Ops) (s : State) (iss : Issue) (p : Nat × Thread) (c : Crew), Alone s iss .nbar o p → s.crews.get? p.2.crew = some c →
    let id := (s.nbarArgs iss o p).1
    let count := (s.nbarArgs iss o p).2.1
    let b : NBar := c.nbars.getD id {}
    (o.aux.getLsbD 0 = false → id < 16 → 1 ≤ count → count ≤ 1024 → c.remoteSaved = [] → c.phase ≠ .saved →
      (b.fixed = 0 ∨ b.fixed = count → b.arrived + 1 ≠ count →
        ∃ t u d, exec (.nbar o) s = .next t ∧ t.mem = s.mem ∧ t.threads.get? p.1 = some u ∧ u.status = .waiting (.nbar id) ∧ u.pc = iss.pc ∧ p.2.Keeps u ∧
          t.crews.get? p.2.crew = some d ∧ d.nbars.get? id = some { b with fixed := count, arrived := b.arrived + 1 }) ∧
      (b.fixed = 0 ∨ b.fixed = count → b.arrived + 1 = count →
        ∃ t u d, exec (.nbar o) s = .next t ∧ t.mem = s.mem ∧ t.threads.get? p.1 = some u ∧ u.status = .ready ∧ u.pc = nextPc iss.pc ∧ p.2.Keeps u ∧
          t.crews.get? p.2.crew = some d ∧ d.nbars.get? id = none ∧
          ∀ k v, s.threads.get? k = some v → v.crew = p.2.crew → v.status = .waiting (.nbar id) →
            ∃ w, t.threads.get? k = some w ∧ w.status = .ready ∧ w.pc = nextPc v.pc ∧ v.Keeps w) ∧
      (b.fixed ≠ 0 → b.fixed ≠ count → ¬NoHandler p.2 →
        ∃ t, exec (.nbar o) s = .next t ∧ Handles t p iss.pc 0x0C (count + b.fixed * 2 ^ 32 + id * 2 ^ 48))) ∧
    (∀ x, o.aux.getLsbD 0 = true → s.crewNamed (s.ctxOf p.2) (clusterOf iss.core) (s.nbarArgs iss o p).2.2 = some x →
      ∃ t u, exec (.nbar o) s = .next t ∧ t.threads.get? p.1 = some u ∧ u.status = .waiting .sending ∧ u.pc = iss.pc ∧ p.2.Keeps u ∧
        Instr.remoteBarrierArrival p.1 (s.nbarArgs iss o p).2.2 id count ∈ t.due)

/-- The barriers of a crew, CBAR and NBAR: both parts above (R286, R287). -/
def Obligations.CrewBarriers : Prop := CrewBarrier ∧ NamedBarrier

/-- QPUSH appends its zero-extended value to a queue of the own crew with room, and QPOP takes the oldest entry; at a full or empty queue the .nb form says so in its predicate at once and the plain form waits in order (R289). -/
def Obligations.CrewQueues : Prop :=
  ∀ (o : Ops) (s : State) (iss : Issue) (p : Nat × Thread) (c : Crew), s.crews.get? p.2.crew = some c → queueRemote o = false → queueNo o < c.crec.q →
    (c.queues.getD (queueNo o) {}).poppers = [] → (c.queues.getD (queueNo o) {}).pushers = [] →
    let l := (c.queues.getD (queueNo o) {}).entries
    (Alone s iss .qpush o p → (∀ n, o.dst ≠ .v n) →
      (l.length < 16 → ∃ t d, exec (.qpush o) s = .next t ∧ t.mem = s.mem ∧ Told t o iss p 1 ∧ t.crews.get? p.2.crew = some d ∧
        (d.queues.getD (queueNo o) {}).entries = l ++ [(pushValue o (s.vals iss .qpush o p.1 p.2).1, iss.core)]) ∧
      (16 ≤ l.length → o.flag = true → ∃ t, exec (.qpush o) s = .next t ∧ t.mem = s.mem ∧ t.crews = s.crews ∧ Told t o iss p 0) ∧
      (16 ≤ l.length → o.flag = false → ∃ t u d, exec (.qpush o) s = .next t ∧ t.threads.get? p.1 = some u ∧ u.pc = iss.pc ∧ (∃ x, u.status = .waiting x) ∧
        t.crews.get? p.2.crew = some d ∧ (d.queues.getD (queueNo o) {}).pushers = [(p.1, pushValue o (s.vals iss .qpush o p.1 p.2).1)])) ∧
    (Alone s iss .qpop o p → (∀ n, o.dst ≠ .p n) →
      (∀ e r, l = e :: r → ∃ t u d, exec (.qpop o) s = .next t ∧ t.mem.bytes = s.mem.bytes ∧ t.threads.get? p.1 = some u ∧ u.status = .ready ∧
        u.pc = nextPc iss.pc ∧ u.Has o.ty.is64 o.dst e.1 ∧ (∀ n, o.flag = true → o.sc = .p n → u.Has false (.p n) 1) ∧
        t.crews.get? p.2.crew = some d ∧ (d.queues.getD (queueNo o) {}).entries = r) ∧
      (l = [] → o.flag = true → ∃ t u, exec (.qpop o) s = .next t ∧ t.mem = s.mem ∧ t.crews = s.crews ∧ t.threads.get? p.1 = some u ∧ u.pc = nextPc iss.pc ∧
        (∀ n, u.reg n = p.2.reg n) ∧ (∀ n, o.sc = .p n → u.Has false (.p n) 0)) ∧
      (l = [] → o.flag = false → ∃ t u d, exec (.qpop o) s = .next t ∧ t.threads.get? p.1 = some u ∧ u.pc = iss.pc ∧ (∃ x, u.status = .waiting x) ∧
        p.2.Keeps u ∧ t.crews.get? p.2.crew = some d ∧ (d.queues.getD (queueNo o) {}).poppers = [p.1]))

/-- TFETCH gives each executing thread the next coordinate of its lot's dispenser on its die and its predicate true; a discardable crew's coordinates are recorded. A crew whose lot has no dispenser on any die, being of no PERSIST launch, gets its predicate false (R290, R309, R310). -/
def Obligations.TileFetch : Prop :=
  ∀ (o : Ops) (s : State) (iss : Issue) (p : Nat × Thread) (c : Crew), Alone s iss .tfetch o p → (∀ n, o.dst ≠ .p n) → s.crews.get? p.2.crew = some c →
    let d := s.disp? c.launch c.lot (dieOf iss.core)
    (s.dispDies c.launch c.lot = [] → ∃ t u, exec (.tfetch o) s = .next t ∧ t.mem = s.mem ∧ t.crews = s.crews ∧ t.threads.get? p.1 = some u ∧ u.pc = nextPc iss.pc ∧
      (∀ n, u.reg n = p.2.reg n) ∧ ∀ n, o.sc = .p n → u.Has false (.p n) 0) ∧
    (∀ x y r, d = some x → x.asking = false → x.coords = y :: r → ∃ t u, exec (.tfetch o) s = .next t ∧ t.mem = s.mem ∧ t.threads.get? p.1 = some u ∧
      u.status = .ready ∧ u.pc = nextPc iss.pc ∧ u.Has true o.dst y ∧ (∀ n, o.sc = .p n → u.Has false (.p n) 1) ∧
      (∀ e, t.disp? c.launch c.lot (dieOf iss.core) = some e → e.coords = r) ∧
      ∃ e, t.crews.get? p.2.crew = some e ∧ e.coords = if c.discard then c.coords ++ [y] else c.coords)

/-! ### Engines and the Square (R158 to R170, R325, R415 to R438, R468 to R476, R490) -/

/-- The engine instructions that take a scoreboard entry, with the kind of their operation. -/
def engineKinds : List (Opc × EngKind) :=
  [(.mmaSolo, .mma false), (.mmaPair, .mma true), (.mzero, .mzero), (.mload, .mload), (.msave, .msave), (.mdrain, .mdrain), (.rfma, .rfma),
   (.rscl, .rscl), (.rred, .rred), (.rexp, .rexp), (.rcvt, .rcvt), (.rngEngine, .rng), (.cpy, .cpy)]

/-- The descriptor checks of an engine instruction and the operation they let issue. -/
def planFor (s : State) (iss : Issue) (c : Opc) (o : Ops) (p : Nat × Thread) : EngPlan :=
  let ea := eaOf o (s.vals iss c o p.1 p.2).1
  let a := accImage (s.sizeOf p.2) ea
  match c with
  | .mmaSolo => s.mmaPlan false o iss p
  | .mmaPair => s.mmaPlan true o iss p
  | .mzero => .go (s.newOp .mzero p)
  | .mload => planOf a.1 { s.newOp .mload p with ea := ea, reads := a.2 }
  | .msave =>
    let w := if o.aux.getLsbD 1 then lowBits 32 (s.vals iss c o p.1 p.2).2.1 else 0
    planOf (a.1 ++ compChecks (s.sizeOf p.2) w (match o.sb with | .k n => n.toNat | _ => 0))
      { s.newOp .msave p with ea := ea, write := a.2.head?, comp := w, setv := 1, pay := 4096 }
  | .mdrain => s.mdrainPlan o p
  | .rfma => s.regionPlan .rfma o p
  | .rscl => s.regionPlan .rscl o p
  | .rred => s.regionPlan .rred o p
  | .rexp => s.regionPlan .rexp o p
  | .rcvt => s.regionPlan .rcvt o p
  | .rngEngine => s.regionPlan .rng o p
  | _ => s.cpyPlan o p

/-- The cores whose ACC an engine instruction needs enabled for its context: both of the pair for MMA.pair, none for the region and copy engines (R325, R422). -/
def accsFor (c : Opc) (core : Nat) : List Nat :=
  match c with
  | .mmaSolo | .mzero | .mload | .msave | .mdrain => [core]
  | .mmaPair => [core / 2 * 2, core / 2 * 2 + 1]
  | _ => []

/-- An engine instruction of an enabled context whose descriptor passes its checks forks one operation for its elected thread, the lowest of the bundle: a scoreboard entry is taken, a place on each ACC it works on, and every executing thread goes on. A failed check takes MATRIX_DESCRIPTOR instead, with WHY and REG, before any effect; an ACC that is not enabled for the context makes the threads wait for firmware (R158, R159, R166, R168, R326, R415, R417). -/
def EngineIssue : Prop :=
  ∀ (c : Opc) (kind : EngKind) (o : Ops) (s : State) (iss : Issue) (p : Nat × Thread) (r : List (Nat × Thread)), (c, kind) ∈ engineKinds →
    s.Runs iss c o → s.executing iss o = p :: r → p.2.held = false →
    let enabled := ∀ k ∈ accsFor c iss.core, s.ctxOf p.2 ∈ (s.core k).men
    (¬enabled → ∃ t, exec (c.mk o) s = .next t ∧ t.mem = s.mem ∧ t.ops = s.ops ∧ (∀ k ∈ accsFor c iss.core, Instr.matrixFirstUse k ∈ t.due) ∧
      ∀ q ∈ p :: r, ∃ u, t.threads.get? q.1 = some u ∧ u.status = .waiting (.firstUse (accsFor c iss.core)) ∧ u.pc = iss.pc ∧ q.2.Keeps u) ∧
    (enabled → (∀ k ∈ accsFor c iss.core, (s.core k).mfault = none) →
      (∀ why reg, planFor s iss c o p = .bad why reg → ∃ t, exec (c.mk o) s = .next t ∧ ∀ q ∈ p :: r, ¬NoHandler q.2 →
        Handles t q iss.pc 0x0F (why % 16 + reg % 64 * 16)) ∧
      (∀ op, planFor s iss c o p = .go op → (op.kind.isMma = true → ∀ k ∈ op.accs, (s.core k).marray = true) → (s.core iss.core).sboard.length < 32 →
        ∃ t, exec (c.mk o) s = .next t ∧ t.mem = s.mem ∧ t.crews = s.crews ∧ t.ops.get? s.fresh = some op ∧ op.kind = kind ∧ op.tid = p.1 ∧
          op.core = iss.core ∧ op.crew = p.2.crew ∧ op.phase = .queued ∧ (t.core iss.core).sboard = (s.core iss.core).sboard ++ [s.fresh] ∧
          Instr.engineOperationStart s.fresh ∈ t.due ∧ (∀ k ∈ op.accs, s.fresh ∈ (t.core k).macc) ∧
          ∀ q ∈ p :: r, ∃ u, t.threads.get? q.1 = some u ∧ q.2.Keeps u ∧ u.status = .ready ∧ u.pc = nextPc iss.pc))

/-- MSTAT gives the status of the core's ACC, known at once: busy, a recorded fault, and its code and rows; with AUX bit 0 the fault's TVAL. RNG in its register form gives the drawn word, or its number in [0, 1) for f32 (R427, R438). -/
def EngineRegisters : Prop :=
  ∀ (o : Ops) (s : State) (iss : Issue),
    (∀ p r, s.Runs iss .mstat o → s.executing iss o = p :: r → s.ctxOf p.2 ∈ (s.core iss.core).men →
      ∃ t x, exec (.mstat o) s = .next t ∧ s.SameOutside t iss.core iss.group ∧ (∀ q ∈ p :: r, ∃ u, t.threads.get? q.1 = some u ∧ u.Has true o.dst x ∧
          q.2.SameBut u true o.dst ∧ q.2.SameRest u ∧ u.pc = nextPc iss.pc) ∧
        (o.aux.getLsbD 0 = true → x = (((s.core iss.core).mfault).map (·.tval)).getD 0) ∧
        (o.aux.getLsbD 0 = false → (x % 2 = 1 ↔ (s.core iss.core).macc ≠ []) ∧ (x / 2 % 2 = 1 ↔ (s.core iss.core).mfault ≠ none) ∧
          ∀ f, (s.core iss.core).mfault = some f → x / 2 ^ 8 % 2 ^ 8 = f.code % 256 ∧ x / 2 ^ 16 % 2 ^ 8 = f.krows % 256)) ∧
    (s.Runs iss .rngRegister o → ∃ t, exec (.rngRegister o) s = .next t ∧ s.SameOutside t iss.core iss.group ∧ ∀ p ∈ s.executing iss o,
      Gave t .rngRegister o iss p (if o.ty = .f32 then rngF32 (s.vals iss .rngRegister o p.1 p.2).1 (s.vals iss .rngRegister o p.1 p.2).2.1
        else rng (s.vals iss .rngRegister o p.1 p.2).1 (s.vals iss .rngRegister o p.1 p.2).2.1))

/-- The engine instructions: those that fork an operation, MSTAT and RNG in its register form, both parts above (R158, R325, R417, R427, R438). -/
def Obligations.EngineInstructions : Prop := EngineIssue ∧ EngineRegisters

/-- With a scoreboard entry free for each executing thread, a Square instruction makes one operation for each, which takes an entry, with its three operands, its AUX field and the Square that IMM32 names; the destination is bound to its result, and the thread waits until the operation is sent (R158, R166, R468, R470, R490). -/
def Obligations.SquareIssue : Prop :=
  ∀ (c : Opc) (o : Ops) (s : State) (iss : Issue), c ∈ [Opc.sqload, .sqlegal, .sqplay, .sqplayList, .squndo, .sqscore, .sqread, .sqsave, .sqcheck, .sqcommit] →
    s.Runs iss c o → NoWaiter s iss o → (∀ p ∈ s.executing iss o, p.2.held = false) →
    (s.core iss.core).sboard.length + (s.executing iss o).length ≤ 32 →
    ∃ t, exec (c.mk o) s = .next t ∧ ∀ p ∈ s.executing iss o, ∃ u id op, id ∈ (t.core iss.core).sboard ∧ t.threads.get? p.1 = some u ∧ u.status = .waiting .sending ∧ u.pc = iss.pc ∧
      (∀ n, o.dst = .v n → (u.reg n.toNat).late? = some (.sym op.late 0)) ∧ (∀ m, (∀ n, o.dst = .v n → m ≠ n.toNat ∧ m ≠ n.toNat + 1) → u.reg m = p.2.reg m) ∧
      t.ops.get? id = some op ∧ op.kind = .square c ∧ op.tid = p.1 ∧ op.phase = .queued ∧ op.square = sqKey (s.ctxOf p.2) (o.imm.toNat % 16) ∧
      op.desc = [(s.vals iss c o p.1 p.2).1, (s.vals iss c o p.1 p.2).2.1, (s.vals iss c o p.1 p.2).2.2, o.aux.toNat] ∧ Instr.engineOperationStart id ∈ t.due

/-- ENGINE_OPERATION_START holds an operation that conflicts with an earlier one of its crew or is not first on its ACC. MZERO clears the ACC and its recorded fault and is then due to end; a Square operation whose writes are acknowledged arrives at its Square and lets its thread go on (R158, R166, R168, R426, R470). ENGINE_OPERATION_END frees the entry and writes the completion word; ENGINE_OPERATION_RESUME lets a suspended operation go on where it stopped (R162 to R164, R419, R425). -/
def Obligations.EngineEvents : Prop :=
  ∀ (id : Nat) (s : State) (op : EngOp), s.ops.get? id = some op →
    (op.kind = .mzero → op.phase = .queued → s.mustHold id op = true →
      exec (.engineOperationStart id) s = .next { s with due := s.due ++ [.engineOperationStart id] }) ∧
    (op.kind = .mzero → op.phase = .queued → s.mustHold id op = false → ∃ t, exec (.engineOperationStart id) s = .next t ∧ t.mem = s.mem ∧
      (∀ n, (t.core op.core).accAt n = 0) ∧ (t.core op.core).mfault = none ∧ Instr.engineOperationEnd id ∈ t.due) ∧
    (∀ c v, op.kind = .square c → op.phase = .through → s.dieQuiet (dieOf op.core) = true → s.bundleBefore id op = false →
      s.threads.get? op.tid = some v → v.status = .waiting .sending → ∃ t u, exec (.engineOperationStart id) s = .next t ∧ t.mem = s.mem ∧
        t.threads.get? op.tid = some u ∧ u.status = .ready ∧ u.pc = nextPc v.pc ∧ v.Keeps u ∧ id ∈ t.sq.arrived.getD op.square []) ∧
    (∀ c, op.kind ∈ engineKinds.map Prod.snd → op.phase = .through → s.dieQuiet (dieOf op.core) = true → op.fault = none → s.crews.get? op.crew = some c →
      ∃ t, exec (.engineOperationEnd id) s = .next t ∧ t.ops.get? id = none ∧ id ∉ (t.core op.core).sboard ∧ t.mem.bytes = s.mem.bytes ∧
        (compAction op.comp = 0 → t.mem = s.mem) ∧
        (compAction op.comp = 1 → CellHolds s t op.core (c.spadOff (compOff op.comp)) (compWidth op.comp) op.setv)) ∧
    (op.phase = .suspended → ∃ t, exec (.engineOperationResume id) s = .next t ∧ t.mem = s.mem ∧ t.threads = s.threads ∧
      t.ops.get? id = some { op with phase := .running, fault := none } ∧ Instr.engineOperationStart id ∈ t.due)

/-! ### The home, the dies and the host (R72, R90 to R114) -/

/-- A line with nothing in progress at its home and nothing queued behind it, no delta of it in the home die's L1s, and no monitor registered anywhere (R92, R97). -/
structure Calm (s : State) (line : Nat) : Prop where
  txn   : (s.home line).txn = none
  queue : (s.home line).queue = []
  mask  : s.mem.gmask.getD (sliceKey line) [] = []
  mons  : s.mem.mons = []

/-- A die's request for a line, as an event (R95). -/
def askOf (k : ReqKind) (d line : Nat) (served : Bool) : Instr :=
  match k with
  | .rds => .rds d line served
  | .rdm => .rdm d line served
  | .upg => .upg d line served
  | .rdg g => .rdg d line g served
  | .rdsU => .rdsU d line

/-- How a line stands in the directory when nothing is in progress (R92, R93). -/
def Stands (s : State) (line : Nat) (st : DirState) (dies : List Nat) (k : Option RedKind) : Prop :=
  (s.home line).st = some st ∧ (s.home line).mask = dies ∧ (s.home line).kind = k ∧ (s.home line).txn = none

/-- A request of another die at the home. State I with an entry free: RdS gives S and Data, RdM and Upg give E and Data(M), RdG gives G and Grant. State S: RdS joins the holders; the others take the line at once when no other die holds it, and invalidate the others first. State E: the owner is invalidated and the request is served after it. State G: RdG of the same kind joins, and anything else recalls every holder. A busy line queues the request, or sends Retry when its slice has sixteen (R96 to R98, R106). -/
def Obligations.HomeRequests : Prop :=
  ∀ (k : ReqKind) (d line : Nat) (s : State), d < 4 → k ≠ .rdsU →
    let h := s.home line
    let others := h.mask.filter (· != d)
    let Answers (P : State → Prop) : Prop := ∃ t, exec (askOf k d line false) s = .next t ∧ t.mem.bytes = s.mem.bytes ∧ t.threads = s.threads ∧ P t
    (Calm s line →
      (h.st = none → h.kind = none → (s.dirEntries line).length < 16 →
        (k = .rds → Answers fun t => Stands t line .s [d] none ∧ Instr.data d line (s.lineBytes line) false ∈ t.due) ∧
        (k = .rdm ∨ k = .upg → Answers fun t => Stands t line .e [d] none ∧ Instr.data d line (s.lineBytes line) true ∈ t.due) ∧
        (∀ g, k = .rdg g → Answers fun t => Stands t line .g [d] (some g) ∧ Instr.grant d line false ∈ t.due)) ∧
      (h.st = some .s → k = .rds → Answers fun t => Stands t line .s (insertDie d h.mask) h.kind ∧ Instr.data d line (s.lineBytes line) false ∈ t.due) ∧
      (h.st = some .s → others = [] →
        (k = .rdm ∨ (k = .upg ∧ d ∉ h.mask) → Answers fun t => Stands t line .e [d] none ∧ Instr.data d line (s.lineBytes line) true ∈ t.due) ∧
        (k = .upg → d ∈ h.mask → Answers fun t => Stands t line .e [d] none ∧ Instr.grant d line true ∈ t.due) ∧
        (∀ g, k = .rdg g → Answers fun t => Stands t line .g [d] (some g) ∧ Instr.grant d line false ∈ t.due)) ∧
      (h.st = some .s → others ≠ [] → k ≠ .rds → Answers fun t => (∃ x, (t.home line).txn = some x ∧ x.wait = others) ∧
        ∀ e ∈ others, e ≠ 4 → Instr.inv e line false ∈ t.due) ∧
      (h.st = some .e → h.mask ≠ [] → Answers fun t => (∃ x, (t.home line).txn = some x ∧ x.wait = h.mask ∧ x.after = .again (askOf k d line false)) ∧
        ∀ e ∈ h.mask, e ≠ 4 → Instr.inv e line true ∈ t.due) ∧
      (h.st = some .g → ∀ g, k = .rdg g → h.kind = some g → Answers fun t => Stands t line .g (insertDie d h.mask) (some g) ∧ Instr.grant d line false ∈ t.due) ∧
      (h.st = some .g → h.mask ≠ [] → (∀ g, k = .rdg g → h.kind ≠ some g) → Answers fun t =>
        (∃ x, (t.home line).txn = some x ∧ x.wait = h.mask ∧ x.after = .again (askOf k d line false)) ∧ ∀ e ∈ h.mask, Instr.gatherRecall e line ∈ t.due)) ∧
    (h.txn.isSome = true → s.sliceQueued line < 16 → Answers fun t => t.home line = { h with queue := h.queue ++ [askOf k d line false] } ∧ t.due = s.due) ∧
    (h.txn.isSome = true → 16 ≤ s.sliceQueued line → Answers fun t => t.mem = s.mem ∧ t.due = s.due ++ [.retry d line k])

/-- What else reaches a home with no monitor registered: a home-die access of a line in state I is performed and acknowledged to its core, and the loads that wait for its fill have their values; an untracked read gives Data and records nothing, and allocates the line in the home cache with a read of HBM outstanding, which ends when the read returns; WbM and untracked writes merge their bytes and acknowledge; a delta is applied; an answer to an invalidation merges its bytes, and the last one sends the line on or leaves it in state I (R72, R84, R96, R98, R101, R106 to R108). -/
def Obligations.HomeAnswers : Prop :=
  ∀ (line : Nat) (s : State), s.mem.mons = [] →
    let h := s.home line
    let merged (b : LineBytes) := s.mem.bytes.writeAt (line * 128) b
    (Idle s line → (∀ c b, ∃ t, exec (.homeDieAccess line (.write c b) false) s = .next t ∧ t.mem.bytes = merged b ∧
        (t.core c).inflight = (s.core c).inflight.erase line) ∧
      (∀ c k x, ∃ t, exec (.homeDieAccess line (.flush c k x) false) s = .next t ∧ t.mem.bytes = merged (k.apply (s.lineBytes line) x) ∧
        (t.core c).inflight = (s.core c).inflight.erase line) ∧
      (∀ f d, f.load = some d → f ∈ (s.core f.core).misses.getD f.line [f] → s.mem.poison = [] → ∃ t, exec (.homeDieAccess line (.fill f) false) s = .next t ∧
        Instr.pendingValueArrival d.tids d.late (loadValue d (s.lineBytes line)) none ∈ t.due)) ∧
    (∃ t, exec (.hbmReadReturn line) s = .next t ∧ t.mem.bytes = s.mem.bytes ∧ t.mem.homes = s.mem.homes ∧
      t.mem.hcache.get? line = (s.mem.hcache.get? line).map fun x => { x with reading := false }) ∧
    (∀ d, ∃ t, exec (.rdsU d line) s = .next t ∧ t.mem.bytes = s.mem.bytes ∧ t.mem.homes = s.mem.homes ∧ Instr.data d line (s.lineBytes line) false ∈ t.due ∧
      (isHbm line = true → s.mem.hcache.get? line = none → (s.hcPeers line).length < 16 →
        ∃ x, t.mem.hcache.get? line = some x ∧ x.reading = true ∧ Instr.hbmReadReturn line ∈ t.due)) ∧
    (∀ d b, ∃ t, exec (.wbmU d line b) s = .next t ∧ t.mem.bytes = merged b ∧ t.mem.homes = s.mem.homes ∧ Instr.wbAck d line ∈ t.due) ∧
    (∀ d k x, ∃ t, exec (.gatherDataU d line k x) s = .next t ∧ t.mem.bytes = merged (k.apply (s.lineBytes line) x) ∧ t.mem.homes = s.mem.homes) ∧
    (∀ d b, ∃ t, exec (.wbm d line b) s = .next t ∧ t.mem.bytes = merged b ∧ Instr.wbAck d line ∈ t.due ∧
      (h.txn = none → h.queue = [] → h.st = some .e → h.mask = [d] → (t.home line).st = none)) ∧
    (∀ d b x e, h.txn = some x → d ∈ x.wait → (e = .invAck d line b ∨ (d = 4 ∧ e = .birsp line b)) → ∃ t, exec e s = .next t ∧
      (x.wait.erase d ≠ [] → t.mem.bytes = merged (b.getD []) ∧ (t.home line).txn = some { x with wait := x.wait.erase d }) ∧
      (x.wait = [d] → x.gath = [] → x.acks = [] → h.queue = [] → t.mem.bytes = merged (b.getD []) ∧
        (∀ n, x.after = .sendM n → Stands t line .e [n] none ∧ (n ≠ 4 → Instr.data n line (t.lineBytes line) true ∈ t.due)) ∧
        (∀ n, x.after = .grantM n → Stands t line .e [n] none ∧ Instr.grant n line true ∈ t.due) ∧
        (x.after = .idle → (t.home line).st = none ∧ (t.home line).txn = none))) ∧
    (∀ d k x, h.txn = none → h.queue = [] → h.st = some .g → ∃ t, exec (.gatherData d line (some (k, x)) false) s = .next t ∧
      t.mem.bytes = merged (k.apply (s.lineBytes line) x) ∧ (h.mask.erase d ≠ [] → Stands t line .g (h.mask.erase d) h.kind) ∧
      (h.mask.erase d = [] → (t.home line).st = none)) ∧
    (∀ d k x y, h.txn = some y → y.wait = [d] → y.gath = [] → y.after = .idle → y.acks = [] → h.queue = [] →
      ∃ t, exec (.gatherData d line (some (k, x)) true) s = .next t ∧ t.mem.bytes = merged (k.apply (s.lineBytes line) x) ∧ (t.home line).st = none)

/-- What reaches the RDC of a die. Data fills the bytes that are not dirty and gives S or M, Grant gives M or a blank gather line, WbAck ends the wait; Inv drops the copy and answers, with the dirty bytes of an M line; a recall returns the delta; Retry starts the back-off, at whose end the request is sent again, an upgrade whose copy is gone as RdM (R97, R100, R101, R107). -/
def Obligations.DieMessages : Prop :=
  ∀ (d line : Nat) (s : State),
    let l := s.rdcLine d line
    (∀ k n b m, l.wait = some (.data k n) → l.works = [] → k ≠ .rdsU → ∃ t, exec (.data d line b m) s = .next t ∧ t.mem.bytes = s.mem.bytes ∧
      t.rdcLine d line = { l with bytes := fillBytes l.bytes false b, st := some (if m = true ∨ dirtyOf (fillBytes l.bytes false b) ≠ [] then .m else .s), wait := none, bad := s.badUnits line }) ∧
    (∀ k n, l.wait = some (.data k n) → l.works = [] → (∀ g, k ≠ .rdg g) → ∃ t, exec (.grant d line true) s = .next t ∧ t.mem.bytes = s.mem.bytes ∧
      t.rdcLine d line = { l with st := some .m, wait := none }) ∧
    (∀ g n, l.wait = some (.data (.rdg g) n) → l.works = [] → ∃ t, exec (.grant d line false) s = .next t ∧ t.mem.bytes = s.mem.bytes ∧
      t.rdcLine d line = { l with st := some .g, kind := some g, self := false, bytes := deltaBytes g.blank, wait := none, bad := [] }) ∧
    (l.wait = some .wbAck → l.works = [] → ∃ t, exec (.wbAck d line) s = .next t ∧ t.mem.bytes = s.mem.bytes ∧
      (t.rdcLine d line).wait = none ∧ (t.rdcLine d line).st = l.st) ∧
    (∀ o, l.bad = [] → ∃ t, exec (.inv d line o) s = .next t ∧ t.mem.bytes = s.mem.bytes ∧
      (l.st = some .m → (t.rdcLine d line).st = none ∧ t.due = s.due ++ [.invAck d line (some (dirtyOf l.bytes))]) ∧
      (l.st = some .s → (t.rdcLine d line).st = none) ∧ (l.st ≠ some .m → t.due = s.due ++ [.invAck d line none])) ∧
    (∀ k, l.st = some .g → l.kind = some k → l.bad = [] → s.gatherers d line k = [] → ∃ t, exec (.gatherRecall d line) s = .next t ∧ t.mem.bytes = s.mem.bytes ∧
      (t.rdcLine d line).st = none ∧ t.due = s.due ++ [.gatherData d line (some (k, wholeLine l.bytes)) true]) ∧
    (∀ k j n, l.wait = some (.data j n) → ∃ t, exec (.retry d line k) s = .next t ∧ t.mem.bytes = s.mem.bytes ∧
      t.rdcLine d line = { l with wait := some (.backoff k (n + 1)) } ∧ t.due = s.due ++ [.retryBackoffExpiry d line]) ∧
    (∀ k n, l.wait = some (.backoff k n) → isHbm line = true → ∃ t, exec (.retryBackoffExpiry d line) s = .next t ∧ t.mem.bytes = s.mem.bytes ∧
      t.due = s.due ++ [askOf (if k = .upg ∧ l.st ≠ some .s then .rdm else k) d line false] ∧ (t.rdcLine d line).st = l.st)

/-- The host. Its answer fills a line of the host section of die 0, its snoop takes the line from there with the dirty bytes; its reads of device memory make it a sharer or the owner, or nothing; its writes are performed at the home, or at host memory after its snoop; its acknowledgement ends a write of a core. A checkpoint holds its reads and writes at the slice (R112 to R114, R403, R509). -/
def Obligations.HostMessages : Prop :=
  ∀ (line : Nat) (s : State), s.mem.mons = [] →
    let l := s.rdcLine 0 line
    (∀ k n b m, l.wait = some (.data k n) → l.works = [] → k ≠ .rdsU → b.length = 128 → ∃ t, exec (.hostCacheData line b m) s = .next t ∧
      t.mem.bytes = s.mem.bytes.writeAt (line * 128) (withOff 0 b) ∧ (t.rdcLine 0 line).wait = none ∧
      (t.rdcLine 0 line).bytes = fillBytes l.bytes false (t.lineBytes line) ∧ (m = true → (t.rdcLine 0 line).st = some .m)) ∧
    (∃ t, exec (.hostSnoop line) s = .next t ∧ (t.rdcLine 0 line).st = none ∧
      t.mem.bytes = if l.st = some .m then s.mem.bytes.writeAt (line * 128) (dirtyOf l.bytes) else s.mem.bytes) ∧
    (∀ n, s.fw.drain = true → exec (.hostMemrd line n) s = .next { s with due := s.due ++ [.hostMemrd line n] }) ∧
    (∀ b, isHost line = false → s.fw.drain = true → exec (.hostMemwr line b) s = .next { s with due := s.due ++ [.hostMemwr line b] }) ∧
    (s.fw.drain = false → Idle s line → (∃ t, exec (.hostMemrd line 0) s = .next t ∧ t.mem.bytes = s.mem.bytes ∧ t.mem.homes = s.mem.homes) ∧
      (∀ n, n ≠ 0 → (s.dirEntries line).length < 16 → ∃ t, exec (.hostMemrd line n) s = .next t ∧ t.mem.bytes = s.mem.bytes ∧
        Stands t line (if n = 2 then .e else .s) [4] none) ∧
      (isHost line = false → ∀ b, ∃ t, exec (.hostMemwr line b) s = .next t ∧ t.mem.bytes = s.mem.bytes.writeAt (line * 128) b)) ∧
    (isHost line = true → ∀ b, ∃ t, exec (.hostMemwr line b) s = .next t ∧ (t.rdcLine 0 line).st = none ∧
      t.mem.bytes = (if l.st = some .m then s.mem.bytes.writeAt (line * 128) (dirtyOf l.bytes) else s.mem.bytes).writeAt (line * 128) b) ∧
    (∀ c, ∃ t, exec (.hostWriteAck line c) s = .next t ∧ t.mem = s.mem ∧ (t.core c).inflight = (s.core c).inflight.erase line)

/-! ### Yareot Link (R153, R507, R508) -/

/-- A request to a peer travels by a port that has a route, and waits while none has, ahead of the later requests of its order; a write is performed once and acknowledged, a read gives its die the line. A peer's write, atomic and compare-and-swap are performed at the home of an idle line. Sixteen replays in a row take a port down, and a peer that no port reaches has its reads answered with lines that are uncorrectable (R153, R507, R508). -/
def Obligations.Links : Prop :=
  ∀ (s : State), s.mem.mons = [] →
    (∀ r dev, peerOfReq r = some dev → s.portTo dev = none → exec (.peerLinkRequest r) s =
      .next { s with due := insertBefore (fun e => match e with | .peerLinkRequest q => linkOrder q == linkOrder r | _ => false) (.peerLinkRequest r) s.due }) ∧
    (∀ d line b p, s.portTo (peerOf line) = some p → ∃ t, exec (.peerLinkRequest (.write d line b)) s = .next t ∧
      t.mem.bytes = s.mem.bytes.writeAt (line * 128) b ∧ Instr.wbAck d line ∈ t.due) ∧
    (∀ d line p, s.portTo (peerOf line) = some p → ∃ t, exec (.peerLinkRequest (.fetch d line)) s = .next t ∧ t.mem = s.mem ∧
      Instr.data d line (s.lineBytes line) false ∈ t.due) ∧
    (∀ dev line b, Idle s line → ∃ t, exec (.peerLinkRequest (.inWrite dev line b)) s = .next t ∧ t.mem.bytes = s.mem.bytes.writeAt (line * 128) b) ∧
    (∀ dev ga op ty x, Idle s (lineNo ga) → ∃ t, exec (.peerLinkRequest (.inAtom dev ga op ty x)) s = .next t ∧
      MemHolds s t ga (ty.bits / 8) (combine ty op (memNum s ga (ty.bits / 8)) x)) ∧
    (∀ dev ga ty y x, Idle s (lineNo ga) → ∃ t, exec (.peerLinkRequest (.inCas dev ga ty y x)) s = .next t ∧
      MemHolds s t ga (ty.bits / 8) (if memNum s ga (ty.bits / 8) = lowBits (8 * (ty.bits / 8)) y then x else memNum s ga (ty.bits / 8))) ∧
    (∀ port, port < 18 → port ∉ s.dev.down → ∃ t, exec (.flitReplay port) s = .next t ∧ t.mem = s.mem ∧
      t.dev.replays.get? port = some (s.dev.replays.getD port 0 + 1) ∧ (15 ≤ s.dev.replays.getD port 0 → Instr.portDown port ∈ t.due)) ∧
    (∀ port, port < 18 → ∃ t, exec (.portDown port) s = .next t ∧ t.mem = s.mem ∧ port ∈ t.dev.down ∧ ∀ dev, t.portTo dev ≠ some port) ∧
    (∀ dev p, s.portTo dev = some p → exec (.peerUnreachableTimeout dev) s = .next s) ∧
    (∀ dev d line, s.portTo dev = none → s.due.filter (toPeer dev) = [.peerLinkRequest (.fetch d line)] →
      ∃ t, exec (.peerUnreachableTimeout dev) s = .next t ∧ t.mem.bytes = s.mem.bytes ∧ (∀ i, i < 4 → line * 4 + i ∈ t.mem.poison) ∧
        t.due = s.due.filter (fun e => !toPeer dev e) ++ [.data d line (s.lineBytes line) false])

/-! ### A core's own events (R135, R145, R224 to R230, R44) -/

/-- A bundle of a group put in hand: every ready thread of the group at a PC (R220). -/
def Chosen (s t : State) (core g : Nat) (pc : DWord) : Prop :=
  t.mem.bytes = s.mem.bytes ∧ t.mem.scratch = s.mem.scratch ∧ ∃ iss, t.cur = some iss ∧ iss.core = core ∧ iss.group = g ∧ iss.pc = pc ∧ iss.second = false ∧
    iss.slots = ((s.ready core g).filter fun p => p.2.pc == pc).map Prod.fst

/-- A line at a PC that the core's fetch path holds, that passes its checks and whose slot does not start a pair. -/
def PlainLine (s : State) (core asid pc : Nat) : Prop :=
  ∃ b, s.fetched core asid pc = some (.line b) ∧ lineFault b (BitVec.ofNat 64 pc) = none ∧ linePair (lineWord b) (pc % 8) = false

/-- The block priority of the line at a PC (R224). -/
def blockPriority (s : State) (core asid pc : Nat) : Nat := match s.fetched core asid pc with | some (.line b) => linePrio (lineWord b) | _ => 255

/-- ISSUE_CLOCK. A gated core does nothing; a clock with no group to issue only counts; the chosen group's continuing entry goes on, and otherwise, while no entry has been passed over 256 times, its entry of the highest block priority, the lowest PC among equals, is put in hand. FETCH_LINE_RETURN brings the bytes of the line, or its fault. PAGE_WALK marks the leaf and fills the buffers, or parks the thread. REGROUP without a pair that may merge, and SCRUBBER_VISIT, change no thread; the visit clears the clean bytes of a stale line (R44, R48, R135, R145, R224 to R228). -/
def Obligations.CoreEvents : Prop :=
  ∀ (core : Nat) (s : State),
    let c := s.core core
    (c.gated = true → exec (.issueClock core) s = .next s) ∧
    (c.gated = false → s.chooseGroup core = none → ∃ t, exec (.issueClock core) s = .next t ∧ t.threads = s.threads ∧ t.mem = s.mem ∧ t.cur = s.cur ∧
      (t.core core).clk = if c.tried = [] then (c.clk + 1) % 2 ^ 64 else c.clk) ∧
    (∀ g grp, c.gated = false → g < 64 → s.chooseGroup core = some (gkey core g, grp) → s.groups.get? (gkey core g) = some grp → grp.half = none →
      let asid := s.groupAsid (gkey core g)
      let pcs := s.readyPcs core g
      (∀ pc : DWord, grp.cont = some pc → pc.toNat ∈ pcs → PlainLine s core asid pc.toNat → ∃ t, exec (.issueClock core) s = .next t ∧ Chosen s t core g pc) ∧
      (grp.cont = none → (∀ q ∈ pcs, PlainLine s core asid q ∧ grp.passed.getD q 0 < 256) → ∃ t pc, exec (.issueClock core) s = .next t ∧
        Chosen s t core g (BitVec.ofNat 64 pc) ∧ pc ∈ pcs ∧ ∀ q ∈ pcs, blockPriority s core asid q < blockPriority s core asid pc ∨
          (blockPriority s core asid q = blockPriority s core asid pc ∧ pc ≤ q))) ∧
    (∀ asid vline ga mode e, s.xlate core asid (vline * 64) .fetch = .hit ga mode e → s.quietLine (lineNo ga) = true → lineNo ga ∉ c.inflight →
      Idle s (lineNo ga) → isHbm (lineNo ga) = true → homeDie (lineNo ga) = dieOf core → (∀ k x, (k, x) ∈ c.l1.cells → x.line ≠ lineNo ga) → s.mem.poison = [] →
      ∃ t, exec (.fetchLineReturn core asid vline) s = .next t ∧ t.mem.bytes = s.mem.bytes ∧
        t.fetched core asid (vline * 64) = some (.line (((s.lineBytes (lineNo ga)).drop (ga % 128)).take 64))) ∧
    (∀ asid vline f, s.xlate core asid (vline * 64) .fetch = .fault f → ∃ t, exec (.fetchLineReturn core asid vline) s = .next t ∧ t.mem = s.mem ∧
      t.fetched core asid (vline * 64) = some (.fault f.code f.tval)) ∧
    (∀ asid va pc need tids level addr e, s.walkBusy asid va = false → s.xlate core asid va (Acc.ofCode need) = .miss → s.lookupDeep (dieOf core) asid va = none →
      s.walk asid va = .leaf level addr e →
      s.judge level e va (Acc.ofCode need) = none → s.mem.mons = [] →
      let e' := marked e (Acc.ofCode need)
      ∃ t l, exec (.pageWalk core asid pc need [(va, tids)]) s = .next t ∧ t.threads = s.threads ∧
        t.mem.tlb.get? (leafKey (clusterOf core) asid level va) = some l ∧ l.level = level ∧ l.entry = BitVec.ofNat 64 e' ∧ l.addr = addr ∧
        t.mem.bytes = if e' = e then s.mem.bytes else s.mem.bytes.writeAt addr (withOff 0 (bytesOf 8 e'))) ∧
    (∀ asid va pc need k v level r, s.walkBusy asid va = false → s.xlate core asid va (Acc.ofCode need) = .miss → s.lookupDeep (dieOf core) asid va = none →
      s.walk asid va = .fault level r → need ≠ 5 → need ≠ 6 → s.threads.get? k = some v → v.status = .ready → v.pc = pc →
      ∃ t u x, exec (.pageWalk core asid pc need [(va, [k])]) s = .next t ∧ t.mem.bytes = s.mem.bytes ∧
        t.threads.get? k = some u ∧ u.status = .parked x ∧ x.code = 0x07 ∧ x.tval = transTval va level r ∧ x.done = false ∧ u.pc = v.pc ∧ v.Keeps u ∧
        ∃ ev ∈ t.fw.events, ev.tid = some k) ∧
    (firstPair (s.mergeable core (c.clk / 64)) (s.groups.cells.filter fun p => p.1 / 64 == core && decide (p.1 % 64 < 32)) = none →
      exec (.regroup core) s = .next s) ∧
    (∀ a b, s.groups.rising = true → (s.groups.cells.filter fun p => p.1 / 64 == core && decide (p.1 % 64 < 32)) = [a, b] →
      s.mergeable core (c.clk / 64) a b = true → ∃ t, exec (.regroup core) s = .next t ∧ t.mem = s.mem ∧ t.groups.get? b.1 = none ∧
        ∀ k v, s.threads.get? k = some v → coreOf k = core → v.group = b.1 % 64 → ∃ u, t.threads.get? k = some u ∧ u.group = a.1 % 64 ∧
          v.Keeps u ∧ u.pc = v.pc ∧ u.lane < 32 ∧ ∀ j w, s.threads.get? j = some w → coreOf j = core → w.group = a.1 % 64 → u.lane ≠ w.lane) ∧
    (∀ k l, c.l1.cells.find? (fun p => decide (c.scrub ≤ p.1)) = some (k, l) → ∃ t, exec (.scrubberVisit core) s = .next t ∧ t.mem = s.mem ∧
      t.threads = s.threads ∧ (t.core core).scrub = k + 1 ∧ (∀ n, n ≠ k → (t.core core).l1.get? n = c.l1.get? n) ∧
      (l.stale c.gen = false → (t.core core).l1 = c.l1) ∧ (l.stale c.gen = true → (t.core core).l1.get? k = l.dropClean))

/-! ### Crews (R60 to R62, R147, R148, R218, R270 to R273, R277, R278, R283, R284, R311) -/

/-- A thread as the start of a crew sets it (R270): at the entry, Ready, v0 and v1 the address of its argument block, every other register 0. -/
def Started (t : State) (key k : Nat) (entry : DWord) (tix lane : Nat) : Prop :=
  ∃ v, t.threads.get? key = some v ∧ v.crew = k ∧ v.pc = entry ∧ v.status = .ready ∧ v.tix = tix ∧ v.lane = lane ∧
    v.Has true (.v 0) (tlsOf key + 0x440) ∧ (∀ n, 2 ≤ n → v.reg n = .known 0) ∧ (∀ n, n < 7 → v.pred n = false) ∧ v.depth = 0 ∧ v.latches = []

/-- The start of a crew. While no shelved group can return, DISPATCH_CREW_START takes the only crew of a queue, which may start now, out of the queue and puts its threads into the lowest free slots, 32 to a group, and its granules into its map; CREW_LAUNCH_DRAIN zeroes the granules and no other byte; CREW_FIRST_ISSUE_GRANT waits for the core's writes, then writes the argument records, and the crew runs, discardable when its entry is REGION.B (R60, R218, R270, R311, R319). -/
def Obligations.CrewsStart : Prop :=
  ∀ (k : Nat) (c : Crew) (s : State), s.crews.get? k = some c →
    let core := c.core
    let x := s.core core
    (x.queue = [k] → x.slots = 0 → x.skipped = false → x.skip < x.ageLimit → c.phase = .queued → c.edge = 0 → c.gathers = false → c.cont = none → c.gen = 0 →
      s.fitsNow core c = true → s.returning core = [] →
      let slots := s.freeThreads core c.cn
      let groups := s.freeGroups core ((c.cn + 31) / 32)
      ∃ t d, exec (.dispatchCrewStart core) s = .next t ∧ t.mem.bytes = s.mem.bytes ∧ (t.core core).queue = [] ∧ Instr.crewLaunchDrain k ∈ t.due ∧
        t.crews.get? k = some d ∧ d.phase = .draining ∧ d.live = c.cn ∧ d.granules = s.freeGranules core c.crec.granules ∧ d.entry = c.entry ∧ d.args = c.args ∧
        (∀ i slot, slots[i]? = some slot → Started t (core * 1024 + slot) k c.entry i (i % 32)) ∧
        (∀ i g, groups[i]? = some g → 32 * i < c.cn → ∃ y, t.groups.get? (gkey core g) = some y ∧ y.gix = i ∧ y.crew = k) ∧
        (∀ n v, s.threads.get? n = some v → (∀ slot ∈ slots, n ≠ core * 1024 + slot) → t.threads.get? n = some v)) ∧
    (c.phase = .draining → (∀ n l, (n, l) ∈ x.l1.cells → l.way ∉ c.granules) →
      ∃ t, exec (.crewLaunchDrain k) s = .next t ∧ t.mem.bytes = s.mem.bytes ∧ t.threads = s.threads ∧ t.crews.get? k = some { c with phase := .zeroed } ∧
        Instr.crewFirstIssueGrant k ∈ t.due ∧ (∀ a, a / 2 ^ 19 = core → a % 2 ^ 19 / 8192 ∈ c.granules → t.mem.scratch.read a = 0) ∧
        (∀ a, (a / 2 ^ 19 ≠ core ∨ a % 2 ^ 19 / 8192 ∉ c.granules) → t.mem.scratch.read a = s.mem.scratch.read a)) ∧
    (c.phase = .zeroed → x.inflight ≠ [] → exec (.crewFirstIssueGrant k) s = .next { s with due := s.due ++ [.crewFirstIssueGrant k] }) ∧
    (∀ b tid v ga mode e, c.phase = .zeroed → x.inflight = [] → c.spawner = false →
      let asid := ((s.ctx? c.ctx).map (·.asid)).getD 0
      s.fetched core asid c.entry.toNat = some (.line b) → s.threadsOf k = [(tid, v)] → s.xlate core asid (tlsOf tid + 0x440) .store = .hit ga mode e →
      s.savedIn core c.ctx [slotOf tid] = [] → s.quietLine (lineNo ga) = true → Idle s (lineNo ga) → s.mem.mons = [] → isHbm (lineNo ga) = true →
      homeDie (lineNo ga) = dieOf core → (∀ n l, (n, l) ∈ x.l1.cells → l.line ≠ lineNo ga) →
      ∃ t d, exec (.crewFirstIssueGrant k) s = .next t ∧ t.threads = s.threads ∧ t.crews.get? k = some d ∧ d.phase = .running ∧ d.discard = (regionAtEntry b && !c.remote) ∧
        d.codes = 0 ∧ d.retired = 0 ∧ d.coords = [] ∧
        t.mem.bytes = s.mem.bytes.writeAt (lineNo ga * 128) (withOff (ga % 128) ((c.args[v.tix]?).getD ((c.args.head?).getD []))))

/-- Where a queued crew may go. The age limit makes the head crew the only one that may start; once its context's ageing interval has passed on its core's clock, a queued .aff crew is stealable; a thief with nothing to start takes the crew of its choice, if it can start it now, out of its victim's queue, and the crew is then no longer stealable; a continuation becomes a thread with the saved program counter, registers and return stack, every other register a free value; a shelvable group leaves its slot for a shelf and comes back to a free slot (R271, R272, R283, R284, R311). -/
def Obligations.CrewsMove : Prop :=
  ∀ (core : Nat) (s : State),
    (∃ t, exec (.skipAgeLimitReached core) s = .next t ∧ t.mem = s.mem ∧ t.crews = s.crews ∧ t.threads = s.threads ∧
      t.core core = { s.core core with skipped := (s.core core).skipped || decide ((s.core core).ageLimit ≤ (s.core core).skip) }) ∧
    (∀ k c, s.crews.get? k = some c → c.phase = .queued →
      (s.agePassed c = true → ∃ t, exec (.affinityAgeingExpiry k) s = .next t ∧ t.mem = s.mem ∧ t.threads = s.threads ∧
        t.crews.get? k = some { c with aged := true }) ∧
      (s.agePassed c = false → exec (.affinityAgeingExpiry k) s = .next { s with due := s.due ++ [.affinityAgeingExpiry k] })) ∧
    (∀ k c, s.crews.get? k = some c → c.phase ≠ .queued → exec (.affinityAgeingExpiry k) s = .next s) ∧
    ((∀ k c, (k, c) ∈ s.crews.cells → c.phase = .queued → c.edge = 0) → (s.core core).gated = false → s.nextCrew core = none →
      (s.stealChoice core = none → exec (.crewSteal core) s = .next s) ∧
      (∀ k c, s.stealChoice core = some (k, c) → s.fitsNow core c = false → exec (.crewSteal core) s = .next s) ∧
      (∀ k c, s.stealChoice core = some (k, c) → s.fitsNow core c = true → s.crews.get? k = some c → c.cont = none → c.core ≠ core →
        ∃ t, exec (.crewSteal core) s = .next t ∧ t.mem = s.mem ∧ t.threads = s.threads ∧
          t.crews.get? k = some { c with core := core, nosteal := true, edge := 0 } ∧ k ∈ (t.core core).queue ∧ k ∉ (t.core c.core).queue ∧
          Instr.dispatchCrewStart core ∈ t.due)) ∧
    (∀ k c ga tix slot g, s.crews.get? k = some c → c.cont = some (.mem (ga + 12), tix) → c.phase = .draining → c.core = core → c.home = core →
      s.freeThreads core 1 = [slot] → s.freeGroups core 1 = [g] → s.savedIn core c.ctx [slot] = [] → ga % 128 = 0 → s.quietLine (lineNo ga) = true →
      Idle s (lineNo ga) → (∀ key f, s.crewFrame c = some (key, f) → s.quietLine (lineNo f.ga) true = true) → s.mem.mons = [] →
      let info := memNum s (ga + 72) 8
      ∃ t u d, exec (.continuationResume core k) s = .next t ∧ t.threads.get? (core * 1024 + slot) = some u ∧ u.crew = k ∧ u.tix = tix ∧ u.status = .ready ∧
        u.pc = BitVec.ofNat 64 (memNum s (ga + 64) 8) ∧ u.depth = bitsAt info 10 2 ∧
        u.stack = ((List.range (bitsAt info 10 2)).map fun i => BitVec.ofNat 64 (memNum s (ga + 104 + 8 * i) 8)).reverse ∧
        (∀ i, i < bitsAt info 2 3 → bitsAt info 5 5 + i < 32 → u.reg (bitsAt info 5 5 + i) = .known (BitVec.ofNat 32 (memNum s (ga + 80 + 4 * i) 4))) ∧
        (∀ n, n < 32 → (n < bitsAt info 5 5 ∨ bitsAt info 5 5 + bitsAt info 2 3 ≤ n) → u.reg n = .known (Config.freeWord c.ctx (s.freeOf c.ctx + n))) ∧
        t.crews.get? k = some d ∧ d.phase = .running ∧ d.live = 1 ∧ d.prio = info % 4) ∧
    (s.mustShelve core = false → exec (.shelveGroup core) s = .next s) ∧
    (∀ g x i, s.mustShelve core = true → g < 32 →
      leastBy (fun p => p.2.idle.getD (2 ^ 64)) (s.groups.cells.filter fun p => p.1 / 64 == core && decide (p.1 % 64 < 32)) =
        some (gkey core g, x) →
      s.groups.get? (gkey core g) = some x → (∀ n v, s.threads.get? n = some v → s.loadBound v = false) →
      (List.range 32).find? (fun i => !s.groups.has (gkey core (32 + i))) = some i →
      ∃ t, exec (.shelveGroup core) s = .next t ∧ t.mem = s.mem ∧ t.groups.get? (gkey core g) = none ∧ t.groups.get? (gkey core (32 + i)) = some x ∧
        ∀ n v, s.threads.get? n = some v → coreOf n = core → v.group = g → t.threads.get? n = some { v with group := 32 + i }) ∧
    (∀ shelf x slot, s.groups.get? (gkey core (32 + shelf)) = some x → x.block = false → s.freeGroups core 1 = [slot] →
      ∃ t, exec (.unshelveGroup core shelf) s = .next t ∧ t.mem = s.mem ∧ t.groups.get? (gkey core slot) = some x ∧
        ∀ n v, s.threads.get? n = some v → coreOf n = core → v.group = 32 + shelf → t.threads.get? n = some { v with group := slot })

/-- The end of a crew. GRANULE_RELEASE gives the granules of a crew whose threads and operations have ended back to L1; CREW_END removes a finished crew that has no frame to report to, and of one whose frame lies in memory subtracts the crew's threads from the outstanding count, ORs its fault codes into the frame's FAULT, and joins the frame when the count reaches 0 (R62, R147, R169, R235, R278). -/
def Obligations.CrewsEnd : Prop :=
  ∀ (k : Nat) (c : Crew) (s : State), s.crews.get? k = some c →
    (c.live = 0 → c.released = false → s.opsOpen k = false → ∃ t, exec (.granuleRelease k) s = .next t ∧ t.mem = s.mem ∧ t.threads = s.threads ∧
      t.crews.get? k = some { c with released := true, granules := [] } ∧ (∀ g ∈ c.granules, g ∉ (t.core c.core).lentOut) ∧
      (∀ g, g ∉ c.granules → (g ∈ (t.core c.core).lentOut ↔ g ∈ (s.core c.core).lentOut)) ∧ Instr.dispatchCrewStart c.core ∈ t.due) ∧
    (c.live = 0 → c.released = false → s.opsOpen k = true → exec (.granuleRelease k) s = .next { s with due := s.due ++ [.granuleRelease k] }) ∧
    (c.phase = .finished → c.conts = 0 → s.opsOpen k = false → c.released = true → c.cores.any (fun x => s.due.any (coreWriteOf x (2 ^ 64))) = false →
      s.leftCodes k = 0 →
      (c.cont.isSome = true ∨ s.crewFrame c = none → ∃ t, exec (.crewEnd k) s = .next t ∧ t.crews.get? k = none ∧ Instr.dispatchCrewStart c.core ∈ t.due) ∧
      (∀ key f, c.cont = none → s.crewFrame c = some (key, f) → c.edge = 2 → c.seen = bitsAt (memNum s (f.ga + 8) 4) 16 10 → (∀ x ∈ c.cores, s.dieQuiet (dieOf x) = true) →
        s.quietLine (lineNo f.ga) = true → Idle s (lineNo f.ga) → s.mem.mons = [] → f.ga % 128 = 0 → f.launch = false →
        (∀ n v, (n, v) ∈ s.threads.cells → ∀ q x, v.status ≠ .waiting (.push k q x) ∧ ∀ d w, v.status ≠ .waiting (.pop k q d w)) →
        s.fw.frames.cells = [(key, f)] → f.owner.isSome = true →
        let left := memNum s (f.ga + 12) 4 - c.cn
        ∃ t, exec (.crewEnd k) s = .next t ∧ t.crews.get? k = none ∧ memNum t (f.ga + 12) 4 = left ∧
          memNum t (f.ga + 24) 8 = Nat.lor (memNum s (f.ga + 24) 8) (c.codes % 2 ^ 21 / 2 * 2) ∧
          (left = 0 → memNum t (f.ga + 8) 4 % 4 = 2 ∧ ∃ r, t.fw.frames.get? key = some r ∧ r.joined = true) ∧
          (left ≠ 0 → memNum t (f.ga + 8) 4 % 4 = memNum s (f.ga + 8) 4 % 4) ∧
          ∀ a, (a < f.ga + 8 ∨ f.ga + 32 ≤ a ∨ (f.ga + 16 ≤ a ∧ a < f.ga + 24)) → t.mem.bytes.read a = s.mem.bytes.read a))

/-- What arrives from another core of the cluster or from another die. A remote arrival at a named barrier counts, ends the crew's discardability for good and lets its thread go on, and with a handle that names no crew takes ACCESS; while its core's writes are on their way it waits, ahead of the later ones of its core; a remote push appends its value and a remote pop takes the oldest; a free extended block goes to the oldest request; a dispenser gives up the highest half of its coordinates, and the reply adds them to the thief's (R147, R247, R287 to R289, R310). -/
def Obligations.RemoteArrivals : Prop :=
  ∀ (s : State),
    (∀ tid v h id count, s.threads.get? tid = some v → v.status = .waiting .sending → s.coreQuiet (coreOf tid) (2 ^ 64) = true →
      (s.crewNamed (s.ctxOf v) (clusterOf (coreOf tid)) h = none → ¬NoHandler v →
        ∃ t, exec (.remoteBarrierArrival tid h id count) s = .next t ∧ Handles t (tid, v) v.pc 0x08 (Flt.window h).tval) ∧
      (∀ k d, s.crewNamed (s.ctxOf v) (clusterOf (coreOf tid)) h = some (k, d) → s.crews.get? k = some d → d.remoteSaved = [] → d.phase ≠ .saved →
        id < 16 → 1 ≤ count → count ≤ 1024 →
        let b : NBar := d.nbars.getD id {}
        (b.fixed = 0 ∨ b.fixed = count) → b.arrived + 1 ≠ count →
        ∃ t u e, exec (.remoteBarrierArrival tid h id count) s = .next t ∧ t.mem = s.mem ∧ t.threads.get? tid = some u ∧ u.status = .ready ∧
          u.pc = nextPc v.pc ∧ v.Keeps u ∧ t.crews.get? k = some e ∧ e.nbars.get? id = some { fixed := count, arrived := b.arrived + 1, remote := true } ∧
          e.discard = false ∧ e.remote = true)) ∧
    (∀ tid v h id count, s.threads.get? tid = some v → s.coreQuiet (coreOf tid) (2 ^ 64) = false →
      exec (.remoteBarrierArrival tid h id count) s = .next { s with due := insertBefore (remoteOf (coreOf tid)) (.remoteBarrierArrival tid h id count) s.due }) ∧
    (∀ tid v h q k d, s.threads.get? tid = some v → s.crewNamed (s.ctxOf v) (clusterOf (coreOf tid)) h = some (k, d) → s.crews.get? k = some d → q < d.crec.q → k ≠ v.crew →
      (d.queues.getD q {}).pushers = [] → (d.queues.getD q {}).poppers = [] →
      let l := (d.queues.getD q {}).entries
      (∀ x pred dst wide, s.coreQuiet (coreOf tid) (2 ^ 64) = true → l.length < 16 →
        ∃ t u e, exec (.remoteQueueRequest tid h q (some x) dst wide false pred) s = .next t ∧ t.mem = s.mem ∧ t.threads.get? tid = some u ∧
          u.status = .ready ∧ u.pc = nextPc v.pc ∧ v.Keeps u ∧ t.crews.get? k = some e ∧ (e.queues.getD q {}).entries = l ++ [(x, coreOf tid)]) ∧
      (∀ x r dst wide pred, l = x :: r → s.popOwes k q (coreOf tid) = false → (∀ n, dst ≠ .p n) →
        ∃ t u e, exec (.remoteQueueRequest tid h q none dst wide false pred) s = .next t ∧ t.mem.bytes = s.mem.bytes ∧ t.threads.get? tid = some u ∧
          u.status = .ready ∧ u.pc = nextPc v.pc ∧ u.Has wide dst x.1 ∧ t.crews.get? k = some e ∧ (e.queues.getD q {}).entries = r)) ∧
    (∀ core k v x, (s.core core).xqueue = [k] → s.threads.get? k = some v → coreOf k = core → v.status = .waiting .regx →
      s.groups.get? (gkey core v.group) = some x → x.block = false →
      ∃ t, exec (.regxBlockGrant core) s = .next t ∧ t.mem = s.mem ∧
        (s.blockFree core v.group = true → (t.core core).xqueue = [] ∧ t.groups.get? (gkey core v.group) = some { x with block := true } ∧
          ∃ u, t.threads.get? k = some u ∧ u.status = .ready ∧ u.pc = nextPc v.pc ∧ (∀ n, n < 32 → u.reg n = v.reg n) ∧ ∀ n, 32 ≤ n → u.reg n = .known 0) ∧
        (s.blockFree core v.group = false → t = s)) ∧
    (∀ launch lot thief victim d, s.disp? launch lot victim = some d → ∃ t e, exec (.dispenserStealRequest launch lot thief victim) s = .next t ∧
      t.mem = s.mem ∧ t.disp? launch lot victim = some e ∧ e.coords = d.coords.take (d.coords.length / 2) ∧
      Instr.dispenserStealReply launch lot thief victim (d.coords.drop (d.coords.length / 2)) (d.coords.length / 2) ∈ t.due) ∧
    (∀ launch lot thief victim d l left, s.disp? launch lot thief = some d → d.wait = [] →
      ∃ t e, exec (.dispenserStealReply launch lot thief victim l left) s = .next t ∧ t.mem = s.mem ∧ t.disp? launch lot thief = some e ∧
        e.coords = (d.coords ++ l).mergeSort ∧ e.asking = false ∧ e.reports.get? victim = some left ∧ (l = [] → victim ∈ e.dry))

/-! ### Cores taken away and given back (R48 to R53, R91, R306, R307, R315 to R317, R319 to R327) -/

/-- DISCARD_PREEMPTION stops a discardable crew where it stands; its giving operations whose writes have not been performed are dropped, and once nothing else of it is on its way, it is queued again with its entry, arguments, frame and handle, no thread left, its coordinates returned and its priority its ceiling; a crew that is not discardable is saved instead. SAVE_PREEMPTION stops a crew at its groups' boundaries; once it stands there with nothing on its way, and no register is bound to a load, each thread is kept under its saved name with its registers, and the scratchpad is copied out; a queued crew only leaves its queue. CREW_RESUME puts the threads back and the crew runs (R288, R319, R320, R322, R323, R333). -/
def Obligations.Preemption : Prop :=
  ∀ (k : Nat) (c : Crew) (s : State), s.crews.get? k = some c →
    (c.phase = .running → c.discard = true → ∃ t, exec (.discardPreemption k) s = .next t ∧ t.mem = s.mem ∧ t.threads = s.threads ∧
      t.crews.get? k = some { c with phase := .saving, halt := true } ∧ Instr.discardPreemption k ∈ t.due) ∧
    (c.phase = .running → c.discard = false → ∃ t, exec (.discardPreemption k) s = .next t ∧ t.mem = s.mem ∧ t.threads = s.threads ∧
      t.crews.get? k = some { c with phase := .saving, halt := false } ∧ Instr.savePreemption k ∈ t.due) ∧
    (c.phase = .saving → c.discard = true → (s.dropGiving k).crewQuiet k = true → ∃ t d, exec (.discardPreemption k) s = .next t ∧ t.mem.bytes = s.mem.bytes ∧
      (∀ n v, t.threads.get? n = some v → v.crew ≠ k) ∧ t.crews.get? k = some d ∧ d.phase = .queued ∧ d.nosteal = true ∧ d.prio = c.ceil ∧ d.entry = c.entry ∧
      d.args = c.args ∧ d.frm = c.frm ∧ d.cslot = c.cslot ∧ d.gen = c.gen ∧ d.discard = false ∧ d.kregs = FMap.empty ∧ k ∈ (t.core c.core).queue ∧
      ∀ e, s.disp? c.launch c.lot (dieOf c.core) = some e →
        ∃ e', t.disp? c.launch c.lot (dieOf c.core) = some e' ∧ e'.coords = (e.coords ++ c.coords).mergeSort) ∧
    (c.phase = .running → ∃ t, exec (.savePreemption k) s = .next t ∧ t.mem = s.mem ∧ t.threads = s.threads ∧
      t.crews.get? k = some { c with phase := .saving, halt := false } ∧ Instr.savePreemption k ∈ t.due) ∧
    (c.phase = .queued → ∃ t, exec (.savePreemption k) s = .next t ∧ t.mem = s.mem ∧ t.threads = s.threads ∧
      t.crews.get? k = some { c with phase := .saved } ∧ k ∉ (t.core c.core).queue) ∧
    (c.phase = .saving → s.crewQuiet k = true → s.threads.rising = true → (∀ p ∈ s.threadsOf k, coreOf p.1 = c.core ∧ s.loadBound p.2 = false) →
      ∃ t d, exec (.savePreemption k) s = .next t ∧ t.mem.bytes = s.mem.bytes ∧ t.mem.scratch = s.mem.scratch ∧ t.crews.get? k = some d ∧ d.phase = .saved ∧
        d.saveSpad = s.spadBytes c ∧ d.granules = [] ∧
        ∀ p ∈ s.threadsOf k, t.threads.get? (savedKey k (slotOf p.1)) =
          some { p.2.stored with mates := p.2.mates.map fun n => if ((s.threadsOf k).map Prod.fst).contains n then savedKey k (slotOf n) else n }) ∧
    (c.phase = .saved → s.threadsOf k = [] → c.remoteSaved = [] → ∃ t, exec (.crewResume k) s = .next t ∧ t.mem = s.mem ∧ t.threads = s.threads ∧
      t.crews.get? k = some { c with phase := .queued } ∧ k ∈ (t.core c.core).queue) ∧
    (∀ n v g x, c.phase = .saved → s.threadsOf k = [(n, v)] → v.mates = [] → s.threads.rising = true → n = savedKey k (slotOf n) → c.crec.spad = 0 →
      s.resumeSlots c.core [slotOf n] = some [(slotOf n, slotOf n)] → s.freeGroups c.core 1 = [g] → c.saveGroups = ⟨[(v.group, x)]⟩ → x.block = false → x.half = none →
      (s.groups.filter fun n g => n / 64 == c.core && g.block).size ≤ 16 → s.residents c.core ++ s.residents (mate c.core) = [] → s.coreFor c.core c = true → s.coreFor (mate c.core) c = true →
      c.saveTls = FMap.empty → c.saveSpad = [] → c.saveMons = [] → c.remoteSaved = [] → (∀ p ∈ s.savedIn c.core c.ctx [slotOf n], p.1 = k) →
      ∃ t d, exec (.crewResume k) s = .next t ∧ t.mem.bytes = s.mem.bytes ∧ t.crews.get? k = some d ∧ d.phase = .running ∧
        t.threads.get? (c.core * 1024 + slotOf n) = some { v with group := g } ∧ ∃ y, t.groups.get? (gkey c.core g) = some y ∧ y.gix = x.gix)

/-- CONTEXT_END stops every crew of the context at once: no crew and no thread of it is left, a halt of each of its queues with DATA_UNCORRECTABLE is handed to firmware, its launches and operations are forgotten and memory stays as it is. CONTEXT_SWITCH first has every live crew of the outgoing context saved; with no crew left in the way and the other tag quiet, the cores of the incoming partition take its context and skip age limit, a core outside it changes in nothing but that it is no longer switched to another context than its mate's, MEN is 1 exactly where MOWN names the context, CUR changes, and the context's launches wait for the old tag. MATRIX_FIRST_USE gives the ACC of a core to the context that asks once no operation is on it, and the waiting thread replays (R168, R316, R324 to R327, R506). -/
def Obligations.ContextsEndAndSwitch : Prop :=
  ∀ (s : State),
    (∀ ctx, s.ctx? ctx = none → exec (.contextEnd ctx) s = .next s) ∧
    (∀ ctx x, s.ctx? ctx = some x → x.ended = false → ctx ≠ 0 →
      ∃ t, exec (.contextEnd ctx) s = .next t ∧ t.mem.bytes = s.mem.bytes ∧ t.mem.scratch = s.mem.scratch ∧
        t.ctx? ctx = some { x with ended := true, hold := none } ∧ (∀ k c, t.crews.get? k = some c → c.ctx ≠ ctx) ∧
        (∀ n v, t.threads.get? n = some v → s.ctxOf v ≠ ctx) ∧ (∀ n l, t.fw.launches.get? n = some l → l.ctx ≠ ctx) ∧
        ∀ q y, s.queue? q = some y → y.ctx = ctx → ∃ e ∈ t.fw.events, e.queue = some q ∧ e.halt = some (1, 0x0D, y.cb.head)) ∧
    (∀ out inc c, s.ctx? inc = some c → (∃ k x, (k, x) ∈ s.crews.cells ∧ x.ctx = out ∧ x.phase = .running) →
      ∃ t, exec (.contextSwitch out inc) s = .next t ∧ t.mem = s.mem ∧ t.cores = s.cores ∧ Instr.contextSwitch out inc ∈ t.due ∧
        ∀ k x, (k, x) ∈ s.crews.cells → x.ctx = out → x.phase = .running → Instr.savePreemption k ∈ t.due) ∧
    (∀ out inc c, s.ctx? inc = some c → s.inTheWay out inc c = [] →
      s.tagQuiet (1 - s.curTag) = true → ∃ t, exec (.contextSwitch out inc) s = .next t ∧ t.mem = s.mem ∧ t.threads = s.threads ∧
        t.curTag = 1 - s.curTag ∧ t.ctx? inc = some { c with hold := some s.curTag } ∧
        (∀ k, k ∈ c.cores → (t.core k).ctx = inc ∧ (t.core k).ageLimit = c.skip ∧ (inc ∈ (t.core k).men ↔ (s.core k).mown = inc) ∧ (t.core k).acc = (s.core k).acc) ∧
        (∀ k, k ∉ c.cores → ∃ n, t.core k = { s.core k with ctx := n } ∧ (mate k ∉ c.cores → n = (s.core k).ctx)) ∧
        ∀ k x, (k, x) ∈ s.crews.cells → x.ctx = inc → x.phase = .saved → Instr.crewResume k ∈ t.due) ∧
    (∀ core j e k v, s.fwRunning (.matrixFirstUse core) = some (j, e) → s.threads.find? (fun _ t => s.wantsMen core t) = some (k, v) →
      s.threads.get? k = some v → (s.core core).macc = [] → v.status = .waiting (.firstUse [core]) → s.ctxOf v ≠ 0 → (s.core core).mown = s.ctxOf v →
      ∃ t, exec (.matrixFirstUse core) s = .next t ∧ t.mem = s.mem ∧ (t.core core).mown = s.ctxOf v ∧ s.ctxOf v ∈ (t.core core).men ∧
        (t.core core).acc = (s.core core).acc ∧ t.threads.get? k = some { v with status := .ready } ∧ t.fw.running.get? j = none) ∧
    (∀ core j e p, s.fwRunning (.matrixFirstUse core) = some (j, e) → s.threads.find? (fun _ t => s.wantsMen core t) = some p → (s.core core).macc ≠ [] →
      ∃ t, exec (.matrixFirstUse core) s = .next t ∧ t.mem = s.mem ∧ t.threads = s.threads ∧ t.cores = s.cores ∧
        t.fw.waiting.get? e.num = some { e with step := 0, expiries := 0 })

/-- The firmware core whose event runs an action, with the state's caches empty so that a shootdown has nothing to write back. -/
structure FwRuns (s : State) (i : Instr) (j : Nat) (e : FwEvent) : Prop where
  runs  : s.fwRunning i = some (j, e)
  mons  : s.mem.mons = []
  cores : s.cores.cells = []
  rdc   : s.mem.rdc.cells = []
  due   : s.due = []
  held  : s.mem.held = []

/-- SHOOTDOWN leaves no translation of its range in any buffer, and is complete once no access under an old entry is on its way. PAGE_MIGRATION first makes the entry invalid with the in-migration mark and then, with everything recalled, copies the 64 KiB to the new frame and writes the entry with the new frame, valid, with A and D clear. FRAME_MODE_CHANGE marks and then rewrites every mapping of the frame with the new mode (R51 to R54, R91). -/
def Obligations.PagesMove : Prop :=
  ∀ (s : State) (j : Nat) (e : FwEvent),
    (∀ asid va len, s.fwRunning (.shootdown asid va len) = some (j, e) → (s.shootNow asid va len).shootQuiet asid = true →
      ∃ t, exec (.shootdown asid va len) s = .next t ∧ t.fw.running.get? j = none ∧
        (∀ key, leafIn asid va len key = true → t.mem.tlb.get? key = none) ∧ ∀ n x, t.mem.dtlb.get? n = some x → leafIn asid va len x.tag = false) ∧
    (∀ asid va frame n c addr, FwRuns s (.pageMigration asid va frame) j e → s.ctxOfAsid asid = some (n, c) → entryAt s.mem.bytes va 3 0 c.root = some addr →
      let old := s.memNat addr 8
      (e.step = 0 → ∃ t, exec (.pageMigration asid va frame) s = .next t ∧ t.threads = s.threads ∧
        (mayMigrate old frame = true → t.mem.bytes = s.mem.bytes.writeAt addr (withOff 0 (bytesOf 8 (marking old))) ∧
          t.fw.waiting.get? e.num = some { e with step := 1, expiries := 0 }) ∧
        (mayMigrate old frame = false → t.mem = s.mem ∧ t.fw.running.get? j = none)) ∧
      (e.step = 1 → s.mem.homes.cells = [] → Memory.wf s.mem.bytes = true →
        ∃ t, exec (.pageMigration asid va frame) s = .next t ∧
        (∀ i, i < 65536 → frame * 65536 + i < addr ∨ addr + 8 ≤ frame * 65536 + i →
          t.mem.bytes.read (frame * 65536 + i) = s.mem.bytes.read (ptePfn old * 65536 + i)) ∧
        t.memNat addr 8 = newEntry old frame ∧ t.fw.waiting.get? e.num = some { e with step := 2, expiries := 0, keep := old })) ∧
    (∀ frame mode, 2 < mode → s.fwRunning (.frameModeChange frame mode) = some (j, e) → ∃ t, exec (.frameModeChange frame mode) s = .next t ∧
      t.mem = s.mem ∧ t.threads = s.threads ∧ t.fw.running.get? j = none) ∧
    (∀ frame mode m, mode ≤ 2 → FwRuns s (.frameModeChange frame mode) j e → s.mappings frame = [m] →
      (e.step = 0 → ∃ t, exec (.frameModeChange frame mode) s = .next t ∧ t.threads = s.threads ∧
        t.mem.bytes = s.mem.bytes.writeAt m.addr (withOff 0 (bytesOf 8 (marking m.entry))) ∧ t.fw.waiting.get? e.num = some { e with step := 1, expiries := 0 }) ∧
      (e.step = 1 → s.mem.homes.cells = [] → ∃ t, exec (.frameModeChange frame mode) s = .next t ∧ t.threads = s.threads ∧
        t.mem.bytes = s.mem.bytes.writeAt m.addr (withOff 0 (bytesOf 8 (withBits (unmarked m.entry) 4 2 mode))) ∧
        t.fw.waiting.get? e.num = some { e with step := 2, expiries := 0 }))

/-- What firmware decides on a parked thread whose event it runs: forwarded, as a fault beyond the thread-local areas always is, the thread takes the fault at its handler with FWD set; resolved or read again, its fault is resolved and its sub-group looks. PARKED_SUBGROUP_RESUME makes the parked threads of a sub-group Ready at their PC once every fault of that sub-group is resolved (R25, R48, R49, R315, R317). -/
def Obligations.FirmwareFirst : Prop :=
  ∀ (tid : Nat) (v : Thread) (p : Park) (j : Nat) (e : FwEvent) (s : State), s.threads.get? tid = some v → v.status = .parked p →
    (s.fw.running.find? (fun _ e => e.tid == some tid) = some (j, e) →
      (p.aff = false → ¬(p.code = 0x07 ∧ s.migrating (s.asidOf v) (p.tval % 2 ^ 57) = true) → ¬NoHandler v → ∀ choice,
        (choice = .forward ∨ (p.code = 0x07 ∧ beyondTls (p.tval % 2 ^ 57) = true)) → ∃ t u,
        exec (.firmwareFirstTrapEvent (.thread tid) choice) s = .next t ∧ t.mem = s.mem ∧ t.threads.get? tid = some u ∧ u.status = .ready ∧
        u.pc = v.trap.tvec ∧ u.trap.tcause.toNat % 256 = p.code % 256 ∧ u.trap.tcause.getLsbD 8 = true ∧ u.trap.tcause.getLsbD 9 = true ∧ u.trap.tpc = v.pc ∧
        u.trap.tval = BitVec.ofNat 64 p.tval ∧ v.Keeps u ∧ ∀ n x, (n, x) ∈ t.fw.running.cells → x.tid ≠ some tid) ∧
      (∀ choice, (choice = .resolve [] ∨ choice = .reread) → ¬(p.code = 0x07 ∧ beyondTls (p.tval % 2 ^ 57) = true) → ∃ t, exec (.firmwareFirstTrapEvent (.thread tid) choice) s = .next t ∧
        t.mem.bytes = s.mem.bytes ∧ t.threads.get? tid = some { v with status := .parked { p with done := true } } ∧
        Instr.parkedSubgroupResume (coreOf tid) v.group ∈ t.due)) ∧
    ((s.fw.running.find? (fun _ e => e.tid == some tid) = none) → ∀ choice, exec (.firmwareFirstTrapEvent (.thread tid) choice) s = .next s) ∧
    (∃ t, exec (.parkedSubgroupResume (coreOf tid) v.group) s = .next t ∧ t.mem = s.mem ∧
      ((∀ n w x, (n, w) ∈ s.threads.cells → coreOf n = coreOf tid → w.group = v.group → w.status = .parked x → x.sub = p.sub → x.done = true) →
        t.threads.get? tid = some { v with status := .ready }) ∧ (p.done = false → s.threads.rising = true → t.threads.get? tid = some v))

/-- Firmware's event queue. An action that firmware performs becomes an event with a number of its own when none of it is queued or under way; an idle core takes the oldest event whose queue's lock is free and performs it: a halt that the command processor handed over is performed at once, with the event's number in SEQ; an event that waits for hardware is queued again when the hardware reports; a watchdog puts the event of its core back, and at the third expiry in a row it meets its fate (R306, R307). -/
def Obligations.FirmwareEvents : Prop :=
  ∀ (s : State),
    (∀ i, ((∃ a v l, i = .shootdown a v l) ∨ (∃ a v f, i = .pageMigration a v f) ∨ (∃ f m, i = .frameModeChange f m) ∨ (∃ c, i = .matrixFirstUse c) ∨ ∃ q, i = .tailWordWake q) →
      s.fwRunning i = none → (∀ e ∈ s.fw.events, e.act ≠ some i) → (∀ n e, (n, e) ∈ s.fw.waiting.cells → e.act ≠ some i) →
      ∃ t e, exec i s = .next t ∧ t.mem = s.mem ∧ t.threads = s.threads ∧ t.crews = s.crews ∧ t.fw.events = s.fw.events ++ [e] ∧ e.act = some i ∧ e.num = s.fresh) ∧
    (∀ k e, k < 12 → s.fw.running.get? k = none → 8 ≤ s.dev.step → s.nextEvent = some e → e.halt = none →
      ∃ t, exec (.firmwareEventRun k) s = .next t ∧ t.mem = s.mem ∧ t.threads = s.threads ∧ t.fw.events = s.fw.events.erase e ∧
        t.fw.running.get? k = some e ∧ ∀ i, e.act = some i → i ∈ t.due) ∧
    (∀ k e q x cause fault index, k < 12 → s.fw.running.get? k = none → 8 ≤ s.dev.step → s.nextEvent = some e → e.halt = some (cause, fault, index) →
      e.queue = some q → s.queue? q = some x → x.cb.state = 1 → x.cb.seq ≠ e.num → ∃ t y, exec (.firmwareEventRun k) s = .next t ∧
        t.mem.bytes = s.mem.bytes ∧ t.threads = s.threads ∧ t.fw.running = s.fw.running ∧ t.queue? q = some y ∧ y.cur = none ∧ y.cb.state = 2 ∧ y.cb.hcause = cause ∧
        y.cb.qfault = fault ∧ y.cb.qval = index ∧ y.cb.seq = e.num ∧ y.cb.head = x.cb.head) ∧
    (∀ k, (12 ≤ k ∨ (s.fw.running.get? k).isSome = true ∨ s.dev.step < 8) → exec (.firmwareEventRun k) s = .next s) ∧
    (∀ n e, s.fw.waiting.get? n = some e → ∃ t, exec (.firmwareEventContinuation n) s = .next t ∧ t.mem = s.mem ∧ t.threads = s.threads ∧
      t.fw.events = s.fw.events ++ [e] ∧ t.fw.waiting.get? n = none) ∧
    (∀ k e, s.fw.running.get? k = some e →
      (e.expiries < 2 → ∃ t, exec (.watchdogExpiry k) s = .next t ∧ t.mem = s.mem ∧ t.threads = s.threads ∧ t.fw.running.get? k = none ∧
        t.fw.events = putBack { e with expiries := e.expiries + 1 } s.fw.events) ∧
      (∀ q x i, 2 ≤ e.expiries → e.act = some i → (i = .packetLaunch q ∨ i = .packetCopy q ∨ i = .packetPlan q ∨ i = .tailWordWake q) → e.queue = some q →
        s.queue? q = some x → x.cb.seq ≠ e.num → ∃ t y, exec (.watchdogExpiry k) s = .next t ∧ t.mem.bytes = s.mem.bytes ∧ t.fw.running.get? k = none ∧
          t.queue? q = some y ∧ y.cb.state = 2 ∧ y.cb.hcause = 4 ∧ y.cb.qval = x.cb.head ∧ y.cb.seq = e.num))

/-! ### Queues and packets (R293 to R305, R308, R494 to R496) -/

/-- A packet of a type in hand of a queue that runs (R295, R298). -/
structure InHand (s : State) (q : Nat) (x : Queue) (p : List Nat) (type : Nat) : Prop where
  queue : s.queue? q = some x
  cur   : x.cur = some p
  runs  : s.queueRuns x = true
  held  : s.queueHeld q = false
  type  : pktType p = type
  seq   : ∀ n, s.packetEvent q = some n → n ≠ x.cb.seq

/-- A packet is finished (R295, R298): none is in hand; a ring packet moves HEAD on and sends the write of the head word, and a packet of a buffer does not. -/
def Finished (t : State) (q : Nat) (x : Queue) : Prop :=
  ∃ y, t.queue? q = some y ∧ y.cur = none ∧ y.cb.state = x.cb.state ∧ Instr.commandProcessorPrefetch q ∈ t.due ∧
    (x.levels = [] → y.cb.head = (x.cb.head + 1) % 2 ^ 64 ∧ ∃ id op, t.ops.get? id = some op ∧ op.kind = .fwWrite q ∧ op.ea = x.cb.heada ∧
      op.setv = (x.cb.head + 1) % 2 ^ 64 ∧ Instr.engineOperationStart id ∈ t.due) ∧
    (x.levels ≠ [] → y.cb.head = x.cb.head)

/-- The command processor has handed a halt of a queue at a packet over to firmware (R297, R306). -/
def HaltAsked (s t : State) (q cause fault index : Nat) : Prop :=
  ∃ e, t.fw.events = s.fw.events ++ [e] ∧ e.queue = some q ∧ e.halt = some (cause, fault, index)

/-- A queue that has halted with a cause and a fault (R295, R297). -/
def Halted (t : State) (q cause fault : Nat) : Prop :=
  ∃ y, t.queue? q = some y ∧ y.cur = none ∧ y.levels = [] ∧ y.cb.state = 2 ∧ y.cb.hcause = cause ∧ y.cb.qfault = fault ∧ y.cb.qval = y.cb.head

/-- An address of a queue's context translates for an access to device or peer memory at the home of an idle line, with no monitor and no uncorrectable unit anywhere. -/
structure WordAt (s : State) (q : Nat) (x : Queue) (va : Nat) (a : Acc) (ga : Nat) : Prop where
  window : va / 2 ^ 52 ≠ 31
  hit    : ∃ mode e, s.xlate (s.queueOp q x).core (s.opAsid (s.queueOp q x)) va a = .hit ga mode e
  place  : ga % 8 = 0 ∧ isHost (lineNo ga) = false
  quiet  : s.quietLine (lineNo ga) = true
  idle   : Idle s (lineNo ga)
  mons   : s.mem.mons = []
  poison : s.mem.poison = []
  frame  : s.frameOn (lineNo ga) = none

/-- Memory after a write of a 64-bit word. -/
def Word64 (s t : State) (ga x : Nat) : Prop := t.mem.bytes = s.mem.bytes.writeAt (lineNo ga * 128) (withOff (ga % 128) (bytesOf 8 x))

/-- The command processor reads ahead. TAIL_WORD_WAKE, an event of firmware, reads the tail, halts the queue on a tail outside the ring, watches it at the head, and keeps it; the prefetch keeps the packet it read, and a packet is taken in hand; for a malformed one a halt of the queue at that packet is handed to firmware (R294, R295, R297, R304, R306). -/
def Obligations.TailAndPrefetch : Prop :=
  ∀ (q : Nat) (x : Queue) (s : State),
    (∀ j e ga, s.fwRunning (.tailWordWake q) = some (j, e) → s.queue? q = some x → s.queueRuns x = true → s.queueHeld q = false → e.num ≠ x.cb.seq →
      WordAt s q x x.cb.taila .load ga →
      let tail := memNum s ga 8
      (tail < x.cb.head ∨ x.cb.head + 2 ^ x.cb.logn < tail → ∃ t, exec (.tailWordWake q) s = .next t ∧ t.mem.bytes = s.mem.bytes ∧ Halted t q 3 0) ∧
      (tail = x.cb.head → ∃ t y, exec (.tailWordWake q) s = .next t ∧ t.mem.bytes = s.mem.bytes ∧ t.queue? q = some y ∧ y.tail = tail ∧
        ∃ m, t.mem.mons = [m] ∧ m.place = .mem ga ∧ m.wide = true ∧ m.cmp = 1 ∧ m.oper = tail ∧ m.take = true ∧ m.who = .tail q) ∧
      (x.cb.head < tail → tail ≤ x.cb.head + 2 ^ x.cb.logn → ∃ t y, exec (.tailWordWake q) s = .next t ∧ t.mem.bytes = s.mem.bytes ∧ t.queue? q = some y ∧ y.tail = tail)) ∧
    (∀ p va ga, s.queue? q = some x → s.queueRuns x = true → s.queueHeld q = false → x.levels = [] → x.cur = some p → x.nextRead = some va → va < 2 ^ 64 →
      ga % 64 = 0 → WordAt s q x va .load ga → ∃ t y, exec (.commandProcessorPrefetch q) s = .next t ∧ t.mem.bytes = s.mem.bytes ∧ t.queue? q = some y ∧ y.cur = some p ∧
        y.fetched = x.fetched ++ [packetOf (((s.lineBytes (lineNo ga)).drop (ga % 128)).take 64)]) ∧
    (∀ p r, s.queue? q = some x → s.queueRuns x = true → s.queueHeld q = false → x.levels = [] → x.cur = none → x.nextRead = none → x.fetched = p :: r →
      x.abort = false →
      (pktType p ≤ 8 → pktBad p = false → ∃ t y, exec (.commandProcessorPrefetch q) s = .next t ∧ t.mem = s.mem ∧ t.queue? q = some y ∧ y.cur = some p ∧
        y.fetched = r ∧ pktStep q (pktType p) ∈ t.due) ∧
      (s.fwRunning (pktStep q (pktType p)) = none → 8 < pktType p ∨ pktBad p = true → ∃ t y, exec (.commandProcessorPrefetch q) s = .next t ∧ t.mem = s.mem ∧
        HaltAsked s t q 2 0 x.cb.head ∧ t.queueHeld q = true ∧ t.queue? q = some y ∧ y.cb = x.cb))

/-- What a packet in hand does. NOP only finishes. SIGNAL writes its value or adds it, and COMPLETE writes it, once nothing earlier is open. FETCHFENCE discards what was read ahead. INDIRECT opens a level, and at level 4 has a halt with INDIRECT_DEPTH handed to firmware. WAITSIG proceeds on zeros, aborts on a negative signal and watches positive ones. COPY forks its copy and finishes (R295, R297, R298, R301 to R305). -/
def Obligations.Packets : Prop :=
  ∀ (q : Nat) (x : Queue) (s : State),
    (∀ p, InHand s q x p 0 → ∃ t, exec (.packetNop q) s = .next t ∧ t.mem = s.mem ∧ t.threads = s.threads ∧ Finished t q x) ∧
    (∀ p, InHand s q x p 5 → (s.earlierOpen q x = true → exec (.packetFetchfence q) s = .next s) ∧
      (s.earlierOpen q x = false → ∃ t, exec (.packetFetchfence q) s = .next t ∧ t.mem = s.mem ∧ Finished t q x ∧
        ∀ y, t.queue? q = some y → y.fetched = [] ∧ ∀ l ∈ y.levels, l.fetched = [])) ∧
    (∀ p, InHand s q x p 6 →
      (x.levels.length < 4 → ∃ t y, exec (.packetIndirect q) s = .next t ∧ t.mem = s.mem ∧ t.queue? q = some y ∧ y.cur = none ∧ y.cb = x.cb ∧
        y.levels = { addr := pq p 1, count := pq p 2 } :: x.levels ∧ Instr.commandProcessorPrefetch q ∈ t.due) ∧
      (s.packetEvent q = none → 4 ≤ x.levels.length → ∃ t, exec (.packetIndirect q) s = .next t ∧ t.mem = s.mem ∧ t.queue? q = some x ∧ HaltAsked s t q 1 0x14 x.cb.head)) ∧
    (∀ p ga, InHand s q x p 3 → s.earlierOpen q x = false → WordAt s q x (pq p 1) .store ga →
      ((pq p 0).testBit 16 = false → ∃ t, exec (.packetSignal q) s = .next t ∧ Word64 s t ga (pq p 2) ∧ Finished t q x) ∧
      ((pq p 0).testBit 16 = true → WordAt s q x (pq p 1) .load ga → WordAt s q x (pq p 1) .atom ga →
        ∃ t, exec (.packetSignal q) s = .next t ∧ Word64 s t ga ((memNum s ga 8 + pq p 2) % 2 ^ 64) ∧ Finished t q x)) ∧
    (∀ p ga, InHand s q x p 8 → s.earlierOpen q x = false → WordAt s q x (pq p 1) .store ga →
      ∃ t, exec (.packetComplete q) s = .next t ∧ Word64 s t ga (pq p 2) ∧ Finished t q x) ∧
    (∀ p, (InHand s q x p 3 → s.earlierOpen q x = true → exec (.packetSignal q) s = .next s) ∧
      (InHand s q x p 8 → s.earlierOpen q x = true → exec (.packetComplete q) s = .next s)) ∧
    (∀ p (ga : Nat → Nat), InHand s q x p 2 → (∀ j, j < bitsAt (pq p 0) 16 2 → WordAt s q x (pq p (j + 1)) .load (ga j)) → s.mem.mons = [] →
      let sig (j : Nat) := memNum s (ga j) 8
      let n := bitsAt (pq p 0) 16 2
      ((∀ j, j < n → sig j = 0) → ∃ t, exec (.packetWaitsig q) s = .next t ∧ t.mem.bytes = s.mem.bytes ∧ Finished t q x) ∧
      ((∃ j, j < n ∧ 2 ^ 63 ≤ sig j) → ∃ t y, exec (.packetWaitsig q) s = .next t ∧ t.mem.bytes = s.mem.bytes ∧ Finished t q x ∧ t.queue? q = some y ∧ y.abort = true ∧
        y.cb.aborts = (x.cb.aborts + 1) % 2 ^ 32) ∧
      ((∀ j, j < n → sig j < 2 ^ 63) → (∃ j, j < n ∧ sig j ≠ 0) → ∃ t, exec (.packetWaitsig q) s = .next t ∧ t.mem.bytes = s.mem.bytes ∧ t.queue? q = some x ∧
        ∀ j, j < n → sig j ≠ 0 → ∃ m ∈ t.mem.mons, m.place = .mem (ga j) ∧ m.wide = true ∧ m.cmp = 2 ∧ m.oper = 1 ∧ m.take = true ∧ m.who = .sig q)) ∧
    (∀ p, InHand s q x p 2 → s.mem.mons = [] → ∃ t, exec (.waitsigWake q) s = .next t ∧ t.mem = s.mem ∧ t.fw = s.fw ∧ Instr.packetWaitsig q ∈ t.due) ∧
    (∀ p j e, InHand s q x p 4 → s.fwRunning (.packetCopy q) = some (j, e) →
      ∃ t id op y, exec (.packetCopy q) s = .next t ∧ t.mem = s.mem ∧ Finished t q x ∧ t.ops.get? id = some op ∧ op.kind = .fwCopy q ∧
        op.desc = [pq p 1, pq p 2, pq p 3, x.cb.head] ∧ op.ctx = x.ctx ∧ t.queue? q = some y ∧ y.copies = x.copies ++ [id] ∧ Instr.engineOperationStart id ∈ t.due ∧
        t.fw.running.get? j = none) ∧
    (∀ p i, ((i = .packetCopy q ∧ InHand s q x p 4) ∨ (i = .packetLaunch q ∧ InHand s q x p 1)) → s.earlierOpen q x = false → s.fwRunning i = none →
      (∀ e ∈ s.fw.events, e.act ≠ some i) → (∀ n e, (n, e) ∈ s.fw.waiting.cells → e.act ≠ some i) →
      ∃ t e, exec i s = .next t ∧ t.mem = s.mem ∧ t.fw.events = s.fw.events ++ [e] ∧ e.act = some i ∧ e.queue = some q ∧ e.num = s.fresh)

/-- Launches and plans. PACKET_LAUNCH, run by firmware with a table that passes its checks, an installed plan of the table that fits, and a free launch frame, makes the launch with the packet's fields, writes the frame and finishes. LOT_ENQUEUE queues one crew for every place of the lot, with its argument record, and the frame counts their threads; LAUNCH_END ends a launch whose frame has joined and whose lots are done, and then frees its frame. PACKET_PLAN stores the plan that its record replays to. PLAN_FLIP, once the other tag is quiet, changes CUR and puts the new plan in force; PLAN_RETIRE, once the old tag is quiet, removes the old plan and writes the retire word (R298 to R300, R308, R455, R478, R494 to R496). -/
def Obligations.Launches : Prop :=
  ∀ (s : State),
    (∀ s0 q x p j e b tbl c n plan idx ga mode en, InHand s0 q x p 1 → s0.fwRunning (.packetLaunch q) = some (j, e) →
      State.tableBytes (s0.queueOp q x) (pq p 1) (2 ^ 22) [] s0 = (s, .ok b) → s.fw = s0.fw → s.sq = s0.sq → tableFrom (pq p 1) b = .ok tbl → s.ctx? x.ctx = some c →
      s.planNamed x.ctx (bitsAt (pq p 2) 0 16) tbl.hash = some (n, plan) → plan.void = false → plan.game.table.hash = tbl.hash →
      launchFits { plan.game with table := tbl } (bitsAt (pq p 4) 0 11) (lotsOf { plan.game with table := tbl } (bitsAt (pq p 0) 16 2)) = true → c.hold = none →
      s.homesSet c { plan.game with table := tbl } = true → highestFree (s.framesTaken c.asid c.pfirst) arenaFrames = some idx →
      s.xlate c.pfirst c.asid (frameHandle c.pfirst idx) .atom = .hit ga mode en → s.quietLine (lineNo ga) true = true → Idle s (lineNo ga) → s.mem.mons = [] →
      ga % 128 = 0 → (∀ l, s.fw.frames.get? (frameKey c.asid (frameHandle c.pfirst idx)) ≠ some l) →
      ∃ t m l, exec (.packetLaunch q) s0 = .next t ∧ Finished t q x ∧ t.fw.launches.get? m = some l ∧ l.queue = q ∧ l.ctx = x.ctx ∧
        l.frame = frameHandle c.pfirst idx ∧ l.mode = bitsAt (pq p 0) 16 2 ∧ l.prio = bitsAt (pq p 0) 18 2 ∧ l.argb = pq p 3 ∧ l.threads = bitsAt (pq p 4) 0 11 ∧
        l.tag = s.curTag ∧ l.ended = false ∧ l.game.board = plan.game.board ∧ memNum t ga 8 = 0 ∧ memNum t (ga + 8) 4 = (1 + c.pfirst * 2 ^ 16) % 2 ^ 32) ∧
    (∀ n l k, s.fw.launches.get? n = some l → l.lots = [] → k ∈ l.todo → l.ready k = true → s.quietLine (lineNo (s.launchGa l)) true = true →
      Idle s (lineNo (s.launchGa l)) → s.mem.mons = [] → s.launchGa l % 128 = 0 →
      let places := crewPlaces l k
      ∃ t, exec (.lotEnqueue n k) s = .next t ∧ t.threads = s.threads ∧ t.fw.launches.get? n = some { l with todo := l.todo.filter (· != k), lots := [k] } ∧
        memNum t (s.launchGa l + 12) 4 = (memNum s (s.launchGa l + 12) 4 + places.length * l.threads) % 2 ^ 32 ∧
        ∀ pl ∈ places, ∃ m c, t.crews.get? m = some c ∧ c.core = pl.1 ∧ c.cix = pl.2.1 ∧ c.launch = n ∧ c.lot = k ∧ c.cn = l.threads ∧ c.ctx = l.ctx ∧
          c.prio = l.prio ∧ c.ceil = l.prio ∧ c.tag = l.tag ∧ c.phase = .queued ∧ c.args = [argRecord l k pl.2.2] ∧ m ∈ (t.core pl.1).queue) ∧
    (∀ n l, s.fw.launches.get? n = some l → l.todo = [] → (∀ k ∈ l.lots, k ∈ l.done) →
      (l.ended = false → s.launchJoined l = true → ∃ t, exec (.launchEnd n) s = .next t ∧ t.mem = s.mem ∧
        t.fw.launches.get? n = some { l with ended := true } ∧ Instr.launchEnd n ∈ t.due) ∧
      (l.ended = true → s.signalsNext l.queue = false → s.quietLine (lineNo (s.launchGa l)) true = true → Idle s (lineNo (s.launchGa l)) → s.mem.mons = [] →
        s.launchGa l % 128 = 0 → ∃ t, exec (.launchEnd n) s = .next t ∧ t.fw.launches.get? n = none ∧ t.fw.frames.get? (s.launchKey l) = none ∧
          memNum t (s.launchGa l + 8) 1 % 4 = 0)) ∧
    (∀ s1 s2 s3 q x p j e b tbl c r calen h m ms g, InHand s q x p 7 → s.fwRunning (.packetPlan q) = some (j, e) → s.planPending q = false →
      State.tableBytes (s.queueOp q x) (pq p 3) (2 ^ 22) [] s = (s1, .ok b) → s1.fw = s.fw → s1.sq = s.sq → tableFrom (pq p 3) b = .ok tbl → s.ctx? x.ctx = some c →
      let g0 := s1.gameOf x.ctx c s.sq.learned tbl
      let op := s1.queueOp q x
      g0.broken g0.board = 0 → s1.unitRead op 2 (pq p 1) 96 = (s2, .ok r) → recordHead (r.take 64) = some (calen, false, 96 + 8 * m) →
      listHead (r.drop 64) = some (h, m) → h = tbl.hash → State.readMoves op m (pq p 1 + 96) s2 = (s3, .ok ms) → s3.fw = s.fw → s3.sq = s.sq → g0.replay ms = some g →
      bitsAt (pq p 2) 0 16 ≠ 0 → s.planCount x.ctx < 256 → s.planNamed x.ctx (bitsAt (pq p 2) 0 16) 0 = none →
      ∃ t k pl, exec (.packetPlan q) s = .next t ∧ t.mem = s3.mem ∧ Finished t q x ∧ t.sq.plans.get? k = some pl ∧ pl.ctx = x.ctx ∧
        pl.id = bitsAt (pq p 2) 0 16 ∧ pl.calen = calen ∧ pl.game.board = g.board ∧ pl.game.table = g.table) ∧
    (∀ c r, s.sq.changes = c :: r → c.tag = none →
      (s.tagQuiet (1 - s.curTag) = false → exec (.planFlip c.ctx c.id) s = .next { s with due := s.due ++ [.planFlip c.ctx c.id] }) ∧
      (s.tagQuiet (1 - s.curTag) = true → c.op = none → c.queue = none → ∃ t, exec (.planFlip c.ctx c.id) s = .next t ∧ t.mem = s.mem ∧
        t.curTag = 1 - s.curTag ∧ t.sq.changes = { c with tag := some s.curTag, old := (s.planNamed c.ctx c.id 0).map Prod.fst } :: r ∧
        t.sq.plans.get? s.fresh = some c.plan ∧ Instr.planRetire c.ctx c.id ∈ t.due)) ∧
    (∀ c r tag n pl, s.sq.changes = c :: r → c.tag = some tag → s.tagQuiet tag = true → c.old = some n → s.sq.plans.get? n = some pl →
      ∃ t, exec (.planRetire c.ctx c.id) s = .next t ∧ t.mem.bytes = s.mem.bytes ∧ t.sq.changes = r ∧ t.sq.plans.get? n = none ∧
        (c.retire ≠ 0 → ∃ id op, t.ops.get? id = some op ∧ op.kind = .fwWrite 0 ∧ op.ea = c.retire ∧ op.setv = 1 ∧ Instr.engineOperationStart id ∈ t.due)) ∧
    (∀ die value, (die < 4 → s.quietOn die (value % 2) = true → ∃ t, exec (.phaseRegisterWrite die value) s = .next t ∧ t.mem = s.mem ∧
        t.fw.cur.get? die = some (value % 2)) ∧
      ((4 ≤ die ∨ s.quietOn die (value % 2) = false) → exec (.phaseRegisterWrite die value) s = .next s)) ∧
    (∀ die value, die < 4 → ∃ t, exec (.firmwareRegisterWrite (0x8_0000_0000_0000 + die * 0x100_0000 + 0x4000) value) s = .next t ∧ t.mem = s.mem ∧
      t.fw.dirbi.get? die = some (value % 2 ^ 48)) ∧
    (∀ pa value, (pa < 0x8_0000_0000_0000 ∨ 0x10_0000_0000_0000 ≤ pa ∨ pa % 8 ≠ 0) → exec (.firmwareRegisterWrite pa value) s = .next s)

/-! ### The mailbox (R505 to R513) -/

/-- A mailbox command answered: the status word with DONE, the tag and the result, and what it returns (R505). -/
def Replied (t : State) (m : Mbox) (result : Nat) (payload : List Nat) : Prop :=
  t.dev.status = result + m.tag % 2 ^ 16 * 2 ^ 32 + 2 ^ 63 ∧ t.dev.payload = payload ∧ t.dev.busy = none

/-- A command that firmware takes up: its event runs, for the first time, and no reserved bit is set. -/
structure TakenUp (s : State) (i : Instr) (m : Mbox) : Prop where
  runs : ∃ j e, s.fwRunning i = some (j, e) ∧ e.step = 0
  ok   : m.reserved = false

/-- How the mailbox takes a command. The boot ROM answers every command but DOWNLOAD with BAD_OPCODE; while one is unfinished the next is BUSY; else it becomes an event of firmware; a command with a reserved bit set is BAD_ARG. DOWNLOAD is judged by the boot ROM, which boots the image or asks for another, and firmware denies it (R505, R506, R511, R512). -/
def Obligations.MailboxTakes : Prop :=
  ∀ (s : State),
    (∀ i m, mboxOf i = some m → (∀ size x, i ≠ .download m size x) → s.fwRunning i = none →
      (s.dev.step ≤ 3 → ∃ t, exec i s = .next t ∧ t.mem = s.mem ∧ t.fw = s.fw ∧ t.dev.status = 2 + m.tag % 2 ^ 16 * 2 ^ 32 + 2 ^ 63) ∧
      (4 ≤ s.dev.step → s.dev.busy.isSome = true → ∃ t, exec i s = .next t ∧ t.mem = s.mem ∧ t.fw = s.fw ∧ t.dev.busy = s.dev.busy ∧
        t.dev.status = 1 + m.tag % 2 ^ 16 * 2 ^ 32 + 2 ^ 63) ∧
      (4 ≤ s.dev.step → s.dev.busy = none → ∃ t e, exec i s = .next t ∧ t.mem = s.mem ∧ t.dev.busy = some m.tag ∧ t.dev.status = s.dev.status ∧
        t.fw.events = s.fw.events ++ [e] ∧ e.act = some i)) ∧
    (∀ i m j e, mboxOf i = some m → (s.dev.step ≤ 3 → ∀ size x, i ≠ .download m size x) → s.fwRunning i = some (j, e) → e.step = 0 → m.reserved = true →
      ∃ t, exec i s = .next t ∧ t.mem = s.mem ∧ Replied t m 3 []) ∧
    (∀ m size x, s.dev.step ≤ 3 → m.reserved = false →
      (size = 0 ∨ 67108864 < size ∨ size < x.header → ∃ t, exec (.download m size x) s = .next t ∧ t.mem = s.mem ∧ t.dev.step = s.dev.step ∧
        t.dev.status = 3 + m.tag % 2 ^ 16 * 2 ^ 32 + 2 ^ 63) ∧
      (0 < size → size ≤ 67108864 → x.header ≤ size → ∃ t, exec (.download m size x) s = .next t ∧ t.mem = s.mem ∧
        t.dev.step = (if s.dev.accepts x = true then 4 else 2) ∧ t.dev.status = (if s.dev.accepts x = true then 0 else 5) + m.tag % 2 ^ 16 * 2 ^ 32 + 2 ^ 63 ∧
        (s.dev.accepts x = true → t.dev.measure = x.digest ∧ t.dev.svn = x.svn ∧ t.dev.minSvn = (if x.raiseSvn = true then x.svn else s.dev.minSvn)) ∧
        (s.dev.accepts x = false → t.dev.measure = s.dev.measure ∧ t.dev.minSvn = s.dev.minSvn))) ∧
    (∀ m size x, 4 ≤ s.dev.step → TakenUp s (.download m size x) m → ∃ t, exec (.download m size x) s = .next t ∧ t.mem = s.mem ∧ Replied t m 4 [])

/-- A command that completes with a result and a payload, no thread of the machine changed, and what else holds then. -/
def Answers (s : State) (i : Instr) (m : Mbox) (r : Nat) (l : List Nat) (P : State → Prop) : Prop :=
  ∃ t, exec i s = .next t ∧ t.threads = s.threads ∧ Replied t m r l ∧ P t

/-- What the commands about queues and contexts do once firmware takes them up: they act on a live context or queue, answer DENIED for one that is not there and BAD_ARG for an argument out of range, and otherwise have their effect and answer OK with what they return. The numbers they return are the model's choice (log 47) (R293, R295, R506). -/
def Obligations.MailboxQueuesAndContexts : Prop :=
  ∀ (m : Mbox) (s : State),
    (∀ ctx base taila heada logn, TakenUp s (.queueStart m ctx base taila heada logn) m →
      (s.liveCtx ctx = none → Answers s (.queueStart m ctx base taila heada logn) m 4 [] fun t => t.mem = s.mem ∧ t.fw.queues = s.fw.queues) ∧
      (∀ c, s.liveCtx ctx = some c → queueArgs base taila heada logn = false → Answers s (.queueStart m ctx base taila heada logn) m 3 [] fun t => t.mem = s.mem) ∧
      (∀ c, s.liveCtx ctx = some c → queueArgs base taila heada logn = true → (∀ n, s.mbEvent (.queueStart m ctx base taila heada logn) = some n → n ≠ 0) → Answers s (.queueStart m ctx base taila heada logn) m 0 [s.fresh] fun t => t.mem = s.mem ∧
        Instr.tailWordWake s.fresh ∈ t.due ∧ ∃ y, t.queue? s.fresh = some y ∧ y.ctx = ctx ∧ y.cb.state = 1 ∧ y.cb.head = 0 ∧ y.cb.base = base ∧ y.cb.taila = taila ∧
          y.cb.heada = heada ∧ y.cb.logn = logn ∧ y.cb.asid = c.asid)) ∧
    (∀ q x, s.liveQueue q = some x → (∀ i n, i = .queueStop m q ∨ i = .queueRestart m q → s.mbEvent i = some n → n ≠ x.cb.seq) →
      (TakenUp s (.queueStop m q) m → s.mem.mons = [] → Answers s (.queueStop m q) m 0 [] fun t => t.mem = s.mem ∧ Halted t q 5 0) ∧
      (TakenUp s (.queueRestart m q) m → x.cb.state ≠ 2 → Answers s (.queueRestart m q) m 3 [] fun t => t.mem = s.mem ∧ t.queue? q = some x) ∧
      (TakenUp s (.queueRestart m q) m → x.cb.state = 2 → Answers s (.queueRestart m q) m 0 [] fun t => t.mem = s.mem ∧ Instr.tailWordWake q ∈ t.due ∧
        ∃ y, t.queue? q = some y ∧ y.cb.state = 1 ∧ y.cb.hcause = 0 ∧ y.cb.head = x.cb.qval)) ∧
    (∀ q, s.liveQueue q = none → (TakenUp s (.queueStop m q) m → Answers s (.queueStop m q) m 4 [] fun t => t.mem = s.mem) ∧
      (TakenUp s (.queueRestart m q) m → Answers s (.queueRestart m q) m 4 [] fun t => t.mem = s.mem)) ∧
    (∀ asid root msave, TakenUp s (.contextCreate m asid root msave []) m → asid ≠ 0 → asid < 2 ^ 16 → root % 256 = 0 → populated root = true →
      (∀ n c, (n, c) ∈ s.fw.ctxs.cells → c.asid ≠ asid) → ∃ n, Answers s (.contextCreate m asid root msave []) m 0 [n] fun t => t.mem = s.mem ∧
        t.ctx? n = some { asid := asid, root := root, msave := msave }) ∧
    (∀ asid root msave tl, TakenUp s (.contextCreate m asid root msave tl) m → root % 256 ≠ 0 →
      Answers s (.contextCreate m asid root msave tl) m 3 [] fun t => t.mem = s.mem ∧ t.fw.ctxs = s.fw.ctxs) ∧
    (∀ ctx, TakenUp s (.contextRelease m ctx) m → s.ctx? ctx = none → Answers s (.contextRelease m ctx) m 4 [] fun t => t.mem = s.mem) ∧
    (∀ ctx c, TakenUp s (.contextRelease m ctx) m → s.ctx? ctx = some c → ((s.mbTake.endContext ctx).shootNow c.asid 0 (2 ^ 57)).shootQuiet c.asid = true →
      ∃ t, exec (.contextRelease m ctx) s = .next t ∧ Replied t m 0 [] ∧ t.ctx? ctx = none ∧ ∀ q y, t.queue? q = some y → y.ctx ≠ ctx)

/-- What the other commands do once firmware takes them up: partitions, masks, players and timing, maps, counters, checkpoints, attestation, the power cap and the fabric (R479, R480, R484, R506, R507, R509, R513 to R516). -/
def Obligations.MailboxCommands : Prop :=
  ∀ (m : Mbox) (s : State),
    (∀ ctx c pfirst pcount, TakenUp s (.setPartition m ctx pfirst pcount) m → s.liveCtx ctx = some c →
      (pcount = 0 ∨ 512 < pfirst + pcount → Answers s (.setPartition m ctx pfirst pcount) m 3 [] fun t => t.mem = s.mem ∧ t.ctx? ctx = some c) ∧
      (pcount ≠ 0 → pfirst + pcount ≤ 512 → s.squaresIdle ctx = true → Answers s (.setPartition m ctx pfirst pcount) m 0 [] fun t => t.mem = s.mem ∧
        t.ctx? ctx = some { c with pfirst := pfirst, pcount := pcount })) ∧
    (∀ ctx c a b d, TakenUp s (.setPerm m ctx a b d) m → s.liveCtx ctx = some c →
      (0x7FF < a ∨ 0x7FF < b ∨ 0x7FF < d → Answers s (.setPerm m ctx a b d) m 3 [] fun t => t.mem = s.mem ∧ t.ctx? ctx = some c) ∧
      (a ≤ 0x7FF → b ≤ 0x7FF → d ≤ 0x7FF → s.squaresIdle ctx = true → Answers s (.setPerm m ctx a b d) m 0 [] fun t => t.mem = s.mem ∧
        t.ctx? ctx = some { c with perm := [a, b, d] })) ∧
    (∀ ctx c budget cap, TakenUp s (.setPlayer m ctx budget cap) m → s.liveCtx ctx = some c → budget ≤ 4096 → 1 ≤ cap → cap ≤ 65536 →
      Answers s (.setPlayer m ctx budget cap) m 0 [] fun t => t.mem = s.mem ∧ t.ctx? ctx = some { c with budget := budget, cap := cap }) ∧
    (∀ ctx c ageing skip steal, TakenUp s (.setTiming m ctx ageing skip steal) m → s.liveCtx ctx = some c → ageing ≤ 2 ^ 20 → 1 ≤ skip → skip ≤ 255 →
      Answers s (.setTiming m ctx ageing skip steal) m 0 [] fun t => t.mem = s.mem ∧ t.ctx? ctx = some { c with ageing := ageing, skip := skip, steal := steal } ∧
        ∀ k, k ∈ c.cores → (t.core k).ageLimit = skip) ∧
    (∀ ctx va len l, TakenUp s (.map m ctx va len l) m → (s.liveCtx ctx).isSome = true → 2 ^ 56 < va + len → Answers s (.map m ctx va len l) m 4 [] fun t => t.mem = s.mem) ∧
    (∀ ctx c va len w a, TakenUp s (.map m ctx va len [w]) m → s.liveCtx ctx = some c → va + len ≤ 2 ^ 56 → mapArgs va len [w] = true →
      entryAt s.mem.bytes w.va w.level 0 c.root = some a → s.mem.mons = [] → s.mem.held = [] → s.cores.cells = [] → s.mem.rdc.cells = [] → s.due = [] →
      s.allMappings.find? (fun x => x.meets (mappingOf { w with entry := areaEntry w } c.asid a)) = none →
      Answers s (.map m ctx va len [w]) m 0 [] fun t => t.mem.bytes = s.mem.bytes.writeAt a (withOff 0 (bytesOf 8 (areaEntry w))) ∧
        ∀ key, leafIn c.asid va len key = true → t.mem.tlb.get? key = none) ∧
    (∀ die, TakenUp s (.readCounters m die) m → (4 ≤ die → Answers s (.readCounters m die) m 3 [] fun t => t.mem = s.mem) ∧
      (die < 4 → Answers s (.readCounters m die) m 0 [s.fw.dirbi.getD die 0, s.fw.ce.getD die 0, s.fw.ue.getD die 0, s.dev.average, s.dev.cap, s.dev.throttled]
        fun t => t.mem = s.mem)) ∧
    (∀ dev base, s.peerKnown dev = false → (TakenUp s (.checkpoint m dev base) m → Answers s (.checkpoint m dev base) m 4 [] fun t => t.mem = s.mem) ∧
      (TakenUp s (.restore m dev base) m → Answers s (.restore m dev base) m 4 [] fun t => t.mem = s.mem)) ∧
    (∀ dev base j e, s.peerKnown dev = true → FwRuns s (.checkpoint m dev base) j e → e.step = 3 → s.mem.homes.cells = [] → ∃ t,
      exec (.checkpoint m dev base) s = .next t ∧ Replied t m 0 [] ∧ t.mem.bytes = s.mem.bytes ∧ t.fw.drain = false ∧
        ∃ img, t.dev.image.get? (imageKey dev base) = some img ∧ ∀ a, a < 2 ^ 52 → Memory.wf s.mem.bytes = true → img.read a = s.mem.bytes.read a) ∧
    (∀ dev base j e img, s.peerKnown dev = true → FwRuns s (.restore m dev base) j e → e.step = 3 → s.mem.homes.cells = [] →
      s.dev.image.get? (imageKey dev base) = some img → Memory.wf img = true → ∃ t,
        exec (.restore m dev base) s = .next t ∧ Replied t m 0 [] ∧ t.fw.drain = false ∧ ∀ a, a < 2 ^ 52 → t.mem.bytes.read a = img.read a) ∧
    (∀ dev base, s.peerKnown dev = true → TakenUp s (.restore m dev base) m → s.dev.image.get? (imageKey dev base) = none →
      Answers s (.restore m dev base) m 5 [] fun t => t.mem = s.mem) ∧
    (∀ nonce, TakenUp s (.attest m nonce) m → ∃ a b, Answers s (.attest m nonce) m 0
      ([nonce % 2 ^ 384, s.dev.measure, s.dev.svn, s.dev.id, Config.serial] ++ (s.fw.ctxs.vals.flatMap fun c => [c.asid, c.pfirst, c.pcount]) ++ [a, b])
      fun t => t.mem = s.mem) ∧
    (∀ watts, TakenUp s (.powerCap m watts) m → (watts < 1000 ∨ 3000 < watts → Answers s (.powerCap m watts) m 3 [] fun t => t.dev.cap = s.dev.cap) ∧
      (1000 ≤ watts → watts ≤ 3000 → Answers s (.powerCap m watts) m 0 [] fun t => t.mem = s.mem ∧ t.dev.cap = watts)) ∧
    (∀ dev table, TakenUp s (.setFabric m dev table) m → (s.fw.ctxs.cells ≠ [] → Answers s (.setFabric m dev table) m 4 [] fun t => t.dev.routes = s.dev.routes) ∧
      (s.fw.ctxs.cells = [] → dev < 2 ^ 15 → (∀ x ∈ s.routeTable table, x < 2 ^ 18) → Answers s (.setFabric m dev table) m 0 [] fun t => t.mem = s.mem ∧
        t.dev.id = dev ∧ t.dev.fabric = true ∧ t.dev.routes = routesOf (s.routeTable table)))

/-! ### Power, errors, reset and memory as a whole (R14, R510, R514, R516) -/

/-- POWER_UP takes bring-up one action on: the link trains; memory and the home slices are initialised; the clusters are ungated in ascending order; the matrix arrays are enabled; after step 8 a new power-up loses device memory and every state of the package. POWER_SAMPLE keeps the last eight samples and moves throttling by their average. PATROL_SCRUB counts an error on its die where the part exists; an uncorrectable unit of HBM, or of a dirty line of the home cache, is poisoned, and a clean line of it is read from HBM again; an uncorrectable word of a clean L1 line is dropped and one of a dirty line kept as uncorrectable, one of scratchpad too; a corrupt spoil-list entry ends the owning context (R74, R316, R510, R514, R516). -/
def Obligations.PowerAndErrors : Prop :=
  ∀ (s : State),
    (s.dev.step = 1 → ∃ t, exec .powerUp s = .next t ∧ t.mem = s.mem ∧ t.cores = s.cores ∧ t.dev = { s.dev with step := 2 }) ∧
    (s.dev.step = 2 ∨ s.dev.step = 3 → exec .powerUp s = .next s) ∧
    (s.dev.step = 4 → ∃ t, exec .powerUp s = .next t ∧ t.mem = s.mem ∧ t.dev = { s.dev with step := 5 } ∧ Instr.powerUp ∈ t.due) ∧
    (s.dev.step = 5 → ∃ t, exec .powerUp s = .next t ∧ t.mem.bytes = s.mem.bytes ∧ t.mem.homes = FMap.empty ∧ t.mem.mons = [] ∧ t.mem.held = [] ∧
      t.dev = { s.dev with step := 6 } ∧ Instr.powerUp ∈ t.due) ∧
    (∀ k, s.dev.step = 6 → k < 64 → (s.core (8 * k)).gated = true → (∀ j, j < k → (s.core (8 * j)).gated = false) →
      ∃ t, exec .powerUp s = .next t ∧ t.mem = s.mem ∧ t.dev = s.dev ∧ (∀ i, i < 8 → t.core (8 * k + i) = { s.core (8 * k + i) with gated := false }) ∧
        (∀ c, c / 8 ≠ k → t.core c = s.core c) ∧ Instr.powerUp ∈ t.due) ∧
    (∀ k, s.dev.step = 7 → k < 64 → (s.core (8 * k)).marray = false → (∀ j, j < k → (s.core (8 * j)).marray = true) →
      ∃ t, exec .powerUp s = .next t ∧ t.mem = s.mem ∧ (∀ i, i < 8 → t.core (8 * k + i) = { s.core (8 * k + i) with marray := true }) ∧ Instr.powerUp ∈ t.due) ∧
    (s.dev.step = 7 → (∀ k, k < 64 → (s.core (8 * k)).marray = true) → ∃ t, exec .powerUp s = .next t ∧ t.mem = s.mem ∧ t.dev.step = 8) ∧
    (8 ≤ s.dev.step → ∃ t, exec .powerUp s = .next t ∧ t.dev.step = 1 ∧ t.dev.minSvn = s.dev.minSvn ∧ t.threads = FMap.empty ∧ t.crews = FMap.empty ∧
      t.cores = FMap.empty ∧ t.fw = {} ∧ t.sq = {} ∧ (∀ a, a < 2 ^ 52 → t.mem.bytes.read a = 0) ∧ ∀ a, 2 ^ 52 ≤ a → t.mem.bytes.read a = s.mem.bytes.read a) ∧
    (∀ w, s.dev.step < 8 → exec (.powerSample w) s = .next s) ∧
    (∀ w, 8 ≤ s.dev.step → ∃ t, exec (.powerSample w) s = .next t ∧ t.mem = s.mem ∧ t.threads = s.threads ∧ t.dev.samples = (w :: s.dev.samples).take 8 ∧
      let sum := ((w :: s.dev.samples).take 8).foldl (· + ·) 0
      let n := ((w :: s.dev.samples).take 8).length
      (s.dev.cap < sum / n → t.dev.throttle = s.dev.throttle + 1 ∧ t.dev.throttled = s.dev.throttled + 1) ∧
      (sum / n ≤ s.dev.cap → t.dev.throttle = s.dev.throttle - 1 ∧ t.dev.throttled = if s.dev.throttle ≤ 1 then s.dev.throttled else s.dev.throttled + 1)) ∧
    (∀ w n b, errReal n w = false → exec (.patrolScrub w n b) s = .next s) ∧
    (∀ w n, errReal n w = true → ∃ t, exec (.patrolScrub w n true) s = .next t ∧ t.mem = s.mem ∧ t.cores = s.cores ∧
      t.fw.ce.get? (errDie w) = some (min (2 ^ 32 - 1) (s.fw.ce.getD (errDie w) 0 + 1))) ∧
    (∀ w n, errReal n w = true → ∃ t, exec (.patrolScrub w n false) s = .next t ∧ t.mem.bytes = s.mem.bytes ∧ t.mem.scratch = s.mem.scratch ∧
      t.fw.ue.get? (errDie w) = some (min (2 ^ 16 - 1) (s.fw.ue.getD (errDie w) 0 + 1))) ∧
    (∀ line unit, isHbm line = true → unit < 4 → (s.mem.hcache.get? line = none ∨ ∃ h, s.mem.hcache.get? line = some h ∧ h.dirty = true) →
      ∃ t, exec (.patrolScrub (.home line) unit false) s = .next t ∧ line * 4 + unit ∈ t.mem.poison ∧ t.mem.hcache = s.mem.hcache) ∧
    (∀ line unit h, isHbm line = true → unit < 4 → s.mem.hcache.get? line = some h → h.dirty = false → h.reading = false →
      ∃ t, exec (.patrolScrub (.home line) unit false) s = .next t ∧ t.mem.poison = s.mem.poison ∧
        t.mem.hcache.get? line = some { h with reading := true } ∧ Instr.hbmReadReturn line ∈ t.due) ∧
    (∀ core key word l, core < 512 → word < 32 → (s.core core).l1.get? key = some l → ∃ t l', exec (.patrolScrub (.l1 core key) word false) s = .next t ∧
      (t.core core).l1.get? key = some l' ∧
      ((∀ i, i < 4 → ∀ b, l.bytes.get? (word * 4 + i) = some b → b.dirty = false) → l'.bad = l.bad ∧ ∀ i, i < 4 → l'.bytes.get? (word * 4 + i) = none) ∧
      ((∃ i b, i < 4 ∧ l.bytes.get? (word * 4 + i) = some b ∧ b.dirty = true) → word ∈ l'.bad ∧ l'.bytes = l.bytes)) ∧
    (∀ core word, core < 512 → word < 114688 → ∃ t, exec (.patrolScrub (.spad core) word false) s = .next t ∧ wordKey core (word * 4) ∈ t.mem.spadBad) ∧
    (∀ die index m, die < 4 → index < spoilRoom → m ∈ s.mem.mons → m.spoil = true → m.die = die → m.index = index →
      ∃ t, exec (.patrolScrub (.spoil die) index false) s = .next t ∧ Instr.contextEnd (s.ctxOfMon m) ∈ t.due)

/-- The machine right after power is applied (R510): every cluster is gated and every matrix array disabled, nothing is resident, no context exists, bring-up stands at step 1 with its power-up under way, the first step takes it to step 2, and memory is in canonical form. That memory then reads as zero is the model's choice (log 1). -/
def Obligations.ResetState : Prop :=
  State.reset.memWf ∧ (∀ c, (State.reset.core c).gated = true ∧ (State.reset.core c).marray = false ∧ (State.reset.core c).mown = 0) ∧
  (∀ n, State.reset.threads.get? n = none ∧ State.reset.crews.get? n = none ∧ State.reset.ctx? n = none ∧ State.reset.queue? n = none) ∧
  State.reset.dev.step = 1 ∧ State.reset.cur = none ∧ (∀ a, State.reset.mem.bytes.read a = 0) ∧ ∃ t, step State.reset = .next t ∧ t.dev.step = 2 ∧ t.memWf

/-- Every step keeps the memory invariant: device, host and peer memory and every scratchpad stay in the one canonical form (log 1). -/
def Obligations.StepKeepsMemory : Prop :=
  ∀ (s t : State), s.memWf → step s = .next t → t.memWf
end

