-- ==== Sys2Proof/Laws/FMap.lean ====
section
/-!
SUPPORT. Laws of the sparse maps: a read after a write, and what keeps the canonical form.
The reads hold for every map; only the canonical form speaks of the order of the keys.
-/
namespace Sys2Proof

variable {α β : Type}

/-! ### Reads -/

@[simp] theorem FMap.get?_empty (a : Nat) : (FMap.empty : FMap α).get? a = none := rfl

theorem lookup_insert_same (l : List (Nat × α)) (a : Nat) (x : α) : lookupCells (insertCells l a x) a = some x := by
  induction l with
  | nil => simp [insertCells, lookupCells]
  | cons p r ih => obtain ⟨k, v⟩ := p; simp only [insertCells]; split <;> (try split) <;> simp_all [lookupCells]

theorem lookup_insert_other (l : List (Nat × α)) {a b : Nat} (x : α) (h : b ≠ a) :
    lookupCells (insertCells l a x) b = lookupCells l b := by
  induction l with
  | nil => simp [insertCells, lookupCells, Ne.symm h]
  | cons p r ih => obtain ⟨k, v⟩ := p; simp only [insertCells]; split <;> (try split) <;> simp_all [lookupCells, Ne.symm h]

theorem lookup_erase_same (l : List (Nat × α)) (a : Nat) : lookupCells (eraseCells l a) a = none := by
  induction l with
  | nil => rfl
  | cons p r ih => obtain ⟨k, v⟩ := p; simp only [eraseCells]; split <;> simp_all [lookupCells]

theorem lookup_erase_other (l : List (Nat × α)) {a b : Nat} (h : b ≠ a) : lookupCells (eraseCells l a) b = lookupCells l b := by
  induction l with
  | nil => rfl
  | cons p r ih => obtain ⟨k, v⟩ := p; simp only [eraseCells]; split <;> simp_all [lookupCells, Ne.symm h]

@[simp] theorem FMap.get?_put_same (m : FMap α) (a : Nat) (x : α) : (m.put a x).get? a = some x := lookup_insert_same _ _ _

theorem FMap.get?_put_other (m : FMap α) {a b : Nat} (x : α) (h : b ≠ a) : (m.put a x).get? b = m.get? b :=
  lookup_insert_other _ x h

theorem FMap.get?_put (m : FMap α) (a b : Nat) (x : α) : (m.put a x).get? b = if b = a then some x else m.get? b := by
  split
  · simp_all
  · exact FMap.get?_put_other m x ‹_›

@[simp] theorem FMap.get?_del_same (m : FMap α) (a : Nat) : (m.del a).get? a = none := lookup_erase_same _ _

theorem FMap.get?_del_other (m : FMap α) {a b : Nat} (h : b ≠ a) : (m.del a).get? b = m.get? b := lookup_erase_other _ h

theorem FMap.get?_del (m : FMap α) (a b : Nat) : (m.del a).get? b = if b = a then none else m.get? b := by
  split
  · simp_all
  · exact FMap.get?_del_other m ‹_›

theorem FMap.get?_adjust (m : FMap α) (a b : Nat) (f : α → α) :
    (m.adjust a f).get? b = if b = a then (m.get? a).map f else m.get? b := by
  unfold FMap.adjust
  cases h : m.get? a <;> simp only [FMap.get?_put, Option.map] <;> split <;> simp_all

@[simp] theorem FMap.get?_adjust_same (m : FMap α) (a : Nat) (f : α → α) : (m.adjust a f).get? a = (m.get? a).map f := by
  simp [FMap.get?_adjust]

theorem FMap.get?_adjust_other (m : FMap α) {a b : Nat} (f : α → α) (h : b ≠ a) : (m.adjust a f).get? b = m.get? b := by
  simp [FMap.get?_adjust, h]

@[simp] theorem FMap.getD_putD_same [DecidableEq α] (m : FMap α) (a : Nat) (d x : α) : (m.putD a d x).getD a d = x := by
  unfold FMap.putD FMap.getD; split <;> simp_all

theorem FMap.getD_putD_other [DecidableEq α] (m : FMap α) {a b : Nat} (d x : α) (h : b ≠ a) :
    (m.putD a d x).getD b d = m.getD b d := by
  unfold FMap.putD FMap.getD; split <;> simp [FMap.get?_del, FMap.get?_put, h]

theorem FMap.getD_putD [DecidableEq α] (m : FMap α) (a b : Nat) (d x : α) :
    (m.putD a d x).getD b d = if b = a then x else m.getD b d := by
  split
  · simp_all
  · exact FMap.getD_putD_other m d x ‹_›

theorem lookup_map (l : List (Nat × α)) (f : Nat → α → β) (a : Nat) :
    lookupCells (l.map fun p => (p.1, f p.1 p.2)) a = (lookupCells l a).map (f a) := by
  induction l with
  | nil => rfl
  | cons p r ih => obtain ⟨k, v⟩ := p; simp only [List.map_cons, lookupCells]; split <;> simp_all

@[simp] theorem FMap.get?_map (m : FMap α) (f : Nat → α → β) (a : Nat) : (m.map f).get? a = (m.get? a).map (f a) := lookup_map _ _ _

theorem lookup_filter (l : List (Nat × α)) (f : Nat → Bool) (a : Nat) :
    lookupCells (l.filter fun p => f p.1) a = if f a then lookupCells l a else none := by
  induction l with
  | nil => simp [lookupCells]
  | cons p r ih =>
    obtain ⟨k, v⟩ := p
    by_cases h : k = a <;> cases hf : f k <;> simp_all [lookupCells]

theorem FMap.get?_filter_key (m : FMap α) (f : Nat → Bool) (a : Nat) :
    (m.filter fun k _ => f k).get? a = if f a then m.get? a else none := lookup_filter _ _ _

/-- A listed pair has the value that a lookup gives, or a pair before it hides it: a lookup that answers answers a listed pair. -/
theorem mem_of_lookup {l : List (Nat × α)} {a : Nat} {x : α} (h : lookupCells l a = some x) : (a, x) ∈ l := by
  induction l with
  | nil => simp [lookupCells] at h
  | cons p r ih =>
    obtain ⟨k, v⟩ := p
    simp only [lookupCells] at h
    split at h <;> simp_all

/-! ### The canonical form -/

/-- Whether a key may follow a bound. -/
def above (b : Option Nat) (k : Nat) : Prop := match b with | none => True | some n => n < k

theorem rising_cons {b : Option Nat} {k : Nat} {v : α} {r : List (Nat × α)} :
    risingFrom b ((k, v) :: r) = true ↔ above b k ∧ risingFrom (some k) r = true := by
  cases b <;> simp [risingFrom, above]

theorem rising_weaken {l : List (Nat × α)} {b : Option Nat} {n : Nat} (h : risingFrom (some n) l = true) (hb : ∀ k, n < k → above b k) :
    risingFrom b l = true := by
  cases l with
  | nil => cases b <;> simp [risingFrom]
  | cons p r =>
    obtain ⟨k, v⟩ := p
    rw [rising_cons] at h ⊢
    exact ⟨hb k h.1, h.2⟩

theorem rising_insert {l : List (Nat × α)} {b : Option Nat} {a : Nat} (x : α) (h : risingFrom b l = true) (ha : above b a) :
    risingFrom b (insertCells l a x) = true := by
  induction l generalizing b with
  | nil => simp only [insertCells]; rw [rising_cons]; exact ⟨ha, rfl⟩
  | cons p r ih =>
    obtain ⟨k, v⟩ := p
    rw [rising_cons] at h
    simp only [insertCells]
    split
    · subst k; rw [rising_cons]; exact h
    · split
      · rw [rising_cons, rising_cons]; exact ⟨ha, ‹_›, h.2⟩
      · rw [rising_cons]; exact ⟨h.1, ih h.2 (by simp only [above]; omega)⟩

theorem rising_filter {l : List (Nat × α)} {b : Option Nat} (f : Nat × α → Bool) (h : risingFrom b l = true) :
    risingFrom b (l.filter f) = true := by
  induction l generalizing b with
  | nil => simpa using h
  | cons p r ih =>
    obtain ⟨k, v⟩ := p
    rw [rising_cons] at h
    simp only [List.filter_cons]
    split
    · rw [rising_cons]; exact ⟨h.1, ih h.2⟩
    · refine rising_weaken (ih h.2) fun j hj => ?_
      cases b with
      | none => trivial
      | some n => have := h.1; simp only [above] at this ⊢; omega

theorem erase_eq_filter (l : List (Nat × α)) (a : Nat) : eraseCells l a = l.filter fun p => p.1 != a := by
  induction l with
  | nil => rfl
  | cons p r ih => obtain ⟨k, v⟩ := p; simp only [eraseCells, List.filter_cons]; split <;> simp_all

theorem FMap.rising_put {m : FMap α} (a : Nat) (x : α) (h : m.rising = true) : (m.put a x).rising = true :=
  rising_insert x h trivial

theorem FMap.rising_filter {m : FMap α} (f : Nat → α → Bool) (h : m.rising = true) : (m.filter f).rising = true :=
  Sys2Proof.rising_filter _ h

theorem FMap.rising_del {m : FMap α} (a : Nat) (h : m.rising = true) : (m.del a).rising = true := by
  unfold FMap.del FMap.rising; rw [erase_eq_filter]; exact Sys2Proof.rising_filter _ h

theorem all_insert {l : List (Nat × α)} {p : α → Bool} {a : Nat} {x : α} (h : l.all (fun q => p q.2) = true) (hx : p x = true) :
    (insertCells l a x).all (fun q => p q.2) = true := by
  induction l with
  | nil => simpa [insertCells] using hx
  | cons q r ih =>
    obtain ⟨k, v⟩ := q
    simp only [List.all_cons, Bool.and_eq_true] at h
    simp only [insertCells]
    split <;> (try split) <;> simp only [List.all_cons, Bool.and_eq_true] <;> grind

theorem FMap.wf_filter [DecidableEq α] {m : FMap α} {d : α} (f : Nat → α → Bool) (h : m.wf d = true) : (m.filter f).wf d = true := by
  simp only [FMap.wf, Bool.and_eq_true] at h ⊢
  refine ⟨FMap.rising_filter f h.1, ?_⟩
  have := h.2
  simp only [FMap.all, FMap.filter, List.all_eq_true, List.mem_filter] at this ⊢
  exact fun p hp => this p hp.1

theorem FMap.wf_del [DecidableEq α] {m : FMap α} {d : α} (a : Nat) (h : m.wf d = true) : (m.del a).wf d = true := by
  have : m.del a = m.filter fun k _ => k != a := by simp [FMap.del, FMap.filter, erase_eq_filter]
  rw [this]; exact FMap.wf_filter _ h

/-- Writing keeps the canonical form: a default is unlisted, anything else is listed in its place. -/
theorem FMap.wf_putD [DecidableEq α] {m : FMap α} {d : α} (a : Nat) (x : α) (h : m.wf d = true) : (m.putD a d x).wf d = true := by
  unfold FMap.putD
  split
  · exact FMap.wf_del a h
  · simp only [FMap.wf, Bool.and_eq_true] at h ⊢
    exact ⟨FMap.rising_put a x h.1, all_insert (p := fun y => decide (y ≠ d)) h.2 (by simpa using ‹_›)⟩

theorem FMap.wf_empty [DecidableEq α] (d : α) : (FMap.empty : FMap α).wf d = true := rfl

end Sys2Proof
end

