-- ==== Sys2Proof/Laws/Memory.lean ====
section
/-!
SUPPORT. Laws of memory: a read after a write, what a write leaves alone, and that every memory operation keeps the canonical form.
-/
namespace Sys2Proof.Machine

/-! ### Reads after writes -/

@[simp] theorem Memory.read_write_same (m : Memory) (a : Nat) (b : Byte) : (m.write a b).read a = b :=
  FMap.getD_putD_same m a emptyByte b

theorem Memory.read_write_other (m : Memory) {a c : Nat} (b : Byte) (h : c ≠ a) : (m.write a b).read c = m.read c :=
  FMap.getD_putD_other m emptyByte b h

theorem Memory.read_write (m : Memory) (a c : Nat) (b : Byte) : (m.write a b).read c = if c = a then b else m.read c :=
  FMap.getD_putD m a c emptyByte b

theorem Memory.read_writeN_outside (m : Memory) (a c : Nat) (l : List Byte) (h : c < a ∨ a + l.length ≤ c) :
    (m.writeN a l).read c = m.read c := by
  induction l generalizing m a with
  | nil => rfl
  | cons b r ih =>
    simp only [List.length_cons] at h
    simp only [Memory.writeN]
    rw [ih _ _ (by omega), Memory.read_write_other _ _ (by omega)]

theorem Memory.read_writeN_inside (m : Memory) (a i : Nat) (l : List Byte) (h : i < l.length) :
    (m.writeN a l).read (a + i) = l[i] := by
  induction l generalizing m a i with
  | nil => simp at h
  | cons b r ih =>
    simp only [Memory.writeN]
    cases i with
    | zero => rw [Memory.read_writeN_outside _ _ _ _ (by omega)]; simp
    | succ i =>
      have := ih (m.write a b) (a + 1) i (by simpa using h)
      rw [show a + (i + 1) = a + 1 + i by omega, this]; simp

theorem Memory.readN_length (m : Memory) (a n : Nat) : (m.readN a n).length = n := by simp [Memory.readN]

theorem Memory.readN_writeN (m : Memory) (a : Nat) (l : List Byte) : (m.writeN a l).readN a l.length = l := by
  apply List.ext_getElem
  · simp [Memory.readN]
  · intro i h1 h2
    simp only [Memory.readN, List.getElem_map, List.getElem_range]
    exact Memory.read_writeN_inside m a i l h2

theorem Memory.read_writeAt_outside (m : Memory) (base c : Nat) (l : LineBytes) (h : ∀ p ∈ l, c ≠ base + p.1) :
    (m.writeAt base l).read c = m.read c := by
  unfold Memory.writeAt
  induction l generalizing m with
  | nil => rfl
  | cons p r ih =>
    simp only [List.foldl_cons]
    rw [ih _ fun q hq => h q (List.mem_cons_of_mem _ hq), Memory.read_write_other _ _ (h p List.mem_cons_self)]

/-! ### The canonical form is kept -/

theorem Memory.wf_write {m : Memory} (a : Nat) (b : Byte) (h : m.wf = true) : (m.write a b).wf = true := FMap.wf_putD a b h

theorem Memory.wf_foldl {α : Type} {m : Memory} (l : List α) (a : α → Nat) (b : α → Byte) (h : m.wf = true) :
    Memory.wf (l.foldl (fun (x : Memory) p => x.write (a p) (b p)) m) = true := by
  induction l generalizing m with
  | nil => exact h
  | cons p r ih => exact ih (Memory.wf_write _ _ h)

theorem Memory.wf_writeN {m : Memory} (a : Nat) (l : List Byte) (h : m.wf = true) : (m.writeN a l).wf = true := by
  induction l generalizing m a with
  | nil => exact h
  | cons b r ih => exact ih _ (Memory.wf_write _ _ h)

theorem Memory.wf_writeAt {m : Memory} (base : Nat) (l : LineBytes) (h : m.wf = true) : (m.writeAt base l).wf = true :=
  Memory.wf_foldl l (fun p => base + p.1) Prod.snd h

theorem Memory.wf_filter {m : Memory} (f : Nat → Byte → Bool) (h : m.wf = true) : Memory.wf (m.filter f) = true := FMap.wf_filter f h

theorem Memory.wf_empty : Memory.wf FMap.empty = true := rfl

/-- The memory after reset is in canonical form. -/
theorem reset_memWf : State.reset.memWf := ⟨rfl, rfl⟩

/-! ### Bytes and numbers -/

theorem bytesOf_length (n x : Nat) : (bytesOf n x).length = n := by
  induction n generalizing x with
  | zero => rfl
  | succ n ih => simp [bytesOf, ih]

theorem natOf_bytesOf (n x : Nat) : natOf (bytesOf n x) = x % 256 ^ n := by
  induction n generalizing x with
  | zero => simp [bytesOf, natOf, Nat.mod_one]
  | succ n ih =>
    have h : x % 256 ^ (n + 1) = x % 256 + 256 * (x / 256 % 256 ^ n) := by
      rw [Nat.pow_succ, Nat.mul_comm (256 ^ n) 256, Nat.mod_mul]
    simp only [bytesOf, natOf, ih, BitVec.toNat_ofNat, h]

end Sys2Proof.Machine
end

