-- ==== Sys2Proof/Laws/State.lean ====
section
/-!
SUPPORT. The fields of a state after each of the named updates: one lemma for each field and update.
-/
namespace Sys2Proof.Machine

variable (s : State)

/-! ### updCore -/

@[simp] theorem State.updCore_threads (c : Nat) (f : Core → Core) : (s.updCore c f).threads = s.threads := rfl
@[simp] theorem State.updCore_groups (c : Nat) (f : Core → Core) : (s.updCore c f).groups = s.groups := rfl
@[simp] theorem State.updCore_crews (c : Nat) (f : Core → Core) : (s.updCore c f).crews = s.crews := rfl
@[simp] theorem State.updCore_cores (c : Nat) (f : Core → Core) : (s.updCore c f).cores = s.cores.put c (f (s.core c)) := rfl
@[simp] theorem State.updCore_mem (c : Nat) (f : Core → Core) : (s.updCore c f).mem = s.mem := rfl
@[simp] theorem State.updCore_ops (c : Nat) (f : Core → Core) : (s.updCore c f).ops = s.ops := rfl
@[simp] theorem State.updCore_fw (c : Nat) (f : Core → Core) : (s.updCore c f).fw = s.fw := rfl
@[simp] theorem State.updCore_dev (c : Nat) (f : Core → Core) : (s.updCore c f).dev = s.dev := rfl
@[simp] theorem State.updCore_sq (c : Nat) (f : Core → Core) : (s.updCore c f).sq = s.sq := rfl
@[simp] theorem State.updCore_due (c : Nat) (f : Core → Core) : (s.updCore c f).due = s.due := rfl
@[simp] theorem State.updCore_picks (c : Nat) (f : Core → Core) : (s.updCore c f).picks = s.picks := rfl
@[simp] theorem State.updCore_cur (c : Nat) (f : Core → Core) : (s.updCore c f).cur = s.cur := rfl
@[simp] theorem State.updCore_free (c : Nat) (f : Core → Core) : (s.updCore c f).free = s.free := rfl
@[simp] theorem State.updCore_fresh (c : Nat) (f : Core → Core) : (s.updCore c f).fresh = s.fresh := rfl
@[simp] theorem State.updCore_turn (c : Nat) (f : Core → Core) : (s.updCore c f).turn = s.turn := rfl

/-! ### updThread -/

@[simp] theorem State.updThread_threads (k : Nat) (f : Thread → Thread) : (s.updThread k f).threads = s.threads.adjust k f := rfl
@[simp] theorem State.updThread_groups (k : Nat) (f : Thread → Thread) : (s.updThread k f).groups = s.groups := rfl
@[simp] theorem State.updThread_crews (k : Nat) (f : Thread → Thread) : (s.updThread k f).crews = s.crews := rfl
@[simp] theorem State.updThread_cores (k : Nat) (f : Thread → Thread) : (s.updThread k f).cores = s.cores := rfl
@[simp] theorem State.updThread_mem (k : Nat) (f : Thread → Thread) : (s.updThread k f).mem = s.mem := rfl
@[simp] theorem State.updThread_ops (k : Nat) (f : Thread → Thread) : (s.updThread k f).ops = s.ops := rfl
@[simp] theorem State.updThread_fw (k : Nat) (f : Thread → Thread) : (s.updThread k f).fw = s.fw := rfl
@[simp] theorem State.updThread_dev (k : Nat) (f : Thread → Thread) : (s.updThread k f).dev = s.dev := rfl
@[simp] theorem State.updThread_sq (k : Nat) (f : Thread → Thread) : (s.updThread k f).sq = s.sq := rfl
@[simp] theorem State.updThread_due (k : Nat) (f : Thread → Thread) : (s.updThread k f).due = s.due := rfl
@[simp] theorem State.updThread_picks (k : Nat) (f : Thread → Thread) : (s.updThread k f).picks = s.picks := rfl
@[simp] theorem State.updThread_cur (k : Nat) (f : Thread → Thread) : (s.updThread k f).cur = s.cur := rfl
@[simp] theorem State.updThread_free (k : Nat) (f : Thread → Thread) : (s.updThread k f).free = s.free := rfl
@[simp] theorem State.updThread_fresh (k : Nat) (f : Thread → Thread) : (s.updThread k f).fresh = s.fresh := rfl
@[simp] theorem State.updThread_turn (k : Nat) (f : Thread → Thread) : (s.updThread k f).turn = s.turn := rfl

/-! ### updGroup -/

@[simp] theorem State.updGroup_threads (k : Nat) (f : Group → Group) : (s.updGroup k f).threads = s.threads := rfl
@[simp] theorem State.updGroup_groups (k : Nat) (f : Group → Group) : (s.updGroup k f).groups = s.groups.adjust k f := rfl
@[simp] theorem State.updGroup_crews (k : Nat) (f : Group → Group) : (s.updGroup k f).crews = s.crews := rfl
@[simp] theorem State.updGroup_cores (k : Nat) (f : Group → Group) : (s.updGroup k f).cores = s.cores := rfl
@[simp] theorem State.updGroup_mem (k : Nat) (f : Group → Group) : (s.updGroup k f).mem = s.mem := rfl
@[simp] theorem State.updGroup_ops (k : Nat) (f : Group → Group) : (s.updGroup k f).ops = s.ops := rfl
@[simp] theorem State.updGroup_fw (k : Nat) (f : Group → Group) : (s.updGroup k f).fw = s.fw := rfl
@[simp] theorem State.updGroup_dev (k : Nat) (f : Group → Group) : (s.updGroup k f).dev = s.dev := rfl
@[simp] theorem State.updGroup_sq (k : Nat) (f : Group → Group) : (s.updGroup k f).sq = s.sq := rfl
@[simp] theorem State.updGroup_due (k : Nat) (f : Group → Group) : (s.updGroup k f).due = s.due := rfl
@[simp] theorem State.updGroup_picks (k : Nat) (f : Group → Group) : (s.updGroup k f).picks = s.picks := rfl
@[simp] theorem State.updGroup_cur (k : Nat) (f : Group → Group) : (s.updGroup k f).cur = s.cur := rfl
@[simp] theorem State.updGroup_free (k : Nat) (f : Group → Group) : (s.updGroup k f).free = s.free := rfl
@[simp] theorem State.updGroup_fresh (k : Nat) (f : Group → Group) : (s.updGroup k f).fresh = s.fresh := rfl
@[simp] theorem State.updGroup_turn (k : Nat) (f : Group → Group) : (s.updGroup k f).turn = s.turn := rfl

/-! ### updCrew -/

@[simp] theorem State.updCrew_threads (k : Nat) (f : Crew → Crew) : (s.updCrew k f).threads = s.threads := rfl
@[simp] theorem State.updCrew_groups (k : Nat) (f : Crew → Crew) : (s.updCrew k f).groups = s.groups := rfl
@[simp] theorem State.updCrew_crews (k : Nat) (f : Crew → Crew) : (s.updCrew k f).crews = s.crews.adjust k f := rfl
@[simp] theorem State.updCrew_cores (k : Nat) (f : Crew → Crew) : (s.updCrew k f).cores = s.cores := rfl
@[simp] theorem State.updCrew_mem (k : Nat) (f : Crew → Crew) : (s.updCrew k f).mem = s.mem := rfl
@[simp] theorem State.updCrew_ops (k : Nat) (f : Crew → Crew) : (s.updCrew k f).ops = s.ops := rfl
@[simp] theorem State.updCrew_fw (k : Nat) (f : Crew → Crew) : (s.updCrew k f).fw = s.fw := rfl
@[simp] theorem State.updCrew_dev (k : Nat) (f : Crew → Crew) : (s.updCrew k f).dev = s.dev := rfl
@[simp] theorem State.updCrew_sq (k : Nat) (f : Crew → Crew) : (s.updCrew k f).sq = s.sq := rfl
@[simp] theorem State.updCrew_due (k : Nat) (f : Crew → Crew) : (s.updCrew k f).due = s.due := rfl
@[simp] theorem State.updCrew_picks (k : Nat) (f : Crew → Crew) : (s.updCrew k f).picks = s.picks := rfl
@[simp] theorem State.updCrew_cur (k : Nat) (f : Crew → Crew) : (s.updCrew k f).cur = s.cur := rfl
@[simp] theorem State.updCrew_free (k : Nat) (f : Crew → Crew) : (s.updCrew k f).free = s.free := rfl
@[simp] theorem State.updCrew_fresh (k : Nat) (f : Crew → Crew) : (s.updCrew k f).fresh = s.fresh := rfl
@[simp] theorem State.updCrew_turn (k : Nat) (f : Crew → Crew) : (s.updCrew k f).turn = s.turn := rfl

/-! ### updMem -/

@[simp] theorem State.updMem_threads (f : MemSys → MemSys) : (s.updMem f).threads = s.threads := rfl
@[simp] theorem State.updMem_groups (f : MemSys → MemSys) : (s.updMem f).groups = s.groups := rfl
@[simp] theorem State.updMem_crews (f : MemSys → MemSys) : (s.updMem f).crews = s.crews := rfl
@[simp] theorem State.updMem_cores (f : MemSys → MemSys) : (s.updMem f).cores = s.cores := rfl
@[simp] theorem State.updMem_mem (f : MemSys → MemSys) : (s.updMem f).mem = f s.mem := rfl
@[simp] theorem State.updMem_ops (f : MemSys → MemSys) : (s.updMem f).ops = s.ops := rfl
@[simp] theorem State.updMem_fw (f : MemSys → MemSys) : (s.updMem f).fw = s.fw := rfl
@[simp] theorem State.updMem_dev (f : MemSys → MemSys) : (s.updMem f).dev = s.dev := rfl
@[simp] theorem State.updMem_sq (f : MemSys → MemSys) : (s.updMem f).sq = s.sq := rfl
@[simp] theorem State.updMem_due (f : MemSys → MemSys) : (s.updMem f).due = s.due := rfl
@[simp] theorem State.updMem_picks (f : MemSys → MemSys) : (s.updMem f).picks = s.picks := rfl
@[simp] theorem State.updMem_cur (f : MemSys → MemSys) : (s.updMem f).cur = s.cur := rfl
@[simp] theorem State.updMem_free (f : MemSys → MemSys) : (s.updMem f).free = s.free := rfl
@[simp] theorem State.updMem_fresh (f : MemSys → MemSys) : (s.updMem f).fresh = s.fresh := rfl
@[simp] theorem State.updMem_turn (f : MemSys → MemSys) : (s.updMem f).turn = s.turn := rfl

/-! ### updFw -/

@[simp] theorem State.updFw_threads (f : Fw → Fw) : (s.updFw f).threads = s.threads := rfl
@[simp] theorem State.updFw_groups (f : Fw → Fw) : (s.updFw f).groups = s.groups := rfl
@[simp] theorem State.updFw_crews (f : Fw → Fw) : (s.updFw f).crews = s.crews := rfl
@[simp] theorem State.updFw_cores (f : Fw → Fw) : (s.updFw f).cores = s.cores := rfl
@[simp] theorem State.updFw_mem (f : Fw → Fw) : (s.updFw f).mem = s.mem := rfl
@[simp] theorem State.updFw_ops (f : Fw → Fw) : (s.updFw f).ops = s.ops := rfl
@[simp] theorem State.updFw_fw (f : Fw → Fw) : (s.updFw f).fw = f s.fw := rfl
@[simp] theorem State.updFw_dev (f : Fw → Fw) : (s.updFw f).dev = s.dev := rfl
@[simp] theorem State.updFw_sq (f : Fw → Fw) : (s.updFw f).sq = s.sq := rfl
@[simp] theorem State.updFw_due (f : Fw → Fw) : (s.updFw f).due = s.due := rfl
@[simp] theorem State.updFw_picks (f : Fw → Fw) : (s.updFw f).picks = s.picks := rfl
@[simp] theorem State.updFw_cur (f : Fw → Fw) : (s.updFw f).cur = s.cur := rfl
@[simp] theorem State.updFw_free (f : Fw → Fw) : (s.updFw f).free = s.free := rfl
@[simp] theorem State.updFw_fresh (f : Fw → Fw) : (s.updFw f).fresh = s.fresh := rfl
@[simp] theorem State.updFw_turn (f : Fw → Fw) : (s.updFw f).turn = s.turn := rfl

/-! ### updDev -/

@[simp] theorem State.updDev_threads (f : Dev → Dev) : (s.updDev f).threads = s.threads := rfl
@[simp] theorem State.updDev_groups (f : Dev → Dev) : (s.updDev f).groups = s.groups := rfl
@[simp] theorem State.updDev_crews (f : Dev → Dev) : (s.updDev f).crews = s.crews := rfl
@[simp] theorem State.updDev_cores (f : Dev → Dev) : (s.updDev f).cores = s.cores := rfl
@[simp] theorem State.updDev_mem (f : Dev → Dev) : (s.updDev f).mem = s.mem := rfl
@[simp] theorem State.updDev_ops (f : Dev → Dev) : (s.updDev f).ops = s.ops := rfl
@[simp] theorem State.updDev_fw (f : Dev → Dev) : (s.updDev f).fw = s.fw := rfl
@[simp] theorem State.updDev_dev (f : Dev → Dev) : (s.updDev f).dev = f s.dev := rfl
@[simp] theorem State.updDev_sq (f : Dev → Dev) : (s.updDev f).sq = s.sq := rfl
@[simp] theorem State.updDev_due (f : Dev → Dev) : (s.updDev f).due = s.due := rfl
@[simp] theorem State.updDev_picks (f : Dev → Dev) : (s.updDev f).picks = s.picks := rfl
@[simp] theorem State.updDev_cur (f : Dev → Dev) : (s.updDev f).cur = s.cur := rfl
@[simp] theorem State.updDev_free (f : Dev → Dev) : (s.updDev f).free = s.free := rfl
@[simp] theorem State.updDev_fresh (f : Dev → Dev) : (s.updDev f).fresh = s.fresh := rfl
@[simp] theorem State.updDev_turn (f : Dev → Dev) : (s.updDev f).turn = s.turn := rfl

/-! ### post -/

@[simp] theorem State.post_threads (e : Instr) : (s.post e).threads = s.threads := rfl
@[simp] theorem State.post_groups (e : Instr) : (s.post e).groups = s.groups := rfl
@[simp] theorem State.post_crews (e : Instr) : (s.post e).crews = s.crews := rfl
@[simp] theorem State.post_cores (e : Instr) : (s.post e).cores = s.cores := rfl
@[simp] theorem State.post_mem (e : Instr) : (s.post e).mem = s.mem := rfl
@[simp] theorem State.post_ops (e : Instr) : (s.post e).ops = s.ops := rfl
@[simp] theorem State.post_fw (e : Instr) : (s.post e).fw = s.fw := rfl
@[simp] theorem State.post_dev (e : Instr) : (s.post e).dev = s.dev := rfl
@[simp] theorem State.post_sq (e : Instr) : (s.post e).sq = s.sq := rfl
@[simp] theorem State.post_due (e : Instr) : (s.post e).due = s.due ++ [e] := rfl
@[simp] theorem State.post_picks (e : Instr) : (s.post e).picks = s.picks := rfl
@[simp] theorem State.post_cur (e : Instr) : (s.post e).cur = s.cur := rfl
@[simp] theorem State.post_free (e : Instr) : (s.post e).free = s.free := rfl
@[simp] theorem State.post_fresh (e : Instr) : (s.post e).fresh = s.fresh := rfl
@[simp] theorem State.post_turn (e : Instr) : (s.post e).turn = s.turn := rfl

/-! ### post, unless it is in flight -/

@[simp] theorem State.postOnce_threads (e : Instr) : (s.postOnce e).threads = s.threads := by unfold State.postOnce; split <;> rfl
@[simp] theorem State.postOnce_groups (e : Instr) : (s.postOnce e).groups = s.groups := by unfold State.postOnce; split <;> rfl
@[simp] theorem State.postOnce_crews (e : Instr) : (s.postOnce e).crews = s.crews := by unfold State.postOnce; split <;> rfl
@[simp] theorem State.postOnce_cores (e : Instr) : (s.postOnce e).cores = s.cores := by unfold State.postOnce; split <;> rfl
@[simp] theorem State.postOnce_mem (e : Instr) : (s.postOnce e).mem = s.mem := by unfold State.postOnce; split <;> rfl
@[simp] theorem State.postOnce_ops (e : Instr) : (s.postOnce e).ops = s.ops := by unfold State.postOnce; split <;> rfl
@[simp] theorem State.postOnce_fw (e : Instr) : (s.postOnce e).fw = s.fw := by unfold State.postOnce; split <;> rfl
@[simp] theorem State.postOnce_dev (e : Instr) : (s.postOnce e).dev = s.dev := by unfold State.postOnce; split <;> rfl
@[simp] theorem State.postOnce_sq (e : Instr) : (s.postOnce e).sq = s.sq := by unfold State.postOnce; split <;> rfl
@[simp] theorem State.postOnce_picks (e : Instr) : (s.postOnce e).picks = s.picks := by unfold State.postOnce; split <;> rfl
@[simp] theorem State.postOnce_cur (e : Instr) : (s.postOnce e).cur = s.cur := by unfold State.postOnce; split <;> rfl
@[simp] theorem State.postOnce_free (e : Instr) : (s.postOnce e).free = s.free := by unfold State.postOnce; split <;> rfl
@[simp] theorem State.postOnce_fresh (e : Instr) : (s.postOnce e).fresh = s.fresh := by unfold State.postOnce; split <;> rfl
@[simp] theorem State.postOnce_turn (e : Instr) : (s.postOnce e).turn = s.turn := by unfold State.postOnce; split <;> rfl
theorem State.postOnce_due (e : Instr) : (s.postOnce e).due = if s.due.contains e then s.due else s.due ++ [e] := by
  unfold State.postOnce; split <;> rfl
theorem State.mem_postOnce (e : Instr) : e ∈ (s.postOnce e).due := by
  unfold State.postOnce; split
  · exact List.contains_iff_mem.mp ‹_›
  · simp

/-! ### draw -/

@[simp] theorem State.draw_snd : s.draw.2 = s.fresh := rfl
@[simp] theorem State.draw_threads : s.draw.1.threads = s.threads := rfl
@[simp] theorem State.draw_groups : s.draw.1.groups = s.groups := rfl
@[simp] theorem State.draw_crews : s.draw.1.crews = s.crews := rfl
@[simp] theorem State.draw_cores : s.draw.1.cores = s.cores := rfl
@[simp] theorem State.draw_mem : s.draw.1.mem = s.mem := rfl
@[simp] theorem State.draw_ops : s.draw.1.ops = s.ops := rfl
@[simp] theorem State.draw_fw : s.draw.1.fw = s.fw := rfl
@[simp] theorem State.draw_dev : s.draw.1.dev = s.dev := rfl
@[simp] theorem State.draw_sq : s.draw.1.sq = s.sq := rfl
@[simp] theorem State.draw_due : s.draw.1.due = s.due := rfl
@[simp] theorem State.draw_picks : s.draw.1.picks = s.picks := rfl
@[simp] theorem State.draw_cur : s.draw.1.cur = s.cur := rfl
@[simp] theorem State.draw_free : s.draw.1.free = s.free := rfl
@[simp] theorem State.draw_fresh : s.draw.1.fresh = s.fresh + 1 := rfl
@[simp] theorem State.draw_turn : s.draw.1.turn = s.turn := rfl

/-! ### Lookups after an update -/

@[simp] theorem State.core_updCore_same (c : Nat) (f : Core → Core) : (s.updCore c f).core c = f (s.core c) := by
  simp [State.core, FMap.getD]

theorem State.core_updCore_other {c d : Nat} (f : Core → Core) (h : d ≠ c) : (s.updCore c f).core d = s.core d := by
  simp [State.core, FMap.getD, FMap.get?_put_other _ _ h]

theorem State.core_congr {s t : State} (h : s.cores = t.cores) (c : Nat) : s.core c = t.core c := by
  unfold State.core; rw [h]

end Sys2Proof.Machine
end

