-- ==== Sys2Proof/Laws/Issue.lean ====
section
/-!
SUPPORT. What the shared course of an instruction can do: which threads execute, what completing changes and what it leaves, and the course of a latch producer.
-/
namespace Sys2Proof.Machine

variable (s : State) (iss : Issue)

/-! ### The executing threads -/

theorem mem_executing {s : State} {iss : Issue} {o : Ops} {p : Nat × Thread} :
    p ∈ s.executing iss o ↔
      p.1 ∈ iss.slots ∧ s.threads.get? p.1 = some p.2 ∧ p.2.status = .ready ∧ p.2.pc = iss.pc ∧ guardHolds o (iss.view p.1 p.2) = true := by
  obtain ⟨k, t⟩ := p
  unfold State.executing
  rw [List.mem_filterMap]
  constructor
  · rintro ⟨a, ha, h⟩
    split at h
    · split at h
      · simp only [Option.some.injEq, Prod.mk.injEq] at h; obtain ⟨rfl, rfl⟩ := h; grind
      · cases h
    · cases h
  · rintro ⟨h1, h2, h3, h4, h5⟩
    simp only at h1 h2 h3 h4 h5
    exact ⟨k, h1, by simp [h2, h3, ← h4, h5]⟩

/-! ### Tables that only a lookup reads -/

@[simp] theorem State.updThread_get (k j : Nat) (f : Thread → Thread) :
    (s.updThread k f).threads.get? j = if j = k then (s.threads.get? k).map f else s.threads.get? j := FMap.get?_adjust ..

@[simp] theorem State.mapGroup_get (core g k : Nat) (f : Nat → Thread → Thread) :
    (s.mapGroup core g f).threads.get? k =
      (s.threads.get? k).map fun t => if coreOf k == core && t.group == g then f k t else t := FMap.get?_map ..

@[simp] theorem State.clearLatches_get (core g k : Nat) :
    (s.clearLatches core g).threads.get? k =
      (s.threads.get? k).map fun t => if coreOf k == core && t.group == g then t.clearLatches else t := FMap.get?_map ..

/-- Everything but the threads is as it was. -/
structure SameButThreads (s t : State) : Prop where
  groups : t.groups = s.groups
  crews : t.crews = s.crews
  cores : t.cores = s.cores
  mem : t.mem = s.mem
  ops : t.ops = s.ops
  fw : t.fw = s.fw
  dev : t.dev = s.dev
  sq : t.sq = s.sq
  due : t.due = s.due
  picks : t.picks = s.picks
  cur : t.cur = s.cur
  free : t.free = s.free
  fresh : t.fresh = s.fresh
  turn : t.turn = s.turn

theorem State.mapGroup_same (core g : Nat) (f : Nat → Thread → Thread) : SameButThreads s (s.mapGroup core g f) := by constructor <;> rfl
theorem State.clearLatches_same (core g : Nat) : SameButThreads s (s.clearLatches core g) := by constructor <;> rfl
theorem State.advance_same : SameButThreads s (s.advance iss) := by constructor <;> rfl
theorem State.moveOn_same (stay : List Nat) : SameButThreads s (s.moveOn iss stay) := by constructor <;> rfl
theorem State.updThread_same (k : Nat) (f : Thread → Thread) : SameButThreads s (s.updThread k f) := by constructor <;> rfl

theorem SameButThreads.refl (s : State) : SameButThreads s s := by constructor <;> rfl
theorem SameButThreads.trans {s t u : State} (h : SameButThreads s t) (h' : SameButThreads t u) : SameButThreads s u := by
  constructor
  · rw [h'.groups, h.groups]
  · rw [h'.crews, h.crews]
  · rw [h'.cores, h.cores]
  · rw [h'.mem, h.mem]
  · rw [h'.ops, h.ops]
  · rw [h'.fw, h.fw]
  · rw [h'.dev, h.dev]
  · rw [h'.sq, h.sq]
  · rw [h'.due, h.due]
  · rw [h'.picks, h.picks]
  · rw [h'.cur, h.cur]
  · rw [h'.free, h.free]
  · rw [h'.fresh, h.fresh]
  · rw [h'.turn, h.turn]

/-! ### Moving on and finishing -/

theorem State.moveOn_get (stay : List Nat) (k : Nat) :
    (s.moveOn iss stay).threads.get? k = (s.threads.get? k).map fun t =>
      if (k ∈ iss.slots ∧ k ∉ stay) ∧ t.status = .ready ∧ t.pc = iss.pc then { t with pc := nextPc iss.pc } else t := by
  unfold State.moveOn State.advance
  rw [FMap.get?_map]
  simp only [List.contains_eq_mem, List.mem_filter, decide_eq_true_eq, Bool.not_eq_true', decide_eq_false_iff_not]

/-- The step after an instruction lies in another line (R206). -/
def Issue.leaves (iss : Issue) : Bool := lineOf (nextPc iss.pc) != lineOf iss.pc

theorem State.finish_get (sel : Bool) (k : Nat) :
    (s.finish iss sel).threads.get? k = (s.threads.get? k).map fun t =>
      if iss.leaves && (coreOf k == iss.core && t.group == iss.group) then t.clearLatches else t := by
  unfold State.finish Issue.leaves
  simp only [State.updCore_threads, State.updGroup_threads]
  cases h : lineOf (nextPc iss.pc) != lineOf iss.pc
  · simp
  · rw [if_pos rfl, State.clearLatches_get]; simp

theorem State.finish_same (sel : Bool) : s.SameOutside (s.finish iss sel) iss.core iss.group := by
  have key : ∀ (cur : Option Issue) (u : State) (f : Group → Group) (g : Core → Core), SameButThreads { s with cur := cur } u →
      (∀ x, (f x).block = x.block) → (∀ x, g x = { x with tried := [] }) →
      s.SameOutside ((u.updGroup (gkey iss.core iss.group) f).updCore iss.core g) iss.core iss.group := by
    intro cur u f g e hf hg
    constructor
    · intro k hk; simp [FMap.get?_adjust_other _ _ hk, e.groups]
    · simp only [State.updCore_groups, State.updGroup_groups, FMap.get?_adjust_same, Option.map_map, e.groups]
      congr 1; funext x; exact hf x
    · simp [e.crews]
    · intro c hc; rw [State.core_updCore_other _ _ hc]; exact State.core_congr (by simp [e.cores]) c
    · rw [State.core_updCore_same, hg]; simp [State.core, e.cores]
    · simp [e.mem]
    · simp [e.ops]
    · simp [e.fw]
    · simp [e.dev]
    · simp [e.sq]
    · simp [e.due]
    · simp [e.picks]
    · simp [e.free]
    · simp [e.fresh]
    · simp [e.turn]
  unfold State.finish
  dsimp only
  split
  · exact key _ _ _ _ (State.clearLatches_same _ _ _) (fun _ => rfl) (fun _ => rfl)
  · exact key _ _ _ _ (.refl _) (fun _ => rfl) (fun _ => rfl)

end Sys2Proof.Machine
end

