-- ==== Sys2Proof/Laws/Registers.lean ====
section
/-!
SUPPORT. Registers, predicates and latches after a write, and the course of an instruction that computes in registers.
-/
namespace Sys2Proof.Machine

variable (t : Thread)

/-! ### One register, one predicate -/

@[simp] theorem Thread.reg_setReg_same (n : Nat) (v : RegVal) : (t.setReg n v).reg n = v := FMap.getD_putD_same ..

theorem Thread.reg_setReg_other {n m : Nat} (v : RegVal) (h : m ≠ n) : (t.setReg n v).reg m = t.reg m := FMap.getD_putD_other _ _ _ h

@[simp] theorem Thread.reg_setWord_same (n x : Nat) : (t.setWord n x).reg n = .known (BitVec.ofNat 32 x) := Thread.reg_setReg_same ..

theorem Thread.reg_setWord_other {n m : Nat} (x : Nat) (h : m ≠ n) : (t.setWord n x).reg m = t.reg m := Thread.reg_setReg_other _ _ h

theorem Thread.reg_setPair_low (n x : Nat) : (t.setPair n x).reg n = .known (BitVec.ofNat 32 x) := by
  unfold Thread.setPair; rw [Thread.reg_setWord_other _ _ (by omega), Thread.reg_setWord_same]

theorem Thread.reg_setPair_high (n x : Nat) : (t.setPair n x).reg (n + 1) = .known (BitVec.ofNat 32 (x / 2 ^ 32)) :=
  Thread.reg_setWord_same ..

theorem Thread.reg_setPair_other {n m : Nat} (x : Nat) (h : m ≠ n) (h' : m ≠ n + 1) : (t.setPair n x).reg m = t.reg m := by
  unfold Thread.setPair; rw [Thread.reg_setWord_other _ _ h', Thread.reg_setWord_other _ _ h]

theorem Thread.pred_setPred_same {n : Nat} (b : Bool) (h : n < 7) : (t.setPred n b).pred n = b := by
  have h7 : n ≠ 7 := by omega
  have hn : ∀ m : Nat, m < 7 → ∀ q : BitVec 7, (q ||| BitVec.ofNat 7 (2 ^ m)).getLsbD m = true ∧ (q &&& ~~~(BitVec.ofNat 7 (2 ^ m))).getLsbD m = false := by
    decide
  unfold Thread.setPred Thread.pred
  rw [if_neg h7]
  cases b
  · simpa using (hn n h t.preds).2
  · simpa using (hn n h t.preds).1

theorem Thread.pred_setPred_other {n m : Nat} (b : Bool) (h : m ≠ n) : (t.setPred n b).pred m = t.pred m := by
  unfold Thread.setPred Thread.pred
  by_cases h7 : m = 7
  · simp [h7]
  · have e : (2 ^ n).testBit m = false := by simp [Ne.symm h]
    have hp : ¬m < 7 → t.preds.getLsbD m = false := fun hm => BitVec.getLsbD_of_ge _ _ (Nat.le_of_not_lt hm)
    rw [if_neg h7, if_neg h7]
    by_cases hm : m < 7
    · cases b <;> simp only [Bool.false_eq_true, ↓reduceIte, BitVec.getLsbD_or, BitVec.getLsbD_and, BitVec.getLsbD_not,
        BitVec.getLsbD_ofNat, e, hm, Bool.and_false, Bool.or_false, Bool.not_false, Bool.and_true, decide_true]
    · cases b <;> simp only [Bool.false_eq_true, ↓reduceIte, BitVec.getLsbD_or, BitVec.getLsbD_and, BitVec.getLsbD_not,
        BitVec.getLsbD_ofNat, e, hm, Bool.and_false, Bool.or_false, Bool.false_and, decide_false, hp hm]

theorem bit3_lt (n : BitVec 3) (h : n ≠ 7) : n.toNat < 7 := by
  have := n.isLt
  have : n.toNat ≠ 7 := fun e => h (BitVec.eq_of_toNat_eq (by simpa using e))
  omega

/-! ### A destination -/

theorem Thread.putDst_has (wide : Bool) (d : Dst) (x : Nat) : (t.putDst wide d x).Has wide d x := by
  unfold Thread.Has Thread.putDst
  cases d with
  | none => trivial
  | k _ => trivial
  | v n =>
    cases wide
    · simp
    · simp [Thread.reg_setPair_low, Thread.reg_setPair_high]
  | p n =>
    by_cases h : n = 7
    · exact .inl h
    · exact .inr (Thread.pred_setPred_same t _ (bit3_lt n h))

theorem Thread.putDst_sameBut (wide : Bool) (d : Dst) (x : Nat) : t.SameBut (t.putDst wide d x) wide d := by
  unfold Thread.SameBut Thread.putDst
  cases d with
  | none => exact ⟨fun _ _ => rfl, fun _ _ => rfl⟩
  | k _ => exact ⟨fun _ _ => rfl, fun _ _ => rfl⟩
  | v n =>
    cases wide
    · exact ⟨fun m h => Thread.reg_setWord_other _ _ (h n rfl).1, fun _ _ => rfl⟩
    · exact ⟨fun m h => Thread.reg_setPair_other _ _ (h n rfl).1 ((h n rfl).2 rfl), fun _ _ => rfl⟩
  | p n => exact ⟨fun _ _ => rfl, fun m h => Thread.pred_setPred_other _ _ (h n rfl)⟩

theorem Thread.putDst_sameRest (wide : Bool) (d : Dst) (x : Nat) : t.SameRest (t.putDst wide d x) := by
  cases d <;> cases wide <;> exact ⟨rfl, rfl, rfl, rfl, rfl, rfl, rfl, rfl, rfl, rfl, rfl, rfl, rfl, rfl, rfl, rfl, rfl, rfl, rfl⟩

theorem Thread.putDst_latches (wide : Bool) (d : Dst) (x : Nat) : (t.putDst wide d x).latches = t.latches := by
  cases d <;> cases wide <;> rfl

theorem Thread.putDst_pc (wide : Bool) (d : Dst) (x : Nat) : (t.putDst wide d x).pc = t.pc := by
  cases d <;> cases wide <;> rfl

/-- A latch producer's thread: the new entry in b0, and b0 to b6 one place on (R205). -/
theorem Thread.shift_latch (x : Option Word) : (t.shift x).latch 0 = x ∧ ∀ n, n < 7 → (t.shift x).latch (n + 1) = t.latch n := by
  unfold Thread.shift Thread.latch
  refine ⟨by cases x <;> simp, fun n h => ?_⟩
  simp only [List.getElem?_take, List.getElem?_cons_succ]
  rw [if_pos (by omega)]

/-! ### Completing without a fault -/

variable (s : State) (iss : Issue)

theorem State.complete_get (c : Opc) (stay : List Nat) (k : Nat) :
    (s.complete iss c stay []).threads.get? k = (s.threads.get? k).map fun t =>
      let t := if (k ∈ iss.slots ∧ k ∉ stay) ∧ t.status = .ready ∧ t.pc = iss.pc then { t with pc := nextPc iss.pc } else t
      if (c.blocking || iss.leaves) && (coreOf k == iss.core && t.group == iss.group) then t.clearLatches else t := by
  unfold State.complete State.raiseAll
  simp only [List.foldl_nil, List.map_nil, List.append_nil]
  rw [State.finish_get]
  cases h : c.blocking
  · simp only [Bool.false_eq_true, ↓reduceIte, Bool.false_or, State.moveOn_get, Option.map_map]; rfl
  · simp only [↓reduceIte, Bool.true_or, Bool.true_and, State.moveOn_get, State.clearLatches_get, Option.map_map]
    congr 1; funext u
    simp only [Function.comp]
    split <;> split <;> simp_all [Thread.clearLatches]

theorem SameButThreads.outside {s t u : State} {core g : Nat} (h : SameButThreads s t) (h' : t.SameOutside u core g) : s.SameOutside u core g := by
  obtain ⟨a1, a2, a3, a4, a5, a6, a7, a8, a9, a10, a11, a12, a13, a14⟩ := h
  have e : ∀ c, t.core c = s.core c := State.core_congr a3
  constructor
  · intro k hk; rw [h'.groups k hk, a1]
  · rw [h'.block, a1]
  · rw [h'.crews, a2]
  · intro c hc; rw [h'.cores c hc, e]
  · rw [h'.core, e]
  · rw [h'.mem, a4]
  · rw [h'.ops, a5]
  · rw [h'.fw, a6]
  · rw [h'.dev, a7]
  · rw [h'.sq, a8]
  · rw [h'.due, a9]
  · rw [h'.picks, a10]
  · rw [h'.free, a12]
  · rw [h'.fresh, a13]
  · rw [h'.turn, a14]

theorem State.complete_outside (c : Opc) (stay : List Nat) : s.SameOutside (s.complete iss c stay []) iss.core iss.group := by
  unfold State.complete State.raiseAll
  dsimp only [List.foldl_nil, List.map_nil]
  refine SameButThreads.outside ?_ (State.finish_same _ iss _)
  split
  · exact (State.moveOn_same ..).trans (State.clearLatches_same ..)
  · exact State.moveOn_same ..

/-! ### A latch producer (R205, R221) -/

/-- The thread of a group after a latch producer whose outcome for it is known. -/
def Thread.produced (t : Thread) (c : Opc) (o : Ops) (iss : Issue) (x : Nat) : Thread :=
  let u := { t.putLane ((c.fmtOf o).dst == .v64) o.dst (.value x) with pc := nextPc iss.pc }
  if c.blocking || iss.leaves then u.clearLatches else u

theorem State.completeOut_outside (c : Opc) (o : Ops) (outs : List (Nat × LaneOut)) :
    s.SameOutside (s.completeOut iss c o outs []) iss.core iss.group :=
  SameButThreads.outside (State.mapGroup_same ..) (State.complete_outside _ iss c _)

theorem putLane_status (wide : Bool) (d : Dst) (x : Nat) : (t.putLane wide d (.value x)).status = t.status :=
  (Thread.putDst_sameRest t wide d x).2.2.2.2.1
theorem putLane_group (wide : Bool) (d : Dst) (x : Nat) : (t.putLane wide d (.value x)).group = t.group :=
  (Thread.putDst_sameRest t wide d x).2.1
theorem putLane_pc (wide : Bool) (d : Dst) (x : Nat) : (t.putLane wide d (.value x)).pc = t.pc := Thread.putDst_pc ..

theorem State.completeOut_get {s : State} {iss : Issue} {c : Opc} {o : Ops} {outs : List (Nat × LaneOut)} {k x : Nat} {t : Thread}
    (hk : k ∈ iss.slots) (hc : coreOf k = iss.core) (hg : t.group = iss.group) (ht : s.threads.get? k = some t)
    (hr : t.status = .ready) (hp : t.pc = iss.pc) (ho : outs.lookup k = some (.value x)) :
    (s.completeOut iss c o outs []).threads.get? k = some (t.produced c o iss x) := by
  unfold State.completeOut State.raiseAll Thread.produced
  dsimp only [List.foldl_nil, List.map_nil]
  rw [State.complete_get, State.mapGroup_get, ht]
  have e1 := putLane_status t ((c.fmtOf o).dst == .v64) o.dst x
  have e2 := putLane_group t ((c.fmtOf o).dst == .v64) o.dst x
  have e3 := putLane_pc t ((c.fmtOf o).dst == .v64) o.dst x
  generalize hu : t.putLane ((c.fmtOf o).dst == .v64) o.dst (.value x) = u at e1 e2 e3
  simp only [Option.map, hc, hg, BEq.rfl, Bool.and_self, ↓reduceIte, ho, Thread.putOut, hu, e1, e3, hk, hr, hp, List.map_nil,
    List.not_mem_nil, not_false_eq_true, and_self, e2, Bool.and_true]

/-- What a produced thread holds (R194, R205, R222). -/
theorem Thread.produced_spec (c : Opc) (o : Ops) (iss : Issue) (x : Nat) :
    (t.produced c o iss x).Has ((c.fmtOf o).dst == .v64) o.dst x ∧
    t.SameBut (t.produced c o iss x) ((c.fmtOf o).dst == .v64) o.dst ∧
    t.SameRest (t.produced c o iss x) ∧ (t.produced c o iss x).pc = nextPc iss.pc ∧
    ((c.blocking || iss.leaves) = false →
      (t.produced c o iss x).latch 0 = some (BitVec.ofNat 32 x) ∧ ∀ n, n < 7 → (t.produced c o iss x).latch (n + 1) = t.latch n) ∧
    ((c.blocking || iss.leaves) = true → ∀ n, (t.produced c o iss x).latch n = none) := by
  have h1 := Thread.putDst_has t ((c.fmtOf o).dst == .v64) o.dst x
  have h2 := Thread.putDst_sameBut t ((c.fmtOf o).dst == .v64) o.dst x
  have h3 := Thread.putDst_sameRest t ((c.fmtOf o).dst == .v64) o.dst x
  have h4 := Thread.shift_latch (t.putDst ((c.fmtOf o).dst == .v64) o.dst x) (some (BitVec.ofNat 32 x))
  have h5 := Thread.putDst_latches t ((c.fmtOf o).dst == .v64) o.dst x
  unfold Thread.produced
  refine ⟨?_, ?_, ?_, ?_, ?_, ?_⟩
  · dsimp only; split <;> exact h1
  · dsimp only; split <;> exact h2
  · dsimp only; split <;> exact h3
  · dsimp only; split <;> rfl
  · intro h
    dsimp only
    rw [if_neg (by simp [h])]
    refine ⟨h4.1, fun n hn => ?_⟩
    have := h4.2 n hn
    unfold Thread.latch at this ⊢
    rw [h5] at this
    exact this
  · intro h n
    dsimp only
    rw [if_pos h]
    simp [Thread.clearLatches, Thread.latch]

/-- The outcomes of a bundle, looked up. -/
theorem lookup_outs {l : List (Nat × Thread)} {f : Nat × Thread → LaneOut} {k : Nat} {t : Thread}
    (h : (k, t) ∈ l) (hu : ∀ p ∈ l, p.1 = k → p = (k, t)) : (l.map fun p => (p.1, f p)).lookup k = some (f (k, t)) := by
  induction l with
  | nil => cases h
  | cons p r ih =>
    simp only [List.map_cons, List.lookup_cons]
    by_cases hp : p.1 = k
    · rw [hu p List.mem_cons_self hp]; simp
    · rw [show (k == p.1) = false by simpa using Ne.symm hp]
      have : (k, t) ∈ r := by
        cases h with
        | head => exact absurd rfl hp
        | tail _ h => exact h
      exact ih this fun q hq => hu q (List.mem_cons_of_mem _ hq)

theorem executing_unique {s : State} {iss : Issue} {o : Ops} {k : Nat} {t : Thread} (h : (k, t) ∈ s.executing iss o)
    (p : Nat × Thread) (hp : p ∈ s.executing iss o) (hk : p.1 = k) : p = (k, t) := by
  have h1 := (mem_executing.mp h).2.1
  have h2 := (mem_executing.mp hp).2.1
  rw [hk, h1] at h2
  exact Prod.ext hk (Option.some.inj h2).symm

theorem sound_filter {s : State} {iss : Issue} {c : Opc} {o : Ops} (h : s.Sound iss c o) :
    (s.executing iss o).filterMap (fun p => (s.preFault iss c o p.1 p.2).map fun f => (p.1, f)) = [] ∧
    (s.executing iss o).filter (fun p => (s.preFault iss c o p.1 p.2).isNone) = s.executing iss o := by
  constructor
  · rw [List.filterMap_eq_nil_iff]; intro p hp; simp [h p hp]
  · rw [List.filter_eq_self]; intro p hp; simp [h p hp]

theorem Opnd.known_val {a : Opnd} (h : a.isKnown = true) : a = .known a.val := by cases a <;> simp_all [Opnd.isKnown, Opnd.val]

/-- A thread's lane computes its value when its operands are known. -/
theorem lane_known {s : State} {iss : Issue} {c : Opc} {o : Ops} (f : Nat → Nat → Nat → Nat) (h : s.Known iss c o) {p : Nat × Thread}
    (hp : p ∈ s.executing iss o) :
    s.lane iss c o f p.1 p.2 = .value (f (s.vals iss c o p.1 p.2).1 (s.vals iss c o p.1 p.2).2.1 (s.vals iss c o p.1 p.2).2.2) := by
  obtain ⟨ha, hb, hd, hh, -⟩ := h p hp
  unfold State.lane State.vals
  rcases hop : s.operands iss c o p.1 p.2 with ⟨a, b, d⟩
  rw [hop] at ha hb hd
  dsimp only at ha hb hd ⊢
  rw [hh, Opnd.known_val ha, Opnd.known_val hb, Opnd.known_val hd]
  simp [Opnd.val]

/-- The course of an arithmetic instruction with its operands there and known: every executing thread has its result, the rest is as it was. -/
theorem runAlu_spec {s : State} {iss : Issue} {c : Opc} {o : Ops} (f : Nat → Nat → Nat → Nat)
    (hh : s.Holds iss) (hs : s.Sound iss c o) (hk : s.Known iss c o) :
    s.SameOutside (s.runAlu c o f) iss.core iss.group ∧
    ∀ p ∈ s.executing iss o, (s.runAlu c o f).threads.get? p.1 =
      some (p.2.produced c o iss (f (s.vals iss c o p.1 p.2).1 (s.vals iss c o p.1 p.2).2.1 (s.vals iss c o p.1 p.2).2.2)) := by
  have e : s.runAlu c o f = s.completeOut iss c o ((s.executing iss o).map fun p => (p.1, s.lane iss c o f p.1 p.2)) [] := by
    unfold State.runAlu
    rw [hh.cur]
    dsimp only
    rw [(sound_filter hs).1, (sound_filter hs).2, if_neg]
    simp only [List.any_map, List.any_eq_true, Function.comp, beq_iff_eq, not_exists, not_and]
    intro p hp; rw [lane_known f hk hp]; simp
  rw [e]
  refine ⟨State.completeOut_outside .., fun p hp => ?_⟩
  obtain ⟨h1, h2, h3, h4, -⟩ := mem_executing.mp hp
  refine State.completeOut_get h1 (hh.home _ h1) (hh.group _ h1 _ h2) h2 h3 h4 ?_
  rw [lookup_outs (f := fun p => s.lane iss c o f p.1 p.2) hp (executing_unique hp), lane_known f hk hp]

end Sys2Proof.Machine
end

