-- ==== Sys2Proof/Laws/Plain.lean ====
section
/-!
SUPPORT. The course of an instruction that waits for its operands and then acts at once, and of one that acts on its executing threads one by one.
-/
namespace Sys2Proof.Machine

variable {s : State} {iss : Issue} {c : Opc} {o : Ops}

/-- The executing threads are distinct. -/
theorem executing_nodup (hh : s.Holds iss) : ((s.executing iss o).map Prod.fst).Nodup := by
  have : ((s.executing iss o).map Prod.fst).Sublist iss.slots := by
    unfold State.executing
    rw [List.map_filterMap]
    generalize iss.slots = q
    induction q with
    | nil => exact .refl _
    | cons k r ih =>
      rw [List.filterMap_cons]
      split
      · exact ih.cons _
      · rename_i b hb
        have : b = k := by
          simp only [Option.map_eq_some_iff] at hb
          obtain ⟨a, ha, rfl⟩ := hb
          split at ha
          · split at ha
            · cases ha; rfl
            · cases ha
          · cases ha
        subst this; exact ih.cons_cons _
  exact hh.once.sublist this

/-- With its operands there and known, an instruction starts with every executing thread and no fault. -/
theorem prep_go (hh : s.Holds iss) (hs : s.Sound iss c o) (hk : s.Known iss c o) : s.prep c o = .go iss (s.executing iss o) [] := by
  unfold State.prep
  rw [hh.cur]
  dsimp only
  rw [(sound_filter hs).1, (sound_filter hs).2, if_neg]
  simp only [List.any_eq_true, not_exists, not_and, Bool.not_eq_true]
  intro p hp
  obtain ⟨a, b, d, e, f⟩ := hk p hp
  simp [a, b, d, e, f]

theorem runPlain_eq (act : State → Issue → List (Nat × Thread) → State)
    (hh : s.Holds iss) (hs : s.Sound iss c o) (hk : s.Known iss c o) :
    s.runPlain c o act = (act s iss (s.executing iss o)).complete iss c [] [] := by
  unfold State.runPlain; rw [prep_go hh hs hk]

/-! ### Threads changed one by one -/

variable {α : Type} (key : α → Nat) (f : α → Thread → Thread)

theorem foldl_updThread_none (l : List α) (s : State) {k : Nat} (h : ∀ p ∈ l, key p ≠ k) :
    (l.foldl (fun s p => s.updThread (key p) (f p)) s).threads.get? k = s.threads.get? k := by
  induction l generalizing s with
  | nil => rfl
  | cons p r ih =>
    rw [List.foldl_cons, ih _ fun q hq => h q (List.mem_cons_of_mem _ hq), State.updThread_get,
      if_neg (Ne.symm (h p List.mem_cons_self))]

theorem foldl_updThread_mem {l : List α} (hn : (l.map key).Nodup) (s : State) {a : α} (h : a ∈ l) :
    (l.foldl (fun s p => s.updThread (key p) (f p)) s).threads.get? (key a) = (s.threads.get? (key a)).map (f a) := by
  induction l generalizing s with
  | nil => cases h
  | cons p r ih =>
    obtain ⟨h1, h2⟩ := List.nodup_cons.mp hn
    rw [List.foldl_cons]
    cases h with
    | head =>
      rw [foldl_updThread_none, State.updThread_get, if_pos rfl]
      intro q hq e; exact h1 (e ▸ List.mem_map_of_mem hq)
    | tail _ h =>
      rw [ih h2 _ h, State.updThread_get, if_neg]
      intro e; exact h1 (e ▸ List.mem_map_of_mem h)

theorem foldl_updThread_same (l : List α) (s : State) : SameButThreads s (l.foldl (fun s p => s.updThread (key p) (f p)) s) := by
  induction l generalizing s with
  | nil => exact .refl _
  | cons p r ih => exact (State.updThread_same ..).trans (ih _)

theorem foldl_updCrew_none (g : α → Crew → Crew) (l : List α) (s : State) {k : Nat} (h : ∀ p ∈ l, key p ≠ k) :
    (l.foldl (fun s p => s.updCrew (key p) (g p)) s).crews.get? k = s.crews.get? k := by
  induction l generalizing s with
  | nil => rfl
  | cons p r ih =>
    rw [List.foldl_cons, ih _ fun q hq => h q (List.mem_cons_of_mem _ hq)]
    show (s.crews.adjust _ _).get? k = _
    rw [FMap.get?_adjust_other _ _ (Ne.symm (h p List.mem_cons_self))]

theorem foldl_updCrew_mem (g : α → Crew → Crew) {l : List α} (hn : (l.map key).Nodup) (s : State) {a : α} (h : a ∈ l) :
    (l.foldl (fun s p => s.updCrew (key p) (g p)) s).crews.get? (key a) = (s.crews.get? (key a)).map (g a) := by
  induction l generalizing s with
  | nil => cases h
  | cons p r ih =>
    obtain ⟨h1, h2⟩ := List.nodup_cons.mp hn
    rw [List.foldl_cons]
    cases h with
    | head =>
      rw [foldl_updCrew_none key]
      · exact FMap.get?_adjust_same ..
      · intro q hq e; exact h1 (e ▸ List.mem_map_of_mem hq)
    | tail _ h =>
      rw [ih h2 _ h]
      show ((s.crews.adjust _ _).get? (key a)).map _ = _
      rw [FMap.get?_adjust_other]
      intro e; exact h1 (e ▸ List.mem_map_of_mem h)

/-- A thread of the bundle once the instruction is complete (R194, R206). -/
def Thread.moved (t : Thread) (c : Opc) (iss : Issue) : Thread :=
  let u := if t.status = .ready ∧ t.pc = iss.pc then { t with pc := nextPc iss.pc } else t
  if c.blocking || iss.leaves then u.clearLatches else u

theorem complete_thread {s : State} {k : Nat} {t : Thread} (hk : k ∈ iss.slots) (hc : coreOf k = iss.core) (hg : t.group = iss.group)
    (ht : s.threads.get? k = some t) : (s.complete iss c [] []).threads.get? k = some (t.moved c iss) := by
  rw [State.complete_get, ht]
  unfold Thread.moved
  by_cases h : t.status = .ready ∧ t.pc = iss.pc
  · simp [hk, h, hc, hg]
  · simp [hk, h, hc, hg]

end Sys2Proof.Machine
end

