-- ==== Sys2Proof/Laws/Traps.lean ====
section
/-!
SUPPORT. Taking a trap, retiring and ending a thread: what becomes of the thread, and that no other Ready thread is touched.
-/
namespace Sys2Proof.Machine

variable {s : State} {k j : Nat} {t v : Thread}

/-! ### Threads that a step of the machinery leaves alone -/

/-- Every Ready thread outside a set of keys is as it was, and no thread comes to be. -/
structure ReadyKept (s t : State) (out : Nat → Prop) : Prop where
  kept : ∀ j v, ¬out j → s.threads.get? j = some v → v.status = .ready → t.threads.get? j = some v
  gone : ∀ j, s.threads.get? j = none → t.threads.get? j = none

theorem ReadyKept.of_eq {out : Nat → Prop} {t : State} (h : t.threads = s.threads) : ReadyKept s t out :=
  ⟨fun j v _ hv _ => by rw [h]; exact hv, fun j hj => by rw [h]; exact hj⟩

theorem ReadyKept.trans {out : Nat → Prop} {s t u : State} (h : ReadyKept s t out) (h' : ReadyKept t u out) : ReadyKept s u out :=
  ⟨fun j v hj hv hr => h'.kept j v hj (h.kept j v hj hv hr) hr, fun j hj => h'.gone j (h.gone j hj)⟩

theorem ReadyKept.weaken {out out' : Nat → Prop} {s t : State} (h : ReadyKept s t out) (ho : ∀ j, out j → out' j) : ReadyKept s t out' :=
  ⟨fun j v hj hv hr => h.kept j v (fun h => hj (ho j h)) hv hr, h.gone⟩

theorem mem_postOnce {s : State} {e x : Instr} : x ∈ (s.postOnce e).due ↔ x ∈ s.due ∨ x = e := by
  unfold State.postOnce State.post
  split
  · rename_i h; simp only [List.contains_eq_mem, decide_eq_true_eq] at h
    exact ⟨.inl, fun h' => h'.elim id fun e => e ▸ h⟩
  · simp

theorem State.unregister_threads (s : State) (m : Monitor) : (s.unregister m).threads = s.threads ∧ (s.unregister m).crews = s.crews ∧ ∀ e, e ∈ s.due → e ∈ (s.unregister m).due := by
  unfold State.unregister
  dsimp only
  split
  · exact ⟨rfl, rfl, fun _ h => h⟩
  · exact ⟨rfl, rfl, fun _ h => List.mem_append_left _ h⟩

theorem unregister_fold (l : List Monitor) (s : State) :
    (l.foldl (fun (s : State) m => s.unregister m) s).threads = s.threads ∧ (l.foldl (fun (s : State) m => s.unregister m) s).crews = s.crews ∧
    ∀ e, e ∈ s.due → e ∈ (l.foldl (fun (s : State) m => s.unregister m) s).due := by
  induction l generalizing s with
  | nil => exact ⟨rfl, rfl, fun _ h => h⟩
  | cons m r ih =>
    obtain ⟨a, b, c⟩ := ih (s.unregister m)
    obtain ⟨a', b', c'⟩ := State.unregister_threads s m
    exact ⟨a.trans a', b.trans b', fun e h => c e (c' e h)⟩

theorem checkSyncg_kept (core g : Nat) : ReadyKept s (s.checkSyncg core g) fun _ => False := by
  unfold State.checkSyncg
  dsimp only
  split
  · rename_i h
    refine ⟨fun j v _ hv hr => ?_, fun j hj => by simp [hj]⟩
    rw [FMap.get?_map, hv]
    simp only [Option.map_some]
    rw [if_neg]
    intro hm
    rw [Bool.and_eq_true] at h
    have h := h.2
    simp only [FMap.all, List.all_eq_true, FMap.filter] at h
    have := h (j, v) (List.mem_filter.mpr ⟨mem_of_lookup hv, hm⟩)
    unfold Thread.atSyncg at this
    rw [hr] at this; simp at this
  · exact .of_eq rfl

theorem checkCbar_kept (c : Nat) : ReadyKept s (s.checkCbar c) fun _ => False := by
  unfold State.checkCbar
  dsimp only
  split
  · rename_i h
    refine ⟨fun j v _ hv hr => ?_, fun j hj => by simp [State.updCrew, hj]⟩
    show ((s.threads.map _).get? j) = _
    rw [FMap.get?_map, hv]
    simp only [Option.map_some]
    rw [if_neg]
    intro hm
    rw [Bool.and_eq_true] at h
    have h := h.2
    simp only [FMap.all, List.all_eq_true, FMap.filter] at h
    have := h (j, v) (List.mem_filter.mpr ⟨mem_of_lookup hv, by simpa using hm⟩)
    unfold Thread.atCbar at this
    rw [hr] at this; simp at this
  · exact .of_eq rfl

theorem checkMates_kept (l : List Nat) : ReadyKept s (s.checkMates l) fun _ => False := by
  unfold State.checkMates
  split
  · exact .of_eq rfl
  · refine ⟨fun j v _ hv hr => ?_, fun j hj => by simp [hj]⟩
    simp [hv, hr]

theorem forgetThread_threads (s : State) (k : Nat) : (s.forgetThread k).threads = s.threads.del k := by
  unfold State.forgetThread
  dsimp only
  rw [(unregister_fold ..).1]
  rfl

/-- What waits for a thread that has left is no Ready thread. -/
theorem afterThread_kept (s : State) (core : Nat) (t : Thread) : ReadyKept s (s.afterThread core t) fun _ => False := by
  unfold State.afterThread
  dsimp only
  generalize hw : (if (s.members core t.group).isEmpty = true then { s with groups := s.groups.del (gkey core t.group) } else s) = w
  have hs : ReadyKept s w fun _ => False := .of_eq (by rw [← hw]; split <;> rfl)
  have h := hs.trans (((checkSyncg_kept core t.group).trans (checkCbar_kept t.crew)).trans (checkMates_kept t.mates))
  split
  · exact h
  · exact h.trans (.of_eq (State.postOnce_threads ..))

/-- Removing a thread: it is gone, and every other Ready thread stays. -/
theorem removeThread_kept (s : State) (k : Nat) : ReadyKept s (s.removeThread k) (· = k) ∧ (s.removeThread k).threads.get? k = none := by
  unfold State.removeThread
  split
  · rename_i h; exact ⟨.of_eq rfl, h⟩
  · have h := forgetThread_threads s k
    have ha := afterThread_kept (s.forgetThread k)
    refine ⟨⟨fun j v hj hv hr => (ha _ _).kept j v id (by rw [h, FMap.get?_del_other _ hj, hv]) hr, fun j hj => (ha _ _).gone j ?_⟩, (ha _ _).gone k ?_⟩
    · rw [h, FMap.get?_del]; split <;> simp_all
    · rw [h]; exact FMap.get?_del_same ..

theorem crewThreadGone_threads (s : State) (c : Nat) : (s.crewThreadGone c).threads = s.threads := by
  unfold State.crewThreadGone
  split
  · rfl
  · dsimp only; split
    · rw [State.postOnce_threads, State.postOnce_threads]; rfl
    · rfl

/-- Ending a thread (R235). -/
theorem endThread_kept (s : State) (k : Nat) : ReadyKept s (s.endThread k) (· = k) ∧ (s.endThread k).threads.get? k = none := by
  unfold State.endThread
  split
  · rename_i h; exact ⟨.of_eq rfl, h⟩
  · obtain ⟨a, b⟩ := removeThread_kept s k
    exact ⟨a.trans (.of_eq (crewThreadGone_threads ..)), by rw [crewThreadGone_threads]; exact b⟩

/-- Retiring a thread (R318). -/
theorem retire_kept (s : State) (k code : Nat) : ReadyKept s (s.retire k code) (· = k) ∧ (s.retire k code).threads.get? k = none := by
  unfold State.retire
  split
  · rename_i h; exact ⟨.of_eq rfl, h⟩
  · obtain ⟨a, b⟩ := endThread_kept (s.updCrew (s.maskCrew _) (Crew.record · code)) k
    exact ⟨⟨fun j v hj hv hr => a.kept j v hj hv hr, fun j hj => a.gone j hj⟩, b⟩

theorem updThread_kept (s : State) (k : Nat) (f : Thread → Thread) : ReadyKept s (s.updThread k f) (· = k) := by
  refine ⟨fun j v hj hv _ => by rw [State.updThread_get, if_neg hj, hv], fun j hj => ?_⟩
  rw [State.updThread_get]; split
  · rename_i h; subst h; rw [hj]; rfl
  · exact hj

theorem fwEvent_threads (s : State) (f : Nat → FwEvent) : (s.fwEvent f).threads = s.threads := by
  unfold State.fwEvent State.pokeFw; dsimp only
  split
  · rw [State.postOnce_threads]; rfl
  · rfl

/-- Raising a fault on one thread leaves every other Ready thread alone (R315, R317). -/
theorem raise_kept (s : State) (k : Nat) (pc : DWord) (f : Flt) (sub : Nat) : ReadyKept s (s.raise k pc f sub) (· = k) := by
  unfold State.raise
  split
  · unfold State.park
    exact (updThread_kept ..).trans (.of_eq (fwEvent_threads ..))
  · unfold State.takeTrap
    split
    · exact .of_eq rfl
    · dsimp only
      split
      · exact (ReadyKept.of_eq (s := s) (t := s.updCrew _ _) rfl).trans (retire_kept _ _ _).1
      · exact (ReadyKept.of_eq (s := s) (t := s.updCrew _ _) rfl).trans (updThread_kept _ _ _)

theorem raiseFold_kept (pc : DWord) (sub : Nat) (l : List (Nat × Flt)) (s : State) :
    ReadyKept s (l.foldl (fun s p => s.raise p.1 pc p.2 sub) s) fun j => ∃ f, (j, f) ∈ l := by
  induction l generalizing s with
  | nil => exact .of_eq rfl
  | cons p r ih =>
    exact ((raise_kept s p.1 pc p.2 sub).weaken fun j h => ⟨p.2, by subst h; exact List.mem_cons_self⟩).trans
      ((ih _).weaken fun j ⟨f, h⟩ => ⟨f, List.mem_cons_of_mem _ h⟩)

theorem raiseAll_kept (pc : DWord) (l : List (Nat × Flt)) (s : State) : ReadyKept s (s.raiseAll pc l) fun j => ∃ f, (j, f) ∈ l :=
  raiseFold_kept ..

/-! ### The thread that the fault is raised on (R317) -/

/-- A user fault of a thread with a handler: the thread stands in it. -/
theorem raise_trapped {pc : DWord} {f : Flt} {sub : Nat} (ht : s.threads.get? k = some t) (hf : f.code ≠ 7 ∧ f.code ≠ 13) (hr : t.retires = false) :
    (s.raise k pc f sub).threads.get? k = some { t.trapped f.code pc (BitVec.ofNat 64 f.tval) false with replay := false } := by
  unfold State.raise
  rw [if_neg (by simpa using hf)]
  unfold State.takeTrap
  rw [ht]
  dsimp only
  rw [hr, if_neg (by simp), State.updThread_get, if_pos rfl]
  show (s.threads.get? k).map _ = _
  rw [ht]; rfl

/-- A user fault of a thread without one: the thread is gone. -/
theorem raise_retired {pc : DWord} {f : Flt} {sub : Nat} (ht : s.threads.get? k = some t) (hf : f.code ≠ 7 ∧ f.code ≠ 13) (hr : t.retires = true) :
    (s.raise k pc f sub).threads.get? k = none := by
  unfold State.raise
  rw [if_neg (by simpa using hf)]
  unfold State.takeTrap
  rw [ht]
  dsimp only
  rw [hr, if_pos rfl]
  exact (retire_kept ..).2

/-- A firmware-first fault parks the thread where it stands, and firmware has an event for it (R315). -/
theorem raise_parked {pc : DWord} {f : Flt} {sub : Nat} (ht : s.threads.get? k = some t) (hf : f.code = 7 ∨ f.code = 13) :
    (s.raise k pc f sub).threads.get? k =
      some { t with status := .parked ⟨f.code, f.tval, f.tval % 2 ^ 57 / 65536, false, false, if sub = 0 then s.fresh else sub⟩, late := none, restore := some t.latches } := by
  unfold State.raise
  rw [if_pos (by simpa using hf)]
  unfold State.park
  rw [fwEvent_threads, State.updThread_get, if_pos rfl, ht]; rfl

/-- Faults of distinct threads are raised one by one: each meets its thread as it stood. -/
theorem raiseFold_one {pc : DWord} {sub : Nat} {l : List (Nat × Flt)} {f : Flt} {P : Option Thread → Prop} (hn : (l.map Prod.fst).Nodup)
    (hm : (k, f) ∈ l) (ht : s.threads.get? k = some t) (hr : t.status = .ready)
    (hp : ∀ u : State, u.threads.get? k = some t → P ((u.raise k pc f sub).threads.get? k))
    (hk : ∀ v w : State, ReadyKept v w (· ≠ k) → P (v.threads.get? k) → P (w.threads.get? k)) :
    P ((l.foldl (fun s p => s.raise p.1 pc p.2 sub) s).threads.get? k) := by
  induction l generalizing s with
  | nil => cases hm
  | cons p r ih =>
    obtain ⟨h1, h2⟩ := List.nodup_cons.mp hn
    rw [List.foldl_cons]
    cases hm with
    | head =>
      refine hk _ _ ((raiseFold_kept pc sub r _).weaken ?_) (hp _ ht)
      rintro j ⟨g, hg⟩ rfl
      exact h1 (List.mem_map.mpr ⟨_, hg, rfl⟩)
    | tail _ hm =>
      have hne : k ≠ p.1 := by rintro rfl; exact h1 (List.mem_map.mpr ⟨_, hm, rfl⟩)
      exact ih h2 hm ((raise_kept s p.1 pc p.2 sub).kept k t hne ht hr)

/-- The same of the faults of a bundle, whose sub-group is one. -/
theorem raiseAll_one {pc : DWord} {l : List (Nat × Flt)} {f : Flt} {P : Option Thread → Prop} (hn : (l.map Prod.fst).Nodup) (hm : (k, f) ∈ l)
    (ht : s.threads.get? k = some t) (hr : t.status = .ready)
    (hp : ∀ u : State, u.threads.get? k = some t → P ((u.raise k pc f s.fresh).threads.get? k))
    (hk : ∀ v w : State, ReadyKept v w (· ≠ k) → P (v.threads.get? k) → P (w.threads.get? k)) :
    P ((s.raiseAll pc l).threads.get? k) := raiseFold_one hn hm ht hr hp hk

end Sys2Proof.Machine
end

