-- ==== Sys2Proof/Laws/Control.lean ====
section
/-!
SUPPORT. Transfers of control judged one way for every executing thread, crews whose records only grow, and what ending a thread leaves.
-/
namespace Sys2Proof.Machine

variable {s : State} {iss : Issue} {c : Opc} {o : Ops}

theorem filterMap_none_of {α β : Type} {l : List α} {f : α → Option β} (h : ∀ a ∈ l, f a = none) : l.filterMap f = [] := by
  rw [List.filterMap_eq_nil_iff]; exact h

theorem filterMap_none' {α β : Type} (l : List α) : l.filterMap (fun _ => (none : Option β)) = [] := filterMap_none_of fun _ _ => rfl

theorem runXfer_go (k : XferKind) (target : Issue → Nat × Thread → Nat) (x : Nat × Thread → Nat) (hr : s.Runs iss c o)
    (h : ∀ p ∈ s.executing iss o, s.xfer k iss.core p (target iss p) = .go (x p)) :
    s.runXfer c o k target =
      ((s.executing iss o).foldl (fun t p => t.moveTo k (nextPc iss.pc) p (x p)) (s.moveOn iss ((s.executing iss o).map Prod.fst))).finish iss
        (!(s.executing iss o).isEmpty) := by
  obtain ⟨hh, hs, hk⟩ := hr
  unfold State.runXfer
  rw [prep_go hh hs hk]
  dsimp only
  generalize s.executing iss o = ex at *
  have hw : (ex.map fun p => (p, s.xfer k iss.core p (target iss p))) = ex.map fun p => (p, Xfer.go (x p)) :=
    List.map_congr_left fun p hp => by rw [h p hp]
  rw [hw, if_neg (by simp [Xfer.waits])]
  simp only [List.filterMap_map, Function.comp_def, List.filterMap_eq_map', filterMap_none', List.map_nil, List.append_nil,
    List.foldl_nil, List.foldl_map, List.isEmpty_map, List.map_map, State.raiseAll]

theorem runXfer_flt (k : XferKind) (target : Issue → Nat × Thread → Nat) (f : Nat × Thread → Flt) (hr : s.Runs iss c o)
    (h : ∀ p ∈ s.executing iss o, s.xfer k iss.core p (target iss p) = .flt (f p)) :
    s.runXfer c o k target =
      (((s.executing iss o).foldl (fun t p => t.dropFault iss.core (t.asidOf p.2) (f p)) (s.moveOn iss ((s.executing iss o).map Prod.fst))).raiseAll iss.pc
        ((s.executing iss o).map fun p => (p.1, f p))).finish iss false := by
  obtain ⟨hh, hs, hk⟩ := hr
  unfold State.runXfer
  rw [prep_go hh hs hk]
  dsimp only
  generalize s.executing iss o = ex at *
  have hw : (ex.map fun p => (p, s.xfer k iss.core p (target iss p))) = ex.map fun p => (p, Xfer.flt (f p)) :=
    List.map_congr_left fun p hp => by rw [h p hp]
  rw [hw, if_neg (by simp [Xfer.waits])]
  simp only [List.filterMap_map, Function.comp_def, List.filterMap_eq_map', filterMap_none', List.map_nil, List.nil_append,
    List.foldl_nil, List.foldl_map, List.isEmpty_nil, List.map_map, Bool.not_true]

theorem asid_same {s t : State} (h : SameButThreads s t) (v : Thread) : t.asidOf v = s.asidOf v := by
  unfold State.asidOf State.ctxOf State.ctx? State.crewOf; rw [h.crews, h.fw]

/-- A bundle whose executing threads stay and are then changed one by one. -/
theorem each_get (hh : s.Holds iss) (f : Nat × Thread → Thread → Thread) {p : Nat × Thread} (hp : p ∈ s.executing iss o) (sel : Bool) :
    (((s.executing iss o).foldl (fun t p => t.updThread p.1 (f p)) (s.moveOn iss ((s.executing iss o).map Prod.fst))).finish iss sel).threads.get? p.1 =
      some (if iss.leaves && (coreOf p.1 == iss.core && (f p p.2).group == iss.group) then (f p p.2).clearLatches else f p p.2) := by
  obtain ⟨h1, h2, h3, h4, -⟩ := mem_executing.mp hp
  rw [State.finish_get, foldl_updThread_mem Prod.fst f (executing_nodup hh) _ hp, State.moveOn_get, h2]
  simp only [Option.map_some]
  have hn : ¬((p.1 ∈ iss.slots ∧ p.1 ∉ (s.executing iss o).map Prod.fst) ∧ p.2.status = .ready ∧ p.2.pc = iss.pc) := by
    rintro ⟨⟨-, h⟩, -⟩
    exact h (List.mem_map_of_mem hp)
  rw [if_neg hn]

theorem each_outside (f : Nat × Thread → Thread → Thread) (sel : Bool) (ex : List (Nat × Thread)) :
    s.SameOutside ((ex.foldl (fun t p => t.updThread p.1 (f p)) (s.moveOn iss (ex.map Prod.fst))).finish iss sel) iss.core iss.group :=
  SameButThreads.outside ((State.moveOn_same ..).trans (foldl_updThread_same Prod.fst f ..)) (State.finish_same ..)

theorem foldl_congr {α β : Type} {l : List α} {f g : β → α → β} (h : ∀ a ∈ l, ∀ b, f b a = g b a) (b : β) : l.foldl f b = l.foldl g b := by
  induction l generalizing b with
  | nil => rfl
  | cons a r ih => rw [List.foldl_cons, List.foldl_cons, h a List.mem_cons_self, ih fun x hx => h x (List.mem_cons_of_mem _ hx)]

theorem causeWord_bits (code : Nat) (h : code < 256) : (causeWord code false).toNat % 256 = code ∧ (causeWord code false).getLsbD 8 = true ∧ (causeWord code false).getLsbD 9 = false := by
  have : ∀ c : BitVec 8, (causeWord c.toNat false).toNat % 256 = c.toNat ∧ (causeWord c.toNat false).getLsbD 8 = true ∧ (causeWord c.toNat false).getLsbD 9 = false := by decide
  have := this (BitVec.ofNat 8 code)
  rwa [BitVec.toNat_ofNat, show code % 2 ^ 8 = code from Nat.mod_eq_of_lt h] at this

theorem dropFault_threads (s : State) (core asid : Nat) (f : Flt) : (s.dropFault core asid f).threads = s.threads := by
  unfold State.dropFault State.dropFetch; split <;> rfl

theorem dropFold_threads (l : List (Nat × Thread)) (core : Nat) (f : Nat × Thread → Flt) (s : State) :
    (l.foldl (fun t p => t.dropFault core (t.asidOf p.2) (f p)) s).threads = s.threads := by
  induction l generalizing s with
  | nil => rfl
  | cons p r ih => rw [List.foldl_cons, ih, dropFault_threads]

theorem moveOn_skip {k : Nat} {v : Thread} (hk : k ∈ iss.slots) (hv : s.threads.get? k = some v) (hr : v.status = .ready) (hpc : v.pc = iss.pc)
    (hne : ∀ p ∈ s.executing iss o, p.1 ≠ k) : (s.moveOn iss ((s.executing iss o).map Prod.fst)).threads.get? k = some { v with pc := nextPc iss.pc } := by
  rw [State.moveOn_get, hv]
  have hn : (k ∈ iss.slots ∧ k ∉ (s.executing iss o).map Prod.fst) ∧ v.status = .ready ∧ v.pc = iss.pc :=
    ⟨⟨hk, by rintro h; obtain ⟨p, hp, e⟩ := List.mem_map.mp h; exact hne p hp e⟩, hr, hpc⟩
  simp only [Option.map_some]; rw [if_pos hn]

theorem moveOn_stay {p : Nat × Thread} (hp : p ∈ s.executing iss o) : (s.moveOn iss ((s.executing iss o).map Prod.fst)).threads.get? p.1 = some p.2 := by
  obtain ⟨h1, h2, h3, h4, -⟩ := mem_executing.mp hp
  rw [State.moveOn_get, h2]
  have hn : ¬((p.1 ∈ iss.slots ∧ p.1 ∉ (s.executing iss o).map Prod.fst) ∧ p.2.status = .ready ∧ p.2.pc = iss.pc) := by
    rintro ⟨⟨-, h⟩, -⟩
    exact h (List.mem_map_of_mem hp)
  simp only [Option.map_some]; rw [if_neg hn]

theorem map_fst_nodup (hh : s.Holds iss) (f : Nat × Thread → Flt) : (((s.executing iss o).map fun p => (p.1, f p)).map Prod.fst).Nodup := by
  rw [List.map_map]; exact executing_nodup hh

/-- The outcome of one raised fault among several. -/
theorem raise_handles (hh : s.Holds iss) {u : State} {f : Nat × Thread → Flt} {pc : DWord} {p : Nat × Thread} (hp : p ∈ s.executing iss o)
    {q : Thread} (hu : u.threads.get? p.1 = some q) (hq : q.status = .ready) (hqt : q.retires = false) (hf : (f p).code ≠ 7 ∧ (f p).code ≠ 13) :
    (u.raiseAll pc ((s.executing iss o).map fun p => (p.1, f p))).threads.get? p.1 =
      some { q.trapped (f p).code pc (BitVec.ofNat 64 (f p).tval) false with replay := false } := by
  refine raiseAll_one (P := fun x => x = some { q.trapped (f p).code pc (BitVec.ofNat 64 (f p).tval) false with replay := false })
    (map_fst_nodup hh f) (List.mem_map.mpr ⟨p, hp, rfl⟩) hu hq ?_ ?_
  · intro w hw; exact raise_trapped hw hf hqt
  · intro v w hk hv; exact hk.kept p.1 _ (by simp) hv rfl

theorem finish_of {u : State} {k : Nat} {v : Thread} (sel : Bool) (h : u.threads.get? k = some v) :
    ∃ w, (u.finish iss sel).threads.get? k = some w ∧ (w = v ∨ w = v.clearLatches) := by
  rw [State.finish_get, h]
  refine ⟨_, rfl, ?_⟩
  dsimp only; split
  · exact .inr rfl
  · exact .inl rfl

theorem stackTop_empty (s : State) (k : Nat) (t : Thread) (h1 : t.stack = []) (h2 : t.depth = 0) : s.stackTop k t = .flt (.stack false) := by
  unfold State.stackTop
  simp only [h1, h2, if_true]

theorem xfer_ret_empty (s : State) (core : Nat) (p : Nat × Thread) (h1 : p.2.stack = []) (h2 : p.2.depth = 0) :
    s.xfer .ret core p 0 = .flt (.stack false) := by
  unfold State.xfer
  simp only [stackTop_empty s p.1 p.2 h1 h2]

/-- Crews keep their origin, and their codes only grow. -/
structure Grown (s t : State) : Prop where
  go : ∀ k r, s.crews.get? k = some r → ∃ r', t.crews.get? k = some r' ∧ r'.origin = r.origin ∧ ∀ i, r.codes.testBit i = true → r'.codes.testBit i = true

theorem Grown.of_eq {s t : State} (h : t.crews = s.crews) : Grown s t := ⟨fun k r hr => ⟨r, by rw [h]; exact hr, rfl, fun _ h => h⟩⟩

theorem Grown.trans {s t u : State} (h : Grown s t) (h' : Grown t u) : Grown s u := by
  refine ⟨fun k r hr => ?_⟩
  obtain ⟨r1, a, b, c⟩ := h.go k r hr
  obtain ⟨r2, a', b', c'⟩ := h'.go k r1 a
  exact ⟨r2, a', b'.trans b, fun i hi => c' i (c i hi)⟩

theorem Grown.upd (s : State) (k : Nat) (f : Crew → Crew) (h : ∀ r, (f r).origin = r.origin ∧ ∀ i, r.codes.testBit i = true → (f r).codes.testBit i = true) :
    Grown s (s.updCrew k f) := by
  refine ⟨fun j r hr => ?_⟩
  show ∃ r', (s.crews.adjust k f).get? j = some r' ∧ _
  rw [FMap.get?_adjust]
  split
  · rename_i e; subst e; rw [hr]; exact ⟨_, rfl, h r⟩
  · exact ⟨r, hr, rfl, fun _ h => h⟩

/-- Forgetting a thread: crews keep all but their saved monitors, memory its bytes, and the events in flight stay. -/
theorem forgetThread_more (s : State) (k : Nat) :
    (∀ c, (s.forgetThread k).crews.get? c = (s.crews.get? c).map fun r => { r with saveMons := r.saveMons.filter fun x => x.who.thread? != some k }) ∧
    (s.forgetThread k).mem.bytes = s.mem.bytes ∧ (s.forgetThread k).mem.scratch = s.mem.scratch ∧ ∀ e, e ∈ s.due → e ∈ (s.forgetThread k).due := by
  have hub : ∀ (l : List Monitor) (s : State), (l.foldl (fun (s : State) m => s.unregister m) s).mem.bytes = s.mem.bytes ∧
      (l.foldl (fun (s : State) m => s.unregister m) s).mem.scratch = s.mem.scratch := by
    intro l; induction l with
    | nil => intro s; exact ⟨rfl, rfl⟩
    | cons m r ih =>
      intro s
      obtain ⟨a, b⟩ := ih (s.unregister m)
      have : (s.unregister m).mem.bytes = s.mem.bytes ∧ (s.unregister m).mem.scratch = s.mem.scratch := by
        unfold State.unregister; dsimp only; split <;> exact ⟨rfl, rfl⟩
      exact ⟨a.trans this.1, b.trans this.2⟩
  unfold State.forgetThread
  dsimp only
  generalize hu : State.updFw _ _ = u
  have e : u.crews = s.crews ∧ u.mem = s.mem ∧ u.due = s.due := by rw [← hu]; exact ⟨rfl, rfl, rfl⟩
  generalize List.filter _ _ = l
  obtain ⟨-, b, c⟩ := unregister_fold l u
  obtain ⟨d1, d2⟩ := hub l u
  exact ⟨fun c => by rw [FMap.get?_map, b, e.1], by rw [d1, e.2.1], by rw [d2, e.2.1], fun x h => c x (by rw [e.2.2]; exact h)⟩

theorem checkMates_more (s : State) (l : List Nat) : (s.checkMates l).crews = s.crews ∧ (s.checkMates l).mem = s.mem ∧ (s.checkMates l).due = s.due := by
  unfold State.checkMates; split <;> exact ⟨rfl, rfl, rfl⟩

/-- What follows a thread's leaving: a crew at most ends a barrier generation, memory stays, and the events in flight stay. -/
theorem afterThread_more (s : State) (core : Nat) (t : Thread) :
    (∀ c r, s.crews.get? c = some r → ∃ n, (s.afterThread core t).crews.get? c = some { r with bar := n }) ∧
    (s.afterThread core t).mem = s.mem ∧ ∀ e, e ∈ s.due → e ∈ (s.afterThread core t).due := by
  unfold State.afterThread
  dsimp only
  generalize hw : (if (s.members core t.group).isEmpty = true then { s with groups := s.groups.del (gkey core t.group) } else s) = w
  have hwt : w.crews = s.crews ∧ w.mem = s.mem ∧ w.due = s.due := by rw [← hw]; split <;> exact ⟨rfl, rfl, rfl⟩
  have h0 : (w.checkSyncg core t.group).crews = w.crews ∧ (w.checkSyncg core t.group).mem = w.mem ∧ (w.checkSyncg core t.group).due = w.due := by
    unfold State.checkSyncg; dsimp only; split <;> exact ⟨rfl, rfl, rfl⟩
  have h1 : ∀ v : State, (∀ x r, v.crews.get? x = some r → ∃ n, (v.checkCbar t.crew).crews.get? x = some { r with bar := n }) ∧
      (v.checkCbar t.crew).mem = v.mem ∧ (v.checkCbar t.crew).due = v.due := by
    intro v; unfold State.checkCbar; dsimp only; split
    · refine ⟨fun x r hx => ?_, rfl, rfl⟩
      show ∃ n, (v.crews.adjust t.crew _).get? x = some { r with bar := n }
      rw [FMap.get?_adjust]
      split
      · rename_i e; subst e; rw [hx]; exact ⟨_, rfl⟩
      · exact ⟨r.bar, hx⟩
    · exact ⟨fun x r hx => ⟨r.bar, hx⟩, rfl, rfl⟩
  obtain ⟨a1, a2, a3⟩ := h1 (w.checkSyncg core t.group)
  obtain ⟨b1, b2, b3⟩ := h0
  obtain ⟨c1, c2, c3⟩ := checkMates_more ((w.checkSyncg core t.group).checkCbar t.crew) t.mates
  split
  · exact ⟨fun c r h => by rw [c1]; exact a1 c r (by rw [b1, hwt.1]; exact h), by rw [c2, a2, b2, hwt.2.1],
      fun e h => by rw [c3, a3, b3, hwt.2.2]; exact h⟩
  · refine ⟨fun c r h => ?_, by rw [State.postOnce_mem, c2, a2, b2, hwt.2.1], fun e h => ?_⟩
    · rw [State.postOnce_crews, c1]; exact a1 c r (by rw [b1, hwt.1]; exact h)
    · rw [mem_postOnce, c3, a3, b3, hwt.2.2]; exact .inl h

/-- What removing a thread does to crews, to memory's bytes and to the events in flight. -/
theorem removeThread_more (s : State) (k : Nat) :
    (∀ c r, s.crews.get? c = some r → ∃ r', (s.removeThread k).crews.get? c = some r' ∧ r'.live = r.live ∧ r'.origin = r.origin ∧ r'.codes = r.codes) ∧
    (s.removeThread k).mem.bytes = s.mem.bytes ∧ (s.removeThread k).mem.scratch = s.mem.scratch ∧ ∀ e, e ∈ s.due → e ∈ (s.removeThread k).due := by
  unfold State.removeThread
  split
  · exact ⟨fun c r h => ⟨r, h, rfl, rfl, rfl⟩, rfl, rfl, fun _ h => h⟩
  · rename_i t ht
    obtain ⟨a1, a2, a3, a4⟩ := forgetThread_more s k
    obtain ⟨b1, b2, b3⟩ := afterThread_more (s.forgetThread k) (coreOf k) t
    refine ⟨fun c r h => ?_, by rw [b2, a2], by rw [b2, a3], fun e h => b3 e (a4 e h)⟩
    obtain ⟨n, hn⟩ := b1 c _ (by rw [a1, h]; rfl)
    exact ⟨_, hn, rfl, rfl, rfl⟩

theorem removeThread_grown (s : State) (k : Nat) : Grown s (s.removeThread k) := by
  refine ⟨fun c r h => ?_⟩
  obtain ⟨r', h1, -, h2, h3⟩ := (removeThread_more s k).1 c r h
  exact ⟨r', h1, h2, fun i hi => by rw [h3]; exact hi⟩

theorem crewThreadGone_grown (s : State) (c : Nat) : Grown s (s.crewThreadGone c) := by
  unfold State.crewThreadGone
  split
  · exact .of_eq rfl
  · rename_i c0 _
    dsimp only
    have : Grown s (s.updCrew c fun x => { x with live := c0.live - 1, phase := if c0.live - 1 = 0 then .finished else x.phase }) := Grown.upd _ _ _ fun r => ⟨rfl, fun _ h => h⟩
    split
    · exact (Grown.upd s c (fun x => { x with live := c0.live - 1, phase := .finished }) fun r => ⟨rfl, fun _ h => h⟩).trans (.of_eq (by rw [State.postOnce_crews, State.postOnce_crews]))
    · exact (Grown.upd s c (fun x => { x with live := c0.live - 1 }) fun r => ⟨rfl, fun _ h => h⟩)

theorem endThread_grown (s : State) (k : Nat) : Grown s (s.endThread k) := by
  unfold State.endThread
  split
  · exact .of_eq rfl
  · exact (removeThread_grown ..).trans (crewThreadGone_grown ..)

theorem record_spec (code : Nat) (r : Crew) : (Crew.record r code).origin = r.origin ∧ (∀ i, r.codes.testBit i = true → (Crew.record r code).codes.testBit i = true) ∧ (Crew.record r code).codes.testBit code = true := by
  have e : (Crew.record r code).codes = r.codes ||| 2 ^ code := rfl
  refine ⟨rfl, fun i h => ?_, ?_⟩
  · rw [e, Nat.testBit_or, h]; rfl
  · rw [e, Nat.testBit_or, Nat.testBit_two_pow_self]; simp

theorem retire_grown (s : State) (k code : Nat) : Grown s (s.retire k code) := by
  unfold State.retire
  split
  · exact .of_eq rfl
  · exact (Grown.upd _ _ (Crew.record · code) fun r => ⟨rfl, (record_spec code r).2.1⟩).trans (endThread_grown ..)

theorem retire_records {s : State} {k code : Nat} {t : Thread} (ht : s.threads.get? k = some t) {r : Crew} (hr : s.crews.get? (s.maskCrew t.crew) = some r) :
    ∃ r', (s.retire k code).crews.get? (s.maskCrew t.crew) = some r' ∧ r'.codes.testBit code = true := by
  unfold State.retire
  rw [ht]
  dsimp only
  have h1 : (s.updCrew (s.maskCrew t.crew) (Crew.record · code)).crews.get? (s.maskCrew t.crew) = some (Crew.record r code) := by
    show (s.crews.adjust _ _).get? _ = _
    rw [FMap.get?_adjust_same, hr]; rfl
  obtain ⟨r', a, b, c⟩ := (endThread_grown _ k).go _ _ h1
  exact ⟨r', a, c _ (record_spec code r).2.2⟩

theorem maskCrew_grown {s t : State} (h : Grown s t) {c : Nat} {r : Crew} (hc : s.crews.get? c = some r) : t.maskCrew c = s.maskCrew c := by
  obtain ⟨r', a, b, -⟩ := h.go c r hc
  unfold State.maskCrew; rw [hc, a]; dsimp only; rw [b]

theorem raise_grown (s : State) (k : Nat) (pc : DWord) (f : Flt) (sub : Nat) : Grown s (s.raise k pc f sub) := by
  unfold State.raise
  split
  · unfold State.park State.fwEvent State.pokeFw
    dsimp only
    split
    · exact .of_eq (by rw [State.postOnce_crews]; rfl)
    · exact .of_eq rfl
  · unfold State.takeTrap
    split
    · exact .of_eq rfl
    · rename_i t0 _
      dsimp only
      have h1 : Grown s (s.updCrew t0.crew fun c => { c with discard := false, coords := [] }) := Grown.upd _ _ _ fun r => ⟨rfl, fun _ h => h⟩
      split
      · exact h1.trans (retire_grown ..)
      · exact h1.trans (.of_eq rfl)

theorem raiseAll_grown (pc : DWord) (l : List (Nat × Flt)) (s : State) : Grown s (s.raiseAll pc l) := by
  unfold State.raiseAll
  dsimp only
  generalize s.fresh = sub
  induction l generalizing s with
  | nil => exact .of_eq rfl
  | cons p r ih => exact (raise_grown ..).trans (ih _)

theorem raise_records {s : State} {k : Nat} {pc : DWord} {f : Flt} {sub : Nat} {t : Thread} (ht : s.threads.get? k = some t) (hf : f.code ≠ 7 ∧ f.code ≠ 13)
    (hr : t.retires = true) {m : Nat} {r : Crew} {c : Crew} (hc : s.crews.get? t.crew = some c) (hm : s.maskCrew t.crew = m) (hmr : s.crews.get? m = some r) :
    ∃ r', (s.raise k pc f sub).crews.get? m = some r' ∧ r'.codes.testBit f.code = true := by
  unfold State.raise
  rw [if_neg (by simpa using hf)]
  unfold State.takeTrap
  rw [ht]
  dsimp only
  rw [hr, if_pos rfl]
  have hg : Grown s (s.updCrew t.crew fun c => { c with discard := false, coords := [] }) := Grown.upd _ _ _ fun r => ⟨rfl, fun _ h => h⟩
  generalize hu : (s.updCrew t.crew fun c => { c with discard := false, coords := [] }) = u at hg
  have hut : u.threads.get? k = some t := by rw [← hu]; exact ht
  have hum : u.maskCrew t.crew = m := (maskCrew_grown hg hc).trans hm
  obtain ⟨r1, a, -, -⟩ := hg.go m r hmr
  obtain ⟨r2, b, c⟩ := retire_records (code := f.code) hut (r := r1) (by rw [hum]; exact a)
  exact ⟨r2, by rw [← hum]; exact b, c⟩

theorem finish_crews (s : State) (iss : Issue) (sel : Bool) : (s.finish iss sel).crews = s.crews := (State.finish_same s iss sel).crews

theorem filterMap_nodup {ex : List (Nat × Thread)} (h : (ex.map Prod.fst).Nodup) (f : Nat × Thread → Option Flt) :
    ((ex.filterMap fun p => (f p).map fun x => (p.1, x)).map Prod.fst).Nodup := by
  refine List.Nodup.sublist ?_ h
  induction ex with
  | nil => exact .refl _
  | cons p r ih =>
    rw [List.filterMap_cons]
    cases hp : f p with
    | none => exact (ih (List.nodup_cons.mp h).2).cons _
    | some x => exact (ih (List.nodup_cons.mp h).2).cons_cons _

theorem regExt_code {s : State} {c : Opc} {o : Ops} {k : Nat} {t : Thread} {f : Flt} (h : s.extFault c o k t = some f) : f.code = 5 := by
  unfold State.extFault at h
  dsimp only at h
  obtain ⟨x, -, rfl⟩ := Option.map_eq_some_iff.mp h
  rfl

theorem clearInh_bits (t : Thread) : t.clearInh.trap.tcause.getLsbD 8 = false ∧ t.clearInh.trap.tcause.toNat % 256 = t.trap.tcause.toNat % 256 := by
  unfold Thread.clearInh
  dsimp only
  constructor
  · simp
  · apply Nat.eq_of_testBit_eq
    intro i
    rw [show 256 = 2 ^ 8 from rfl, Nat.testBit_mod_two_pow, Nat.testBit_mod_two_pow]
    by_cases h : i < 8
    · simp only [h, decide_true, Bool.true_and]
      rw [BitVec.testBit_toNat, BitVec.testBit_toNat, BitVec.getLsbD_and, BitVec.getLsbD_not]
      have : (256 : DWord).getLsbD i = false := by
        have : ∀ j : Fin 8, (256 : DWord).getLsbD j.val = false := by decide
        exact this ⟨i, h⟩
      rw [this]; simp; intro; omega
    · simp [h]

theorem fst_foldl_end (l : List (Nat × Thread)) : ∀ s : State, (l.map Prod.fst).Nodup → (∀ p ∈ l, s.threads.get? p.1 = some p.2 ∧ p.2.status = .ready) →
    (∀ p ∈ l, (l.foldl (fun s p => s.endThread p.1) s).threads.get? p.1 = none) := by
  induction l with
  | nil => intro _ _ _ p hp; cases hp
  | cons a r ih =>
    intro s hn hl p hp
    obtain ⟨n1, n2⟩ := List.nodup_cons.mp hn
    obtain ⟨k1, k2⟩ := endThread_kept s a.1
    have hgone : ∀ (l : List (Nat × Thread)) (s : State) (k : Nat), s.threads.get? k = none → (l.foldl (fun s p => s.endThread p.1) s).threads.get? k = none := by
      intro l; induction l with
      | nil => intro s k h; exact h
      | cons b l ih => intro s k h; exact ih _ k ((endThread_kept s b.1).1.gone k h)
    rw [List.foldl_cons]
    cases hp with
    | head => exact hgone r _ _ k2
    | tail _ hp =>
      refine ih _ n2 (fun q hq => ⟨k1.kept q.1 q.2 ?_ (hl q (List.mem_cons_of_mem _ hq)).1 (hl q (List.mem_cons_of_mem _ hq)).2, (hl q (List.mem_cons_of_mem _ hq)).2⟩) p hp
      intro e; exact n1 (List.mem_map.mpr ⟨q, hq, e⟩)

theorem crewThreadGone_more (s : State) (c : Nat) :
    (∀ x r, s.crews.get? x = some r → ∃ r', (s.crewThreadGone c).crews.get? x = some r' ∧ (x ≠ c → r'.live = r.live) ∧
      (x = c → r'.live = r.live - 1 ∧ (r.live - 1 = 0 → r'.phase = .finished ∧ Instr.crewEnd c ∈ (s.crewThreadGone c).due))) ∧
    (s.crewThreadGone c).mem = s.mem ∧ ∀ e, e ∈ s.due → e ∈ (s.crewThreadGone c).due := by
  unfold State.crewThreadGone
  split
  · rename_i h
    exact ⟨fun x r hx => ⟨r, hx, fun _ => rfl, fun e => by subst e; rw [h] at hx; cases hx⟩, rfl, fun _ h => h⟩
  · rename_i c0 hc
    dsimp only
    split
    · rename_i h0
      refine ⟨fun x r hx => ?_, by rw [State.postOnce_mem, State.postOnce_mem]; rfl, fun e h => by rw [mem_postOnce, mem_postOnce]; exact .inl (.inl h)⟩
      rw [State.postOnce_crews, State.postOnce_crews]
      show ∃ r', (s.crews.adjust c _).get? x = some r' ∧ _
      rw [FMap.get?_adjust]
      split
      · rename_i e; subst e; rw [hx]; rw [hc] at hx; cases hx
        exact ⟨_, rfl, fun h => absurd rfl h, fun _ => ⟨rfl, fun _ => ⟨by simp, by rw [mem_postOnce]; exact .inr rfl⟩⟩⟩
      · rename_i e; exact ⟨r, hx, fun _ => rfl, fun h => absurd h e⟩
    · rename_i h0
      refine ⟨fun x r hx => ?_, rfl, fun _ h => h⟩
      show ∃ r', (s.crews.adjust c _).get? x = some r' ∧ _
      rw [FMap.get?_adjust]
      split
      · rename_i e; subst e; rw [hx]; rw [hc] at hx; cases hx
        exact ⟨_, rfl, fun h => absurd rfl h, fun _ => ⟨rfl, fun h => absurd h h0⟩⟩
      · rename_i e; exact ⟨r, hx, fun _ => rfl, fun h => absurd h e⟩

theorem nextPc_ne (pc : DWord) : nextPc pc ≠ pc := by
  unfold nextPc slotNo lineOf
  have := pc.isLt
  split
  · intro h
    have := congrArg BitVec.toNat h
    rw [BitVec.toNat_add] at this
    simp at this
    omega
  · intro h
    have := congrArg BitVec.toNat h
    rw [BitVec.toNat_ofNat] at this
    omega

theorem lookup_of_mem {α : Type} {l : List (Nat × α)} (h : (l.map Prod.fst).Nodup) {k : Nat} {v : α} (hm : (k, v) ∈ l) : lookupCells l k = some v := by
  induction l with
  | nil => cases hm
  | cons p r ih =>
    obtain ⟨n1, n2⟩ := List.nodup_cons.mp h
    obtain ⟨a, b⟩ := p
    simp only [lookupCells]
    cases hm with
    | head => simp
    | tail _ hm =>
      rw [if_neg (by rintro rfl; exact n1 (List.mem_map.mpr ⟨_, hm, rfl⟩))]
      exact ih n2 hm

theorem rising_nodup {α : Type} {l : List (Nat × α)} : ∀ {b : Option Nat}, risingFrom b l = true → (l.map Prod.fst).Nodup ∧ ∀ n, b = some n → ∀ p ∈ l, n < p.1 := by
  induction l with
  | nil => intro b _; exact ⟨List.nodup_nil, fun _ _ p hp => by cases hp⟩
  | cons p r ih =>
    intro b h
    obtain ⟨k, v⟩ := p
    obtain ⟨h1, h2⟩ := rising_cons.mp h
    obtain ⟨i1, i2⟩ := ih h2
    refine ⟨List.nodup_cons.mpr ⟨?_, i1⟩, ?_⟩
    · intro hm; obtain ⟨q, hq, e⟩ := List.mem_map.mp hm
      have := i2 k rfl q hq; simp at e; omega
    · rintro n rfl q hq
      cases hq with
      | head => exact h1
      | tail _ hq => exact Nat.lt_trans h1 (i2 k rfl q hq)

theorem keys_nodup {α : Type} {m : FMap α} (h : m.rising = true) : m.keys.Nodup := (rising_nodup h).1

theorem rising_adjust {α : Type} {m : FMap α} (a : Nat) (f : α → α) (h : m.rising = true) : (m.adjust a f).rising = true := by
  unfold FMap.adjust; split
  · exact h
  · exact FMap.rising_put a _ h

end Sys2Proof.Machine
end

