-- ==== Sys2Proof/Tests/Slice0.lean ====
section
/-!
SUPPORT. The model's own tests: words written out from the spec's encodings, terms that are not well formed, one step of single instructions, and for every statement with premises a state that meets them.
-/
namespace Sys2Proof.Tests

open Sys2Proof.Machine

/-! ### Decoding: words written out field by field from R198 and the encoding tables -/

/-- An instruction word from its fields in the order of R198: MAJ, MOD, GUARD, WBS, DST, SA, SB, SC, AUX and IMM32. -/
def word (maj : BitVec 8) (mod : BitVec 6) (guard : BitVec 4) (wbs : BitVec 1) (dst : BitVec 9) (sa sb sc : BitVec 10) (aux : BitVec 6) (imm : BitVec 32) : IWord :=
  maj ++ mod ++ guard ++ wbs ++ dst ++ sa ++ sb ++ sc ++ aux ++ imm

/-- Operands that name nothing, with the guard that every thread passes (R199). -/
def bare : Ops := ⟨false, 7, .none, false, false, false, .none, .none, .none, .none, 0, 0⟩

/-- Whether a word decodes to an instruction. -/
def reads (w : IWord) (i : Instr) : Bool := match decode w with | .ok j => j == i | .error _ => false

/-- Whether every word of a list decodes to its instruction. -/
def readsAll (l : List (IWord × Instr)) : Bool := l.all fun p => reads p.1 p.2

/-- Words of the control instructions (R231): BRA with a negative line offset (R195), a guarded EXIT, BRX by a k pair. -/
def controlWords : List (IWord × Instr) :=
  [
    (word 0x00 0x00 0b0111 0 0x000 0x000 0x000 0x000 0x00 0x00000000, .nop bare),
    (word 0x01 0x00 0b0111 0 0x000 0x000 0x000 0x000 0x00 0xFFFFFFF2, .bra { bare with imm := 0xFFFFFFF2 }),
    (word 0x02 0x00 0b0111 0 0x000 0x084 0x000 0x000 0x00 0x00000000, .brx { bare with sa := .k 4 }),
    (word 0x03 0x00 0b0111 0 0x000 0x000 0x000 0x000 0x00 0x00000021, .call { bare with imm := 0x21 }),
    (word 0x04 0x00 0b0111 0 0x000 0x004 0x000 0x000 0x00 0x00000000, .callx { bare with sa := .v 4 }),
    (word 0x05 0x00 0b0111 0 0x000 0x000 0x000 0x000 0x00 0x00000000, .ret bare),
    (word 0x06 0x00 0b1001 0 0x000 0x000 0x000 0x000 0x00 0x00000000, .exit { bare with guardNeg := true, guardPred := 1 }),
    (word 0x07 0x00 0b0111 0 0x000 0x000 0x000 0x000 0x00 0x00000000, .syncg bare),
    (word 0x08 0x00 0b0111 0 0x000 0x000 0x000 0x000 0x00 0x00000000, .yield bare),
    (word 0x09 0x00 0b0111 0 0x000 0x000 0x000 0x000 0x00 0x00000002, .prio { bare with imm := 0x2 }),
    (word 0x0A 0x00 0b0111 0 0x000 0x000 0x000 0x000 0x00 0xFFFFFFFF, .bkpt { bare with imm := 0xFFFFFFFF }) ]

theorem test_decode_control : readsAll controlWords = true := by decide

/-- Words of the integer instructions (R353): .x2, a latch, a special, a constant, and WBS. -/
def arithWords : List (IWord × Instr) :=
  [
    (word 0x10 0x05 0b0111 0 0x003 0x001 0x002 0x000 0x00 0x00000000, .iadd { bare with ty := .i32, dst := .v 3, sa := .v 1, sb := .v 2 }),
    (word 0x11 0x0F 0b0111 0 0x004 0x006 0x082 0x000 0x00 0x00000000, .isub { bare with ty := .q64, dst := .v 4, sa := .v 6, sb := .k 2 }),
    (word 0x12 0x14 0b0111 0 0x005 0x006 0x1FF 0x000 0x00 0x00030002, .imul { bare with ty := .n16, x2 := true, dst := .v 5, sa := .v 6, sb := .imm, imm := 0x30002 }),
    (word 0x13 0x08 0b0111 0 0x008 0x00A 0x00C 0x000 0x00 0x00000000, .imulh { bare with ty := .n64, dst := .v 8, sa := .v 10, sb := .v 12 }),
    (word 0x14 0x08 0b0111 0 0x00C 0x00A 0x1FF 0x002 0x00 0x00000018, .imad { bare with ty := .n64, dst := .v 12, sa := .v 10, sb := .imm, sc := .v 2, imm := 0x18 }),
    (word 0x15 0x05 0b0111 0 0x001 0x002 0x0C8 0x000 0x00 0x00000000, .idiv { bare with ty := .i32, dst := .v 1, sa := .v 2, sb := .sp .tix }),
    (word 0x16 0x06 0b0111 0 0x001 0x200 0x002 0x000 0x00 0x00000000, .irem { bare with ty := .n32, dst := .v 1, sa := .latch 0, sb := .v 2 }),
    (word 0x17 0x01 0b0111 0 0x001 0x002 0x003 0x000 0x00 0x00000000, .imin { bare with ty := .i8, dst := .v 1, sa := .v 2, sb := .v 3 }),
    (word 0x18 0x02 0b0111 1 0x000 0x002 0x003 0x000 0x00 0x00000000, .imax { bare with ty := .n8, wbs := true, sa := .v 2, sb := .v 3 }),
    (word 0x19 0x13 0b0111 0 0x001 0x002 0x000 0x000 0x00 0x00000000, .iabs { bare with ty := .i16, x2 := true, dst := .v 1, sa := .v 2 }),
    (word 0x1A 0x07 0b0111 0 0x002 0x004 0x000 0x000 0x00 0x00000000, .ineg { bare with ty := .i64, dst := .v 2, sa := .v 4 }),
    (word 0x1B 0x06 0b0111 0 0x0C1 0x004 0x082 0x000 0x05 0x00000000, .icmp { bare with ty := .n32, dst := .p 1, sa := .v 4, sb := .k 2, aux := 5 }),
    (word 0x1C 0x09 0b0111 0 0x005 0x006 0x007 0x0C2 0x00 0x00000000, .isel { bare with ty := .f32, dst := .v 5, sa := .v 6, sb := .v 7, sc := .p 2 }) ]

theorem test_decode_arith : readsAll arithWords = true := by decide

/-- Words of the logic, shift and move instructions (R353). -/
def logicWords : List (IWord × Instr) :=
  [
    (word 0x1D 0x06 0b0111 0 0x001 0x002 0x003 0x000 0x00 0x00000000, .and { bare with ty := .n32, dst := .v 1, sa := .v 2, sb := .v 3 }),
    (word 0x1E 0x08 0b0111 0 0x002 0x004 0x006 0x000 0x00 0x00000000, .or { bare with ty := .n64, dst := .v 2, sa := .v 4, sb := .v 6 }),
    (word 0x1F 0x05 0b0111 0 0x001 0x002 0x1FF 0x000 0x00 0xFFFFFFFF, .xor { bare with ty := .i32, dst := .v 1, sa := .v 2, sb := .imm, imm := 0xFFFFFFFF }),
    (word 0x20 0x06 0b0111 0 0x001 0x002 0x000 0x000 0x00 0x00000000, .not { bare with ty := .n32, dst := .v 1, sa := .v 2 }),
    (word 0x21 0x06 0b0111 0 0x001 0x002 0x003 0x000 0x00 0x00000000, .andn { bare with ty := .n32, dst := .v 1, sa := .v 2, sb := .v 3 }),
    (word 0x22 0x08 0b0111 0 0x008 0x008 0x1FF 0x000 0x00 0x00000003, .shl { bare with ty := .n64, dst := .v 8, sa := .v 8, sb := .imm, imm := 0x3 }),
    (word 0x23 0x06 0b0111 0 0x001 0x002 0x003 0x000 0x00 0x00000000, .shr { bare with ty := .n32, dst := .v 1, sa := .v 2, sb := .v 3 }),
    (word 0x24 0x05 0b0111 0 0x001 0x002 0x207 0x000 0x00 0x00000000, .sar { bare with ty := .i32, dst := .v 1, sa := .v 2, sb := .latch 7 }),
    (word 0x25 0x06 0b0111 0 0x001 0x002 0x080 0x000 0x00 0x00000000, .rotl { bare with ty := .n32, dst := .v 1, sa := .v 2, sb := .k 0 }),
    (word 0x26 0x05 0b0111 0 0x001 0x002 0x1FF 0x000 0x00 0x00000810, .bfx { bare with ty := .i32, dst := .v 1, sa := .v 2, sb := .imm, imm := 0x810 }),
    (word 0x27 0x06 0b0111 0 0x004 0x004 0x005 0x1FF 0x00 0x00000810, .bfi { bare with ty := .n32, dst := .v 4, sa := .v 4, sb := .v 5, sc := .imm, imm := 0x810 }),
    (word 0x28 0x08 0b0111 0 0x001 0x002 0x000 0x000 0x00 0x00000000, .popc { bare with ty := .n64, dst := .v 1, sa := .v 2 }),
    (word 0x29 0x06 0b0111 0 0x001 0x002 0x000 0x000 0x00 0x00000000, .clz { bare with ty := .n32, dst := .v 1, sa := .v 2 }),
    (word 0x2A 0x07 0b0111 0 0x001 0x002 0x000 0x000 0x00 0x00000000, .ctz { bare with ty := .i64, dst := .v 1, sa := .v 2 }),
    (word 0x2B 0x06 0b0111 0 0x001 0x002 0x000 0x000 0x00 0x00000000, .brev { bare with ty := .n32, dst := .v 1, sa := .v 2 }),
    (word 0x2C 0x08 0b0111 0 0x006 0x002 0x005 0x000 0x22 0x00000000, .lea { bare with ty := .n64, dst := .v 6, sa := .v 2, sb := .v 5, aux := 34 }),
    (word 0x2D 0x0B 0b0111 0 0x001 0x0C9 0x000 0x000 0x00 0x00000000, .mov { bare with ty := .bf16, dst := .v 1, sa := .sp .lane }),
    (word 0x2E 0x07 0b0111 0 0x004 0x000 0x000 0x000 0x00 0xFFFFFFFF, .movi { bare with ty := .i64, dst := .v 4, imm := 0xFFFFFFFF }),
    (word 0x2F 0x00 0b0111 0 0x004 0x004 0x000 0x000 0x00 0x00000012, .movh { bare with dst := .v 4, sa := .v 4, imm := 0x12 }),
    (word 0x30 0x01 0b0111 0 0x009 0x001 0x002 0x009 0x01 0x00000000, .idot4 { bare with ty := .i8, dst := .v 9, sa := .v 1, sb := .v 2, sc := .v 9, aux := 1 }) ]

theorem test_decode_logic : readsAll logicWords = true := by decide

/-- Words of the floating-point instructions (R366). -/
def floatWords : List (IWord × Instr) :=
  [
    (word 0x38 0x1B 0b0111 0 0x004 0x005 0x006 0x000 0x00 0x00000000, .fadd { bare with ty := .bf16, x2 := true, dst := .v 4, sa := .v 5, sb := .v 6 }),
    (word 0x39 0x29 0b0111 0 0x001 0x002 0x1FF 0x000 0x00 0x3F800000, .fsub { bare with ty := .f32, flag := true, dst := .v 1, sa := .v 2, sb := .imm, imm := 0x3F800000 }),
    (word 0x3A 0x0A 0b0111 0 0x001 0x002 0x003 0x000 0x03 0x00000000, .fmul { bare with ty := .f16, dst := .v 1, sa := .v 2, sb := .v 3, aux := 3 }),
    (word 0x3B 0x09 0b0111 0 0x008 0x007 0x083 0x008 0x01 0x00000000, .ffma { bare with ty := .f32, dst := .v 8, sa := .v 7, sb := .k 3, sc := .v 8, aux := 1 }),
    (word 0x3C 0x09 0b0111 0 0x001 0x002 0x003 0x000 0x00 0x00000000, .fmin { bare with ty := .f32, dst := .v 1, sa := .v 2, sb := .v 3 }),
    (word 0x3D 0x0B 0b0111 0 0x001 0x002 0x003 0x000 0x00 0x00000000, .fmax { bare with ty := .bf16, dst := .v 1, sa := .v 2, sb := .v 3 }),
    (word 0x3E 0x09 0b0111 0 0x0C2 0x001 0x001 0x000 0x07 0x00000000, .fcmp { bare with ty := .f32, dst := .p 2, sa := .v 1, sb := .v 1, aux := 7 }),
    (word 0x3F 0x09 0b0111 0 0x001 0x002 0x000 0x000 0x00 0x00000000, .frcp { bare with ty := .f32, dst := .v 1, sa := .v 2 }),
    (word 0x40 0x09 0b0111 0 0x001 0x002 0x000 0x000 0x00 0x00000000, .frsq { bare with ty := .f32, dst := .v 1, sa := .v 2 }),
    (word 0x41 0x1A 0b0111 0 0x001 0x002 0x000 0x000 0x00 0x00000000, .fsqrt { bare with ty := .f16, x2 := true, dst := .v 1, sa := .v 2 }),
    (word 0x42 0x09 0b0111 0 0x001 0x002 0x003 0x000 0x00 0x00000000, .fdiv { bare with ty := .f32, dst := .v 1, sa := .v 2, sb := .v 3 }),
    (word 0x43 0x09 0b0111 0 0x001 0x002 0x000 0x000 0x00 0x00000000, .fexp2 { bare with ty := .f32, dst := .v 1, sa := .v 2 }),
    (word 0x44 0x09 0b0111 0 0x001 0x002 0x000 0x000 0x00 0x00000000, .flog2 { bare with ty := .f32, dst := .v 1, sa := .v 2 }),
    (word 0x45 0x09 0b0111 0 0x001 0x002 0x000 0x000 0x00 0x00000000, .fsin { bare with ty := .f32, dst := .v 1, sa := .v 2 }),
    (word 0x46 0x09 0b0111 0 0x001 0x002 0x000 0x000 0x00 0x00000000, .fcos { bare with ty := .f32, dst := .v 1, sa := .v 2 }),
    (word 0x47 0x0B 0b0111 0 0x001 0x002 0x000 0x000 0x00 0x00000000, .ftanh { bare with ty := .bf16, dst := .v 1, sa := .v 2 }),
    (word 0x48 0x0C 0b0111 0 0x001 0x002 0x000 0x000 0x00 0x00000000, .fclass { bare with ty := .e4m3, dst := .v 1, sa := .v 2 }),
    (word 0x49 0x09 0b0111 0 0x001 0x002 0x000 0x000 0x02 0x00000000, .frnd { bare with ty := .f32, dst := .v 1, sa := .v 2, aux := 2 }),
    (word 0x4A 0x09 0b0111 0 0x004 0x004 0x1FF 0x000 0x00 0xFFFFFFFD, .fscalb { bare with ty := .f32, dst := .v 4, sa := .v 4, sb := .imm, imm := 0xFFFFFFFD }),
    (word 0x4B 0x1B 0b0111 0 0x001 0x002 0x003 0x004 0x00 0x00000000, .fdot2 { bare with ty := .bf16, x2 := true, dst := .v 1, sa := .v 2, sb := .v 3, sc := .v 4 }),
    (word 0x4C 0x0C 0b0111 0 0x009 0x001 0x002 0x009 0x08 0x00000000, .fdot4 { bare with ty := .e4m3, dst := .v 9, sa := .v 1, sb := .v 2, sc := .v 9, aux := 8 }),
    (word 0x4D 0x0F 0b0111 0 0x00E 0x003 0x000 0x000 0x09 0x00000018, .cvt { bare with ty := .q64, dst := .v 14, sa := .v 3, aux := 9, imm := 0x18 }),
    (word 0x4E 0x0D 0b0111 0 0x006 0x001 0x002 0x006 0x08 0x00000000, .pack { bare with ty := .e5m2, dst := .v 6, sa := .v 1, sb := .v 2, sc := .v 6, aux := 8 }),
    (word 0x4F 0x0E 0b0111 0 0x007 0x003 0x084 0x000 0x05 0x00000000, .unpack { bare with ty := .e2m1x, dst := .v 7, sa := .v 3, sb := .k 4, aux := 5 }) ]

theorem test_decode_float : readsAll floatWords = true := by decide

/-- Words of the predicate and lane instructions (R240). -/
def lanesWords : List (IWord × Instr) :=
  [
    (word 0x58 0x00 0b0111 0 0x0C1 0x0C2 0x0C3 0x000 0x03 0x00000000, .plop { bare with dst := .p 1, sa := .p 2, sb := .p 3, aux := 3 }),
    (word 0x59 0x00 0b0111 0 0x003 0x0C1 0x000 0x000 0x00 0x00000000, .pmov { bare with dst := .v 3, sa := .p 1 }),
    (word 0x5A 0x00 0b0111 0 0x004 0x0C1 0x000 0x000 0x02 0x00000000, .vote { bare with dst := .v 4, sa := .p 1, aux := 2 }),
    (word 0x5B 0x06 0b0111 0 0x005 0x006 0x1FF 0x000 0x03 0x00000001, .shfl { bare with ty := .n32, dst := .v 5, sa := .v 6, sb := .imm, aux := 3, imm := 0x1 }),
    (word 0x5C 0x06 0b0111 0 0x006 0x005 0x000 0x000 0x00 0x00000000, .gred { bare with ty := .n32, dst := .v 6, sa := .v 5 }),
    (word 0x5D 0x05 0b0111 0 0x007 0x005 0x000 0x000 0x05 0x00000000, .gscan { bare with ty := .i32, dst := .v 7, sa := .v 5, aux := 5 }) ]

theorem test_decode_lanes : readsAll lanesWords = true := by decide

/-- Words of the memory instructions (R385): offsets, hints, QUAD, orderings. -/
def memoryWords : List (IWord × Instr) :=
  [
    (word 0x60 0x06 0b0111 0 0x008 0x002 0x000 0x000 0x02 0x00000008, .ld { bare with ty := .n32, dst := .v 8, sa := .v 2, aux := 2, imm := 0x8 }),
    (word 0x61 0x08 0b0111 0 0x000 0x002 0x006 0x000 0x00 0x40000008, .st { bare with ty := .n64, sa := .v 2, sb := .v 6, imm := 0x40000008 }),
    (word 0x62 0x09 0b0111 0 0x007 0x004 0x000 0x000 0x00 0x00000000, .lds { bare with ty := .f32, dst := .v 7, sa := .v 4 }),
    (word 0x63 0x09 0b0111 0 0x000 0x004 0x007 0x000 0x00 0x00000004, .sts { bare with ty := .f32, sa := .v 4, sb := .v 7, imm := 0x4 }),
    (word 0x64 0x08 0b0111 0 0x006 0x084 0x000 0x000 0x00 0x00000010, .ldk { bare with ty := .n64, dst := .v 6, sa := .k 4, imm := 0x10 }),
    (word 0x65 0x00 0b0111 0 0x000 0x002 0x000 0x000 0x00 0x00000080, .pref { bare with sa := .v 2, imm := 0x80 }),
    (word 0x66 0x26 0b0111 0 0x008 0x004 0x006 0x000 0x00 0x00000010, .atom { bare with ty := .n32, flag := true, dst := .v 8, sa := .v 4, sb := .v 6, imm := 0x10 }),
    (word 0x67 0x0F 0b0111 0 0x008 0x004 0x006 0x00A 0x38 0x00000000, .atomc { bare with ty := .q64, dst := .v 8, sa := .v 4, sb := .v 6, sc := .v 10, aux := 56 }),
    (word 0x68 0x09 0b0111 0 0x000 0x004 0x006 0x000 0x0D 0x00000000, .red { bare with ty := .f32, sa := .v 4, sb := .v 6, aux := 13 }),
    (word 0x69 0x06 0b0111 0 0x000 0x004 0x006 0x000 0x00 0x00000000, .give { bare with ty := .n32, sa := .v 4, sb := .v 6 }),
    (word 0x6A 0x08 0b0111 0 0x006 0x004 0x000 0x000 0x20 0x00000000, .take { bare with ty := .n64, dst := .v 6, sa := .v 4, aux := 32 }),
    (word 0x6B 0x06 0b0111 0 0x006 0x004 0x005 0x000 0x15 0x00000000, .waitw { bare with ty := .n32, dst := .v 6, sa := .v 4, sb := .v 5, aux := 21 }),
    (word 0x6C 0x00 0b0111 0 0x000 0x002 0x005 0x000 0x00 0x00000000, .cwb { bare with sa := .v 2, sb := .v 5 }),
    (word 0x6D 0x00 0b0111 0 0x000 0x002 0x083 0x000 0x00 0x00000040, .cinv { bare with sa := .v 2, sb := .k 3, imm := 0x40 }) ]

theorem test_decode_memory : readsAll memoryWords = true := by decide

/-- Words of the instructions of frames, crews and queues (R246, R266). -/
def crewsWords : List (IWord × Instr) :=
  [
    (word 0x70 0x00 0b0111 0 0x014 0x00C 0x007 0x00C 0x01 0x00000020, .spawn { bare with dst := .v 20, sa := .v 12, sb := .v 7, sc := .v 12, aux := 1, imm := 0x20 }),
    (word 0x71 0x08 0b0111 0 0x016 0x014 0x000 0x000 0x00 0x00000001, .await { bare with ty := .n64, dst := .v 22, sa := .v 20, imm := 0x1 }),
    (word 0x72 0x08 0b0111 0 0x018 0x014 0x000 0x000 0x00 0x00000000, .pollf { bare with ty := .n64, dst := .v 24, sa := .v 20 }),
    (word 0x73 0x00 0b0111 0 0x000 0x0C8 0x004 0x000 0x00 0x00000000, .fret { bare with sa := .sp .tix, sb := .v 4 }),
    (word 0x74 0x00 0b0111 0 0x000 0x014 0x004 0x000 0x03 0x00000000, .stealpt { bare with sa := .v 20, sb := .v 4, aux := 3 }),
    (word 0x75 0x00 0b0111 0 0x000 0x000 0x000 0x000 0x00 0x00000000, .cbar bare),
    (word 0x76 0x00 0b0111 0 0x000 0x000 0x1FF 0x000 0x0E 0x00000040, .nbar { bare with sb := .imm, aux := 14, imm := 0x40 }),
    (word 0x77 0x26 0b0111 0 0x0C1 0x006 0x01E 0x000 0x08 0x00000000, .qpush { bare with ty := .n32, flag := true, dst := .p 1, sa := .v 6, sb := .v 30, aux := 8 }),
    (word 0x78 0x28 0b0111 0 0x006 0x000 0x000 0x0C1 0x02 0x00000000, .qpop { bare with ty := .n64, flag := true, dst := .v 6, sc := .p 1, aux := 2 }),
    (word 0x79 0x00 0b0111 0 0x004 0x000 0x000 0x0C1 0x00 0x00000000, .tfetch { bare with dst := .v 4, sc := .p 1 }),
    (word 0x7A 0x20 0b0111 0 0x0C2 0x000 0x000 0x000 0x00 0x00000000, .regxGet { bare with flag := true, dst := .p 2 }),
    (word 0x7A 0x00 0b0111 0 0x000 0x000 0x000 0x000 0x01 0x00000000, .regxPut { bare with aux := 1 }),
    (word 0x7B 0x00 0b0111 0 0x083 0x005 0x000 0x000 0x00 0x00000000, .kset { bare with dst := .k 3, sa := .v 5 }) ]

theorem test_decode_crews : readsAll crewsWords = true := by decide

/-- Words of the system instructions (R262, R264, R331). -/
def systemWords : List (IWord × Instr) :=
  [
    (word 0x80 0x00 0b0111 0 0x0C1 0x004 0x000 0x000 0x00 0x00000000, .symq { bare with dst := .p 1, sa := .v 4 }),
    (word 0x81 0x00 0b0111 0 0x000 0x004 0x006 0x083 0x03 0x00000000, .resolve { bare with sa := .v 4, sb := .v 6, sc := .k 3, aux := 3 }),
    (word 0x82 0x00 0b0111 0 0x000 0x000 0x000 0x000 0x00 0x00000003, .trap { bare with imm := 0x3 }),
    (word 0x83 0x00 0b0111 0 0x000 0x000 0x000 0x000 0x00 0x00000000, .eret bare),
    (word 0x84 0x00 0b0111 0 0x004 0x000 0x000 0x000 0x02 0x00000000, .getsr { bare with dst := .v 4, aux := 2 }),
    (word 0x85 0x00 0b0111 0 0x000 0x008 0x000 0x000 0x00 0x00000000, .setsr { bare with sa := .v 8 }),
    (word 0x86 0x00 0b0111 0 0x000 0x000 0x000 0x000 0x00 0x00000000, .regionB bare),
    (word 0x86 0x00 0b0111 0 0x000 0x000 0x000 0x000 0x01 0x00000000, .regionE { bare with aux := 1 }) ]

theorem test_decode_system : readsAll systemWords = true := by decide

/-- Words of the engine instructions (R416). -/
def enginesWords : List (IWord × Instr) :=
  [
    (word 0x88 0x00 0b0111 0 0x000 0x088 0x000 0x000 0x00 0x00000000, .mmaSolo { bare with sa := .k 8 }),
    (word 0x88 0x00 0b0111 0 0x000 0x090 0x000 0x000 0x01 0x00000000, .mmaPair { bare with sa := .k 16, aux := 1 }),
    (word 0x89 0x00 0b0111 0 0x000 0x000 0x000 0x000 0x00 0x00000000, .mzero bare),
    (word 0x8A 0x00 0b0111 0 0x000 0x004 0x000 0x000 0x00 0x00000080, .mload { bare with sa := .v 4, imm := 0x80 }),
    (word 0x8B 0x00 0b0111 0 0x000 0x004 0x094 0x000 0x02 0x00000000, .msave { bare with sa := .v 4, sb := .k 20, aux := 2 }),
    (word 0x8C 0x00 0b0111 0 0x000 0x090 0x000 0x000 0x00 0x00000000, .mdrain { bare with sa := .k 16 }),
    (word 0x8D 0x00 0b0111 0 0x004 0x000 0x000 0x000 0x00 0x00000000, .mstat { bare with dst := .v 4 }),
    (word 0x90 0x00 0b0111 0 0x000 0x098 0x000 0x000 0x00 0x00000000, .rfma { bare with sa := .k 24 }),
    (word 0x91 0x00 0b0111 0 0x000 0x098 0x000 0x000 0x00 0x00000000, .rscl { bare with sa := .k 24 }),
    (word 0x92 0x00 0b0111 0 0x000 0x098 0x000 0x000 0x00 0x00000000, .rred { bare with sa := .k 24 }),
    (word 0x93 0x00 0b0111 0 0x000 0x098 0x000 0x000 0x00 0x00000000, .rexp { bare with sa := .k 24 }),
    (word 0x94 0x00 0b0111 0 0x000 0x080 0x000 0x000 0x00 0x00000000, .rcvt { bare with sa := .k 0 }),
    (word 0x95 0x00 0b0111 0 0x000 0x090 0x000 0x000 0x00 0x00000000, .cpy { bare with sa := .k 16 }),
    (word 0x96 0x00 0b0111 0 0x000 0x0A0 0x000 0x000 0x01 0x00000000, .rngEngine { bare with sa := .k 32, aux := 1 }),
    (word 0x96 0x06 0b0111 0 0x004 0x082 0x005 0x000 0x00 0x00000000, .rngRegister { bare with ty := .n32, dst := .v 4, sa := .k 2, sb := .v 5 }) ]

theorem test_decode_engines : readsAll enginesWords = true := by decide

/-- Words of the Square's instructions (R468, R490). -/
def squareWords : List (IWord × Instr) :=
  [
    (word 0x98 0x00 0b0111 0 0x004 0x006 0x000 0x000 0x00 0x00000002, .sqload { bare with dst := .v 4, sa := .v 6, imm := 0x2 }),
    (word 0x99 0x00 0b0111 0 0x004 0x006 0x008 0x00A 0x00 0x00000002, .sqlegal { bare with dst := .v 4, sa := .v 6, sb := .v 8, sc := .v 10, imm := 0x2 }),
    (word 0x9A 0x00 0b0111 0 0x004 0x006 0x008 0x000 0x01 0x00000002, .sqplay { bare with dst := .v 4, sa := .v 6, sb := .v 8, aux := 1, imm := 0x2 }),
    (word 0x9A 0x00 0b0111 0 0x004 0x006 0x008 0x009 0x03 0x00000002, .sqplayList { bare with dst := .v 4, sa := .v 6, sb := .v 8, sc := .v 9, aux := 3, imm := 0x2 }),
    (word 0x9B 0x00 0b0111 0 0x004 0x000 0x000 0x000 0x00 0x00000002, .squndo { bare with dst := .v 4, imm := 0x2 }),
    (word 0x9C 0x00 0b0111 0 0x004 0x000 0x000 0x000 0x00 0x0000000F, .sqscore { bare with dst := .v 4, imm := 0xF }),
    (word 0x9D 0x00 0b0111 0 0x004 0x006 0x000 0x009 0x00 0x00000002, .sqread { bare with dst := .v 4, sa := .v 6, sc := .v 9, imm := 0x2 }),
    (word 0x9E 0x00 0b0111 0 0x004 0x006 0x009 0x00A 0x00 0x00000002, .sqsave { bare with dst := .v 4, sa := .v 6, sb := .v 9, sc := .v 10, imm := 0x2 }),
    (word 0x9F 0x00 0b0111 0 0x004 0x006 0x00C 0x009 0x01 0x00000002, .sqcheck { bare with dst := .v 4, sa := .v 6, sb := .v 12, sc := .v 9, aux := 1, imm := 0x2 }),
    (word 0xA0 0x00 0b0111 0 0x004 0x006 0x009 0x00A 0x01 0x00000002, .sqcommit { bare with dst := .v 4, sa := .v 6, sb := .v 9, sc := .v 10, aux := 1, imm := 0x2 }) ]

theorem test_decode_square : readsAll squareWords = true := by decide

/-! ### Terms that are not well formed, one for each check of R213 -/

/-- A well-formed IADD of three registers. -/
def plainAdd : Ops := { bare with ty := .n32, dst := .v 1, sa := .v 2, sb := .v 3 }

theorem test_wf_plain : (Instr.iadd plainAdd).wf = true := by decide

/-- TYPE is one that the instruction accepts (WHY 0x1). -/
theorem test_wf_type : (Instr.iadd { plainAdd with ty := .f32 }).wf = false := by decide

/-- AUX is zero where the instruction gives it no role (WHY 0x2). -/
theorem test_wf_aux : (Instr.iadd { plainAdd with aux := 1 }).wf = false := by decide

/-- IMM32 is in range where it has a role (WHY 0x2): a priority is 0 to 3. -/
theorem test_wf_imm : (Instr.prio { bare with imm := 4 }).wf = false := by decide

/-- IMM32 is zero when no source names it (WHY 0x2). -/
theorem test_wf_imm_unused : (Instr.iadd { plainAdd with imm := 7 }).wf = false := by decide

/-- The saved registers of STEALPT end below v32 (WHY 0x2). -/
theorem test_wf_stealpt : (Instr.stealpt { bare with sa := .v 20, sb := .v 30, aux := 3 }).wf = false := by decide

/-- A source is of a kind the operand accepts (WHY 0x3): a predicate is no addend and no index of CVT, a latch no source of SYMQ, PMOV takes no register to a register. -/
theorem test_wf_source : ((Instr.iadd { plainAdd with sa := .p 1 }).wf || (Instr.iadd { plainAdd with sb := .p 1 }).wf ||
    (Instr.cvt { plainAdd with ty := .f16, sb := .none, sc := .p 1 }).wf || (Instr.symq { bare with dst := .p 1, sa := .latch 0 }).wf ||
    (Instr.pmov { bare with dst := .v 1, sa := .v 2 }).wf) = false := by decide

/-- A destination is of a kind the instruction writes (WHY 0x4): a crew-uniform register only by KSET. -/
theorem test_wf_destination : ((Instr.iadd { plainAdd with dst := .k 1 }).wf || (Instr.icmp { plainAdd with dst := .p 7 }).wf) = false := by decide

/-- WBS stands with no destination, on a latch producer (WHY 0x5). -/
theorem test_wf_wbs : ((Instr.iadd { plainAdd with wbs := true }).wf || (Instr.getsr { bare with wbs := true }).wf) = false ∧
    (Instr.iadd { plainAdd with wbs := true, dst := .none }).wf = true := by decide

/-- A 64-bit destination and a 64-bit data operand name an even register (R203, R348). -/
theorem test_wf_even : ((Instr.iadd { plainAdd with ty := .n64, dst := .v 1, sa := .v 2, sb := .v 4 }).wf ||
    (Instr.iadd { plainAdd with ty := .n64, dst := .v 2, sa := .v 3, sb := .v 4 }).wf) = false := by decide

/-- A branch names slot 0 to 4, and no source names an IMM32 with a role of its own (WHY 0x7). -/
theorem test_wf_slot : ((Instr.bra { bare with imm := 5 }).wf || (Instr.lds { bare with sa := .imm, dst := .v 1, ty := .n32 }).wf) = false := by decide

/-- Whether a word is refused with a reason. -/
def refuses (w : IWord) (y : Why) : Bool := match decode w with | .error x => x == y | .ok _ => false

/-- The reasons that words which are no instructions give, the lowest of them that holds (R213). -/
theorem test_decode_refuses :
    refuses (word 0x0F 0 7 0 0 0 0 0 0 0) .unusedMaj ∧ refuses (word 0x10 9 7 0 1 2 3 0 0 0) .unusedMod ∧
    refuses (word 0x10 6 7 0 1 2 3 4 0 0) .reserved ∧ refuses (word 0x10 6 7 0 1 0x0D4 3 0 0 0) .source ∧
    refuses (word 0x10 6 7 0 1 0x208 3 0 0 0) .source ∧ refuses (word 0x10 6 7 0 0x0C8 2 3 0 0 0) .destination ∧
    refuses (word 0x10 6 7 1 1 2 3 0 0 0) .wbs ∧ refuses (word 0x10 8 7 0 2 3 4 0 0 0) .source ∧ refuses (word 0x10 8 7 0 3 2 4 0 0 0) .odd ∧
    refuses (word 0x01 0 7 0 0 0 0 0 0 6) .slotOrImm := by decide

/-! ### One step of one instruction; the values are the spec's -/

/-- Core 0 with one running thread whose instruction is in hand, and some registers. -/
def lab (i : Instr) (regs : List (Nat × Nat)) : State :=
  let s := State.reset.withWord (encode i).toNat
  { s with due := [], threads := s.threads.adjust 0 fun t => regs.foldl (fun t p => t.setWord p.1 p.2) t }

/-- The state after a step, or the state before it where there is none. -/
def after (s : State) : State := match step s with | .next t => t | _ => s

/-- A register of the thread after a step. -/
def regOf (s : State) (n : Nat) : Option RegVal := (s.threads.get? 0).map fun t => t.reg n

/-- The instructions of the fragment that the spec works through, each on its own operands: −7 in v1, 0 in v2, 40,000 in v11, 500.0 in v13, 1 + 2^-12 in v20, −(1 + 2^-11) in v21. -/
def fragment (i : Instr) : State :=
  after (lab i [(1, 0xFFFF_FFF9), (11, 40000), (13, 0x43FA_0000), (20, 0x3F80_0800), (21, 0xBF80_1000), (22, 0x3F80_1000)])

theorem test_idiv : regOf (fragment (.idiv { bare with ty := .i32, dst := .v 3, sa := .v 1, sb := .imm, imm := 2 })) 3 = some (.known 0xFFFF_FFFD) := by decide
theorem test_irem : regOf (fragment (.irem { bare with ty := .i32, dst := .v 4, sa := .v 1, sb := .imm, imm := 2 })) 4 = some (.known 0xFFFF_FFFF) := by decide
theorem test_idiv_by_zero : regOf (fragment (.idiv { bare with ty := .i32, dst := .v 5, sa := .v 1, sb := .v 2 })) 5 = some (.known 0xFFFF_FFFF) := by decide
theorem test_irem_by_zero : regOf (fragment (.irem { bare with ty := .i32, dst := .v 6, sa := .v 1, sb := .v 2 })) 6 = some (.known 0xFFFF_FFF9) := by decide
theorem test_sar : regOf (fragment (.sar { bare with ty := .i32, dst := .v 7, sa := .v 1, sb := .imm, imm := 40 })) 7 = some (.known 0xFFFF_FFFF) := by decide
theorem test_shr : regOf (fragment (.shr { bare with ty := .n32, dst := .v 8, sa := .v 1, sb := .imm, imm := 28 })) 8 = some (.known 0xF) := by decide
theorem test_bfx : regOf (fragment (.bfx { bare with ty := .i32, dst := .v 9, sa := .v 1, sb := .imm, imm := 0x0301 })) 9 = some (.known 0xFFFF_FFFC) := by decide
theorem test_pack : regOf (fragment (.pack { bare with ty := .i16, dst := .v 10, sa := .v 11, sb := .v 1 })) 10 = some (.known 0xFFF9_7FFF) := by decide
theorem test_cvt : regOf (fragment (.cvt { bare with ty := .e4m3, dst := .v 14, sa := .v 13, aux := 9 })) 14 = some (.known 0x7E) := by decide
theorem test_fmul : regOf (fragment (.fmul { bare with ty := .f32, dst := .v 24, sa := .v 20, sb := .v 20 })) 24 = some (.known 0x3F80_1000) := by decide
theorem test_fadd : regOf (fragment (.fadd { bare with ty := .f32, dst := .v 24, sa := .v 22, sb := .v 21 })) 24 = some (.known 0) := by decide
theorem test_ffma : regOf (fragment (.ffma { bare with ty := .f32, dst := .v 23, sa := .v 20, sb := .v 20, sc := .v 21 })) 23 = some (.known 0x3380_0000) := by decide

/-! ### States that meet the premises of the statements -/

/-- The bundle in hand of `lab`. -/
def labIss : Issue := { core := 0, group := 0, pc := testPc, slots := [0], second := false, pair := false, snap := FMap.empty }

/-- One thread alone in its bundle stands in it. -/
theorem holds_one {s : State} {iss : Issue} (k : Nat) (t : Thread) (hc : s.cur = some iss) (hs : iss.slots = [k]) (ht : s.threads.get? k = some t)
    (h : coreOf k = iss.core ∧ t.group = iss.group ∧ t.status = .ready ∧ t.pc = iss.pc) : s.Holds iss := by
  obtain ⟨h1, h2, h3, h4⟩ := h
  refine ⟨hc, by simp [hs], ?_, ?_, ?_⟩ <;> intro j hj <;> rw [hs, List.mem_singleton] at hj <;> subst hj
  · exact h1
  · intro u hu; rw [ht] at hu; cases hu; exact h2
  · intro u hu; rw [ht] at hu; cases hu; exact ⟨h3, h4⟩

/-- An instruction of one thread runs. -/
theorem runs_one {s : State} {iss : Issue} {c : Opc} {o : Ops} (k : Nat) (t : Thread) (hc : s.cur = some iss) (hs : iss.slots = [k])
    (ht : s.threads.get? k = some t) (h : coreOf k = iss.core ∧ t.group = iss.group ∧ t.status = .ready ∧ t.pc = iss.pc)
    (hd : s.Sound iss c o) (hk : s.Known iss c o) : s.Runs iss c o := ⟨holds_one k t hc hs ht h, hd, hk⟩

/-- Every executing thread meets a condition that the only one meets. -/
theorem each_one {s : State} {iss : Issue} {o : Ops} {P : Nat × Thread → Prop} (q : Nat × Thread) (h : s.executing iss o = [q]) (hq : P q) :
    ∀ p ∈ s.executing iss o, P p := by
  intro p hp; rw [h, List.mem_singleton] at hp; rw [hp]; exact hq

/-- The thread of `lab` with the registers that the instruction's test gives it. -/
abbrev labThread (i : Instr) (regs : List (Nat × Nat)) : Thread := ((lab i regs).threads.get? 0).getD { crew := 0, group := 0, lane := 0, tix := 0, pc := 0 }

/-! #### Fetch, decode and the step -/

theorem meets_stepRunsDecoded : ∃ (b : List Byte), (lab (.iadd plainAdd) []).cur = some labIss ∧
    (lab (.iadd plainAdd) []).fetched labIss.core ((lab (.iadd plainAdd) []).groupAsid (gkey labIss.core labIss.group)) labIss.pc.toNat = some (.line b) ∧
    reads (BitVec.ofNat 96 (joinBytes ((b.drop (12 * slotNo labIss.pc)).take 12))) (.iadd plainAdd) = true :=
  ⟨testLine (encode (.iadd plainAdd)).toNat, rfl, by decide, by decide⟩

theorem meets_stepRunsDecoded_error : ∃ (b : List Byte), (State.reset.withWord (0x0F * 2 ^ 88)).cur = some labIss ∧
    (State.reset.withWord (0x0F * 2 ^ 88)).fetched labIss.core ((State.reset.withWord (0x0F * 2 ^ 88)).groupAsid 0) labIss.pc.toNat = some (.line b) ∧
    refuses (BitVec.ofNat 96 (joinBytes ((b.drop (12 * slotNo labIss.pc)).take 12))) .unusedMaj = true :=
  ⟨testLine (0x0F * 2 ^ 88), rfl, by decide, by decide⟩

theorem meets_stepTakesEvent : State.reset.cur = none ∧ (State.reset.takeTurn).2 = some .powerUp := by decide

/-! #### Instructions that compute in registers -/

/-- The operands of `plainAdd`: 2 in v2 and 3 in v3. -/
abbrev addLab : State := lab (.iadd plainAdd) [(2, 2), (3, 3)]

theorem meets_registerInstructions : (aluFn .iadd).isSome = true ∧ addLab.Runs labIss .iadd plainAdd ∧ addLab.executing labIss plainAdd ≠ [] ∧
    lineOf (nextPc labIss.pc) = lineOf labIss.pc :=
  ⟨rfl, runs_one 0 (labThread (.iadd plainAdd) [(2, 2), (3, 3)]) rfl rfl rfl (by decide) (by unfold State.Sound; decide) (by unfold State.Known; decide), by decide, by decide⟩

/-- `lab` with a record changed. -/
abbrev labWith (c : Opc) (o : Ops) (regs : List (Nat × Nat)) (f : State → State) : State := f (lab (c.mk o) regs)

/-- The instruction in hand stands in the last slot of its line. -/
def atLastSlot (s : State) : State :=
  { s with threads := s.threads.adjust 0 fun t => { t with pc := testPc + 4 }, cur := some { labIss with pc := testPc + 4 } }

theorem meets_latchesShift_lineEnd : let s := atLastSlot addLab
    s.Runs { labIss with pc := testPc + 4 } .iadd plainAdd ∧ lineOf (nextPc (testPc + 4)) ≠ lineOf (testPc + 4) :=
  ⟨runs_one 0 (((atLastSlot addLab).threads.get? 0).getD { crew := 0, group := 0, lane := 0, tix := 0, pc := 0 }) rfl rfl rfl (by decide)
    (by unfold State.Sound; decide) (by unfold State.Known; decide), by decide⟩

/-- A second thread of the group, which stands elsewhere. -/
def withMate (s : State) : State := { s with threads := s.threads.put 1 { crew := 1, group := 0, lane := 1, tix := 1, pc := testPc + 2 } }

theorem meets_registerFrame : (aluFn .iadd).isSome = true ∧ (withMate addLab).Runs labIss .iadd plainAdd ∧ (∃ t, exec (.iadd plainAdd) (withMate addLab) = .next t) ∧
    ((withMate addLab).threads.get? 1).isSome = true ∧ ∀ p ∈ (withMate addLab).executing labIss plainAdd, p.1 ≠ 1 :=
  ⟨rfl, runs_one 0 (labThread (.iadd plainAdd) [(2, 2), (3, 3)]) rfl rfl rfl (by decide) (by unfold State.Sound; decide) (by unfold State.Known; decide), ⟨_, rfl⟩,
    by decide, by decide⟩

/-- Operands at the boundaries that the integer statements tell apart: a divisor of 0, a shift by the width, a signed and an unsigned TYPE. -/
theorem meets_arithmetic : plainAdd.x2 = false ∧ ({ plainAdd with ty := Ty.n16, x2 := true } : Ops).x2 = true ∧ plainAdd.ty ∈ [Ty.i32, .n32, .i64, .n64] ∧
    atTy plainAdd (2 ^ 32) = 0 ∧ atTy plainAdd 1 ≠ 0 ∧ plainAdd.ty.signed = false ∧ ({ plainAdd with ty := Ty.i64 } : Ops).ty.signed = true ∧
    plainAdd.ty.isInt = true ∧ aluClz plainAdd 0 = plainAdd.ty.bits ∧ aluCtz plainAdd 8 < plainAdd.ty.bits := by decide

/-! #### Lanes -/

def voteOps (aux : BitVec 6) : Ops := { bare with dst := .v 4, sa := .p 1, aux := aux }
def shflOps : Ops := { bare with ty := .n32, dst := .v 5, sa := .v 6, sb := .imm, aux := 3, imm := 1 }
def gredOps : Ops := { bare with ty := .n32, dst := .v 6, sa := .v 5 }

theorem meets_laneInstructions :
    (∀ aux ∈ [(0 : BitVec 6), 1, 2], (lab (.vote (voteOps aux)) []).executing labIss (voteOps aux) ≠ []) ∧
    (lab (.vote (voteOps 2)) []).Runs labIss .vote (voteOps 2) ∧
    (withMate (lab (.shfl shflOps) [])).Runs labIss .shfl shflOps ∧
    (∀ p ∈ (withMate (lab (.shfl shflOps) [])).executing labIss shflOps, ∀ q,
      (withMate (lab (.shfl shflOps) [])).atLane 0 0 (shflLane 3 p.2.lane ((withMate (lab (.shfl shflOps) [])).vals labIss .shfl shflOps p.1 p.2).2.1) = some q →
        ((withMate (lab (.shfl shflOps) [])).operands labIss .shfl shflOps q.1 q.2).1.isKnown = true) ∧
    (lab (.gred gredOps) []).Runs labIss .gred gredOps ∧ (lab (.gscan gredOps) []).Runs labIss .gscan gredOps := by
  refine ⟨by decide, runs_one 0 (labThread (.vote (voteOps 2)) []) rfl rfl rfl (by decide) (by unfold State.Sound; decide) (by unfold State.Known; decide),
    runs_one 0 (labThread (.shfl shflOps) []) rfl rfl rfl (by decide) (by unfold State.Sound; decide) (by unfold State.Known; decide), ?_,
    runs_one 0 (labThread (.gred gredOps) []) rfl rfl rfl (by decide) (by unfold State.Sound; decide) (by unfold State.Known; decide),
    runs_one 0 (labThread (.gscan gredOps) []) rfl rfl rfl (by decide) (by unfold State.Sound; decide) (by unfold State.Known; decide)⟩
  refine each_one (0, labThread (.shfl shflOps) []) rfl ?_
  intro q hq
  have h : (withMate (lab (.shfl shflOps) [])).atLane 0 0 (shflLane 3 (labThread (.shfl shflOps) []).lane
      ((withMate (lab (.shfl shflOps) [])).vals labIss .shfl shflOps 0 (labThread (.shfl shflOps) [])).2.1) =
      some (1, { crew := 1, group := 0, lane := 1, tix := 1, pc := testPc + 2 }) := by decide
  have e := Option.some.inj (h.symm.trans hq)
  subst e
  decide

/-! #### Control and system instructions -/

/-- An instruction of the thread of `lab` runs. -/
theorem lab_runs (c : Opc) (o : Ops) (regs : List (Nat × Nat)) (f : State → State) (t : Thread) (hc : (labWith c o regs f).cur = some labIss)
    (ht : (labWith c o regs f).threads.get? 0 = some t) (h : coreOf 0 = 0 ∧ t.group = 0 ∧ t.status = .ready ∧ t.pc = testPc)
    (hd : (labWith c o regs f).Sound labIss c o) (hk : (labWith c o regs f).Known labIss c o) : (labWith c o regs f).Runs labIss c o :=
  runs_one 0 t hc rfl ht h hd hk

def getsrOps : Ops := { bare with dst := .v 4, aux := 9 }
def setsrOps (n : BitVec 6) : Ops := { bare with sa := .v 8, aux := n }

/-- A thread whose handler runs. -/
def inHandler (s : State) : State := { s with threads := s.threads.adjust 0 fun t => { t with trap := { t.trap with tvec := 0x2_0000, tcause := 0x10A, tpc := 0x1_0041 } } }

theorem meets_hintsToTheCrew : (lab (.nop bare) []).Runs labIss .nop bare ∧ (lab (.yield bare) []).Runs labIss .yield bare ∧
    (lab (.regionB bare) []).Runs labIss .regionB bare ∧ (lab (.prio { bare with imm := 3 }) []).Runs labIss .prio { bare with imm := 3 } ∧
    (lab (.regionE { bare with aux := 1 }) []).Runs labIss .regionE { bare with aux := 1 } ∧ ((lab (.prio bare) []).crews.get? 1).isSome = true ∧ (lab (.prio { bare with imm := 3 }) []).crews.rising = true := by
  refine ⟨lab_runs .nop _ [] id (labThread (.nop bare) []) rfl rfl ?_ ?_ ?_, lab_runs .yield _ [] id (labThread (.yield bare) []) rfl rfl ?_ ?_ ?_,
    lab_runs .regionB _ [] id (labThread (.regionB bare) []) rfl rfl ?_ ?_ ?_, lab_runs .prio _ [] id (labThread (.prio { bare with imm := 3 }) []) rfl rfl ?_ ?_ ?_,
    lab_runs .regionE _ [] id (labThread (.regionE { bare with aux := 1 }) []) rfl rfl ?_ ?_ ?_, rfl, rfl⟩ <;>
  first | decide | (unfold State.Sound; decide) | (unfold State.Known; decide)

theorem meets_systemRegisters : (lab (.getsr getsrOps) []).Runs labIss .getsr getsrOps ∧ (lab (.setsr (setsrOps 0)) []).Runs labIss .setsr (setsrOps 0) ∧
    (labWith .setsr (setsrOps 2) [] inHandler).Runs labIss .setsr (setsrOps 2) ∧
    (∀ p ∈ (labWith .setsr (setsrOps 2) [] inHandler).executing labIss (setsrOps 2), p.2.trap.tcause.getLsbD 8 = true) ∧
    (lab (.setsr (setsrOps 2)) []).Runs labIss .setsr (setsrOps 2) := by
  refine ⟨lab_runs .getsr _ [] id (labThread (.getsr getsrOps) []) rfl rfl ?_ ?_ ?_, lab_runs .setsr _ [] id (labThread (.setsr (setsrOps 0)) []) rfl rfl ?_ ?_ ?_,
    lab_runs .setsr _ [] inHandler _ rfl rfl ?_ ?_ ?_, ?_, lab_runs .setsr _ [] id (labThread (.setsr (setsrOps 2)) []) rfl rfl ?_ ?_ ?_⟩ <;>
  first | decide | (unfold State.Sound; decide) | (unfold State.Known; decide)

def symqOps : Ops := { bare with dst := .p 1, sa := .v 4 }
def resolveOps : Ops := { bare with sa := .v 4, aux := 1 }

/-- v4 is bound to a late value. -/
def pendingV4 (s : State) : State := { s with threads := s.threads.adjust 0 fun t => t.setReg 4 (.plain (.sym 9 0) 32 0) }

theorem meets_pendingQueries : (∀ f ∈ [id, pendingV4], (labWith .symq symqOps [] f).cur = some labIss) ∧
    ((labWith .symq symqOps [] pendingV4).Holds labIss ∧ (labWith .symq symqOps [] pendingV4).Sound labIss .symq symqOps) ∧
    ((labWith .resolve resolveOps [] pendingV4).Holds labIss ∧ (labWith .resolve resolveOps [] pendingV4).Sound labIss .resolve resolveOps) ∧
    ((lab (.resolve resolveOps) []).Holds labIss ∧ (lab (.resolve resolveOps) []).Sound labIss .resolve resolveOps) := by
  refine ⟨by decide, ⟨holds_one 0 _ rfl rfl rfl ?_, ?_⟩, ⟨holds_one 0 _ rfl rfl rfl ?_, ?_⟩, ⟨holds_one 0 _ rfl rfl rfl ?_, ?_⟩⟩ <;>
  first | decide | (unfold State.Sound; decide)

/-! #### Transfers, traps and ends -/

/-- A line of NOPs whose slot 0 may be entered by a branch: TGT 1 and LPAR (R192). -/
def targetLine : List Byte := bytesOf 60 0 ++ bytesOf 4 0x4001

/-- The next line, at 0x1_0040, may be entered; v4 and v5 hold its address, and the return stack names it. -/
def withTarget (s : State) : State :=
  { s with
    cores := s.cores.adjust 0 fun c => { c with fetch := c.fetch.put (fetchKey 1 0x1_0040) (.line targetLine) }
    threads := s.threads.adjust 0 fun t => { (t.setPair 4 0x1_0040) with stack := [0x1_0040], depth := 1 } }

theorem enterable_target (s : State) (h : s.fetched 0 1 0x1_0040 = some (.line targetLine)) : Enterable s 0 1 0x1_0040 :=
  ⟨by decide, by decide, targetLine, h, by decide, by decide⟩

def braOps : Ops := { bare with imm := 8 }
def brxOps : Ops := { bare with sa := .v 4 }

/-- A thread of `lab` with the return stack and the registers of `withTarget`. -/
abbrev targetThread (c : Opc) (o : Ops) : Thread := ((labWith c o [] withTarget).threads.get? 0).getD { crew := 0, group := 0, lane := 0, tix := 0, pc := 0 }

theorem meets_transfers :
    ((labWith .bra braOps [] withTarget).Runs labIss .bra braOps ∧ ∀ p ∈ (labWith .bra braOps [] withTarget).executing labIss braOps,
      Enterable (labWith .bra braOps [] withTarget) 0 ((labWith .bra braOps [] withTarget).asidOf p.2) (targetOf (labWith .bra braOps [] withTarget) labIss .bra braOps p)) ∧
    ((labWith .brx brxOps [] withTarget).Runs labIss .brx brxOps ∧ ∀ p ∈ (labWith .brx brxOps [] withTarget).executing labIss brxOps,
      Enterable (labWith .brx brxOps [] withTarget) 0 ((labWith .brx brxOps [] withTarget).asidOf p.2) (targetOf (labWith .brx brxOps [] withTarget) labIss .brx brxOps p)) ∧
    ((labWith .call braOps [] withTarget).Runs labIss .call braOps ∧ ∀ p ∈ (labWith .call braOps [] withTarget).executing labIss braOps,
      Enterable (labWith .call braOps [] withTarget) 0 ((labWith .call braOps [] withTarget).asidOf p.2) (targetOf (labWith .call braOps [] withTarget) labIss .call braOps p) ∧
        p.2.stack.length < 8 ∧ p.2.depth < 136) ∧
    ((labWith .callx brxOps [] withTarget).Runs labIss .callx brxOps ∧ ∀ p ∈ (labWith .callx brxOps [] withTarget).executing labIss brxOps,
      Enterable (labWith .callx brxOps [] withTarget) 0 ((labWith .callx brxOps [] withTarget).asidOf p.2) (targetOf (labWith .callx brxOps [] withTarget) labIss .callx brxOps p) ∧
        p.2.stack.length < 8 ∧ p.2.depth < 136) ∧
    ((labWith .ret bare [] withTarget).Runs labIss .ret bare ∧ ∀ p ∈ (labWith .ret bare [] withTarget).executing labIss bare,
      (labWith .ret bare [] withTarget).stackTop p.1 p.2 = .go 0x1_0040 ∧ ∃ b, (labWith .ret bare [] withTarget).fetched 0 ((labWith .ret bare [] withTarget).asidOf p.2) 0x1_0040 = some (.line b)) := by
  refine ⟨⟨lab_runs .bra _ [] withTarget (targetThread .bra braOps) rfl rfl ?_ ?_ ?_, each_one (0, targetThread .bra braOps) rfl (enterable_target _ (by decide))⟩,
    ⟨lab_runs .brx _ [] withTarget (targetThread .brx brxOps) rfl rfl ?_ ?_ ?_, each_one (0, targetThread .brx brxOps) rfl (enterable_target _ (by decide))⟩,
    ⟨lab_runs .call _ [] withTarget (targetThread .call braOps) rfl rfl ?_ ?_ ?_, each_one (0, targetThread .call braOps) rfl ⟨enterable_target _ (by decide), by decide⟩⟩,
    ⟨lab_runs .callx _ [] withTarget (targetThread .callx brxOps) rfl rfl ?_ ?_ ?_, each_one (0, targetThread .callx brxOps) rfl ⟨enterable_target _ (by decide), by decide⟩⟩,
    ⟨lab_runs .ret _ [] withTarget (targetThread .ret bare) rfl rfl ?_ ?_ ?_, each_one (0, targetThread .ret bare) rfl ⟨by decide, targetLine, by decide⟩⟩⟩ <;>
  first | decide | (unfold State.Sound; decide) | (unfold State.Known; decide)

/-- The thread has a handler at 0x2_0000. -/
def withHandler (s : State) : State := { s with threads := s.threads.adjust 0 fun t => { t with trap := { t.trap with tvec := 0x2_0000 } } }

/-- A thread with a handler does not retire on a user fault. -/
theorem handled {v : Thread} (h : (v.trap.tcause.getLsbD 8 || v.trap.tvec == 0 || decide (2 ^ 57 ≤ v.trap.tvec.toNat) || v.trap.tvec.toNat / 8 % 8 != 0 ||
    decide (4 < v.trap.tvec.toNat % 8)) = false) : ¬NoHandler v := by
  simp only [Bool.or_eq_false_iff, decide_eq_false_iff_not, bne_eq_false_iff_eq, beq_eq_false_iff_ne] at h
  obtain ⟨⟨⟨⟨h1, h2⟩, h3⟩, h4⟩, h5⟩ := h
  rintro (h | h | h | h | h)
  · rw [h1] at h; cases h
  · exact h2 h
  · exact h3 h
  · exact h h4
  · exact h5 h

def latchOps : Ops := { bare with ty := .n32, dst := .v 1, sa := .latch 0, sb := .v 2 }
def farOps : Ops := { bare with ty := .n32, dst := .v 1, sa := .v 40, sb := .v 2 }

theorem meets_trapsAreTaken :
    ((labWith .trap { bare with imm := 3 } [] withHandler).Runs labIss .trap { bare with imm := 3 }) ∧ (lab (.bkpt { bare with imm := 7 }) []).Runs labIss .bkpt { bare with imm := 7 } ∧
    (∀ p ∈ (labWith .trap bare [] withHandler).executing labIss bare, ¬NoHandler p.2) ∧ (∀ p ∈ (lab (.bkpt bare) []).executing labIss bare, NoHandler p.2) ∧
    ((labWith .iadd latchOps [] withHandler).Holds labIss ∧ (labWith .iadd latchOps [] withHandler).Known labIss .iadd latchOps ∧
      ∀ p ∈ (labWith .iadd latchOps [] withHandler).executing labIss latchOps, ¬NoHandler p.2 ∧ p.2.late = none ∧ p.2.restore = none ∧
        (labWith .iadd latchOps [] withHandler).extFault .iadd latchOps p.1 p.2 = none ∧ (labIss.view p.1 p.2).latch 0 = none) ∧
    ((labWith .iadd farOps [] withHandler).Holds labIss ∧ (labWith .iadd farOps [] withHandler).Known labIss .iadd farOps ∧
      ∀ p ∈ (labWith .iadd farOps [] withHandler).executing labIss farOps, ¬NoHandler p.2 ∧ p.2.late = none ∧
        (labWith .iadd farOps [] withHandler).extFault .iadd farOps p.1 p.2 = some (.regExt 40)) := by
  refine ⟨lab_runs .trap _ [] withHandler _ rfl rfl ?_ ?_ ?_, lab_runs .bkpt _ [] id _ rfl rfl ?_ ?_ ?_, each_one _ rfl (handled ?_), each_one _ rfl (.inr (.inl ?_)),
    ⟨holds_one 0 _ rfl rfl rfl ?_, ?_, each_one _ rfl ⟨handled ?_, ?_, ?_, ?_, ?_⟩⟩, ⟨holds_one 0 _ rfl rfl rfl ?_, ?_, each_one _ rfl ⟨handled ?_, ?_, ?_⟩⟩⟩ <;>
  first | decide | (unfold State.Sound; decide) | (unfold State.Known; decide)

/-- The thread's handler returns to TPC, which a SETSR has written. -/
def returning (s : State) : State := { s with threads := s.threads.adjust 0 fun t => { t with trap := { t.trap with tcause := 0x10A, tpc := 0x1_0040, tpcSet := true } } }

theorem meets_exceptionReturn :
    ((labWith .eret bare [] (returning ∘ withTarget)).Runs labIss .eret bare ∧ ∀ p ∈ (labWith .eret bare [] (returning ∘ withTarget)).executing labIss bare,
      (p.2.trap.tcause.getLsbD 8 = true ∧ p.2.trap.tpcSet = true) ∧
      Enterable (labWith .eret bare [] (returning ∘ withTarget)) 0 ((labWith .eret bare [] (returning ∘ withTarget)).asidOf p.2) p.2.trap.tpc.toNat) ∧
    ((labWith .eret bare [] inHandler).Runs labIss .eret bare ∧ ∀ p ∈ (labWith .eret bare [] inHandler).executing labIss bare, p.2.trap.tcause.getLsbD 8 = true ∧ p.2.trap.tpcSet = false) ∧
    ((lab (.eret bare) []).Runs labIss .eret bare ∧ ∀ p ∈ (lab (.eret bare) []).executing labIss bare, p.2.trap.tcause.getLsbD 8 = false) := by
  refine ⟨⟨lab_runs .eret _ [] (returning ∘ withTarget) _ rfl rfl ?_ ?_ ?_, each_one _ rfl ⟨?_, enterable_target _ ?_⟩⟩, ⟨lab_runs .eret _ [] inHandler _ rfl rfl ?_ ?_ ?_, ?_⟩,
    ⟨lab_runs .eret _ [] id _ rfl rfl ?_ ?_ ?_, ?_⟩⟩ <;>
  first | decide | (unfold State.Sound; decide) | (unfold State.Known; decide)

/-- v4 and v5 hold an address that is no slot's. -/
def badTarget (s : State) : State := { s with threads := s.threads.adjust 0 fun t => { (t.setPair 4 0x1_0008) with trap := { t.trap with tvec := 0x2_0000 } } }

theorem meets_transferFaults :
    ((labWith .brx brxOps [] badTarget).Runs labIss .brx brxOps ∧ ∀ p ∈ (labWith .brx brxOps [] badTarget).executing labIss brxOps,
      (targetOf (labWith .brx brxOps [] badTarget) labIss .brx brxOps p / 8 % 8 ≠ 0 ∨ 4 < targetOf (labWith .brx brxOps [] badTarget) labIss .brx brxOps p % 8) ∧ ¬NoHandler p.2) ∧
    ((labWith .ret bare [] withHandler).Runs labIss .ret bare ∧ ∀ p ∈ (labWith .ret bare [] withHandler).executing labIss bare, (p.2.stack = [] ∧ p.2.depth = 0) ∧ ¬NoHandler p.2) := by
  refine ⟨⟨lab_runs .brx _ [] badTarget _ rfl rfl ?_ ?_ ?_, each_one _ rfl ⟨?_, handled ?_⟩⟩, ⟨lab_runs .ret _ [] withHandler _ rfl rfl ?_ ?_ ?_, each_one _ rfl ⟨?_, handled ?_⟩⟩⟩ <;>
  first | decide | (unfold State.Sound; decide) | (unfold State.Known; decide)

theorem meets_endsAndGroupBarrier : (lab (.exit bare) []).Runs labIss .exit bare ∧ (lab (.exit bare) []).executing labIss bare ≠ [] ∧
    ((lab (.exit bare) []).crews.get? 1).map (·.live) = some ((lab (.exit bare) []).executing labIss bare).length ∧
    (withMate (lab (.syncg bare) [])).Runs labIss .syncg bare ∧ (withMate (lab (.syncg bare) [])).executing labIss bare ≠ [] ∧
    (withMate (lab (.syncg bare) [])).threads.rising = true := by
  refine ⟨lab_runs .exit _ [] id _ rfl rfl ?_ ?_ ?_, ?_, ?_, lab_runs .syncg _ [] withMate _ rfl rfl ?_ ?_ ?_, ?_, ?_⟩ <;>
  first | decide | (unfold State.Sound; decide) | (unfold State.Known; decide)

/-! #### Register blocks, memory and cells -/

/-- Close the side conditions of `lab_runs`. -/
theorem lab_sound {s : State} {c : Opc} {o : Ops} (h : (s.executing labIss o).all (fun p => s.preFault labIss c o p.1 p.2 == none) = true) : s.Sound labIss c o := by
  intro p hp
  have := List.all_eq_true.mp h p hp
  simpa using this

/-- The crew of `lab` has a block's right, eight crew-uniform registers, four queues and one granule of scratchpad. -/
def richCrew (s : State) : State :=
  { s with crews := s.crews.adjust 1 fun c => { c with crec := { k := 8, x := true, q := 4, spad := 8 }, granules := [2], released := false } }

/-- The group holds an extended block. -/
def withBlock (s : State) : State := { s with groups := s.groups.adjust 0 fun g => { g with block := true } }
/-- An older request for a block waits. -/
def withRequest (s : State) : State := { s with cores := s.cores.adjust 0 fun c => { c with xqueue := [5] } }

def regxNb : Ops := { bare with flag := true, dst := .p 2 }
def ksetOps : Ops := { bare with dst := .k 3, sa := .v 5 }

/-- The register k3 was written in this generation. -/
def ksetBefore (s : State) : State := { s with crews := s.crews.adjust 1 fun c => { c with kgen := c.kgen.put 3 c.bar } }

theorem meets_blocksAndUniformRegisters :
    (∀ n, regxNb.dst ≠ .v n) ∧ ((labWith .regxGet regxNb [] richCrew).groups.get? 0).isSome = true ∧
    ((labWith .regxGet regxNb [] (withBlock ∘ richCrew)).Runs labIss .regxGet regxNb ∧ HasBlock (labWith .regxGet regxNb [] (withBlock ∘ richCrew)) 0 0) ∧
    ((labWith .regxGet regxNb [] richCrew).Runs labIss .regxGet regxNb ∧ (labWith .regxGet regxNb [] richCrew).blockFree 0 0 = true ∧
      (∀ p ∈ (labWith .regxGet regxNb [] richCrew).executing labIss regxNb, ∃ c, (labWith .regxGet regxNb [] richCrew).crews.get? p.2.crew = some c ∧ c.crec.x = true)) ∧
    ((labWith .regxGet regxNb [] (withRequest ∘ richCrew)).Runs labIss .regxGet regxNb ∧ ((labWith .regxGet regxNb [] (withRequest ∘ richCrew)).core 0).xqueue ≠ []) ∧
    ((labWith .regxGet bare [] (withRequest ∘ richCrew)).Runs labIss .regxGet bare) ∧
    ((labWith .regxPut { bare with aux := 1 } [] (withBlock ∘ richCrew)).Runs labIss .regxPut { bare with aux := 1 } ∧ HasBlock (labWith .regxPut { bare with aux := 1 } [] (withBlock ∘ richCrew)) 0 0 ∧
      ∀ f ∈ [id, withBlock], (labWith .regxPut { bare with aux := 1 } [] (f ∘ richCrew)).executing labIss { bare with aux := 1 } ≠ [] ∧ (labWith .regxGet regxNb [] (f ∘ richCrew)).executing labIss regxNb ≠ []) ∧
    ((labWith .kset ksetOps [] richCrew).Runs labIss .kset ksetOps ∧ ∃ p c, (labWith .kset ksetOps [] richCrew).executing labIss ksetOps = [p] ∧
      (labWith .kset ksetOps [] richCrew).crews.get? p.2.crew = some c ∧ c.kgen.get? 3 ≠ some c.bar) ∧
    ((labWith .kset ksetOps [] (ksetBefore ∘ richCrew ∘ withHandler)).Runs labIss .kset ksetOps ∧ ∃ p c,
      (labWith .kset ksetOps [] (ksetBefore ∘ richCrew ∘ withHandler)).executing labIss ksetOps = [p] ∧
      (labWith .kset ksetOps [] (ksetBefore ∘ richCrew ∘ withHandler)).crews.get? p.2.crew = some c ∧ c.kgen.get? 3 = some c.bar ∧ ¬NoHandler p.2) := by
  refine ⟨nofun, ?_, ⟨lab_runs .regxGet _ [] _ _ rfl rfl ?_ ?_ ?_, ⟨_, rfl, ?_⟩⟩, ⟨lab_runs .regxGet _ [] _ _ rfl rfl ?_ ?_ ?_, ?_, each_one _ rfl ⟨_, rfl, ?_⟩⟩,
    ⟨lab_runs .regxGet _ [] _ _ rfl rfl ?_ ?_ ?_, ?_⟩, lab_runs .regxGet _ [] _ _ rfl rfl ?_ ?_ ?_, ⟨lab_runs .regxPut _ [] _ _ rfl rfl ?_ ?_ ?_, ⟨_, rfl, ?_⟩, ?_⟩,
    ⟨lab_runs .kset _ [] _ _ rfl rfl ?_ ?_ ?_, _, _, rfl, rfl, ?_⟩, ⟨lab_runs .kset _ [] _ _ rfl rfl ?_ ?_ ?_, _, _, rfl, rfl, ?_, handled ?_⟩⟩ <;>
  first | decide | (unfold State.Sound; decide) | (unfold State.Known; decide)

/-- The page at 0x2_0000 maps the frame at 0x4_0000 of device HBM, COH, R, W and RED, with A and D set (R31); v4 and v5 hold its address, v6 and v7 hold 7. -/
def withPage (s : State) : State :=
  { s with
    mem := { s.mem with tlb := s.mem.tlb.put (leafKey 0 1 3 0x2_0000) ⟨3, 0x4_0EC3, 0x5000, leafTag 1 3 0x2_0000, 1⟩ }
    threads := s.threads.adjust 0 fun t => (t.setPair 4 0x2_0000).setPair 6 7 }

/-- The first line of the page, with its first eight bytes, readable and writable. -/
def pageLine : L1Line := { line := 0x800, mode := .coh, w := true, bytes := ⟨(List.range 8).map fun i => (i, ⟨BitVec.ofNat 8 (i + 1), false⟩)⟩ }

/-- The core holds that line in L1. -/
def withLine (s : State) : State := { s with cores := s.cores.adjust 0 fun c => { c with l1 := c.l1.put (l1Key 1 0x2_0000) pageLine } }

def ldOps : Ops := { bare with ty := .n32, dst := .v 8, sa := .v 4 }
def ldsOps : Ops := { bare with ty := .n64, dst := .v 8, sa := .v 9 }
def ldkOps : Ops := { bare with ty := .n32, dst := .v 8, sa := .k 4 }
def stOps : Ops := { bare with ty := .n32, sa := .v 4, sb := .v 6 }
def stsOps : Ops := { bare with ty := .n32, sa := .v 9, sb := .v 6 }

/-- k4 and k5 hold the address of the crew's own scratchpad in the own window. -/
def ownPair (s : State) : State :=
  { s with crews := s.crews.adjust 1 fun c => { c with kregs := ⟨[(4, BitVec.ofNat 32 ownBase), (5, BitVec.ofNat 32 (ownBase / 2 ^ 32))]⟩ } }

theorem hits_line {s : State} {l : L1Line} (ha : (s.core 0).l1.cells = [(l1Key 1 0x2_0000, l)]) (hg : l.gath = none) : Hits s 0 1 0x2_0000 4 l :=
  ⟨by decide, by simp [FMap.get?, ha, lookupCells], hg, by intro k x hx _; rw [ha] at hx; simp at hx; exact hx.1⟩

theorem meets_loadsArrive :
    ((labWith .lds ldsOps [] richCrew).Runs labIss .lds ldsOps ∧ Unheld (labWith .lds ldsOps [] richCrew) labIss .lds ldsOps ∧
      ∀ p ∈ (labWith .lds ldsOps [] richCrew).executing labIss ldsOps, (memAccess (labWith .lds ldsOps [] richCrew) labIss .lds ldsOps p).tgt = .spad 0 16384 ∧
        (labWith .lds ldsOps [] richCrew).spadBadAt 0 16384 8 = false) ∧
    ((labWith .ldk ldkOps [] (ownPair ∘ richCrew)).Runs labIss .ldk ldkOps ∧ Unheld (labWith .ldk ldkOps [] (ownPair ∘ richCrew)) labIss .ldk ldkOps ∧
      ∀ p ∈ (labWith .ldk ldkOps [] (ownPair ∘ richCrew)).executing labIss ldkOps,
        (memAccess (labWith .ldk ldkOps [] (ownPair ∘ richCrew)) labIss .ldk ldkOps p).tgt = .spad 0 16384 ∧
        (labWith .ldk ldkOps [] (ownPair ∘ richCrew)).spadBadAt 0 16384 4 = false) ∧
    ((labWith .ld ldOps [] (withLine ∘ withPage)).Runs labIss .ld ldOps ∧ Unheld (labWith .ld ldOps [] (withLine ∘ withPage)) labIss .ld ldOps ∧
      ∀ p ∈ (labWith .ld ldOps [] (withLine ∘ withPage)).executing labIss ldOps, ∃ l, Hits (labWith .ld ldOps [] (withLine ∘ withPage)) 0
        ((labWith .ld ldOps [] (withLine ∘ withPage)).asidOf p.2) (memAccess (labWith .ld ldOps [] (withLine ∘ withPage)) labIss .ld ldOps p).ea 4 l ∧ l.r = true ∧
        l.badAt ((memAccess (labWith .ld ldOps [] (withLine ∘ withPage)) labIss .ld ldOps p).ea % 128) 4 = false ∧
        l.take? ((labWith .ld ldOps [] (withLine ∘ withPage)).core 0).gen ((memAccess (labWith .ld ldOps [] (withLine ∘ withPage)) labIss .ld ldOps p).ea % 128) 4 = some [1, 2, 3, 4]) ∧
    ((labWith .ld ldOps [] withPage).Runs labIss .ld ldOps ∧ Unheld (labWith .ld ldOps [] withPage) labIss .ld ldOps ∧ 0 < accWidth ldOps (quadOf ldOps) ∧
      (∀ p ∈ (labWith .ld ldOps [] withPage).executing labIss ldOps, ∃ mode e, (memAccess (labWith .ld ldOps [] withPage) labIss .ld ldOps p).tgt = .page 0x4_0000 mode e) ∧
      isHbm (lineNo 0x4_0000) = true ∧ homeDie (lineNo 0x4_0000) = dieOf 0 ∧ ((labWith .ld ldOps [] withPage).core 0).l1.cells = [] ∧
      ((labWith .ld ldOps [] withPage).core 0).misses.get? (lineNo 0x4_0000) = none) := by
  refine ⟨⟨lab_runs .lds _ [] _ _ rfl rfl ?_ ?_ ?_, each_one _ rfl ?_, each_one _ rfl ?_⟩, ⟨lab_runs .ldk _ [] _ _ rfl rfl ?_ ?_ ?_, each_one _ rfl ?_, each_one _ rfl ?_⟩,
    ⟨lab_runs .ld _ [] _ _ rfl rfl ?_ ?_ ?_, each_one _ rfl ?_, each_one _ rfl ⟨pageLine, hits_line rfl ?_, ?_, ?_, ?_⟩⟩,
    ⟨lab_runs .ld _ [] _ _ rfl rfl ?_ ?_ ?_, each_one _ rfl ?_, ?_, each_one _ rfl ⟨.coh, 0x4_0EC3, ?_⟩, ?_, ?_, ?_, ?_⟩⟩ <;>
  first | decide | (unfold State.Sound; decide) | (unfold State.Known; decide)

/-- v8 and v9 are bound to a 32-bit and to a transformed 32-bit late value; v10 is known. -/
def bound (s : State) : State :=
  { s with threads := s.threads.adjust 0 fun t => ((t.setReg 8 (.plain (.sym 9 0) 32 0)).setReg 9 (.int (.sym 9 0) 32 0 3 4)).setWord 10 1 }

/-- The thread `bound` leaves. -/
def boundThread : Thread := ((bound addLab).threads.get? 0).getD { crew := 0, group := 0, lane := 0, tix := 0, pc := 0 }

theorem meets_valueArrives : (bound addLab).threads.get? 0 = some boundThread ∧ boundThread.status = .ready ∧ boundThread.reg 10 = .known 1 ∧
    boundThread.reg 8 = .plain (.sym 9 0) 32 0 ∧ boundThread.reg 9 = .int (.sym 9 0) 32 0 3 4 ∧
    (∀ part, (boundThread.reg 10).late? ≠ some (.sym 9 part)) ∧ 0 ∈ [0] ∧ (0 : Nat) ∉ [1] := by
  have h : boundThread.reg 10 = .known 1 := by decide
  refine ⟨by decide, by decide, h, by decide, by decide, ?_, by decide, by decide⟩
  intro part; rw [h]; simp [RegVal.late?]

/-- No monitor is registered, so none is an executing thread's. -/
theorem noWaiter {s : State} {iss : Issue} {o : Ops} (h : s.mem.mons = []) : NoWaiter s iss o := by
  intro p _ m hm; rw [h] at hm; cases hm

theorem meets_storesWrite :
    ((labWith .sts stsOps [] richCrew).Runs labIss .sts stsOps ∧ Unheld (labWith .sts stsOps [] richCrew) labIss .sts stsOps ∧ quadWaits (labWith .sts stsOps [] richCrew) stsOps = false ∧
      NoWaiter (labWith .sts stsOps [] richCrew) labIss stsOps ∧ ∀ p ∈ (labWith .sts stsOps [] richCrew).executing labIss stsOps,
        ∃ k off, (memAccess (labWith .sts stsOps [] richCrew) labIss .sts stsOps p).tgt = .spad k off ∧ 16384 = scratchKey k off) ∧
    ((labWith .st stOps [] (withLine ∘ withPage)).Runs labIss .st stOps ∧ Unheld (labWith .st stOps [] (withLine ∘ withPage)) labIss .st stOps ∧
      quadWaits (labWith .st stOps [] (withLine ∘ withPage)) stOps = false ∧ NoWaiter (labWith .st stOps [] (withLine ∘ withPage)) labIss stOps ∧
      ∀ p ∈ (labWith .st stOps [] (withLine ∘ withPage)).executing labIss stOps, ∃ l, Hits (labWith .st stOps [] (withLine ∘ withPage)) 0
        ((labWith .st stOps [] (withLine ∘ withPage)).asidOf p.2) (memAccess (labWith .st stOps [] (withLine ∘ withPage)) labIss .st stOps p).ea 4 l ∧ l.w = true ∧
        (labWith .st stOps [] (withLine ∘ withPage)).frameOn l.line = none) := by
  refine ⟨⟨lab_runs .sts _ [] _ _ rfl rfl ?_ ?_ ?_, each_one _ rfl ?_, ?_, noWaiter rfl, each_one _ rfl ⟨0, 16384, ?_⟩⟩,
    ⟨lab_runs .st _ [] _ _ rfl rfl ?_ ?_ ?_, each_one _ rfl ?_, ?_, noWaiter rfl, each_one _ rfl ⟨pageLine, hits_line rfl ?_, ?_, ?_⟩⟩⟩ <;>
  first | decide | (unfold State.Sound; decide) | (unfold State.Known; decide)

/-- v9 holds an offset. -/
def offset (x : Nat) (s : State) : State := { s with threads := s.threads.adjust 0 fun t => (t.setWord 9 x).setPair 4 0x2_0002 }

theorem meets_memoryFaults :
    ((labWith .ld ldOps [] (offset 2 ∘ withHandler)).Runs labIss .ld ldOps ∧ quadWaits (labWith .ld ldOps [] (offset 2 ∘ withHandler)) ldOps = false ∧
      ∀ p ∈ (labWith .ld ldOps [] (offset 2 ∘ withHandler)).executing labIss ldOps, (p.2.held = false ∧
        (memAccess (labWith .ld ldOps [] (offset 2 ∘ withHandler)) labIss .ld ldOps p).ea % 4 ≠ 0) ∧ ¬NoHandler p.2) ∧
    ((labWith .lds ldsOps [] (offset 8192 ∘ richCrew)).Runs labIss .lds ldsOps ∧ quadWaits (labWith .lds ldsOps [] (offset 8192 ∘ richCrew)) ldsOps = false ∧
      ∀ p ∈ (labWith .lds ldsOps [] (offset 8192 ∘ richCrew)).executing labIss ldsOps, (p.2.held = false ∧
        (memAccess (labWith .lds ldsOps [] (offset 8192 ∘ richCrew)) labIss .lds ldsOps p).ea % 8 = 0) ∧
        ∃ r, (labWith .lds ldsOps [] (offset 8192 ∘ richCrew)).crews.get? p.2.crew = some r ∧
          r.spadSize < (memAccess (labWith .lds ldsOps [] (offset 8192 ∘ richCrew)) labIss .lds ldsOps p).ea + 8) := by
  refine ⟨⟨lab_runs .ld _ [] _ _ rfl rfl ?_ ?_ ?_, ?_, each_one _ rfl ⟨?_, handled ?_⟩⟩, ⟨lab_runs .lds _ [] _ _ rfl rfl ?_ ?_ ?_, ?_, each_one _ rfl ⟨?_, _, rfl, ?_⟩⟩⟩ <;>
  first | decide | (unfold State.Sound; decide) | (unfold State.Known; decide)

/-- Operands of the cell instructions on the address in v4: ATOM with a destination, ATOMC, TAKE and WAITW. -/
def atomOps (aux : BitVec 6) : Ops := { bare with ty := .n32, flag := true, dst := .v 8, sa := .v 4, sb := .v 6, aux := aux }
def atomcOps : Ops := { bare with ty := .n32, dst := .v 8, sa := .v 4, sb := .v 6, sc := .v 7 }
def takeOps : Ops := { bare with ty := .n32, dst := .v 8, sa := .v 4 }
def waitOps (aux : BitVec 6) : Ops := { bare with ty := .n32, dst := .v 8, sa := .v 4, sb := .v 6, aux := aux }
def redOps (aux : BitVec 6) : Ops := { bare with ty := .n32, sa := .v 4, sb := .v 6, aux := aux }

/-- v4 and v5 hold the address of the crew's own scratchpad; the crew is `richCrew`'s. -/
def ownWindow (s : State) : State := { richCrew s with threads := s.threads.adjust 0 fun t => (t.setPair 4 ownBase).setPair 6 7 }

/-- One thread runs alone. -/
theorem alone {s : State} {c : Opc} {o : Ops} {p : Nat × Thread} (h : s.Runs labIss c o) (h1 : s.executing labIss o = [p]) (h2 : p.2.held = false) (h3 : s.mem.mons = []) :
    Alone s labIss c o p := ⟨h, h1, h2, by intro m hm; rw [h3] at hm; cases hm⟩

/-- The cell is the crew's first word of scratchpad. -/
def OwnCell (c : Opc) (o : Ops) (p : Nat × Thread) : Prop :=
  Alone (ownWindow (lab (c.mk o) [])) labIss c o p ∧ (cellAccess (ownWindow (lab (c.mk o) [])) labIss c o p).tgt = .spad 0 16384 ∧
    (ownWindow (lab (c.mk o) [])).blockedBy 0 (cellKind c) (cellAccess (ownWindow (lab (c.mk o) [])) labIss c o p) = false ∧
    (ownWindow (lab (c.mk o) [])).spadBadAt 0 16384 4 = false

theorem meets_cellsInScratchpad :
    (∃ p, OwnCell .atom (atomOps 0) p) ∧ (∃ p, OwnCell .atomc atomcOps p) ∧ (∃ p, OwnCell .take takeOps p) ∧ (∃ p, OwnCell .red (redOps 0) p) ∧
    (∃ p, OwnCell .waitw (waitOps 0) p ∧ ¬cmpHolds (waitCmp (waitOps 0)) false 0 7 = true) ∧ (∃ p, OwnCell .waitw (waitOps 1) p ∧ cmpHolds (waitCmp (waitOps 1)) false 0 7 = true) ∧
    (atomOps 0).ty.bits = 32 ∧ (atomOps 0).aux.getLsbD 3 = false ∧ (∀ n, (atomOps 0).dst ≠ .p n) := by
  refine ⟨⟨_, alone (runs_one 0 _ rfl rfl rfl ?_ ?_ ?_) rfl ?_ rfl, ?_⟩, ⟨_, alone (runs_one 0 _ rfl rfl rfl ?_ ?_ ?_) rfl ?_ rfl, ?_⟩,
    ⟨_, alone (runs_one 0 _ rfl rfl rfl ?_ ?_ ?_) rfl ?_ rfl, ?_⟩, ⟨_, alone (runs_one 0 _ rfl rfl rfl ?_ ?_ ?_) rfl ?_ rfl, ?_⟩,
    ⟨_, ⟨alone (runs_one 0 _ rfl rfl rfl ?_ ?_ ?_) rfl ?_ rfl, ?_⟩, ?_⟩, ⟨_, ⟨alone (runs_one 0 _ rfl rfl rfl ?_ ?_ ?_) rfl ?_ rfl, ?_⟩, ?_⟩, by decide, by decide, nofun⟩ <;>
  first | decide | (unfold State.Sound; decide) | (unfold State.Known; decide)

/-! #### Cell operations on their way -/

/-- The state for a cell instruction on the page of `withPage`, with scratchpad beside it. -/
abbrev sentLab (c : Opc) (o : Ops) : State := labWith c o [] (withPage ∘ richCrew)

/-- Its one thread executes and its cell is in memory. -/
def SentPage (c : Opc) (o : Ops) : Prop :=
  (sentLab c o).Runs labIss c o ∧ NoWaiter (sentLab c o) labIss o ∧ ∀ p ∈ (sentLab c o).executing labIss o, p.2.held = false ∧
    (sentLab c o).blockedBy 0 (cellKind c) (cellAccess (sentLab c o) labIss c o p) = false ∧
    ∃ ga mode e, (cellAccess (sentLab c o) labIss c o p).tgt = .page ga mode e ∧ mode ≠ .nc ∧ isHost (lineNo ga) = false

theorem sentPage (c : Opc) (o : Ops) (t : Thread) (hc : (sentLab c o).cur = some labIss) (ht : (sentLab c o).threads.get? 0 = some t)
    (h : coreOf 0 = 0 ∧ t.group = 0 ∧ t.status = .ready ∧ t.pc = testPc) (hd : (sentLab c o).Sound labIss c o) (hk : (sentLab c o).Known labIss c o)
    (q : Nat × Thread) (hq : (sentLab c o).executing labIss o = [q]) (h1 : q.2.held = false) (h2 : (sentLab c o).blockedBy 0 (cellKind c) (cellAccess (sentLab c o) labIss c o q) = false)
    (h3 : (cellAccess (sentLab c o) labIss c o q).tgt = .page 0x4_0000 .coh 0x4_0EC3) (hm : (sentLab c o).mem.mons = []) : SentPage c o :=
  ⟨lab_runs c o [] _ t hc ht h hd hk, noWaiter hm, each_one q hq ⟨h1, h2, _, _, _, h3, by decide, by decide⟩⟩

def giveOps : Ops := { bare with ty := .n32, sa := .v 4, sb := .v 6 }

/-- v4 and v5 name the own scratchpad. -/
abbrev giveOwn : State := ownWindow (lab (.give giveOps) [])

theorem meets_cellsAreSent : SentPage .atom (atomOps 0) ∧ SentPage .atom (atomOps 8) ∧ SentPage .atomc atomcOps ∧ SentPage .take takeOps ∧ SentPage .give giveOps ∧
    SentPage .waitw (waitOps 0) ∧ SentPage .red (redOps 8) ∧ (redOps 8).aux.getLsbD 3 = true ∧
    (giveOwn.Runs labIss .give giveOps ∧ ∀ p ∈ giveOwn.executing labIss giveOps, p.2.held = false ∧
      giveOwn.blockedBy 0 (cellKind .give) (cellAccess giveOwn labIss .give giveOps p) = false ∧ (cellAccess giveOwn labIss .give giveOps p).tgt = .spad 0 16384) := by
  refine ⟨sentPage .atom _ _ rfl rfl ?_ ?_ ?_ _ rfl ?_ ?_ ?_ rfl, sentPage .atom _ _ rfl rfl ?_ ?_ ?_ _ rfl ?_ ?_ ?_ rfl, sentPage .atomc _ _ rfl rfl ?_ ?_ ?_ _ rfl ?_ ?_ ?_ rfl,
    sentPage .take _ _ rfl rfl ?_ ?_ ?_ _ rfl ?_ ?_ ?_ rfl, sentPage .give _ _ rfl rfl ?_ ?_ ?_ _ rfl ?_ ?_ ?_ rfl, sentPage .waitw _ _ rfl rfl ?_ ?_ ?_ _ rfl ?_ ?_ ?_ rfl,
    sentPage .red _ _ rfl rfl ?_ ?_ ?_ _ rfl ?_ ?_ ?_ rfl, ?_, runs_one 0 _ rfl rfl rfl ?_ ?_ ?_, each_one _ rfl ?_⟩ <;>
  first | decide | (unfold State.Sound; decide) | (unfold State.Known; decide)

/-- A cell operation of the thread in slot 0 on the word at 0x4_0000. -/
def cellOf (k : CellKind) (giving : Bool) : CellOp := ⟨0, k, .n32, .mem 0x4_0000, .coh, 0x2_0000, 7, 9, some 3, .v 8, 0, giving, false, false, true, 5⟩

theorem meets_cellsAtHome : (lab (.nop bare) []).due.any (earlierCell (cellOf (.atom 0) true)) = false ∧ (lab (.nop bare) []).cellFollows (cellOf (.atom 0) true) = false ∧
    ((cellOf (.atom 0) true).sent = true ∧ (lab (.nop bare) []).dieQuiet (dieOf (coreOf 0)) = true ∧ (lab (.nop bare) []).saves 0 = false) ∧
    (lab (.nop bare) []).frameOn (lineNo 0x4_0000) = none ∧ isHbm (lineNo 0x4_0000) = true ∧
    homeDie (lineNo 0x4_0000) = dieOf (coreOf 0) ∧ Idle (lab (.nop bare) []) (lineNo 0x4_0000) ∧ (lab (.nop bare) []).mem.poison = [] ∧
    (∀ k ∈ [CellKind.atom 0, .atomc, .red 1, .give, .take, .fret], k ≠ .await ∧ k ≠ .pollf) ∧ (∀ x, (cellOf (.atom 0) true).kind ≠ .finish x) ∧
    ({ lab (.nop bare) [] with due := [.cellOperationRequest { cellOf .take false with seq := 2 }] }).due.any (earlierCell (cellOf (.atom 0) true)) = true ∧
    ((lab (.nop bare) []).updCore 0 fun c => { c with inflight := [lineNo 0x4_0000] }).cellFollows (cellOf (.atom 0) true) = true := by
  refine ⟨by decide, by decide, by decide, by decide, by decide, by decide, ⟨by decide, by decide⟩, by decide, by decide, nofun, by decide, by decide⟩

/-- The threads in slots 0 and 1 are a bundle whose reads have not been performed. -/
def bundled (s : State) : State := { withMate s with threads := (withMate s).threads.map fun _ t => { t with mates := [0, 1], status := .waiting .sending } }

theorem meets_windowsAndRegistrations : (ownWindow (lab (.nop bare) [])).spadHeld 1 0 16384 = true ∧ (lab (.nop bare) []).spadHeld 1 0 16384 = false ∧
    (ownWindow (lab (.nop bare) [])).spadBadAt 0 16384 4 = false ∧ (lab (.nop bare) []).cellBad (.mem 0x4_0000) 4 = false ∧ (lab (.nop bare) []).placeBad (.mem 0x4_0000) 4 = false ∧
    (∃ v, (lab (.nop bare) []).threads.get? 0 = some v ∧ 0 ∉ v.mates) ∧
    (∃ v w, (bundled (lab (.nop bare) [])).threads.get? 0 = some v ∧ 0 ∈ v.mates ∧ 1 ∈ v.mates ∧ (bundled (lab (.nop bare) [])).threads.get? 1 = some w ∧
      w.mates = v.mates ∧ w.unread = true) ∧
    ((lab (.nop bare) []).threads.get? 0).isSome = true ∧ ((lab (.nop bare) []).crews.get? ((lab (.nop bare) []).maskCrew 1)).isSome = true ∧
    (cellOf (.waitw 0) false).kind = .waitw 0 ∧
    cmpHolds 0 false ((lab (.nop bare) []).placeNat (.mem 0x4_0000) 4) 7 = false ∧ cmpHolds 1 false ((lab (.nop bare) []).placeNat (.mem 0x4_0000) 4) 7 = true :=
  ⟨by decide, by decide, by decide, by decide, by decide, ⟨_, rfl, by decide⟩, ⟨_, _, rfl, by decide, by decide, rfl, rfl, rfl⟩, by decide, by decide, rfl, by decide, by decide⟩

def prefOps : Ops := { bare with sa := .v 4 }
def rangeOps : Ops := { bare with sa := .v 4, sb := .v 6 }

/-- The line of the page is dirty in its first byte. -/
def dirtyLine : L1Line := { pageLine with bytes := ⟨[(0, ⟨1, true⟩), (1, ⟨2, false⟩)]⟩ }
def withDirty (s : State) : State := { s with cores := s.cores.adjust 0 fun c => { c with l1 := c.l1.put (l1Key 1 0x2_0000) dirtyLine } }
/-- v6 holds 0. -/
def noLength (s : State) : State := { s with threads := s.threads.adjust 0 fun t => t.setWord 6 0 }

theorem meets_hintsAndRanges :
    ((labWith .pref prefOps [] withPage).Runs labIss .pref prefOps) ∧
    (∀ c ∈ [Opc.cwb, .cinv], (labWith c rangeOps [] (noLength ∘ withPage)).Runs labIss c rangeOps ∧
      ∀ p ∈ (labWith c rangeOps [] (noLength ∘ withPage)).executing labIss rangeOps, p.2.held = false ∧
        ((labWith c rangeOps [] (noLength ∘ withPage)).vals labIss c rangeOps p.1 p.2).2.1 % 2 ^ 32 = 0 ∧
        (labWith c rangeOps [] (noLength ∘ withPage)).blockedBy 0 (if c = .cwb then .load else .store)
          ((labWith c rangeOps [] (noLength ∘ withPage)).rangeAt c rangeOps (if c = .cwb then .load else .store) labIss p) = false) ∧
    (∃ p, (labWith .cwb rangeOps [] (withDirty ∘ withPage)).Runs labIss .cwb rangeOps ∧ (labWith .cwb rangeOps [] (withDirty ∘ withPage)).executing labIss rangeOps = [p] ∧
      p.2.held = false ∧ ((labWith .cwb rangeOps [] (withDirty ∘ withPage)).rangeAt .cwb rangeOps .load labIss p).tgt = .page (2 ^ 80) .coh 0 ∧
      (labWith .cwb rangeOps [] (withDirty ∘ withPage)).blockedBy 0 .load ((labWith .cwb rangeOps [] (withDirty ∘ withPage)).rangeAt .cwb rangeOps .load labIss p) = false ∧
      (labWith .cwb rangeOps [] (withDirty ∘ withPage)).rangeLines 0 ((labWith .cwb rangeOps [] (withDirty ∘ withPage)).asidOf p.2)
        ((labWith .cwb rangeOps [] (withDirty ∘ withPage)).rangeAt .cwb rangeOps .load labIss p).ea
        (((labWith .cwb rangeOps [] (withDirty ∘ withPage)).vals labIss .cwb rangeOps p.1 p.2).2.1 % 2 ^ 32) = [l1Key 1 0x2_0000] ∧
      ((labWith .cwb rangeOps [] (withDirty ∘ withPage)).core 0).l1.get? (l1Key 1 0x2_0000) = some dirtyLine ∧ dirtyLine.gath = none ∧ isHbm dirtyLine.line = true ∧
      homeDie dirtyLine.line = dieOf 0 ∧ dirtyOf dirtyLine.bytes ≠ []) ∧
    (∃ p, (labWith .cinv rangeOps [] (withLine ∘ withPage)).Runs labIss .cinv rangeOps ∧ (labWith .cinv rangeOps [] (withLine ∘ withPage)).executing labIss rangeOps = [p] ∧
      p.2.held = false ∧ ((labWith .cinv rangeOps [] (withLine ∘ withPage)).rangeAt .cinv rangeOps .store labIss p).tgt = .page (2 ^ 80) .coh 0 ∧
      (labWith .cinv rangeOps [] (withLine ∘ withPage)).cinvWaits rangeOps = false ∧
      (labWith .cinv rangeOps [] (withLine ∘ withPage)).blockedBy 0 .store ((labWith .cinv rangeOps [] (withLine ∘ withPage)).rangeAt .cinv rangeOps .store labIss p) = false ∧
      (labWith .cinv rangeOps [] (withLine ∘ withPage)).rangeLines 0 ((labWith .cinv rangeOps [] (withLine ∘ withPage)).asidOf p.2)
        ((labWith .cinv rangeOps [] (withLine ∘ withPage)).rangeAt .cinv rangeOps .store labIss p).ea
        (((labWith .cinv rangeOps [] (withLine ∘ withPage)).vals labIss .cinv rangeOps p.1 p.2).2.1 % 2 ^ 32) = [l1Key 1 0x2_0000] ∧
      ((labWith .cinv rangeOps [] (withLine ∘ withPage)).core 0).l1.get? (l1Key 1 0x2_0000) = some pageLine ∧ dirtyOf pageLine.bytes = [] ∧
      ((labWith .cinv rangeOps [] (withLine ∘ withPage)).core 0).inflight.contains pageLine.line = false) := by
  refine ⟨lab_runs .pref _ [] _ _ rfl rfl ?_ ?_ ?_, ?_, ⟨_, lab_runs .cwb _ [] _ _ rfl rfl ?_ ?_ ?_, rfl, ?_⟩, ⟨_, lab_runs .cinv _ [] _ _ rfl rfl ?_ ?_ ?_, rfl, ?_⟩⟩
  · decide
  · unfold State.Sound; decide
  · unfold State.Known; decide
  · simp only [List.mem_cons, List.not_mem_nil, or_false, forall_eq_or_imp, forall_eq]
    refine ⟨⟨lab_runs .cwb _ [] _ _ rfl rfl ?_ ?_ ?_, each_one _ rfl ?_⟩, ⟨lab_runs .cinv _ [] _ _ rfl rfl ?_ ?_ ?_, each_one _ rfl ?_⟩⟩ <;>
    first | decide | (unfold State.Sound; decide) | (unfold State.Known; decide)
  all_goals first | decide | (unfold State.Sound; decide) | (unfold State.Known; decide)

/-! #### Frames, barriers, queues and coordinates -/

def spawnOps : Ops := { bare with dst := .v 20, sa := .v 4, sb := .v 8, imm := 16 }

/-- A header line at 0x1_0040 with an empty crew record (R267). -/
def headerLine : List Byte := ((List.range 4).map fun _ => bytesOf 12 (0x0A * 2 ^ 88 + 0xF * 2 ^ 78)).flatten ++ bytesOf 16 0

/-- An entry at 0x1_0080, one argument record at 0x2_0000, and the core's first frame mapped at 0x5_0000. -/
def withEntry (s : State) : State :=
  { withPage s with
    cores := s.cores.adjust 0 fun c => { c with fetch := c.fetch.put (fetchKey 1 0x1_0040) (.line headerLine) }
    mem := { (withPage s).mem with tlb := (withPage s).mem.tlb.put (leafKey 0 1 3 (frameHandle 0 0)) { level := 3, entry := 0x5_0EC3, addr := 0x5008, tag := leafTag 1 3 (frameHandle 0 0) } }
    threads := s.threads.adjust 0 fun t => (t.setPair 4 0x2_0000).setWord 8 1 }

abbrev spawnLab (f : State → State) : State := labWith .spawn spawnOps [] (f ∘ withEntry)
abbrev oneThread (s : State) : Nat × Thread := (0, (s.threads.get? 0).getD { crew := 0, group := 0, lane := 0, tix := 0, pc := 0 })
/-- The thread count is 0. -/
def noCount (s : State) : State := { s with threads := s.threads.adjust 0 fun t => t.setWord 8 0 }

theorem meets_spawnQueues : (Alone (spawnLab id) labIss .spawn spawnOps (oneThread (spawnLab id)) ∧ (∀ n, spawnOps.dst ≠ .p n) ∧ (spawnLab id).crews.rising = true ∧
      (spawnLab id).spawnPlan labIss spawnOps (oneThread (spawnLab id)) = .go 1 0x1_0080 {} 0 .loc (List.replicate 64 0) ∧
      (spawnLab id).frameAsks 0 1 1 = [] ∧ freeFrames ((spawnLab id).framesTaken 1 0) 1 = [0] ∧ ((spawnLab id).crews.get? 1).isSome = true ∧
      (spawnLab id).storeUsed (dieOf 0) + 1 ≤ 1048576 ∧ (spawnLab id).xlate 0 1 (frameHandle 0 0) .atom = .hit 0x5_0000 .coh 0x5_0EC3 ∧ Idle (spawnLab id) (lineNo 0x5_0000) ∧
      ((spawnLab id).core 0).l1.cells = []) ∧
    (Alone (spawnLab noCount) labIss .spawn spawnOps (oneThread (spawnLab noCount)) ∧
      (spawnLab noCount).spawnPlan labIss spawnOps (oneThread (spawnLab noCount)) = .status 1) := by
  refine ⟨⟨alone (lab_runs .spawn _ [] _ _ rfl rfl ?_ ?_ ?_) rfl ?_ rfl, nofun, ?_, ?_, ?_, ?_, ?_, ?_, ?_, ⟨?_, ?_⟩, ?_⟩, ⟨alone (lab_runs .spawn _ [] _ _ rfl rfl ?_ ?_ ?_) rfl ?_ rfl, ?_⟩⟩ <;>
  first | decide | (unfold State.Sound; decide) | (unfold State.Known; decide)

def awaitOps : Ops := { bare with ty := .n64, dst := .v 22, sa := .v 4, imm := 1 }
def pollfOps : Ops := { bare with ty := .n64, dst := .v 24, sa := .v 4 }
def fretOps : Ops := { bare with sa := .v 6, sb := .v 8 }
/-- The crew's own frame lies at the page's first line. -/
def withFrame (s : State) : State := { withPage s with crews := s.crews.adjust 1 fun c => { c with frm := 0x2_0000 } }

theorem frameHere {s : State} {c : Opc} {o : Ops} {p : Nat × Thread} {a : Acc} (h1 : (s.frameAt c o 12 a labIss p).tgt = .page 0x4_000C .coh 0x4_0EC3)
    (h2 : s.home 0x800 = {}) (h3 : s.mem.gmask.getD (sliceKey 0x800) [] = []) (h4 : s.quietLine 0x800 = true) (h5 : (s.core 0).l1.cells = []) :
    FrameHere s labIss c o p a 0x4_0000 :=
  ⟨⟨_, _, h1⟩, ⟨h2, h3⟩, h4, by intro k x h; rw [show labIss.core = 0 from rfl, h5] at h; cases h⟩

theorem meets_frameReads :
    ((labWith .await awaitOps [] withPage).Runs labIss .await awaitOps ∧
      ∀ p ∈ (labWith .await awaitOps [] withPage).executing labIss awaitOps, p.2.takes = [] ∧
        (labWith .await awaitOps [] withPage).blockedBy 0 .load ((labWith .await awaitOps [] withPage).frameAt .await awaitOps 12 .load labIss p) = false ∧
        ((labWith .await awaitOps [] withPage).frameAt .await awaitOps 12 .load labIss p).tgt = .page 0x4_000C .coh 0x4_0EC3) ∧ isHost (lineNo 0x4_000C) = false ∧ NoWaiter (labWith .await awaitOps [] withPage) labIss awaitOps ∧

    ((labWith .pollf pollfOps [] withPage).Runs labIss .pollf pollfOps ∧ 
      ∀ p ∈ (labWith .pollf pollfOps [] withPage).executing labIss pollfOps, p.2.takes = [] ∧
        (labWith .pollf pollfOps [] withPage).blockedBy 0 .load ((labWith .pollf pollfOps [] withPage).frameAt .pollf pollfOps 12 .load labIss p) = false ∧
        FrameHere (labWith .pollf pollfOps [] withPage) labIss .pollf pollfOps p .load 0x4_0000 ∧ (labWith .pollf pollfOps [] withPage).placeBad (.mem 0x4_0008) 8 = false) ∧
    ((labWith .fret fretOps [] withFrame).Runs labIss .fret fretOps ∧ NoWaiter (labWith .fret fretOps [] withFrame) labIss fretOps ∧ ∀ p ∈ (labWith .fret fretOps [] withFrame).executing labIss fretOps, p.2.takes = [] ∧
      (labWith .fret fretOps [] withFrame).blockedBy 0 .store ((labWith .fret fretOps [] withFrame).fretAt fretOps labIss p) = false ∧
      ((labWith .fret fretOps [] withFrame).fretAt fretOps labIss p).tgt = .page 0x4_0038 .coh 0x4_0EC3) := by
  refine ⟨⟨lab_runs .await _ [] _ _ rfl rfl ?_ ?_ ?_, each_one _ rfl ?_⟩, ?_, noWaiter rfl, ⟨lab_runs .pollf _ [] _ _ rfl rfl ?_ ?_ ?_, each_one _ rfl ⟨?_, ?_, frameHere ?_ ?_ ?_ ?_ ?_, ?_⟩⟩,
    ⟨lab_runs .fret _ [] _ _ rfl rfl ?_ ?_ ?_, noWaiter rfl, each_one _ rfl ?_⟩⟩ <;>
  first | decide | (unfold State.Sound; decide) | (unfold State.Known; decide)

def stealOps : Ops := { bare with sa := .v 4, sb := .v 6, aux := 2 }

theorem meets_stealPoint : ∃ c, Alone (labWith .stealpt stealOps [] withPage) labIss .stealpt stealOps (oneThread (labWith .stealpt stealOps [] withPage)) ∧
    FrameHere (labWith .stealpt stealOps [] withPage) labIss .stealpt stealOps (oneThread (labWith .stealpt stealOps [] withPage)) .atom 0x4_0000 ∧
    (labWith .stealpt stealOps [] withPage).blockedBy 0 .atom ((labWith .stealpt stealOps [] withPage).frameAt .stealpt stealOps 12 .atom labIss (oneThread (labWith .stealpt stealOps [] withPage))) = false ∧
    (labWith .stealpt stealOps [] withPage).crews.get? 1 = some c ∧ c.crec.k = 0 ∧ c.crec.spad = 0 ∧ c.crec.q = 0 ∧
    (memNum (labWith .stealpt stealOps [] withPage) 0x4_0008 4).testBit 2 = false ∧
    (oneThread (labWith .stealpt stealOps [] withPage)).2.crew ≠ (labWith .stealpt stealOps [] withPage).fresh ∧
    (oneThread (labWith .stealpt stealOps [] withPage)).2.depth = (oneThread (labWith .stealpt stealOps [] withPage)).2.stack.length ∧
    (labIss.view 0 (oneThread (labWith .stealpt stealOps [] withPage)).2).savedRegs (stealArgs stealOps).2 (stealArgs stealOps).1 = some [7, 0] ∧
    Alone (labWith .stealpt stealOps [] (withPage ∘ richCrew)) labIss .stealpt stealOps (oneThread (labWith .stealpt stealOps [] (withPage ∘ richCrew))) ∧
    ((labWith .stealpt stealOps [] (withPage ∘ richCrew)).crews.get? 1).map (·.crec.k) = some 8 := by
  refine ⟨_, alone (lab_runs .stealpt _ [] _ _ rfl rfl ?_ ?_ ?_) rfl ?_ rfl, frameHere ?_ ?_ ?_ ?_ ?_, ?_, rfl, ?_, ?_, ?_, ?_, ?_, ?_, ?_,
    alone (lab_runs .stealpt _ [] _ _ rfl rfl ?_ ?_ ?_) rfl ?_ rfl, ?_⟩ <;>
  first | decide | (unfold State.Sound; decide) | (unfold State.Known; decide)

def nbarOps : Ops := { bare with sa := .v 6, sb := .v 8, aux := 0 }
def nbarFar : Ops := { bare with sa := .v 6, sb := .v 8, sc := .v 10, aux := 1 }
/-- The barrier's operands: id 7, count 2; one thread has arrived with the count n. -/
def arrivedOne (n : Nat) (s : State) : State :=
  { withHandler s with
    threads := (withHandler s).threads.adjust 0 fun t => (t.setWord 6 7).setWord 8 2
    crews := s.crews.adjust 1 fun c => { c with cn := 2, nbars := ⟨[(7, { fixed := n, arrived := 1 })]⟩ } }
/-- The crew has a handle, 0x4000, which v10 holds. -/
def withHandle (s : State) : State :=
  { arrivedOne 2 s with
    crews := (arrivedOne 2 s).crews.adjust 1 fun c => { c with gen := 1 }
    threads := (arrivedOne 2 s).threads.adjust 0 fun t => t.setWord 10 0x4000 }

/-- The operands and the barrier of an arrival, with a count that fits (2) or not (3). -/
theorem meets_crewBarriers_arrival (n : Nat) (hn : n = 2 ∨ n = 3) :
    Alone (labWith .nbar nbarOps [] (arrivedOne n)) labIss .nbar nbarOps (oneThread (labWith .nbar nbarOps [] (arrivedOne n))) ∧
      ((labWith .nbar nbarOps [] (arrivedOne n)).crews.get? 1).isSome = true ∧
      ((labWith .nbar nbarOps [] (arrivedOne n)).nbarArgs labIss nbarOps (oneThread (labWith .nbar nbarOps [] (arrivedOne n)))).1 = 7 ∧
      ((labWith .nbar nbarOps [] (arrivedOne n)).nbarArgs labIss nbarOps (oneThread (labWith .nbar nbarOps [] (arrivedOne n)))).2.1 = 2 := by
  rcases hn with rfl | rfl <;> refine ⟨alone (lab_runs .nbar _ [] _ _ rfl rfl ?_ ?_ ?_) rfl ?_ rfl, ?_⟩ <;>
  first | decide | (unfold State.Sound; decide) | (unfold State.Known; decide)

theorem meets_crewBarriers :
    ((lab (.cbar bare) []).Runs labIss .cbar bare ∧ (lab (.cbar bare) []).executing labIss bare ≠ [] ∧ (lab (.cbar bare) []).threads.rising = true ∧
      (∀ p ∈ (lab (.cbar bare) []).executing labIss bare, p.2.crew = 1) ∧ ((lab (.cbar bare) []).crews.get? 1).isSome = true) ∧
    nbarOps.aux.getLsbD 0 = false ∧ ¬NoHandler (oneThread (labWith .nbar nbarOps [] (arrivedOne 3))).2 ∧
    (Alone (labWith .nbar nbarFar [] withHandle) labIss .nbar nbarFar (oneThread (labWith .nbar nbarFar [] withHandle)) ∧ nbarFar.aux.getLsbD 0 = true ∧
      ((labWith .nbar nbarFar [] withHandle).crewNamed 1 (clusterOf 0) 0x4000).isSome = true) := by
  refine ⟨⟨lab_runs .cbar _ [] id _ rfl rfl ?_ ?_ ?_, ?_, ?_, ?_, ?_⟩, ?_, handled ?_, ⟨alone (lab_runs .nbar _ [] _ _ rfl rfl ?_ ?_ ?_) rfl ?_ rfl, ?_, ?_⟩⟩
  all_goals first | decide | (unfold State.Sound; decide) | (unfold State.Known; decide)

def pushOps (nb : Bool) : Ops := { bare with ty := .n32, flag := nb, dst := (if nb then .p 1 else .none), sa := .v 6 }
def popOps (nb : Bool) : Ops := { bare with ty := .n32, flag := nb, dst := .v 8, sc := (if nb then .p 1 else .none) }
/-- Queue 0 of the crew holds n entries. -/
def holding (n : Nat) (s : State) : State := { richCrew s with crews := (richCrew s).crews.adjust 1 fun c => { c with queues := ⟨[(0, { entries := List.replicate n (9, 0) })]⟩ } }
abbrev queueLab (c : Opc) (o : Ops) (n : Nat) : State := labWith c o [] (holding n)

theorem meets_crewQueues :
    ((queueLab .qpush (pushOps true) 0).crews.get? 1).map (·.crec.q) = some 4 ∧ queueRemote (pushOps true) = false ∧ queueNo (pushOps true) = 0 ∧
    (∀ n ∈ [0, 16], ∀ nb ∈ [true, false], ((pushOps nb).dst = .none ∨ (pushOps nb).dst = .p 1) ∧
      Alone (queueLab .qpush (pushOps nb) n) labIss .qpush (pushOps nb) (oneThread (queueLab .qpush (pushOps nb) n))) ∧
    (∀ n ∈ [0, 16], ∀ nb ∈ [true, false], Alone (queueLab .qpop (popOps nb) n) labIss .qpop (popOps nb) (oneThread (queueLab .qpop (popOps nb) n))) := by
  refine ⟨by decide, by decide, by decide, ?_, ?_⟩ <;> simp only [List.mem_cons, List.not_mem_nil, or_false, forall_eq_or_imp, forall_eq]
  · refine ⟨⟨⟨.inr rfl, alone (lab_runs .qpush _ [] _ _ rfl rfl ?_ ?_ ?_) rfl ?_ rfl⟩, ⟨.inl rfl, alone (lab_runs .qpush _ [] _ _ rfl rfl ?_ ?_ ?_) rfl ?_ rfl⟩⟩,
      ⟨⟨.inr rfl, alone (lab_runs .qpush _ [] _ _ rfl rfl ?_ ?_ ?_) rfl ?_ rfl⟩, ⟨.inl rfl, alone (lab_runs .qpush _ [] _ _ rfl rfl ?_ ?_ ?_) rfl ?_ rfl⟩⟩⟩ <;>
    first | decide | (unfold State.Sound; decide) | (unfold State.Known; decide)
  · refine ⟨⟨alone (lab_runs .qpop _ [] _ _ rfl rfl ?_ ?_ ?_) rfl ?_ rfl, alone (lab_runs .qpop _ [] _ _ rfl rfl ?_ ?_ ?_) rfl ?_ rfl⟩,
      ⟨alone (lab_runs .qpop _ [] _ _ rfl rfl ?_ ?_ ?_) rfl ?_ rfl, alone (lab_runs .qpop _ [] _ _ rfl rfl ?_ ?_ ?_) rfl ?_ rfl⟩⟩ <;>
    first | decide | (unfold State.Sound; decide) | (unfold State.Known; decide)

def tfetchOps : Ops := { bare with dst := .v 4, sc := .p 1 }
/-- A lot table of no lots, and a game on it. -/
def noLots : LotTable := { va := 0, hash := 0, image := 0, isize := 0, maxthr := 0, lots := [], vars := [], tensors := [], accs := [], edges := [] }
def noGame : Game := { table := noLots, board := { lots := [], order := [], homes := [], modes := [] }, cal := [], perms := [], pfirst := 0, pcount := 0, dev := 0 }
/-- A PERSIST launch whose dispenser on die 0 holds the coordinate 5. -/
def persisting (s : State) : State :=
  { s with
    fw := { s.fw with launches := ⟨[(1, { queue := 0, ctx := 1, frame := 0, tag := 0, mode := 0, prio := 0, argb := 0, threads := 1, block := 1, game := noGame, calen := false, disps := ⟨[(dispKey 0 0, { coords := [5] })]⟩ })]⟩ }
    crews := s.crews.adjust 1 fun c => { c with launch := 1 } }

theorem meets_tileFetch : Alone (lab (.tfetch tfetchOps) []) labIss .tfetch tfetchOps (oneThread (lab (.tfetch tfetchOps) [])) ∧ (lab (.tfetch tfetchOps) []).dispDies 0 0 = [] ∧
    Alone (labWith .tfetch tfetchOps [] persisting) labIss .tfetch tfetchOps (oneThread (labWith .tfetch tfetchOps [] persisting)) ∧
    ∃ x, (labWith .tfetch tfetchOps [] persisting).disp? 1 0 (dieOf 0) = some x ∧ x.asking = false ∧ x.coords = [5] := by
  refine ⟨alone (lab_runs .tfetch _ [] id _ rfl rfl ?_ ?_ ?_) rfl ?_ rfl, ?_, alone (lab_runs .tfetch _ [] _ _ rfl rfl ?_ ?_ ?_) rfl ?_ rfl, _, rfl, ?_, ?_⟩ <;>
  first | decide | (unfold State.Sound; decide) | (unfold State.Known; decide)

/-! #### Engines and the Square -/

/-- The crew has a descriptor in k8 to k15, its context's ACCs are enabled, and v4 and v5 hold 0x2_0000. -/
def withDesc (d : List Nat) (s : State) : State :=
  { richCrew s with
    crews := (richCrew s).crews.adjust 1 fun c => { c with crec := { c.crec with k := 16 }, kregs := ⟨d.mapIdx fun i x => (8 + i, BitVec.ofNat 32 x)⟩ }
    cores := ⟨[(0, { s.core 0 with men := [1] }), (1, { s.core 1 with men := [1], marray := true })]⟩
    threads := s.threads.adjust 0 fun t => (t.setPair 4 0x2_0000) }

def descOps : Ops := { bare with sa := .k 8 }
def imageOps : Ops := { bare with sa := .v 4 }

/-- A descriptor for each engine instruction that passes its checks: BF16 operands of MMA at 0x2_0000 and 0x2_1000, regions of one row of four f32 elements at crew offset 0 and up, a CPY of sixteen 4-byte elements. -/
def engineDescs : List (Opc × Ops × List Nat) :=
  [(.mmaSolo, descOps, [0x2_0000, 0, 0x2_1000, 0, 256, 256, 0x10BB, 0]), (.mmaPair, { descOps with aux := 1 }, [0x2_0000, 0, 0x2_1000, 0, 256, 256, 0x10BB, 0]), (.mzero, bare, []),
   (.mload, imageOps, []), (.msave, imageOps, []), (.mdrain, descOps, [0, 0, 8, 0x90, 0, 0, 0, 0]), (.rfma, descOps, [0, 1024, 2048, 3072, 0x1_0004, 0x99, 0, 0]),
   (.rscl, descOps, [0, 1024, 2048, 3072, 0x1_0004, 0x99, 0, 0]), (.rred, descOps, [0, 1024, 0, 0, 0x1_0004, 0x99, 0, 0]), (.rexp, descOps, [0, 1024, 7, 2048, 0x1_0004, 0x1099, 0, 0]),
   (.rcvt, descOps, [0, 1024, 0, 0, 0x1_0004, 0xA9, 0, 0]), (.rngEngine, { descOps with aux := 1 }, [0, 0, 2, 3, 0x1_0004, 0x3060, 0, 0]), (.cpy, descOps, [0x2_0000, 0, 0x0100_0000, 16, 0, 0, 0, 0])]

abbrev engineLab (x : Opc × Ops × List Nat) : State := labWith x.1 x.2.1 [] (withDesc x.2.2)

/-- Whether a plan lets its operation issue. -/
def goes : EngPlan → Bool
  | .go _ => true
  | .bad _ _ => false

theorem meets_engineIssue : ∀ x ∈ engineDescs, ∃ p, x.1 ∈ engineKinds.map Prod.fst ∧ (engineLab x).Runs labIss x.1 x.2.1 ∧ (engineLab x).executing labIss x.2.1 = [p] ∧ p.2.held = false ∧
    (∀ k ∈ accsFor x.1 0, (engineLab x).ctxOf p.2 ∈ ((engineLab x).core k).men) ∧ (∀ k ∈ accsFor x.1 0, ((engineLab x).core k).mfault = none) ∧
    goes (planFor (engineLab x) labIss x.1 x.2.1 p) = true ∧ (∀ k ∈ [0, 1], ((engineLab x).core k).marray = true) ∧ ((engineLab x).core 0).sboard.length < 32 := by
  simp only [engineDescs, List.mem_cons, List.not_mem_nil, or_false, forall_eq_or_imp, forall_eq]
  refine ⟨?_, ?_, ?_, ?_, ?_, ?_, ?_, ?_, ?_, ?_, ?_, ?_, ?_⟩ <;> refine ⟨_, ?_, lab_runs _ _ [] _ _ rfl rfl ?_ ?_ ?_, rfl, ?_⟩ <;>
  first | decide | (unfold State.Sound; decide) | (unfold State.Known; decide)

/-- The descriptor names no format, and its context is not enabled. -/
abbrev badLab : State := withHandler (engineLab (.mmaSolo, descOps, [0x2_0000, 0, 0x2_1000, 0, 256, 256, 0, 0]))
abbrev offLab : State := labWith .mzero bare [] richCrew
def mstatOps : Ops := { bare with dst := .v 4 }
def rngOps : Ops := { bare with ty := .n32, dst := .v 4, sa := .v 6, sb := .v 5 }

theorem meets_engineFaultsAndRegisters :
    (badLab.Runs labIss .mmaSolo descOps ∧ ¬NoHandler (oneThread badLab).2 ∧ goes (planFor badLab labIss .mmaSolo descOps (oneThread badLab)) = false) ∧
    (offLab.Runs labIss .mzero bare ∧ ¬∀ k ∈ accsFor .mzero 0, offLab.ctxOf (oneThread offLab).2 ∈ (offLab.core k).men) ∧
    ((engineLab (.mstat, mstatOps, [])).Runs labIss .mstat mstatOps ∧ (engineLab (.mstat, mstatOps, [])).executing labIss mstatOps = [oneThread (engineLab (.mstat, mstatOps, []))] ∧
      (engineLab (.mstat, mstatOps, [])).ctxOf (oneThread (engineLab (.mstat, mstatOps, []))).2 ∈ ((engineLab (.mstat, mstatOps, [])).core 0).men) ∧
    (lab (.rngRegister rngOps) []).Runs labIss .rngRegister rngOps := by
  refine ⟨⟨runs_one 0 _ rfl rfl rfl ?_ ?_ ?_, handled ?_, ?_⟩, ⟨lab_runs _ _ [] _ _ rfl rfl ?_ ?_ ?_, ?_⟩, ⟨lab_runs .mstat _ [] _ _ rfl rfl ?_ ?_ ?_, rfl, ?_⟩, lab_runs .rngRegister _ [] id _ rfl rfl ?_ ?_ ?_⟩ <;>
  first | decide | (unfold State.Sound; decide) | (unfold State.Known; decide)

/-- Square instructions with operands of each form. -/
def squareIssues : List (Opc × Ops) :=
  [(.sqload, { bare with dst := .v 20, sa := .v 6, imm := 2 }), (.sqlegal, { bare with dst := .v 20, sa := .v 6, sb := .v 8, sc := .v 10, imm := 2 }),
   (.sqplay, { bare with dst := .v 20, sa := .v 6, sb := .v 8, aux := 1, imm := 2 }), (.sqplayList, { bare with dst := .v 20, sa := .v 6, sb := .v 8, sc := .v 9, aux := 3, imm := 2 }),
   (.squndo, { bare with dst := .v 20, imm := 2 }), (.sqscore, { bare with dst := .v 20, imm := 15 }), (.sqread, { bare with dst := .v 20, sa := .v 6, sc := .v 9, imm := 2 }),
   (.sqsave, { bare with dst := .v 20, sa := .v 6, sb := .v 9, sc := .v 10, imm := 2 }), (.sqcheck, { bare with dst := .v 20, sa := .v 6, sb := .v 12, sc := .v 9, aux := 1, imm := 2 }),
   (.sqcommit, { bare with dst := .v 20, sa := .v 6, sb := .v 9, sc := .v 10, aux := 1, imm := 2 })]

theorem meets_squareIssue : ∀ x ∈ squareIssues, (lab (x.1.mk x.2) []).Runs labIss x.1 x.2 ∧ NoWaiter (lab (x.1.mk x.2) []) labIss x.2 ∧
    ((lab (x.1.mk x.2) []).core 0).sboard.length + ((lab (x.1.mk x.2) []).executing labIss x.2).length ≤ 32 ∧
    ∀ p ∈ (lab (x.1.mk x.2) []).executing labIss x.2, p.2.held = false := by
  simp only [squareIssues, List.mem_cons, List.not_mem_nil, or_false, forall_eq_or_imp, forall_eq]
  refine ⟨?_, ?_, ?_, ?_, ?_, ?_, ?_, ?_, ?_, ?_⟩ <;> refine ⟨lab_runs _ _ [] id _ rfl rfl ?_ ?_ ?_, noWaiter rfl, ?_, each_one _ rfl ?_⟩ <;>
  first | decide | (unfold State.Sound; decide) | (unfold State.Known; decide)

/-- An operation of the thread in slot 0, of a kind and in a phase. -/
def opOf (k : EngKind) (f : EngPhase) : EngOp := { kind := k, core := 0, crew := 1, ctx := 1, tid := 0, comp := 0x10_0000, setv := 1, phase := f }
/-- The only operation, with its places; its thread is being sent. -/
def withOp (op : EngOp) (s : State) : State :=
  { richCrew s with
    ops := ⟨[(5, op)]⟩
    cores := s.cores.adjust 0 fun c => { c with sboard := [5], macc := [5] }
    threads := s.threads.adjust 0 fun t => { t with status := .waiting .sending } }
abbrev opLab (op : EngOp) : State := withOp op (lab (.nop bare) [])
/-- An earlier operation stands first on the ACC. -/
def behind (s : State) : State := { s with cores := s.cores.adjust 0 fun c => { c with macc := [4, 5] } }

theorem meets_engineEvents :
    ((opLab (opOf .mzero .queued)).ops.get? 5 = some (opOf .mzero .queued) ∧ (opLab (opOf .mzero .queued)).mustHold 5 (opOf .mzero .queued) = false) ∧
    (behind (opLab (opOf .mzero .queued))).mustHold 5 (opOf .mzero .queued) = true ∧
    ((opLab (opOf (.square .sqread) .through)).dieQuiet (dieOf 0) = true ∧ (opLab (opOf (.square .sqread) .through)).bundleBefore 5 (opOf (.square .sqread) .through) = false ∧
      ∃ v, (opLab (opOf (.square .sqread) .through)).threads.get? 0 = some v ∧ v.status = .waiting .sending) ∧
    ((opOf .cpy .through).kind ∈ engineKinds.map Prod.snd ∧ (opLab (opOf .cpy .through)).dieQuiet (dieOf 0) = true ∧ ((opLab (opOf .cpy .through)).crews.get? 1).isSome = true ∧
      compAction (opOf .cpy .through).comp = 1 ∧ (opOf .cpy .through).fault = none) ∧
    (opLab (opOf .cpy .suspended)).ops.get? 5 = some (opOf .cpy .suspended) := by
  refine ⟨by decide, by decide, ⟨by decide, by decide, _, rfl, rfl⟩, by decide, by decide⟩

/-! #### The home, the dies, the host and the peers -/

/-- A line of device memory, home die 0, with a directory entry; die 1 asks. -/
def lined (h : HomeLine) : State := { State.reset with due := [], mem := { State.reset.mem with homes := ⟨[(0x800, h)]⟩ } }

theorem calm_lined (h : HomeLine) (h1 : h.txn = none) (h2 : h.queue = []) : Calm (lined h) 0x800 := ⟨h1, h2, by show State.reset.mem.gmask.getD (sliceKey 0x800) [] = []; decide, rfl⟩

/-- A transaction that waits for die 2. -/
def waitsTwo (a : After) : HomeLine := { st := some .s, mask := [2], txn := some { wait := [2], after := a } }
/-- Fifteen and sixteen requests are queued. -/
def crowd (n : Nat) : HomeLine := { waitsTwo .idle with queue := List.replicate n (.rds 3 0x800 false) }

theorem meets_homeRequests : 1 < 4 ∧ (Calm (lined {}) 0x800 ∧ ((lined {}).home 0x800).st = none ∧ ((lined {}).dirEntries 0x800).length < 16) ∧
    (∀ m ∈ [[], [1], [2]], Calm (lined { st := some .s, mask := m }) 0x800 ∧ ((lined { st := some .s, mask := m }).home 0x800).mask = m) ∧
    (Calm (lined { st := some .e, mask := [2] }) 0x800 ∧ ((lined { st := some .e, mask := [2] }).home 0x800).mask ≠ []) ∧
    (Calm (lined { st := some .g, mask := [2], kind := some ⟨0, .n32⟩ }) 0x800 ∧ ((lined { st := some .g, mask := [2], kind := some ⟨0, .n32⟩ }).home 0x800).kind ≠ some ⟨1, .n32⟩) ∧
    ((lined (crowd 15)).home 0x800).txn.isSome = true ∧ (lined (crowd 15)).sliceQueued 0x800 < 16 ∧ 16 ≤ (lined (crowd 16)).sliceQueued 0x800 := by
  refine ⟨by decide, ⟨calm_lined _ rfl rfl, by decide⟩, ?_, ⟨calm_lined _ rfl rfl, by decide⟩, ⟨calm_lined _ rfl rfl, by decide⟩, by decide⟩
  intro m _; exact ⟨calm_lined _ rfl rfl, rfl⟩

/-- A fill that a load of core 1 waits for, as the first of its core and line. -/
def loadFill : Fill := { core := 1, asid := 1, vline := 0x800, line := 0x800, mode := .coh, hint := 0, r := true, w := true, red := false, load := some { tids := [0], late := 0, off := 0, width := 4, got := [], ty := .n32, x2 := false, ea := 0x4_0000 } }

theorem meets_homeAnswers : State.reset.mem.mons = [] ∧ Idle State.reset 0x800 ∧ State.reset.mem.poison = [] ∧
    loadFill.load.isSome = true ∧ loadFill ∈ (State.reset.core 1).misses.getD loadFill.line [loadFill] ∧
    isHbm 0x800 = true ∧ State.reset.mem.hcache.get? 0x800 = none ∧ (State.reset.hcPeers 0x800).length < 16 ∧
    (∀ a ∈ [After.idle, .sendM 1, .grantM 2], ((lined (waitsTwo a)).home 0x800).txn = some { wait := [2], after := a } ∧ ((lined (waitsTwo a)).home 0x800).queue = []) ∧
    (((lined { st := some .e, mask := [1] }).home 0x800).txn = none ∧ ((lined { st := some .e, mask := [1] }).home 0x800).mask = [1]) ∧
    ((lined { st := some .g, mask := [1, 2], kind := some ⟨0, .n32⟩ }).home 0x800).mask.erase 1 ≠ [] := by
  refine ⟨rfl, ⟨by decide, by decide⟩, rfl, by decide, by decide, by decide, by decide, by decide, ?_, by decide, by decide⟩
  intro a _; exact ⟨rfl, rfl⟩

/-- Die 1's copy of the line. -/
def copied (l : RdcLine) : State := { State.reset with due := [], mem := { State.reset.mem with rdc := ⟨[(2 ^ 60 + 0x800, l)]⟩ } }

theorem meets_dieMessages : ((copied { wait := some (.data .rdm 0) }).rdcLine 1 0x800).wait = some (.data .rdm 0) ∧ ((copied { wait := some (.data .rdm 0) }).rdcLine 1 0x800).works = [] ∧
    ((copied { wait := some (.data (.rdg ⟨0, .n32⟩) 0) }).rdcLine 1 0x800).wait = some (.data (.rdg ⟨0, .n32⟩) 0) ∧
    ((copied { st := some .m, wait := some .wbAck }).rdcLine 1 0x800).wait = some .wbAck ∧ ((copied { st := some .m }).rdcLine 1 0x800).st = some .m ∧
    ((copied { st := some .s }).rdcLine 1 0x800).st = some .s ∧ ((copied { st := some .s }).rdcLine 1 0x800).bad = [] ∧
    (((copied { st := some .g, kind := some ⟨0, .n32⟩ }).rdcLine 1 0x800).st = some .g ∧ (copied { st := some .g, kind := some ⟨0, .n32⟩ }).gatherers 1 0x800 ⟨0, .n32⟩ = []) ∧
    (((copied { wait := some (.backoff .upg 1) }).rdcLine 1 0x800).wait = some (.backoff .upg 1) ∧ isHbm 0x800 = true) := by decide

/-- The line's copy in the host section of die 0. -/
def hosted (l : RdcLine) : State := { State.reset with due := [], mem := { State.reset.mem with rdc := ⟨[(2 ^ 45, l)]⟩ } }

theorem meets_hostMessages : (hosted { wait := some (.data .rdm 0) }).mem.mons = [] ∧ ((hosted { wait := some (.data .rdm 0) }).rdcLine 0 (2 ^ 45)).wait = some (.data .rdm 0) ∧
    (List.replicate 128 (0 : Byte)).length = 128 ∧ ((hosted { st := some .m }).rdcLine 0 (2 ^ 45)).st = some .m ∧ State.reset.fw.drain = false ∧
    (State.reset.updFw fun w => { w with drain := true }).fw.drain = true ∧ Idle State.reset 0x800 ∧ (State.reset.dirEntries 0x800).length < 16 ∧
    isHost 0x800 = false ∧ isHost (2 ^ 45) = true := by
  refine ⟨by decide, by decide, by simp, by decide, by decide, by decide, ⟨by decide, by decide⟩, by decide, by decide, by decide⟩

/-- Device 3 is reached by port 5. -/
def routed : State := { State.reset with due := [], dev := { State.reset.dev with routes := ⟨[(3, 2 ^ 5)]⟩ } }

theorem meets_links : State.reset.mem.mons = [] ∧ (peerOfReq (.fetch 1 (5 * 2 ^ 45)) = some 3 ∧ State.reset.portTo 3 = none) ∧ routed.portTo (peerOf (5 * 2 ^ 45)) = some 5 ∧
    Idle State.reset 0x800 ∧ 5 < 18 ∧ 5 ∉ State.reset.dev.down ∧
    ({ State.reset with due := [.peerLinkRequest (.fetch 1 (5 * 2 ^ 45))] }).due.filter (toPeer 3) = [.peerLinkRequest (.fetch 1 (5 * 2 ^ 45))] := by
  refine ⟨rfl, by decide, by decide, ⟨by decide, by decide⟩, by decide, by decide, by decide⟩

/-! #### A core's own events, and crews -/

/-- `lab` before an instruction is in hand, with its group's continuing entry and a second thread at the next slot. -/
def between (cont : Option DWord) (s : State) : State :=
  { s with cur := none, groups := s.groups.adjust 0 fun g => { g with cont := cont } }
abbrev clockLab (cont : Option DWord) : State := between cont (lab (.nop bare) [])

theorem readyPcs_one {s : State} {core g x : Nat} (h : ((s.ready core g).map fun p => p.2.pc.toNat).eraseDups = [x]) : s.readyPcs core g = [x] := by
  simp [State.readyPcs, h]

/-- An unmarked leaf at 0x2_0000 reached through tables at 0x10_0000 to 0x13_0000 (R30, R31). -/
def tables (s : State) : State :=
  let w (m : Memory) (a e : Nat) : Memory := m.writeAt a (withOff 0 (bytesOf 8 e))
  { s with
    fw := { s.fw with ctxs := ⟨[(1, { asid := 1, root := 0x10_0000 })]⟩ }
    mem := { s.mem with bytes := w (w (w (w FMap.empty 0x10_0000 0x11_0001) 0x11_0000 0x12_0001) 0x12_0000 0x13_0001) 0x13_0010 0x4_08C3 } }

/-- Two groups of one crew, each of one Ready thread at the same slot 0. -/
def twoGroups : State :=
  { lab (.nop bare) [] with
    cur := none
    groups := ⟨[(0, { crew := 1, gix := 0 }), (1, { crew := 1, gix := 1 })]⟩
    threads := (lab (.nop bare) []).threads.put 1 { crew := 1, group := 1, lane := 0, tix := 32, pc := testPc } }

/-- A line whose page may be fetched from. -/
def codePage (s : State) : State := { s with mem := { s.mem with tlb := s.mem.tlb.put (leafKey 0 1 3 0x3_0000) { level := 3, entry := 0x6_0343, addr := 0x5000, tag := leafTag 1 3 0x3_0000 } } }

/-- No translation of the address is held, and no invalidation of its page table's lines is outstanding. -/
def Walks (va : Nat) : Prop :=
  (tables (clockLab none)).walkBusy 1 va = false ∧ (tables (clockLab none)).xlate 0 1 va (Acc.ofCode 0) = .miss ∧ (tables (clockLab none)).lookupDeep (dieOf 0) 1 va = none

theorem meets_coreEvents :
    (State.reset.core 0).gated = true ∧ ((between none { lab (.nop bare) [] with groups := FMap.empty }).core 0).gated = false ∧
    (between none { lab (.nop bare) [] with groups := FMap.empty }).chooseGroup 0 = none ∧
    (∃ grp, (clockLab (some testPc)).chooseGroup 0 = some (gkey 0 0, grp) ∧ grp.half = none ∧ grp.cont = some testPc) ∧ testPc.toNat ∈ (clockLab (some testPc)).readyPcs 0 0 ∧
    PlainLine (clockLab (some testPc)) 0 1 testPc.toNat ∧
    (∃ grp, (clockLab none).chooseGroup 0 = some (gkey 0 0, grp) ∧ grp.cont = none ∧ ∀ q ∈ (clockLab none).readyPcs 0 0, PlainLine (clockLab none) 0 1 q ∧ grp.passed.getD q 0 < 256) ∧
    ((codePage (clockLab none)).xlate 0 1 (0xC00 * 64) .fetch = .hit 0x6_0000 .coh 0x6_0343 ∧ (codePage (clockLab none)).quietLine (lineNo 0x6_0000) = true ∧
      Idle (codePage (clockLab none)) (lineNo 0x6_0000) ∧ isHbm (lineNo 0x6_0000) = true ∧ homeDie (lineNo 0x6_0000) = dieOf 0 ∧ ((codePage (clockLab none)).core 0).l1.cells = [] ∧ (codePage (clockLab none)).mem.poison = []) ∧
    (clockLab none).xlate 0 1 (31 * 2 ^ 52) .fetch = .fault (.access (31 * 2 ^ 52) 7 6) ∧
    (Walks 0x2_0000 ∧ (tables (clockLab none)).walk 1 0x2_0000 = .leaf 3 0x13_0010 0x4_08C3 ∧ (tables (clockLab none)).judge 3 0x4_08C3 0x2_0000 (Acc.ofCode 0) = none ∧
      (tables (clockLab none)).mem.mons = []) ∧
    (Walks 0x3_0000 ∧ (tables (clockLab none)).walk 1 0x3_0000 = .fault 3 0 ∧ ∃ v, (tables (clockLab none)).threads.get? 0 = some v ∧ v.status = .ready ∧ v.pc = testPc) ∧
    firstPair ((clockLab none).mergeable 0 0) ((clockLab none).groups.cells.filter fun p => p.1 / 64 == 0 && decide (p.1 % 64 < 32)) = none ∧
    (twoGroups.groups.rising = true ∧ twoGroups.mergeable 0 ((twoGroups.core 0).clk / 64) (0, { crew := 1, gix := 0 }) (1, { crew := 1, gix := 1 }) = true) ∧
    (((withLine (clockLab none)).core 0).l1.cells.find? (fun p => decide (((withLine (clockLab none)).core 0).scrub ≤ p.1)) = some (l1Key 1 0x2_0000, pageLine)) := by
  have h1 : (clockLab (some testPc)).readyPcs 0 0 = [0x1_0000] := readyPcs_one (by decide)
  have h2 : (clockLab none).readyPcs 0 0 = [0x1_0000] := readyPcs_one (by decide)
  refine ⟨by decide, by decide, by decide, ⟨{ crew := 1, gix := 0, cont := some testPc }, by decide, by decide, by decide⟩, ?_, ⟨testLine (encode (.nop bare)).toNat, by decide, by decide, by decide⟩,
    ⟨{ crew := 1, gix := 0 }, by decide, by decide, ?_⟩, ⟨by decide, by decide, ⟨by decide, by decide⟩, by decide, by decide, by decide, by decide⟩, by decide, ⟨⟨by decide, by decide, by decide⟩, by decide⟩,
    ⟨⟨by decide, by decide, by decide⟩, by decide, _, rfl, rfl, rfl⟩, by decide, by decide, by decide⟩
  · rw [h1]; decide
  · rw [h2]; intro q hq; rw [List.mem_singleton.mp hq]; exact ⟨⟨testLine (encode (.nop bare)).toNat, by decide, by decide, by decide⟩, by decide⟩

/-- An empty core 0, ungated, with a queued crew 7 of two threads and one granule of scratchpad; the device is otherwise as after reset. -/
def queuedCrew : Crew := { ctx := 1, core := 0, entry := testPc, cn := 2, gset := 7, crec := { k := 2, spad := 8 }, args := [List.replicate 64 5] }
def queueing (c : Crew) : State :=
  { State.reset with
    due := []
    crews := ⟨[(7, c)]⟩
    cores := ⟨[(0, { State.reset.core 0 with gated := false, queue := [7], fetch := ⟨[(fetchKey 1 0x1_0000, .line (testLine (encode (.nop bare)).toNat))]⟩ })]⟩
    fw := { State.reset.fw with ctxs := ⟨[(1, { asid := 1, root := 0 })]⟩ } }

/-- The crew is granted, its only thread stands in slot 0, whose block's argument line is mapped. -/
def grantedCrew : Crew := { queuedCrew with phase := .zeroed, cn := 1, live := 1, granules := [0], released := false }
def granted : State :=
  { queueing grantedCrew with
    threads := ⟨[(0, { crew := 7, group := 0, lane := 0, tix := 0, pc := testPc })]⟩
    mem := { State.reset.mem with tlb := ⟨[(leafKey 0 1 3 (tlsOf 0 + 0x440), { level := 3, entry := 0x7_0EC3, addr := 0x5000, tag := leafTag 1 3 (tlsOf 0 + 0x440) })]⟩ } }

theorem meets_crewsStart :
    ((queueing queuedCrew).crews.get? 7 = some queuedCrew ∧ ((queueing queuedCrew).core 0).queue = [7] ∧ ((queueing queuedCrew).core 0).slots = 0 ∧
      ((queueing queuedCrew).core 0).skipped = false ∧ ((queueing queuedCrew).core 0).skip < ((queueing queuedCrew).core 0).ageLimit ∧ queuedCrew.phase = .queued ∧
      queuedCrew.edge = 0 ∧ queuedCrew.gathers = false ∧ queuedCrew.cont = none ∧ queuedCrew.gen = 0 ∧ (queueing queuedCrew).fitsNow 0 queuedCrew = true ∧ (queueing queuedCrew).returning 0 = []) ∧
    ((queueing { queuedCrew with phase := .draining, granules := [3] }).core 0).l1.cells = [] ∧
    ((queueing grantedCrew).updCore 0 fun c => { c with inflight := [1] }).core 0 ≠ (queueing grantedCrew).core 0 ∧
    (granted.crews.get? 7 = some grantedCrew ∧ grantedCrew.phase = .zeroed ∧ (granted.core 0).inflight = [] ∧ grantedCrew.spawner = false ∧
      granted.fetched 0 1 0x1_0000 = some (.line (testLine (encode (.nop bare)).toNat)) ∧ granted.threadsOf 7 = [(0, { crew := 7, group := 0, lane := 0, tix := 0, pc := testPc })] ∧
      granted.xlate 0 1 (tlsOf 0 + 0x440) .store = .hit 0x7_0440 .coh 0x7_0EC3 ∧ granted.savedIn 0 1 [slotOf 0] = [] ∧ granted.quietLine (lineNo 0x7_0440) = true ∧
      Idle granted (lineNo 0x7_0440) ∧ granted.mem.mons = [] ∧ isHbm (lineNo 0x7_0440) = true ∧ homeDie (lineNo 0x7_0440) = dieOf 0 ∧ (granted.core 0).l1.cells = []) := by
  refine ⟨by decide, by decide, by decide, ⟨by decide, by decide, by decide, by decide, by decide, by decide, by decide, by decide, by decide, ⟨by decide, by decide⟩, by decide, by decide, by decide, by decide⟩⟩

/-- A crew that may be stolen is queued at core 0; core 1 is ungated and empty. -/
def stealing : State :=
  { queueing { queuedCrew with place := .anyc, crec := { k := 2 } } with
    cores := ⟨[(0, { State.reset.core 0 with gated := false, queue := [7] }), (2, { State.reset.core 2 with gated := false })]⟩ }

/-- The same crew wants a granule, and the thief's are lent to another crew. -/
def unfitting : State :=
  { stealing with
    crews := stealing.crews.adjust 7 fun c => { c with crec := { c.crec with spad := 8 } }
    cores := stealing.cores.adjust 2 fun c => { c with lentOut := List.range 56 } }

/-- A continuation of core 0 whose frame's line lies at 0x4_0000. -/
def continuing : State := queueing { queuedCrew with phase := .draining, place := .anyc, crec := {}, cont := some (.mem 0x4_000C, 1) }

/-- Every group slot of core 0 holds a group of one thread that waits for a monitor, and a queued crew wants a group slot. -/
def crowded : State :=
  { queueing { queuedCrew with crec := {} } with
    groups := ⟨(List.range 32).map fun i => (i, { crew := 1, gix := i })⟩
    threads := ⟨(List.range 32).map fun i => (i, { crew := 1, group := i, lane := 0, tix := 32 * i, pc := testPc, status := .waiting .monitor })⟩ }
/-- A shelved group, beside an empty slot. -/
def shelved : State := { State.reset with groups := ⟨[(34, { crew := 1, gix := 0 })]⟩ }

/-- A crew queued 8192 clocks ago, before its core's clock went over 2^64. -/
def waitedCrew : Crew := { queuedCrew with place := .aff, enq := 2 ^ 64 - 8192 }

set_option maxRecDepth 4096 in
theorem meets_crewsMove :
    ((∀ p ∈ stealing.crews.cells, p.2.phase = .queued → p.2.edge = 0) ∧ (stealing.core 2).gated = false ∧ stealing.nextCrew 2 = none ∧
      ∃ c, stealing.stealChoice 2 = some (7, c) ∧ stealing.fitsNow 2 c = true ∧ stealing.crews.get? 7 = some c ∧ c.cont = none ∧ c.core ≠ 2) ∧
    (∃ c, unfitting.stealChoice 2 = some (7, c) ∧ unfitting.fitsNow 2 c = false ∧ unfitting.nextCrew 2 = none) ∧
    (State.reset.stealChoice 2 = none) ∧
    (∃ c, continuing.crews.get? 7 = some c ∧ c.cont = some (.mem (0x4_0000 + 12), 1) ∧ c.phase = .draining ∧ c.core = 0 ∧ c.home = 0 ∧ continuing.freeThreads 0 1 = [0] ∧
      continuing.freeGroups 0 1 = [0] ∧ continuing.savedIn 0 c.ctx [0] = [] ∧ 0x4_0000 % 128 = 0 ∧ continuing.quietLine (lineNo 0x4_0000) = true ∧
      Idle continuing (lineNo 0x4_0000) ∧ continuing.crewFrame c = none ∧ continuing.mem.mons = []) ∧
    State.reset.mustShelve 0 = false ∧
    (crowded.mustShelve 0 = true ∧ leastBy (fun p => p.2.idle.getD (2 ^ 64)) (crowded.groups.cells.filter fun p => p.1 / 64 == 0 && decide (p.1 % 64 < 32)) =
        some (gkey 0 0, { crew := 1, gix := 0 }) ∧ crowded.groups.get? (gkey 0 0) = some { crew := 1, gix := 0 } ∧ (∀ p ∈ crowded.threads.cells, crowded.loadBound p.2 = false) ∧
      (List.range 32).find? (fun i => !crowded.groups.has (gkey 0 (32 + i))) = some 0) ∧
    (shelved.groups.get? (gkey 0 (32 + 2)) = some { crew := 1, gix := 0 } ∧ shelved.freeGroups 0 1 = [0]) ∧
    ((queueing queuedCrew).agePassed queuedCrew = false ∧ (queueing waitedCrew).agePassed waitedCrew = true ∧ queuedCrew.phase = .queued ∧ grantedCrew.phase ≠ .queued ∧
      (queueing waitedCrew).crews.get? 7 = some waitedCrew) := by
  refine ⟨⟨by decide, by decide, by decide, { queuedCrew with place := .anyc, crec := { k := 2 } }, by decide, by decide, by decide, by decide, by decide⟩,
    ⟨{ queuedCrew with place := .anyc, crec := { k := 2, spad := 8 } }, by decide, by decide, by decide⟩, by decide,
    ⟨_, rfl, by decide, by decide, by decide, by decide, by decide, by decide, by decide, by decide, by decide, ⟨by decide, by decide⟩, by decide, by decide⟩, by decide,
    ⟨by decide, by decide, by decide, by decide, by decide⟩, by decide, by decide, by decide⟩

/-- A crew of core 0 whose threads have ended, with its frame at 0x4_0000. -/
def endedCrew : Crew := { ctx := 1, core := 0, entry := testPc, cn := 1, gset := 7, phase := .finished, frm := BitVec.ofNat 64 (frameHandle 0 0), edge := 2, cores := [0] }
def endingKey : Nat := frameKey 1 (frameHandle 0 0)
def ending : State :=
  { queueing endedCrew with
    fw := { (queueing endedCrew).fw with frames := ⟨[(endingKey, { ga := 0x4_0000, owner := some 1024 })]⟩ } }

theorem meets_crewsEnd :
    (∀ c ∈ [{ endedCrew with released := false, granules := [3] }], c.live = 0 ∧ c.released = false ∧ (queueing c).crews.get? 7 = some c ∧ (queueing c).opsOpen 7 = false ∧
      ({ queueing c with ops := ⟨[(5, { opOf .cpy .running with crew := 7 })]⟩ }).opsOpen 7 = true) ∧
    (ending.crews.get? 7 = some endedCrew ∧ endedCrew.phase = .finished ∧ endedCrew.conts = 0 ∧ ending.opsOpen 7 = false ∧ endedCrew.released = true ∧
      endedCrew.cores.any (fun x => ending.due.any (coreWriteOf x (2 ^ 64))) = false ∧ ending.leftCodes 7 = 0 ∧ endedCrew.cont = none ∧
      ending.crewFrame endedCrew = some (endingKey, { ga := 0x4_0000, owner := some 1024 }) ∧ endedCrew.edge = 2 ∧ endedCrew.seen = bitsAt (memNum ending 0x4_0008 4) 16 10 ∧ (∀ x ∈ endedCrew.cores, ending.dieQuiet (dieOf x) = true) ∧
      ending.quietLine (lineNo 0x4_0000) = true ∧ Idle ending (lineNo 0x4_0000) ∧ ending.mem.mons = [] ∧ ending.threads.cells = []) ∧
    (queueing endedCrew).crewFrame endedCrew = none := by
  refine ⟨by decide, ⟨by decide, by decide, by decide, by decide, by decide, by decide, by decide, by decide, by decide, by decide, by decide, by decide, by decide, ⟨by decide, by decide⟩, by decide, by decide⟩, by decide⟩

/-- A thread that is being sent, and another crew of the cluster with the handle 0x4001, four queues and one entry in queue 0. -/
def remoteLab : State :=
  { withHandler (lab (.nop bare) []) with
    threads := (withHandler (lab (.nop bare) [])).threads.adjust 0 fun t => { t with status := .waiting .sending }
    crews := (lab (.nop bare) []).crews.put 2 { ctx := 1, core := 1, entry := testPc, cn := 1, gset := 2, phase := .running, gen := 1, crec := { k := 1, q := 4 }, queues := ⟨[(0, { entries := [(9, 0)] })]⟩ } }
/-- A write of the core is on its way. -/
def writing (s : State) : State := { s with cores := s.cores.adjust 0 fun c => { c with inflight := [1] } }
/-- The thread waits for a block. -/
def wantsBlock : State :=
  { lab (.nop bare) [] with
    threads := (lab (.nop bare) []).threads.adjust 0 fun t => { t with status := .waiting .regx }
    cores := (lab (.nop bare) []).cores.adjust 0 fun c => { c with xqueue := [0] } }

theorem meets_remoteArrivals :
    (∃ v k d, remoteLab.threads.get? 0 = some v ∧ v.status = .waiting .sending ∧ remoteLab.coreQuiet (coreOf 0) (2 ^ 64) = true ∧ ¬NoHandler v ∧
      remoteLab.crewNamed (remoteLab.ctxOf v) (clusterOf (coreOf 0)) 0x8000 = none ∧ remoteLab.crewNamed (remoteLab.ctxOf v) (clusterOf (coreOf 0)) 0x4001 = some (k, d) ∧
      remoteLab.crews.get? k = some d ∧ k ≠ v.crew ∧ remoteLab.popOwes k 0 (coreOf 0) = false ∧ d.remoteSaved = [] ∧ d.phase ≠ .saved ∧ d.nbars.getD 3 {} = {} ∧ 2 < d.crec.q ∧ (d.queues.getD 2 {}).entries.length < 16 ∧
      (d.queues.getD 0 {}).entries = [(9, 0)] ∧ (d.queues.getD 0 {}).pushers = [] ∧ (d.queues.getD 0 {}).poppers = []) ∧
    (writing remoteLab).coreQuiet (coreOf 0) (2 ^ 64) = false ∧
    (∃ v x, (wantsBlock.core 0).xqueue = [0] ∧ wantsBlock.threads.get? 0 = some v ∧ v.status = .waiting .regx ∧ wantsBlock.groups.get? (gkey 0 v.group) = some x ∧ x.block = false ∧
      wantsBlock.blockFree 0 v.group = true) ∧
    (∃ d, (persisting (lab (.nop bare) [])).disp? 1 0 0 = some d ∧ d.wait = [] ∧ d.coords = [5]) := by
  refine ⟨⟨_, 2, _, rfl, by decide, by decide, handled (by decide), by decide, rfl, rfl, by decide, by decide, by decide, by decide, by decide, by decide, by decide, by decide, by decide, by decide⟩, by decide,
    ⟨_, _, by decide, rfl, by decide, rfl, by decide, by decide⟩, ⟨_, rfl, by decide, by decide⟩⟩

/-! #### Pre-emption, contexts, pages and firmware -/

/-- A running queue's block: its ring is at 0x2_0000, its tail word at 0x2_1000 and its head word at 0x2_1008. -/
def ring : QCopy := { base := 0x2_0000, taila := 0x2_1000, heada := 0x2_1008, logn := 3, state := 1, asid := 1 }

/-- The crew of `lab`, quiet, in a phase. -/
def phased (ph : Phase) (disc : Bool) : State := { lab (.nop bare) [] with cur := none, crews := (lab (.nop bare) []).crews.adjust 1 fun c => { c with phase := ph, discard := disc } }
/-- A saved crew of one thread in slot 0. -/
def savedCrew : Crew := { queuedCrew with phase := .saved, cn := 1, crec := {}, saveGroups := ⟨[(0, { crew := 7, gix := 0 })]⟩ }
def savedLab : State := { queueing savedCrew with threads := ⟨[(savedKey 7 0, { crew := 7, group := 0, lane := 0, tix := 0, pc := testPc })]⟩ }

set_option maxRecDepth 16384 in
theorem meets_preemption :
    (∀ d ∈ [true, false], ∀ ph ∈ [Phase.running, .saving, .queued], ∃ c, (phased ph d).crews.get? 1 = some c ∧ c.phase = ph ∧ c.discard = d) ∧
    ((phased .saving true).dropGiving 1).crewQuiet 1 = true ∧ (phased .saving false).crewQuiet 1 = true ∧ (phased .saving false).threads.rising = true ∧
    (∀ p ∈ (phased .saving false).threadsOf 1, coreOf p.1 = 0 ∧ (phased .saving false).loadBound p.2 = false) ∧
    ((queueing savedCrew).crews.get? 7 = some savedCrew ∧ savedCrew.phase = .saved ∧ (queueing savedCrew).threadsOf 7 = [] ∧ savedCrew.remoteSaved = []) ∧
    (savedLab.crews.get? 7 = some savedCrew ∧ savedLab.threadsOf 7 = [(savedKey 7 0, { crew := 7, group := 0, lane := 0, tix := 0, pc := testPc })] ∧ savedLab.threads.rising = true ∧
      savedKey 7 0 = savedKey 7 (slotOf (savedKey 7 0)) ∧ savedCrew.crec.spad = 0 ∧ savedLab.freeGroups 0 1 = [0] ∧
      (savedLab.groups.filter fun n g => n / 64 == savedCrew.core && g.block).size ≤ 16 ∧ savedLab.residents 0 ++ savedLab.residents (mate 0) = [] ∧
      savedLab.coreFor 0 savedCrew = true ∧ savedLab.coreFor (mate 0) savedCrew = true ∧ savedCrew.saveTls = FMap.empty ∧ savedCrew.saveSpad = [] ∧ savedCrew.saveMons = [] ∧ (∀ p ∈ savedLab.savedIn 0 1 [slotOf (savedKey 7 0)], p.1 = 7)) ∧
    savedLab.resumeSlots 0 [slotOf (savedKey 7 0)] = some [(0, 0)] := by
  refine ⟨?_, by decide, by decide, by decide, by decide, by decide, by decide, by decide⟩
  simp only [List.mem_cons, List.not_mem_nil, or_false, forall_eq_or_imp, forall_eq]
  exact ⟨⟨⟨_, rfl, rfl, rfl⟩, ⟨_, rfl, rfl, rfl⟩, ⟨_, rfl, rfl, rfl⟩⟩, ⟨⟨_, rfl, rfl, rfl⟩, ⟨_, rfl, rfl, rfl⟩, ⟨_, rfl, rfl, rfl⟩⟩⟩

/-- What an event's meaning makes due. -/
def dueAfter (o : Out) : List Instr := match o with | .next t => t.due | _ => []
/-- A crew that is not discardable is saved instead (R288, R333). -/
theorem test_discard_becomes_save : (dueAfter (execDiscardPreemption 1 (phased .running false))).contains (.savePreemption 1) = true ∧
    (dueAfter (execDiscardPreemption 1 (phased .running true))).contains (.discardPreemption 1) = true := by decide
/-- A crew queued again after a discard keeps its handle, so that a remote arrival finds it (R288, R320). -/
theorem test_requeued_handle : ((remoteLab.updCrew 2 Crew.again).crewNamed 1 0 0x4001).isSome = true ∧
    (((remoteLab.updCrew 2 Crew.again).received 2).crews.get? 2).map (·.remote) = some true := by decide

/-- A firmware core runs an event that performs an action. -/
def fwRuns (i : Instr) (step : Nat) (s : State) : State := s.updFw fun w => { w with running := ⟨[(2, { num := 1, act := some i, step := step })]⟩ }
/-- A thread waits for its context to get the ACC of core 0, which the context owns. -/
def wanting : State :=
  fwRuns (.matrixFirstUse 0) 0 { lab (.nop bare) [] with
    threads := (lab (.nop bare) []).threads.adjust 0 fun t => { t with status := .waiting (.firstUse [0]) }
    cores := (lab (.nop bare) []).cores.adjust 0 fun c => { c with mown := 1 } }

theorem meets_contextsEndAndSwitch :
    State.reset.ctx? 9 = none ∧ (∃ x, (lab (.nop bare) []).ctx? 1 = some x ∧ x.ended = false) ∧
    ((lab (.nop bare) []).ctx? 1).isSome = true ∧ (∃ k x, (k, x) ∈ (lab (.nop bare) []).crews.cells ∧ x.ctx = 1 ∧ x.phase = .running) ∧
    (∃ c, savedLab.ctx? 1 = some c ∧ savedLab.inTheWay 2 1 c = [] ∧ savedLab.tagQuiet (1 - savedLab.curTag) = true) ∧
    (∃ e v, wanting.fwRunning (.matrixFirstUse 0) = some (2, e) ∧ wanting.threads.find? (fun _ t => wanting.wantsMen 0 t) = some (0, v) ∧ wanting.threads.get? 0 = some v ∧
      (wanting.core 0).macc = [] ∧ v.status = .waiting (.firstUse [0]) ∧ wanting.ctxOf v ≠ 0 ∧ (wanting.core 0).mown = wanting.ctxOf v ∧
      ((wanting.updCore 0 fun c => { c with macc := [5] }).core 0).macc ≠ []) := by
  refine ⟨by decide, ⟨_, rfl, rfl⟩, by decide, ⟨1, _, .head _, rfl, rfl⟩, ⟨_, rfl, by decide, by decide⟩, ⟨_, _, rfl, rfl, rfl, by decide, by decide, by decide, by decide, by decide⟩⟩

/-- Only the context's table, at `tables`, and a running event. -/
abbrev moving (i : Instr) (step : Nat) : State := fwRuns i step (tables { State.reset with due := [] })

theorem fwRuns_runs {s : State} (i : Instr) (step : Nat) (h : s.mem.mons = [] ∧ s.cores.cells = [] ∧ s.mem.rdc.cells = [] ∧ s.due = [] ∧ s.mem.held = []) :
    FwRuns (fwRuns i step s) i 2 { num := 1, act := some i, step := step } :=
  ⟨by simp [State.fwRunning, fwRuns, State.updFw, FMap.find?], h.1, h.2.1, h.2.2.1, h.2.2.2.1, h.2.2.2.2⟩

set_option maxRecDepth 4096 in
theorem meets_pagesMove :
    ((moving (.shootdown 1 0x2_0000 65536) 0).fwRunning (.shootdown 1 0x2_0000 65536)).isSome = true ∧
    ((moving (.shootdown 1 0x2_0000 65536) 0).shootNow 1 0x2_0000 65536).shootQuiet 1 = true ∧
    (∀ step ∈ [0, 1], FwRuns (moving (.pageMigration 1 0x2_0000 9) step) (.pageMigration 1 0x2_0000 9) 2 { num := 1, act := some (.pageMigration 1 0x2_0000 9), step := step }) ∧
    (moving (.pageMigration 1 0x2_0000 9) 0).ctxOfAsid 1 = some (1, { asid := 1, root := 0x10_0000 }) ∧
    entryAt (moving (.pageMigration 1 0x2_0000 9) 0).mem.bytes 0x2_0000 3 0 0x10_0000 = some 0x13_0010 ∧
    (Config.exposed 4 = false → mayMigrate 0x4_08C3 9 = true) ∧ mayMigrate 0 9 = false ∧
    (moving (.pageMigration 1 0x2_0000 9) 1).mem.homes.cells = [] ∧ Memory.wf (moving (.pageMigration 1 0x2_0000 9) 1).mem.bytes = true ∧
    ((moving (.frameModeChange 4 3) 0).fwRunning (.frameModeChange 4 3)).isSome = true ∧
    (moving (.frameModeChange 4 1) 0).mappings 4 = [{ asid := 1, addr := 0x13_0010, entry := 0x4_08C3, va := 0x2_0000, n := 1, frame := 4 }] ∧
    (∀ step ∈ [0, 1], FwRuns (moving (.frameModeChange 4 1) step) (.frameModeChange 4 1) 2 { num := 1, act := some (.frameModeChange 4 1), step := step }) := by
  refine ⟨by decide, by decide, ?_, by decide, by decide, fun h => by simp [mayMigrate, movable, show ptePfn 0x4_08C3 = 4 from by decide, h]; decide, by decide, by decide, by decide, by decide, by decide, ?_⟩ <;>
  · intro step _; exact fwRuns_runs _ step (by decide)

/-- The parked thread of `lab`, whose event firmware core 3 runs. -/
def parkedLab (aff : Bool) : State :=
  let s := withHandler (lab (.nop bare) [])
  { s with
    threads := s.threads.adjust 0 fun t => { t with status := .parked { code := 0x08, tval := 0x2_0000, page := 2, aff := aff } }
    fw := { s.fw with running := ⟨[(3, { num := 1, tid := some 0 })]⟩ } }

theorem meets_firmwareFirst : ∃ v, (parkedLab false).threads.get? 0 = some v ∧ v.status = .parked { code := 0x08, tval := 0x2_0000, page := 2 } ∧
    (parkedLab false).fw.running.find? (fun _ e => e.tid == some 0) = some (3, { num := 1, tid := some 0 }) ∧ ¬NoHandler v ∧
    ((parkedLab false).updFw fun w => { w with running := FMap.empty }).fw.running.find? (fun _ e => e.tid == some 0) = none ∧
    beyondTls tlsEnd = true ∧ beyondTls 0x2_0000 = false ∧ (parkedLab false).migrating 1 tlsEnd = false := by
  refine ⟨_, rfl, by decide, by decide, handled (by decide), by decide, by decide, by decide, by decide⟩

/-- Queue 2 runs; firmware core 4 has run the event of its LAUNCH packet to the third expiry. -/
def thirdExpiry : State :=
  { State.reset with
    fw := { State.reset.fw with queues := ⟨[(2, { ctx := 1 })]⟩, running := ⟨[(4, { num := 1, queue := some 2, act := some (.packetLaunch 2), expiries := 2 })]⟩ } }
/-- Queue 2 runs, and a halt of it with MALFORMED is the next event. -/
def halting : State :=
  { State.reset with
    dev := { State.reset.dev with step := 8 }
    fw := { State.reset.fw with queues := ⟨[(2, { ctx := 1, a := { ring with seq := 5 } })]⟩, events := [{ num := 1, queue := some 2, halt := some (2, 0, 7) }] } }
/-- A device that has come up, with one event in the queue and one that waits. -/
def eventful : State :=
  { State.reset with
    dev := { State.reset.dev with step := 8 }
    fw := { State.reset.fw with events := [{ num := 1, act := some (.shootdown 1 0 65536) }], waiting := ⟨[(6, { num := 6, act := some (.frameModeChange 4 1) })]⟩ } }

theorem meets_firmwareEvents :
    (State.reset.fwRunning (.tailWordWake 2) = none ∧ State.reset.fw.events = [] ∧ State.reset.fw.waiting.cells = []) ∧
    (eventful.fw.running.get? 3 = none ∧ 8 ≤ eventful.dev.step ∧ eventful.nextEvent = some { num := 1, act := some (.shootdown 1 0 65536) }) ∧
    State.reset.dev.step < 8 ∧ (eventful.fw.waiting.get? 6).isSome = true ∧
    (∃ e x, thirdExpiry.fw.running.get? 4 = some e ∧ 2 ≤ e.expiries ∧ e.act = some (.packetLaunch 2) ∧ e.queue = some 2 ∧ thirdExpiry.queue? 2 = some x ∧ x.cb.seq ≠ e.num) ∧
    (∃ e x, halting.fw.running.get? 3 = none ∧ 8 ≤ halting.dev.step ∧ halting.nextEvent = some e ∧ e.halt = some (2, 0, 7) ∧ e.queue = some 2 ∧ halting.queue? 2 = some x ∧ x.cb.state = 1 ∧ x.cb.seq ≠ e.num) := by
  refine ⟨by decide, by decide, by decide, by decide, ⟨_, _, rfl, by decide, by decide, by decide, rfl, by decide⟩, ⟨_, _, by decide, by decide, rfl, by decide, by decide, rfl, by decide, by decide⟩⟩

/-! #### Queues, launches, the mailbox and power -/

/-- Queue 2 of context 1 has a page, which core 0 sees at 0x4_0000; firmware core 3 runs an event of it. -/
def queueState (x : Queue) (i : Option Instr) (bytes : Memory) : State :=
  { State.reset with
    due := []
    fw := { State.reset.fw with ctxs := ⟨[(1, { asid := 1, root := 0 })]⟩, queues := ⟨[(2, x)]⟩, running := ⟨[(3, { num := 1, act := i, queue := some 2 })]⟩ }
    mem := { State.reset.mem with bytes := bytes, tlb := ⟨[(leafKey 0 1 3 0x2_0000, { level := 3, entry := 0x4_0EC3, addr := 0x5000, tag := leafTag 1 3 0x2_0000 })]⟩ } }

theorem wordAt {x : Queue} {i : Option Instr} {m : Memory} {va ga : Nat} {a : Acc} (h1 : va / 2 ^ 52 ≠ 31)
    (h2 : (queueState x i m).xlate ((queueState x i m).queueOp 2 x).core ((queueState x i m).opAsid ((queueState x i m).queueOp 2 x)) va a = .hit ga .coh 0x4_0EC3)
    (h3 : ga % 8 = 0 ∧ isHost (lineNo ga) = false) : WordAt (queueState x i m) 2 x va a ga :=
  ⟨h1, ⟨_, _, h2⟩, h3, rfl, ⟨rfl, rfl⟩, rfl, rfl, rfl⟩

/-- A queue with no packet in hand, at head 0 with tail n. -/
def idleQueue (n : Nat) : Queue := { ctx := 1, a := ring, tail := n }
/-- The tail word holds n. -/
def tailIs (n : Nat) : Memory := Memory.writeAt FMap.empty 0x4_1000 (withOff 0 (bytesOf 8 n))

theorem meets_tailAndPrefetch :
    (∀ n ∈ [0, 3, 9], (queueState (idleQueue 0) (some (.tailWordWake 2)) (tailIs n)).fwRunning (.tailWordWake 2) = some (3, { num := 1, act := some (.tailWordWake 2), queue := some 2 }) ∧
      (queueState (idleQueue 0) (some (.tailWordWake 2)) (tailIs n)).queue? 2 = some (idleQueue 0) ∧ (queueState (idleQueue 0) (some (.tailWordWake 2)) (tailIs n)).queueRuns (idleQueue 0) = true ∧
      (queueState (idleQueue 0) (some (.tailWordWake 2)) (tailIs n)).queueHeld 2 = false ∧ memNum (queueState (idleQueue 0) (some (.tailWordWake 2)) (tailIs n)) 0x4_1000 8 = n) ∧
    WordAt (queueState (idleQueue 0) (some (.tailWordWake 2)) (tailIs 3)) 2 (idleQueue 0) (idleQueue 0).cb.taila .load 0x4_1000 ∧ (idleQueue 0).cb.seq ≠ 1 ∧
    ((idleQueue 3).levels = [] ∧ ({ idleQueue 3 with cur := some [0] }).nextRead = some 0x2_0040 ∧ WordAt (queueState { idleQueue 3 with cur := some [0] } none FMap.empty) 2
      { idleQueue 3 with cur := some [0] } 0x2_0040 .load 0x4_0040 ∧ 0x4_0040 % 64 = 0) ∧
    (∀ p ∈ [[0], [9]], ({ idleQueue 1 with fetched := [p] }).nextRead = none ∧ ({ idleQueue 1 with fetched := [p] }).abort = false) ∧
    pktType [0] ≤ 8 ∧ pktBad [0] = false ∧ 8 < pktType [9] ∧ (queueState { idleQueue 1 with fetched := [[9]] } none FMap.empty).fwRunning (pktStep 2 (pktType [9])) = none := by
  refine ⟨by decide, wordAt (by decide) (by decide) (by decide), by decide, ⟨by decide, by decide, wordAt (by decide) (by decide) (by decide), by decide⟩, by decide, by decide, by decide, by decide, by decide⟩

/-- A queue with a packet in hand. -/
def handQueue (p : List Nat) : Queue := { idleQueue 1 with cur := some p }

theorem inHand (p : List Nat) (i : Option Instr) (m : Memory) (type : Nat) (h : pktType p = type) (h' : (queueState (handQueue p) i m).packetEvent 2 ≠ some 0) : InHand (queueState (handQueue p) i m) 2 (handQueue p) p type :=
  ⟨rfl, rfl, rfl, rfl, h, fun _ h1 h2 => h' (h1.trans (congrArg some h2))⟩

theorem meets_packets :
    (∀ type ∈ [0, 1, 2, 3, 4, 5, 6, 7, 8], InHand (queueState (handQueue [type, 0x2_0800, 7]) none FMap.empty) 2 (handQueue [type, 0x2_0800, 7]) [type, 0x2_0800, 7] type) ∧
    (∀ type ∈ [3, 5, 8], (queueState (handQueue [type]) none FMap.empty).earlierOpen 2 (handQueue [type]) = false) ∧
    (queueState { handQueue [3] with copies := [5] } none FMap.empty).earlierOpen 2 { handQueue [3] with copies := [5] } = true ∧
    ((handQueue [6]).levels.length < 4 ∧ 4 ≤ ({ handQueue [6] with levels := List.replicate 4 { addr := 0, count := 1 } }).levels.length) ∧
    (∀ a ∈ [Acc.load, .store, .atom], WordAt (queueState (handQueue [0x1_0003, 0x2_0800, 7]) none FMap.empty) 2 (handQueue [0x1_0003, 0x2_0800, 7]) (pq [0x1_0003, 0x2_0800, 7] 1) a 0x4_0800) ∧
    (pq [3, 0x2_0800, 7] 0).testBit 16 = false ∧ (pq [0x1_0003, 0x2_0800, 7] 0).testBit 16 = true ∧
    (∀ n ∈ [0, 5, 2 ^ 63], WordAt (queueState (handQueue [0x1_0002, 0x2_1000]) none (tailIs n)) 2 (handQueue [0x1_0002, 0x2_1000]) (pq [0x1_0002, 0x2_1000] 1) .load 0x4_1000 ∧
      memNum (queueState (handQueue [0x1_0002, 0x2_1000]) none (tailIs n)) 0x4_1000 8 = n) ∧ bitsAt (pq [0x1_0002, 0x2_1000] 0) 16 2 = 1 ∧
    (queueState (handQueue [4, 0, 0, 1]) (some (.packetCopy 2)) FMap.empty).fwRunning (.packetCopy 2) = some (3, { num := 1, act := some (.packetCopy 2), queue := some 2 }) ∧
    (queueState (handQueue [4, 0, 0, 1]) none FMap.empty).fwRunning (.packetCopy 2) = none ∧ (queueState (handQueue [6]) none FMap.empty).packetEvent 2 = none := by
  refine ⟨?_, by decide, by decide, by decide, ?_, by decide, by decide, ?_, by decide, by decide, by decide, by decide⟩
  · simp only [List.mem_cons, List.not_mem_nil, or_false, forall_eq_or_imp, forall_eq]
    refine ⟨?_, ?_, ?_, ?_, ?_, ?_, ?_, ?_, ?_⟩ <;> exact inHand _ _ _ _ rfl (by decide)
  · simp only [List.mem_cons, List.not_mem_nil, or_false, forall_eq_or_imp, forall_eq]
    exact ⟨wordAt (by decide) (by decide) (by decide), wordAt (by decide) (by decide) (by decide), wordAt (by decide) (by decide) (by decide)⟩
  · simp only [List.mem_cons, List.not_mem_nil, or_false, forall_eq_or_imp, forall_eq]
    exact ⟨⟨wordAt (by decide) (by decide) (by decide), by decide⟩, ⟨wordAt (by decide) (by decide) (by decide), by decide⟩, ⟨wordAt (by decide) (by decide) (by decide), by decide⟩⟩

/-- A lot table of one lot and one variant at 0x2_0000, with its image at 0x2_1000 (R448 to R451). -/
def tableHeader : List Byte :=
  bytesOf 32 (0x544C_585A + 1 * 2 ^ 32 + 1 * 2 ^ 64 + 1 * 2 ^ 112 + 0x2_1000 * 2 ^ 128 + 128 * 2 ^ 192 + 32 * 2 ^ 224) ++ bytesOf 32 (64 + 128 * 2 ^ 96 + 160 * 2 ^ 160)
def tableBody : List Byte := bytesOf 64 (1 + 1 * 2 ^ 96 + 4 * 2 ^ 160) ++ bytesOf 32 (64 + 1 * 2 ^ 32)
def tableRead : List Byte := [] ++ tableHeader ++ tableBody.take 64 ++ tableBody.drop 64 ++ headerLine
/-- The table that the bytes give. -/
def oneLot : LotTable := match tableFrom 0x2_0000 tableRead with | .ok t => t | .error _ => noLots
def isOk {α : Type} : Except Nat α → Bool
  | .ok _ => true
  | .error _ => false

theorem isOk_table {va : Nat} {b : List Byte} (h : isOk (tableFrom va b) = true) : tableFrom va b = .ok (match tableFrom va b with | .ok t => t | .error _ => noLots) := by
  cases h' : tableFrom va b with
  | ok t => rfl
  | error n => rw [h'] at h; cases h

set_option maxRecDepth 8192
set_option exponentiation.threshold 600

theorem oneLot_ok : tableFrom 0x2_0000 tableRead = .ok oneLot := isOk_table (by decide)

/-- The table's name: the first eight bytes of its bytes' SHA-384, little-endian (R452); the value is that of an implementation of FIPS 180-4 outside the model. -/
def tableHash : Nat := 1681104196656359601
set_option maxRecDepth 100000 in
theorem test_sha384 : oneLot.hash = tableHash := by decide +kernel

/-- A plan record of no moves for the table (R486, R487). -/
def planRecord : List Byte := bytesOf 28 (0x5250_585A + 1 * 2 ^ 32 + 96 * 2 ^ 192) ++ bytesOf 36 0 ++ bytesOf 32 (0x4C4D_585A + 1 * 2 ^ 32 + tableHash * 2 ^ 64)
def tableMem : Memory :=
  ((Memory.writeAt FMap.empty 0x4_0000 (withOff 0 (tableHeader ++ tableBody))).writeAt 0x4_1000 (withOff 0 headerLine)).writeAt 0x4_2000 (withOff 0 planRecord)

/-- A LAUNCH of plan 5 of that table, in pipelined mode, with 32 threads a crew, is in hand of queue 2, and a PLAN of number 6 in hand of queue 3; firmware runs both events. -/
def launchQueue : Queue := handQueue [0x1_0001, 0x2_0000, 5, 0x2_0800, 32]
def planQueue : Queue := handQueue [7, 0x2_2000, 6, 0x2_0000]
def onePlan : Plan := { ctx := 1, id := 5, calen := false, game := { noGame with table := oneLot, board := canonicalBoard oneLot 0 512, pcount := 512 } }
def launchLab : State :=
  let s := queueState launchQueue (some (.packetLaunch 2)) tableMem
  { s with
    sq := { s.sq with plans := ⟨[(4, onePlan)]⟩ }
    fw := { s.fw with queues := s.fw.queues.put 3 planQueue, running := s.fw.running.put 4 { num := 2, act := some (.packetPlan 3), queue := some 3 } }
    mem := { s.mem with tlb := s.mem.tlb.put (leafKey 0 1 3 (frameHandle 0 (arenaFrames - 1))) { level := 3, entry := 0x5_0EC3, addr := 0x5008, tag := leafTag 1 3 (frameHandle 0 (arenaFrames - 1)) } } }

theorem tableBytes_next {op : EngOp} {va n a k : Nat} {buf b : List Byte} {s : State} (h1 : tableNext va buf = some (a, k))
    (h2 : (s.unitRead1 op (a % 2 ^ 64) (min k (128 - a % 128))).2 = .ok b) :
    State.tableBytes op va (n + 1) buf s = State.tableBytes op va n (buf ++ b) (s.unitRead1 op (a % 2 ^ 64) (min k (128 - a % 128))).1 := by
  rw [State.tableBytes, h1]
  have h : s.unitRead1 op (a % 2 ^ 64) (min k (128 - a % 128)) = ((s.unitRead1 op (a % 2 ^ 64) (min k (128 - a % 128))).1, .ok b) := Prod.ext rfl h2
  show (match s.unitRead1 op (a % 2 ^ 64) (min k (128 - a % 128)) with
    | (t, .ok b) => State.tableBytes op va n (buf ++ b) t | (t, .wait) => (t, .wait) | (t, .flt f) => (t, .flt f)) = _
  rw [h]

theorem tableBytes_done {op : EngOp} {va n : Nat} {buf : List Byte} {s : State} (h : tableNext va buf = none) : State.tableBytes op va (n + 1) buf s = (s, .ok buf) := by
  rw [State.tableBytes, h]

/-- The state after an operation has read the header, the two parts of the body and the image's first line. -/
def read1 (op : EngOp) (s : State) : State := (s.unitRead1 op 0x2_0000 64).1
def read2 (op : EngOp) (s : State) : State := ((read1 op s).unitRead1 op 0x2_0040 64).1
def read3 (op : EngOp) (s : State) : State := ((read2 op s).unitRead1 op 0x2_0080 32).1
def tableState (op : EngOp) (s : State) : State := ((read3 op s).unitRead1 op 0x2_1000 64).1

theorem table_reads {op : EngOp} {s : State} (h1 : (s.unitRead1 op 0x2_0000 64).2 = .ok tableHeader) (h2 : ((read1 op s).unitRead1 op 0x2_0040 64).2 = .ok (tableBody.take 64))
    (h3 : ((read2 op s).unitRead1 op 0x2_0080 32).2 = .ok (tableBody.drop 64)) (h4 : ((read3 op s).unitRead1 op 0x2_1000 64).2 = .ok headerLine) :
    State.tableBytes op 0x2_0000 (2 ^ 22) [] s = (tableState op s, .ok tableRead) := by
  show State.tableBytes _ _ (4194299 + 1 + 1 + 1 + 1 + 1) _ _ = _
  refine (tableBytes_next (a := 0x2_0000) (k := 64) (by decide) h1).trans ?_
  refine (tableBytes_next (s := read1 op s) (a := 0x2_0040) (k := 96) (by decide) h2).trans ?_
  refine (tableBytes_next (s := read2 op s) (a := 0x2_0080) (k := 32) (by decide) h3).trans ?_
  refine (tableBytes_next (s := read3 op s) (a := 0x2_1000) (k := 64) (by decide) h4).trans ?_
  exact tableBytes_done (by decide)

/-- The states after the reads of the LAUNCH and of the PLAN: of the table, and then of the record. -/
def launchRead : State := tableState (launchLab.queueOp 2 launchQueue) launchLab
def planRead : State := tableState (launchLab.queueOp 3 planQueue) launchLab
def recordRead : State := (planRead.unitRead (planRead.queueOp 3 planQueue) 2 0x2_2000 96).1

/-- A launch of one lot, not yet enqueued. -/
def oneLaunch : Launch :=
  { queue := 2, ctx := 1, frame := frameHandle 0 7, tag := 0, mode := 1, prio := 2, argb := 0x2_0800, threads := 32, block := 1, calen := false, todo := [0],
    game := { noGame with table := { noLots with lots := [lotOf (1 + 1 * 2 ^ 96 + 4 * 2 ^ 160)], vars := [varOf (64 + 1 * 2 ^ 32) {}] }, pcount := 512
                          board := canonicalBoard { noLots with lots := [lotOf (1 + 1 * 2 ^ 96 + 4 * 2 ^ 160)], vars := [varOf (64 + 1 * 2 ^ 32) {}] } 0 512 } }
def launching (l : Launch) (joined : Bool) : State :=
  { State.reset with
    fw := { State.reset.fw with ctxs := ⟨[(1, { asid := 1, root := 0 })]⟩, launches := ⟨[(9, l)]⟩, frames := ⟨[(frameKey 1 (frameHandle 0 7), { ga := 0x5_0000, owner := none, joined := joined, launch := true })]⟩ } }
/-- A changeover whose plan is not yet in force, with quiet tags, or that has flipped. -/
def changing (c : Changeover) : State := { State.reset with sq := { State.reset.sq with changes := [c], plans := ⟨[(4, onePlan)]⟩ } }
def flipChange : Changeover := { ctx := 1, id := 5, plan := onePlan, retire := 0x2_0000, op := none, queue := none }

theorem meets_launches :
    (InHand launchLab 2 launchQueue [0x1_0001, 0x2_0000, 5, 0x2_0800, 32] 1 ∧ (launchLab.fwRunning (.packetLaunch 2)).isSome = true ∧
      State.tableBytes (launchLab.queueOp 2 launchQueue) 0x2_0000 (2 ^ 22) [] launchLab = (launchRead, .ok tableRead) ∧ launchRead.fw = launchLab.fw ∧ launchRead.sq = launchLab.sq ∧ tableFrom 0x2_0000 tableRead = .ok oneLot ∧
      launchRead.ctx? 1 = some { asid := 1, root := 0 } ∧ launchRead.planNamed 1 5 oneLot.hash = some (4, onePlan) ∧ onePlan.void = false ∧ onePlan.game.table.hash = oneLot.hash ∧
      launchFits { onePlan.game with table := oneLot } 32 (lotsOf { onePlan.game with table := oneLot } 1) = true ∧
      launchRead.homesSet { asid := 1, root := 0 } { onePlan.game with table := oneLot } = true ∧ highestFree (launchRead.framesTaken 1 0) arenaFrames = some (arenaFrames - 1) ∧
      launchRead.xlate 0 1 (frameHandle 0 (arenaFrames - 1)) .atom = .hit 0x5_FF80 .coh 0x5_0EC3 ∧ launchRead.quietLine (lineNo 0x5_FF80) true = true ∧ Idle launchRead (lineNo 0x5_FF80) ∧
      launchRead.mem.mons = [] ∧ 0x5_FF80 % 128 = 0 ∧ launchRead.fw.frames.cells = []) ∧
    ((launching oneLaunch false).fw.launches.get? 9 = some oneLaunch ∧ oneLaunch.lots = [] ∧ 0 ∈ oneLaunch.todo ∧ oneLaunch.ready 0 = true ∧
      (launching oneLaunch false).launchGa oneLaunch = 0x5_0000 ∧ (launching oneLaunch false).quietLine (lineNo 0x5_0000) true = true ∧ Idle (launching oneLaunch false) (lineNo 0x5_0000)) ∧
    (({ oneLaunch with todo := [], lots := [0], done := [0] } : Launch).ended = false ∧ (launching { oneLaunch with todo := [], lots := [0], done := [0] } true).launchJoined oneLaunch = true ∧
      (launching { oneLaunch with todo := [], lots := [0], done := [0], ended := true } true).signalsNext 2 = false) ∧
    (State.reset.tagQuiet (1 - State.reset.curTag) = true ∧ (changing flipChange).tagQuiet (1 - (changing flipChange).curTag) = true ∧ flipChange.tag = none ∧
      (launching { oneLaunch with tag := 1 } false).tagQuiet (1 - (launching { oneLaunch with tag := 1 } false).curTag) = false) ∧
    ((changing { flipChange with tag := some 0, old := some 4 }).tagQuiet 0 = true ∧ (changing { flipChange with tag := some 0, old := some 4 }).sq.plans.get? 4 = some onePlan) ∧
    (State.reset.quietOn 3 (7 % 2) = true ∧ (launching { oneLaunch with tag := 1 } false).quietOn 3 (7 % 2) = false) := by
  refine ⟨⟨⟨rfl, rfl, rfl, rfl, rfl, fun _ h => by cases h; decide⟩, by decide, table_reads rfl rfl rfl rfl, rfl, rfl, oneLot_ok, by decide, rfl, rfl, rfl, by decide, rfl, by decide, by decide, rfl, ⟨rfl, rfl⟩, rfl, by decide, rfl⟩,
    ⟨rfl, by decide, by decide, by decide, by decide, by decide, ⟨rfl, rfl⟩⟩, by decide, ⟨by decide, by decide, rfl, by decide⟩, ⟨by decide, rfl⟩, by decide⟩

/-- The PLAN packet of queue 3: its record is read, is that of the table, and replays to the canonical board. -/
theorem meets_launches_plan :
    InHand launchLab 3 planQueue [7, 0x2_2000, 6, 0x2_0000] 7 ∧ (launchLab.fwRunning (.packetPlan 3)).isSome = true ∧ launchLab.planPending 3 = false ∧
    State.tableBytes (launchLab.queueOp 3 planQueue) 0x2_0000 (2 ^ 22) [] launchLab = (planRead, .ok tableRead) ∧ planRead.fw = launchLab.fw ∧ planRead.sq = launchLab.sq ∧
    tableFrom 0x2_0000 tableRead = .ok oneLot ∧ (planRead.gameOf 1 { asid := 1, root := 0 } launchLab.sq.learned oneLot).broken (planRead.gameOf 1 { asid := 1, root := 0 } launchLab.sq.learned oneLot).board = 0 ∧
    planRead.unitRead (planRead.queueOp 3 planQueue) 2 0x2_2000 96 = (recordRead, .ok planRecord) ∧ recordHead (planRecord.take 64) = some (false, false, 96 + 8 * 0) ∧
    listHead (planRecord.drop 64) = some (tableHash, 0) ∧ tableHash = oneLot.hash ∧ State.readMoves (planRead.queueOp 3 planQueue) 0 (0x2_2000 + 96) recordRead = (recordRead, .ok []) ∧ recordRead.fw = launchLab.fw ∧ recordRead.sq = launchLab.sq ∧
    (planRead.gameOf 1 { asid := 1, root := 0 } launchLab.sq.learned oneLot).replay [] = some (planRead.gameOf 1 { asid := 1, root := 0 } launchLab.sq.learned oneLot) ∧
    bitsAt 6 0 16 ≠ 0 ∧ launchLab.planCount 1 < 256 ∧ launchLab.planNamed 1 (bitsAt 6 0 16) 0 = none := by
  refine ⟨⟨rfl, rfl, rfl, rfl, rfl, fun _ h => by cases h; decide⟩, by decide, by decide, table_reads rfl rfl rfl rfl, rfl, rfl, oneLot_ok, by decide +kernel, Prod.ext rfl rfl, by decide, by decide, test_sha384.symm, rfl, rfl, rfl, rfl, by decide, by decide, rfl⟩

/-- A command's envelope. -/
def mbox (reserved : Bool) : Mbox := ⟨3, reserved⟩
/-- A device that is up (or in a given step), with context 1, a halted queue 2 and a running queue 3; firmware takes up a command. -/
def upLab (i : Option Instr) (step evStep : Nat) : State :=
  { State.reset with
    due := []
    dev := { State.reset.dev with step := step, busy := some 3, routes := ⟨[(3, 2 ^ 5)]⟩ }
    fw := { State.reset.fw with
      ctxs := ⟨[(1, { asid := 1, root := 0x10_0000 })]⟩
      queues := ⟨[(2, { ctx := 1, a := { ring with state := 2, qval := 5 } }), (3, { ctx := 1, a := ring })]⟩
      running := ⟨[(5, { num := 1, act := i, step := evStep })]⟩ } }

theorem takenUp (i : Instr) (step : Nat) : TakenUp (upLab (some i) step 0) i (mbox false) :=
  ⟨⟨5, { num := 1, act := some i }, by simp [State.fwRunning, upLab, FMap.find?], rfl⟩, rfl⟩

def bootImage (size : Nat) : Image := { size := size, digest := 5, header := 64, svn := 1, raiseSvn := false, sigRsa := 0, sigSlh := 0 }

theorem meets_mailboxTakes :
    (mboxOf (.attest (mbox false) 7) = some (mbox false) ∧ (∀ size x, Instr.attest (mbox false) 7 ≠ .download (mbox false) size x)) ∧
    (State.reset.fwRunning (.attest (mbox false) 7) = none ∧ State.reset.dev.step ≤ 3) ∧
    ((upLab none 8 0).fwRunning (.attest (mbox false) 7) = none ∧ 4 ≤ (upLab none 8 0).dev.step ∧ (upLab none 8 0).dev.busy.isSome = true) ∧
    (eventful.fwRunning (.attest (mbox false) 7) = none ∧ eventful.dev.busy = none ∧ 4 ≤ eventful.dev.step) ∧
    (((upLab (some (.attest (mbox true) 7)) 8 0).fwRunning (.attest (mbox true) 7)).isSome = true ∧ (mbox true).reserved = true) ∧
    ((mbox false).reserved = false ∧ (4096 : Nat) ≤ 67108864 ∧ (bootImage 4096).header ≤ 4096 ∧ (32 : Nat) < (bootImage 4096).header) ∧
    TakenUp (upLab (some (.download (mbox false) 4096 (bootImage 4096))) 8 0) (.download (mbox false) 4096 (bootImage 4096)) (mbox false) := by
  refine ⟨⟨rfl, nofun⟩, by decide, by decide, by decide, by decide, by decide, takenUp _ _⟩

theorem meets_mailboxQueuesAndContexts :
    TakenUp (upLab (some (.queueStart (mbox false) 1 0 8 16 4)) 8 0) (.queueStart (mbox false) 1 0 8 16 4) (mbox false) ∧
    ((upLab none 8 0).liveCtx 1 = some { asid := 1, root := 0x10_0000 } ∧ (upLab none 8 0).liveCtx 2 = none ∧ queueArgs 0 8 16 4 = true ∧ queueArgs 0 8 16 3 = false ∧ queueArgs 0 8 16 17 = false) ∧
    ((∃ x, (upLab none 8 0).liveQueue 2 = some x ∧ x.cb.seq ≠ 1 ∧ x.cb.state = 2) ∧ (∃ x, (upLab none 8 0).liveQueue 3 = some x ∧ x.cb.state ≠ 2) ∧
      (upLab none 8 0).liveQueue 4 = none) ∧
    (upLab (some (.queueStart (mbox false) 1 0 8 16 4)) 8 0).mbEvent (.queueStart (mbox false) 1 0 8 16 4) = some 1 ∧
    (∀ n, (upLab (some (.queueStop (mbox false) 2)) 8 0).mbEvent (.queueStop (mbox false) 2) = some n → n = 1) ∧
    TakenUp (upLab (some (.queueStop (mbox false) 2)) 8 0) (.queueStop (mbox false) 2) (mbox false) ∧ TakenUp (upLab (some (.queueRestart (mbox false) 2)) 8 0) (.queueRestart (mbox false) 2) (mbox false) ∧
    (TakenUp (upLab (some (.contextCreate (mbox false) 9 0x20_0000 0 [])) 8 0) (.contextCreate (mbox false) 9 0x20_0000 0 []) (mbox false) ∧ 0x20_0000 % 256 = 0 ∧ 0x20_0008 % 256 ≠ 0 ∧ populated 0x20_0000 = true ∧
      (∀ p ∈ (upLab none 8 0).fw.ctxs.cells, p.2.asid ≠ 9)) ∧
    (TakenUp (upLab (some (.contextRelease (mbox false) 1)) 8 0) (.contextRelease (mbox false) 1) (mbox false) ∧
      (((upLab (some (.contextRelease (mbox false) 1)) 8 0).mbTake.endContext 1).shootNow 1 0 (2 ^ 57)).shootQuiet 1 = true ∧ (upLab none 8 0).ctx? 7 = none) := by
  refine ⟨takenUp _ _, by decide, ⟨⟨_, rfl, by decide, by decide⟩, ⟨_, rfl, by decide⟩, by decide⟩, by decide, fun n h => by cases h; rfl, takenUp _ _, takenUp _ _, ⟨takenUp _ _, by decide, by decide, by decide, by decide⟩, ⟨takenUp _ _, by decide, by decide⟩⟩

theorem natOf_zeros (l : List Byte) (h : ∀ b ∈ l, b = 0) : natOf l = 0 := by
  induction l with
  | nil => rfl
  | cons b r ih => simp [natOf, h b (by simp), ih fun c hc => h c (by simp [hc])]

theorem mem_withOff {p : Nat × Byte} {b : List Byte} : ∀ {n : Nat}, p ∈ withOff n b → p.2 ∈ b := by
  induction b with
  | nil => intro n h; cases h
  | cons x r ih =>
    intro n h
    rcases List.mem_cons.mp h with h | h
    · simp [h]
    · exact List.mem_cons_of_mem _ (ih h)

/-- Empty memory reads as a routing table of no routes. -/
theorem no_routes (table : Nat) : ∀ x ∈ State.reset.routeTable table, x < 2 ^ 18 := by
  intro x hx
  simp only [State.routeTable, List.mem_map] at hx
  obtain ⟨k, -, rfl⟩ := hx
  rw [natOf_zeros]
  · decide
  · intro b hb
    have hb := List.mem_of_mem_drop (List.mem_of_mem_drop (List.mem_of_mem_take hb))
    simp only [List.mem_flatMap, State.unitLine, List.mem_map] at hb
    obtain ⟨j, -, p, hp, rfl⟩ := hb
    have hr : (State.reset.rdcLine 0 (lineNo (hostGa table) + j)).st = none := rfl
    have h0 : p.2 = 0 := by
      obtain ⟨x, -, hx⟩ := List.mem_map.mp (show p.2 ∈ State.reset.lineBytes (lineNo (hostGa table) + j) from mem_withOff hp)
      rw [← hx]; rfl
    simp [hr, h0]

/-- Firmware takes up a MAP of the page at 0x2_0000 to frame 9. -/
def mappingLab : State := moving (.map (mbox false) 1 0x2_0000 65536 [⟨3, 0x2_0000, 0x9_08C3⟩]) 0

theorem meets_mailboxCommands :
    (∀ i ∈ [Instr.setPartition (mbox false) 1 0 64, .setPerm (mbox false) 1 1 2 3, .setPlayer (mbox false) 1 64 256, .setTiming (mbox false) 1 100 16 true, .map (mbox false) 1 0x2_0000 65536 [],
        .map (mbox false) 1 0x2_0000 65536 [⟨3, 0x2_0000, 0x4_08C3⟩], .readCounters (mbox false) 3, .checkpoint (mbox false) 3 0, .restore (mbox false) 3 0, .attest (mbox false) 7,
        .powerCap (mbox false) 1000, .setFabric (mbox false) 4 0], TakenUp (upLab (some i) 8 0) i (mbox false)) ∧
    ((upLab none 8 0).liveCtx 1).isSome = true ∧ (upLab none 8 0).squaresIdle 1 = true ∧ 2 ^ 56 < 2 ^ 56 + 1 ∧
    (mapArgs 0x2_0000 65536 [⟨3, 0x2_0000, 0x9_08C3⟩] = true ∧ mappingLab.mem.mons = [] ∧ mappingLab.mem.held = [] ∧ mappingLab.cores.cells = [] ∧ mappingLab.mem.rdc.cells = [] ∧ mappingLab.due = [] ∧
      (mappingLab.liveCtx 1).isSome = true ∧ mappingLab.allMappings.find? (fun x => x.meets (mappingOf ⟨3, 0x2_0000, areaEntry ⟨3, 0x2_0000, 0x9_08C3⟩⟩ 1 0x13_0010)) = none ∧
      TakenUp mappingLab (.map (mbox false) 1 0x2_0000 65536 [⟨3, 0x2_0000, 0x9_08C3⟩]) (mbox false) ∧ entryAt mappingLab.mem.bytes 0x2_0000 3 0 0x10_0000 = some 0x13_0010) ∧
    ((upLab none 8 0).peerKnown 4 = false ∧ (upLab none 8 0).peerKnown 3 = true) ∧
    (FwRuns (fwRuns (.checkpoint (mbox false) 3 0) 3 (upLab none 8 0)) (.checkpoint (mbox false) 3 0) 2 { num := 1, act := some (.checkpoint (mbox false) 3 0), step := 3 } ∧
      FwRuns (fwRuns (.restore (mbox false) 3 0) 3 (upLab none 8 0)) (.restore (mbox false) 3 0) 2 { num := 1, act := some (.restore (mbox false) 3 0), step := 3 } ∧
      (upLab none 8 0).mem.homes.cells = [] ∧ Memory.wf (upLab none 8 0).mem.bytes = true) ∧
    (upLab none 8 0).dev.image.get? (imageKey 3 0) = none ∧ (upLab none 8 0).fw.ctxs.cells ≠ [] ∧ State.reset.fw.ctxs.cells = [] ∧ (∀ x ∈ State.reset.routeTable 0, x < 2 ^ 18) := by
  refine ⟨fun i _ => takenUp i 8, by decide, by decide, by decide, ⟨by decide, by decide, by decide, by decide, by decide, by decide, by decide, by decide, ⟨⟨_, _, rfl, rfl⟩, rfl⟩, by decide⟩, by decide, ⟨fwRuns_runs _ 3 (by decide), fwRuns_runs _ 3 (by decide), by decide, by decide⟩, by decide, by decide, by decide,
    no_routes 0⟩

/-- A reset device in a later step of bring-up, with the first clusters of the order ungated and enabled. -/
def bringUp (step n : Nat) : State :=
  { State.reset with dev := { State.reset.dev with step := step }, cores := ⟨(List.range (8 * n)).map fun k => (k, { State.reset.core k with gated := false, marray := true })⟩ }

/-- A home-cache line, dirty or clean. -/
def cached (d : Bool) : State := { State.reset with mem := { State.reset.mem with hcache := ⟨[(0x800, { dirty := d })]⟩ } }
/-- An L1 line whose bytes are all dirty or all clean. -/
def dirtied (d : Bool) : L1Line := { pageLine with bytes := ⟨(List.range 8).map fun i => (i, ⟨BitVec.ofNat 8 (i + 1), d⟩)⟩ }
/-- A monitor on die 3's spoil list. -/
def spoilt : Monitor := { place := .mem 0x300_0000_0000, wide := false, cmp := 0, oper := 0, take := true, spoil := true, who := .sig 2, index := 7 }
theorem meets_powerAndErrors_spoil : ({ State.reset with mem := { State.reset.mem with mons := [spoilt] } }).mem.mons = [spoilt] ∧ spoilt.spoil = true ∧ spoilt.die = 3 ∧ spoilt.index = 7 := by decide

theorem meets_powerAndErrors :
    State.reset.dev.step = 1 ∧ (∀ n ∈ [2, 3, 4, 5, 8], (bringUp n 0).dev.step = n) ∧
    (∀ n ∈ [6, 7], ((bringUp n 2).core 16).gated = true ∧ ((bringUp n 2).core 16).marray = false ∧ ∀ j ∈ [0, 1], ((bringUp n 2).core (8 * j)).gated = false ∧ ((bringUp n 2).core (8 * j)).marray = true) ∧
    isHbm 0x800 = true ∧ (bringUp 8 0).mem.hcache.get? 0x800 = none ∧
    (∀ w ∈ [(ErrAt.home 0x800, 3), (.l1 0 (l1Key 1 0x2_0000), 1), (.rdc 3 0, 0), (.spad 511, 114687), (.spoil 3, 7)], errReal w.2 w.1 = true) ∧ errReal 4 (.home 0x800) = false ∧ 7 < spoilRoom ∧
    (∀ d ∈ [true, false], (cached d).mem.hcache.get? 0x800 = some { dirty := d }) ∧
    (∀ d ∈ [true, false], ((withLine (lab (.nop bare) [])).core 0).l1.get? (l1Key 1 0x2_0000) = some pageLine ∧ (dirtied d).bytes.get? 4 = some ⟨5, d⟩) := by decide

/-- Every cluster's matrix arrays are enabled. -/
theorem meets_powerAndErrors_enabled : (bringUp 7 64).dev.step = 7 ∧ ∀ k, k < 64 → ((bringUp 7 64).core (8 * k)).marray = true := by
  refine ⟨rfl, ?_⟩
  decide +kernel

theorem meets_stepKeepsMemory : State.reset.memWf ∧ ∃ t, step State.reset = .next t := ⟨by unfold State.memWf; decide, _, rfl⟩

theorem meets_decodeOfEncode : (Instr.iadd plainAdd).wf = true ∧ (Instr.iadd plainAdd).view.isSome = true := by decide
theorem meets_encodeOfDecode : reads (encode (.iadd plainAdd)) (.iadd plainAdd) = true := by decide

/-! ### One step of memory, traps and the device -/

/-- The thread of slot 0 after a step. -/
def threadOf (s : State) : Option Thread := (after s).threads.get? 0

/-- TRAP 3 at 0x1_0000 with a handler at 0x2_0000: code 0x10 with HND set, the handler's PC, TPC the step after the TRAP, TVAL the value (R313, R330). -/
theorem test_trap : (threadOf (labWith .trap { bare with imm := 3 } [] withHandler)).map (fun t => (t.pc, t.trap.tpc, t.trap.tval, t.trap.tcause.toNat % 512)) =
    some (0x2_0000, 0x1_0001, 3, 0x110) := by decide
/-- A load at 0x2_0002 of four bytes is misaligned: TVAL is the address (R384). -/
theorem test_misaligned : (threadOf (labWith .ld ldOps [] (offset 2 ∘ withHandler))).map (fun t => (t.pc, t.trap.tval, t.trap.tcause.toNat % 256)) = some (0x2_0000, 0x2_0002, 0x0A) := by decide
/-- A store of 7 into a writable L1 line: little-endian, and dirty (R14, R58). -/
theorem test_store : (((after (labWith .st stOps [] (withLine ∘ withPage))).core 0).l1.get? (l1Key 1 0x2_0000)).map (fun l => (l.bytes.get? 0, l.bytes.get? 3)) =
    some (some ⟨7, true⟩, some ⟨0, true⟩) := by decide
/-- ATOM.add of 7 to a cell of the scratchpad that holds 0 (R396). -/
theorem test_atom : (after (ownWindow (lab (.atom (atomOps 0)) []))).mem.scratch.readN (scratchKey 0 16384) 4 = [7, 0, 0, 0] := by decide
/-- The first step from reset takes bring-up to step 2 (R510). -/
theorem test_reset : (after State.reset).dev.step = 2 := by decide
/-- CALL pushes the step after it and goes to the target line (R234). -/
theorem test_call : (threadOf (labWith .call braOps [] withTarget)).map (fun t => (t.pc, t.stack)) = some (0x1_0040, [0x1_0001, 0x1_0040]) := by decide

end Sys2Proof.Tests
end

section
/-!
The instructions across the lanes of a group (R243 to R245): one lemma for the course they share, one for what VOTE, the lane order and the prefixes compute, and the obligation from these.
-/
namespace Sys2Proof.Machine

variable {s : State} {iss : Issue} {c : Opc} {o : Ops}

/-! ### The course of a lane instruction -/

theorem lookup_of_mem_nodup {β : Type} {l : List (Nat × β)} {k : Nat} {x : β} (hn : (l.map Prod.fst).Nodup) (h : (k, x) ∈ l) :
    l.lookup k = some x := by
  obtain ⟨a, b, rfl⟩ := List.append_of_mem h
  refine List.lookup_eq_some_iff.mpr ⟨a, b, rfl, fun p hp => ?_⟩
  rw [List.map_append, List.nodup_append] at hn
  obtain ⟨-, -, apart⟩ := hn
  exact bne_iff_ne.mpr (apart p.1 (List.mem_map.mpr ⟨p, hp, rfl⟩) k List.mem_cons_self).symm

theorem gave_of_produced {t : State} {p : Nat × Thread} {x : Nat} (h : t.threads.get? p.1 = some (p.2.produced c o iss x)) :
    Gave t c o iss p x := by
  obtain ⟨has, others, rest, pc, -, -⟩ := Thread.produced_spec p.2 c o iss x
  exact ⟨_, h, has, others, rest, pc⟩

/-- With no thread to wait for, a lane instruction completes with the outcomes that its function lists. -/
theorem runLanes_eq {f : Issue → List (Nat × Thread) → List (Nat × LaneOut)} {vs : List (Nat × Nat)}
    (hh : s.Holds iss) (hs : s.Sound iss c o) (hk : s.Known iss c o)
    (hf : f iss (s.executing iss o) = vs.map fun v => (v.1, .value v.2)) :
    s.runLanes c o f = s.completeOut iss c o (vs.map fun v => (v.1, .value v.2)) [] := by
  have busy : (s.executing iss o).any (fun p => p.2.halfBusy (c.pairDst o) o.dst) = false := by
    rw [List.any_eq_false]
    intro p hp
    obtain ⟨-, -, -, h, -⟩ := hk p hp
    simp [h]
  unfold State.runLanes
  rw [hh.cur]
  dsimp only
  rw [(sound_filter hs).1, (sound_filter hs).2, hf, busy, if_neg]
  simp

/-- A lane instruction gives every executing thread the value that is listed for it and changes nothing outside the group. -/
theorem exec_lanes_gave {f : Issue → List (Nat × Thread) → List (Nat × LaneOut)} {vs : List (Nat × Nat)}
    (hx : exec (c.mk o) s = .next (s.runLanes c o f)) (hh : s.Holds iss) (hs : s.Sound iss c o) (hk : s.Known iss c o)
    (hf : f iss (s.executing iss o) = vs.map fun v => (v.1, .value v.2)) (hn : (vs.map Prod.fst).Nodup) :
    ∃ t, exec (c.mk o) s = .next t ∧ s.SameOutside t iss.core iss.group ∧
      ∀ p ∈ s.executing iss o, ∀ x, (p.1, x) ∈ vs → Gave t c o iss p x := by
  refine ⟨_, hx, ?_⟩
  rw [runLanes_eq hh hs hk hf]
  refine ⟨State.completeOut_outside .., fun p hp x listed => gave_of_produced ?_⟩
  obtain ⟨slot, here, ready, pc, -⟩ := mem_executing.mp hp
  refine State.completeOut_get slot (hh.home _ slot) (hh.group _ slot _ here) here ready pc (lookup_of_mem_nodup ?_ ?_)
  · rwa [List.map_map]
  · exact List.mem_map.mpr ⟨_, listed, rfl⟩

/-- The same where the value is a function of the thread. -/
theorem exec_lanes_gave_each {f : Issue → List (Nat × Thread) → List (Nat × LaneOut)} {g : Nat × Thread → Nat}
    (hx : exec (c.mk o) s = .next (s.runLanes c o f)) (hh : s.Holds iss) (hs : s.Sound iss c o) (hk : s.Known iss c o)
    (hf : f iss (s.executing iss o) = (s.executing iss o).map fun p => (p.1, .value (g p))) :
    ∃ t, exec (c.mk o) s = .next t ∧ s.SameOutside t iss.core iss.group ∧ ∀ p ∈ s.executing iss o, Gave t c o iss p (g p) := by
  obtain ⟨t, run, outside, gave⟩ := exec_lanes_gave (vs := (s.executing iss o).map fun p => (p.1, g p)) hx hh hs hk
    (by rw [hf, List.map_map]; rfl) (by rw [List.map_map]; exact executing_nodup hh)
  exact ⟨t, run, outside, fun p hp => gave p hp _ (List.mem_map.mpr ⟨p, hp, rfl⟩)⟩

/-! ### VOTE (R243) -/

theorem testBit_ballot_from (l : List (Nat × Bool)) (acc n : Nat) :
    (l.foldl (fun acc p => if p.2 then Nat.lor acc (2 ^ p.1) else acc) acc).testBit n = true ↔
      acc.testBit n = true ∨ (n, true) ∈ l := by
  induction l generalizing acc with
  | nil => simp
  | cons p r ih =>
    obtain ⟨lane, vote⟩ := p
    rw [List.foldl_cons, ih]
    cases vote
    · simp
    · have bit : (Nat.lor acc (2 ^ lane)).testBit n = (acc.testBit n || decide (lane = n)) := by
        rw [← Nat.testBit_two_pow]; exact Nat.testBit_or ..
      simp only [↓reduceIte, bit, Bool.or_eq_true, decide_eq_true_eq, or_assoc, List.mem_cons, Prod.mk.injEq, and_true, eq_comm (a := n)]

theorem testBit_ballot (l : List (Nat × Bool)) (n : Nat) : (ballot l).testBit n = true ↔ (n, true) ∈ l := by
  unfold ballot; rw [testBit_ballot_from]; simp

theorem voteValue_all {code : Nat} (h : code = 0) (l : List (Nat × Bool)) : voteValue code l = if l.all Prod.snd then 1 else 0 := by
  subst h; rfl

theorem voteValue_any {code : Nat} (h : code = 1) (l : List (Nat × Bool)) : voteValue code l = if l.any Prod.snd then 1 else 0 := by
  subst h; rfl

theorem voteValue_ballot {code : Nat} (h : 2 ≤ code) (l : List (Nat × Bool)) : voteValue code l = ballot l := by
  unfold voteValue
  split
  · omega
  · omega
  · rfl

/-- The three votes are read off `voteValue`, one by each code. -/
theorem voteResults : VoteResults := by
  intro o s iss hh hs hk
  obtain ⟨t, run, outside, gave⟩ := exec_lanes_gave_each (c := .vote) (g := fun _ => voteValue (o.aux.toNat % 4)
    ((s.executing iss o).map fun p => (p.2.lane, asPred (firstVal s iss .vote o p)))) rfl hh hs hk rfl
  refine ⟨t, _, run, outside, gave, fun all => ?_, fun any => ?_, fun two n => ?_⟩
  · exact (voteValue_all all _).trans (ite_congr (by simp) (fun _ => rfl) (fun _ => rfl))
  · exact (voteValue_any any _).trans (ite_congr (by simp) (fun _ => rfl) (fun _ => rfl))
  · simp [voteValue_ballot two, testBit_ballot]

/-! ### SHFL (R244) -/

/-- The source's operand is known, be it the thread found at the lane or the reader itself, so no thread waits. -/
theorem shuffleResults : ShuffleResults := by
  intro o s iss hh hs hk source
  refine exec_lanes_gave_each (c := .shfl) rfl hh hs hk (List.map_congr_left fun p hp => ?_)
  obtain ⟨own, lane, -, -, -⟩ := hk p hp
  have read : (s.opA iss .shfl o ((s.atLane iss.core iss.group
      (shflLane (o.aux.toNat % 4) p.2.lane (s.vals iss .shfl o p.1 p.2).2.1)).getD p)).isKnown = true := by
    cases found : s.atLane iss.core iss.group (shflLane (o.aux.toNat % 4) p.2.lane (s.vals iss .shfl o p.1 p.2).2.1) with
    | none => exact own
    | some q => exact source p hp q found
  dsimp only
  split
  next x _ value => exact congrArg (fun v => (p.1, LaneOut.value v)) (congrArg Opnd.val value).symm
  next pending => exact (pending _ _ (Opnd.known_val lane) (Opnd.known_val read)).elim

/-! ### The lane order and the prefixes of a reduction (R245) -/

theorem insertLane_perm (x : Nat × Nat × Nat) (l : List (Nat × Nat × Nat)) : (insertLane x l).Perm (x :: l) := by
  induction l with
  | nil => exact .refl _
  | cons y r ih =>
    simp only [insertLane]
    split
    · exact .refl _
    · exact (ih.cons y).trans (.swap x y r)

theorem insertLane_ascending {l : List (Nat × Nat × Nat)} (x : Nat × Nat × Nat) (h : l.Pairwise fun a b => a.1 ≤ b.1) :
    (insertLane x l).Pairwise fun a b => a.1 ≤ b.1 := by
  induction l with
  | nil => exact List.pairwise_singleton ..
  | cons y r ih =>
    obtain ⟨first, rest⟩ := List.pairwise_cons.mp h
    simp only [insertLane]
    split
    · rename_i below
      refine List.pairwise_cons.mpr ⟨fun z hz => ?_, h⟩
      rcases List.mem_cons.mp hz with rfl | hz
      · exact below
      · exact Nat.le_trans below (first z hz)
    · rename_i above
      refine List.pairwise_cons.mpr ⟨fun z hz => ?_, ih rest⟩
      rcases List.mem_cons.mp ((insertLane_perm x r).mem_iff.mp hz) with rfl | hz
      · exact Nat.le_of_not_le above
      · exact first z hz

theorem laneOrder_perm (l : List (Nat × Nat × Nat)) : (laneOrder l).Perm l := by
  induction l with
  | nil => exact .refl _
  | cons x r ih => exact (insertLane_perm x _).trans (ih.cons x)

theorem laneOrder_ascending (l : List (Nat × Nat × Nat)) : (laneOrder l).Pairwise fun a b => a.1 ≤ b.1 := by
  induction l with
  | nil => exact .nil
  | cons x r ih => exact insertLane_ascending x ih

section

variable (f : Nat → Nat → Nat)

theorem prefixes_keys (acc : Option Nat) (l : List (Nat × Nat × Nat)) : (prefixes f acc l).map Prod.fst = l.map (·.2.1) := by
  induction l generalizing acc with
  | nil => cases acc <;> rfl
  | cons y r ih => cases acc <;> simp [prefixes, ih]

theorem prefixes_from_getElem? (acc : Nat) (l : List (Nat × Nat × Nat)) (n : Nat) :
    (prefixes f (some acc) l)[n]? = l[n]?.map fun y => (y.2.1, ((l.take (n + 1)).map (·.2.2)).foldl f acc) := by
  induction l generalizing acc n with
  | nil => rfl
  | cons y r ih =>
    cases n with
    | zero => rfl
    | succ n => simp [prefixes, ih]

/-- The entry of the n-th thread in lane order: its key and the combination of the values up to its own. -/
theorem prefixes_getElem? (l : List (Nat × Nat × Nat)) (n : Nat) :
    (prefixes f none l)[n]? = l[n]?.map fun y => (y.2.1, fold1 f ((l.take (n + 1)).map (·.2.2))) := by
  cases l with
  | nil => rfl
  | cons y r =>
    cases n with
    | zero => rfl
    | succ n => simp [prefixes, prefixes_from_getElem?, fold1]

/-- The last entry is the whole combination. -/
theorem prefixes_last (l : List (Nat × Nat × Nat)) :
    ((prefixes f none l).getLast?.map Prod.snd).getD 0 = fold1 f (l.map (·.2.2)) := by
  have length : (prefixes f none l).length = l.length := by
    simpa using congrArg List.length (prefixes_keys f none l)
  rw [List.getLast?_eq_getElem?, length, prefixes_getElem?]
  cases l with
  | nil => rfl
  | cons y r => simp

end

/-! ### GRED and GSCAN (R245) -/

/-- The executing threads in ascending lane order, with their keys and their operands as a reduction takes them. -/
def State.reductionOrder (s : State) (iss : Issue) (c : Opc) (o : Ops) : List (Nat × Nat × Nat) :=
  laneOrder ((s.executing iss o).map fun p => (p.2.lane, p.1, reduced o (firstVal s iss c o p)))

theorem groupPrefixes_known (hk : s.Known iss c o) :
    s.groupPrefixes c o iss (s.executing iss o) = some (prefixes (combine o.ty (o.aux.toNat % 8)) none (s.reductionOrder iss c o)) := by
  unfold State.groupPrefixes
  rw [if_neg]
  · rfl
  · rw [Bool.not_eq_true, List.any_eq_false]
    intro p hp
    obtain ⟨known, -⟩ := hk p hp
    simp [State.opA, known]

theorem reductionOrder_keys_nodup (hh : s.Holds iss) : ((s.reductionOrder iss c o).map (·.2.1)).Nodup := by
  unfold State.reductionOrder
  rw [((laneOrder_perm _).map _).nodup_iff, List.map_map]
  exact executing_nodup hh

/-- GRED gives every executing thread the last entry of `prefixes`, which is the whole. -/
theorem gred_gives_whole (hh : s.Holds iss) (hs : s.Sound iss .gred o) (hk : s.Known iss .gred o) :
    ∃ t, exec (.gred o) s = .next t ∧ s.SameOutside t iss.core iss.group ∧ ∀ p ∈ s.executing iss o,
      Gave t .gred o iss p (fold1 (combine o.ty (o.aux.toNat % 8)) ((s.reductionOrder iss .gred o).map (·.2.2))) := by
  refine exec_lanes_gave_each (c := .gred) rfl hh hs hk ?_
  simp only [groupPrefixes_known hk, prefixes_last]

/-- GSCAN gives the thread at place n of the lane order the n-th entry of `prefixes`. -/
theorem gscan_gives_prefixes (hh : s.Holds iss) (hs : s.Sound iss .gscan o) (hk : s.Known iss .gscan o) :
    ∃ t, exec (.gscan o) s = .next t ∧ s.SameOutside t iss.core iss.group ∧ ∀ p ∈ s.executing iss o,
      ∀ n, ((s.reductionOrder iss .gscan o)[n]?).map (·.2.1) = some p.1 →
        Gave t .gscan o iss p (fold1 (combine o.ty (o.aux.toNat % 8)) (((s.reductionOrder iss .gscan o).take (n + 1)).map (·.2.2))) := by
  obtain ⟨t, run, outside, gave⟩ := exec_lanes_gave (c := .gscan)
    (vs := prefixes (combine o.ty (o.aux.toNat % 8)) none (s.reductionOrder iss .gscan o)) rfl hh hs hk
    (by simp only [groupPrefixes_known hk]) (by rw [prefixes_keys]; exact reductionOrder_keys_nodup hh)
  refine ⟨t, run, outside, fun p hp n place => gave p hp _ ?_⟩
  obtain ⟨y, at_n, key⟩ := Option.map_eq_some_iff.mp place
  refine List.mem_iff_getElem?.mpr ⟨n, ?_⟩
  rw [prefixes_getElem?, at_n, ← key]; rfl

theorem groupReductions : GroupReductions := by
  intro o s iss c hh which hs hk
  rcases which with rfl | rfl
  · obtain ⟨t, run, outside, gave⟩ := gred_gives_whole hh hs hk
    exact ⟨t, run, outside, _, laneOrder_perm _, laneOrder_ascending _, fun p hp => ⟨fun _ => gave p hp, nofun⟩⟩
  · obtain ⟨t, run, outside, gave⟩ := gscan_gives_prefixes hh hs hk
    exact ⟨t, run, outside, _, laneOrder_perm _, laneOrder_ascending _, fun p hp => ⟨nofun, fun _ => gave p hp⟩⟩

/-! ### The obligation -/

/-- Settles O9: votes, shuffles, and reductions with scans, each from the course that all lane instructions share. -/
theorem laneInstructions : Obligations.LaneInstructions := ⟨voteResults, shuffleResults, groupReductions⟩

end Sys2Proof.Machine
end

section
/-!
The integer, logic, shift and bit-count instructions in bit vectors (R354 to R357, R359, R360, R362): the model's numbers as bit vectors, one lemma for what a lane function gives in each form, what each function gives at every width, and the two obligations from these.
-/
namespace Sys2Proof

/-! ### The model's numbers as bit vectors -/

@[simp] theorem ofNat_lowBits (n x : Nat) : BitVec.ofNat n (lowBits n x) = BitVec.ofNat n x :=
  BitVec.eq_of_toNat_eq (Nat.mod_mod ..)

@[simp] theorem ofNat_ofSigned (n : Nat) (z : Int) : BitVec.ofNat n (ofSigned n z) = BitVec.ofInt n z :=
  BitVec.eq_of_toNat_eq ((Nat.mod_eq_of_lt (BitVec.ofInt n z).isLt).trans (BitVec.toNat_ofInt z).symm)

/-- The two's-complement reading of the model is that of bit vectors. -/
theorem toSigned_eq_toInt (n x : Nat) : toSigned n x = (BitVec.ofNat n x).toInt := by
  have half : lowBits n x < 2 ^ (n - 1) ↔ 2 * lowBits n x < 2 ^ n := by
    cases n with
    | zero => simp [lowBits, Nat.mod_one]
    | succ n => rw [Nat.pow_succ, Nat.add_sub_cancel]; omega
  rw [BitVec.toInt_eq_toNat_cond]; exact ite_congr (propext half) (fun _ => rfl) (fun _ => rfl)

theorem toSigned_toNat {n : Nat} (x : BitVec n) : toSigned n x.toNat = x.toInt := by
  rw [toSigned_eq_toInt, BitVec.ofNat_toNat, BitVec.setWidth_eq]

theorem ofNat_lowBits_wider {m n : Nat} (h : m ≤ n) (x : Nat) : BitVec.ofNat m (lowBits n x) = BitVec.ofNat m x :=
  BitVec.eq_of_toNat_eq (Nat.mod_mod_of_dvd x (Nat.pow_dvd_pow 2 h))

theorem ofNat_ofSigned_wider {m n : Nat} (h : m ≤ n) (z : Int) : BitVec.ofNat m (ofSigned n z) = BitVec.ofInt m z := by
  have kept : z % ((2 ^ n : Nat) : Int) % ((2 ^ m : Nat) : Int) = z % ((2 ^ m : Nat) : Int) :=
    Int.emod_emod_of_dvd z (Int.natCast_dvd_natCast.mpr (Nat.pow_dvd_pow 2 h))
  rw [ofSigned, ← BitVec.ofInt_natCast, Int.toNat_of_nonneg (Int.emod_nonneg z (Int.natCast_ne_zero.mpr (Nat.pos_iff_ne_zero.mp (Nat.two_pow_pos n))))]
  exact BitVec.eq_of_toNat_eq (by rw [BitVec.toNat_ofInt, BitVec.toNat_ofInt, kept])

/-- Extending a result to its destination keeps it at the TYPE width (R222). -/
theorem ofNat_extendTo (t : Ty) (r : Nat) : BitVec.ofNat t.bits (extendTo t r) = BitVec.ofNat t.bits r := by
  have signExtended {n : Nat} (h : n ≤ 32) : BitVec.ofNat n (ofSigned 32 (toSigned n r)) = BitVec.ofNat n r := by
    rw [ofNat_ofSigned_wider h, toSigned_eq_toInt, BitVec.ofInt_toInt]
  cases t
  case i8 | i16 => exact signExtended (by decide)
  all_goals exact ofNat_lowBits_wider (by decide) r

@[simp] theorem atTy_extendTo (o : Ops) (r : Nat) : atTy o (extendTo o.ty r) = BitVec.ofNat o.ty.bits r := ofNat_extendTo o.ty r

/-! ### The order of a TYPE (R356) -/

/-- A bit vector as an integer: signed for .i and .q64, unsigned for .n. -/
def Ty.value (t : Ty) {n : Nat} (x : BitVec n) : Int := if t.signed then x.toInt else (x.toNat : Int)

/-- The strict order of a TYPE on bit vectors. -/
def Ty.less (t : Ty) {n : Nat} (x y : BitVec n) : Bool := if t.signed then x.slt y else x.ult y

section

variable (t : Ty) {n : Nat} (x y : BitVec n)

theorem intVal_eq_value (o : Ops) (a : Nat) : o.ty.intVal a = o.ty.value (atTy o a) := by
  unfold Ty.intVal Ty.value; rw [toSigned_eq_toInt]; rfl

theorem elemVal_eq_value (o : Ops) : elemVal o n x.toNat = o.ty.value x := by
  unfold elemVal Ty.value; rw [toSigned_toNat]

theorem Ty.value_eq_iff : t.value x = t.value y ↔ x = y := by
  unfold Ty.value
  split
  · exact BitVec.toInt_inj
  · rw [Int.natCast_inj, BitVec.toNat_inj]

theorem Ty.value_lt_iff : t.value x < t.value y ↔ t.less x y = true := by
  unfold Ty.value Ty.less
  split
  · exact BitVec.slt_iff_toInt_lt.symm
  · rw [Int.ofNat_lt, BitVec.ult_iff_toNat_lt]

theorem Ty.value_le_iff : t.value x ≤ t.value y ↔ t.less x y = true ∨ x = y := by
  rw [Int.le_iff_lt_or_eq, t.value_lt_iff, t.value_eq_iff]

theorem Ty.value_eq_zero_iff : t.value x = 0 ↔ x = 0#n := by
  rw [← t.value_eq_iff x 0#n]; simp [Ty.value]

end

/-! ### Lane functions: the whole operand at the TYPE width, or each 16-bit element (R349) -/

/-- A packed result holds its two elements. -/
theorem elem16_pair (g : Nat → Nat) {i : Nat} (h : i < 2) :
    elem16 (lowBits 16 (g 0) + 2 ^ 16 * lowBits 16 (g 1)) i = BitVec.ofNat 16 (g i) := by
  apply BitVec.eq_of_toNat_eq
  rcases (by omega : i = 0 ∨ i = 1) with rfl | rfl <;> simp only [elem16, BitVec.toNat_ofNat, lowBits] <;> omega

section

variable {o : Ops} {a b : Nat}

/-- A lane function that computes g at every width computes g of the whole operand. -/
theorem atTy_lanes1 {f : Nat → Nat → Nat} (g : (n : Nat) → BitVec n → BitVec n)
    (hf : ∀ n (x : BitVec n), BitVec.ofNat n (f n x.toNat) = g n x) (h : o.x2 = false) :
    atTy o (lanes1 o f a) = g _ (atTy o a) := by
  rw [lanes1, h, if_neg Bool.false_ne_true, atTy_extendTo]
  exact hf _ (atTy o a)

theorem atTy_lanes2 {f : Nat → Nat → Nat → Nat} (g : (n : Nat) → BitVec n → BitVec n → BitVec n)
    (hf : ∀ n (x y : BitVec n), BitVec.ofNat n (f n x.toNat y.toNat) = g n x y) (h : o.x2 = false) :
    atTy o (lanes2 o f a b) = g _ (atTy o a) (atTy o b) := by
  rw [lanes2, h, if_neg Bool.false_ne_true, atTy_extendTo]
  exact hf _ (atTy o a) (atTy o b)

/-- A lane function that computes g at every width computes g of each element of a packed operand. -/
theorem elem16_lanes1 {f : Nat → Nat → Nat} (g : (n : Nat) → BitVec n → BitVec n)
    (hf : ∀ n (x : BitVec n), BitVec.ofNat n (f n x.toNat) = g n x) (h : o.x2 = true) {i : Nat} (hi : i < 2) :
    elem16 (lanes1 o f a) i = g 16 (elem16 a i) := by
  rw [lanes1, if_pos h, ← hf]
  exact elem16_pair (fun i => f 16 (bitsAt a (16 * i) 16)) hi

theorem elem16_lanes2 {f : Nat → Nat → Nat → Nat} (g : (n : Nat) → BitVec n → BitVec n → BitVec n)
    (hf : ∀ n (x y : BitVec n), BitVec.ofNat n (f n x.toNat y.toNat) = g n x y) (h : o.x2 = true) {i : Nat} (hi : i < 2) :
    elem16 (lanes2 o f a b) i = g 16 (elem16 a i) (elem16 b i) := by
  rw [lanes2, if_pos h, ← hf]
  exact elem16_pair (fun i => f 16 (bitsAt a (16 * i) 16) (bitsAt b (16 * i) 16)) hi

end

/-! ### Sums and products, modulo the width (R354) -/

section

variable {n : Nat} (x y z : BitVec n)

theorem lowBits_add : BitVec.ofNat n (lowBits n (x.toNat + y.toNat)) = x + y := by
  simp [BitVec.ofNat_add]

theorem lowBits_sub : BitVec.ofNat n (lowBits n (x.toNat + 2 ^ n - y.toNat)) = x - y := by
  rw [ofNat_lowBits, Nat.add_sub_assoc (Nat.le_of_lt y.isLt), Nat.add_comm]; rfl

theorem lowBits_neg : BitVec.ofNat n (lowBits n (2 ^ n - x.toNat)) = -x := by
  rw [ofNat_lowBits]; rfl

theorem lowBits_mul : BitVec.ofNat n (lowBits n (x.toNat * y.toNat)) = x * y := by
  simp [BitVec.ofNat_mul]

theorem lowBits_mul_add : BitVec.ofNat n (lowBits n (x.toNat * y.toNat + z.toNat)) = x * y + z := by
  simp [BitVec.ofNat_add, BitVec.ofNat_mul]

end

theorem atTy_aluImulh (o : Ops) (a b : Nat) : atTy o (aluImulh o a b) =
    BitVec.ofInt o.ty.bits (o.ty.value (atTy o a) * o.ty.value (atTy o b) / 2 ^ o.ty.bits) := by
  simp [aluImulh, intVal_eq_value]

theorem integerArithmetic : IntegerArithmetic := by
  intro o a b d
  refine ⟨fun h => ⟨?_, ?_, ?_, ?_, ?_⟩, ?_, fun h i hi => ⟨?_, ?_, ?_, ?_⟩⟩
  · exact atTy_lanes2 (fun _ => (· + ·)) (fun _ => lowBits_add) h
  · exact atTy_lanes2 (fun _ => (· - ·)) (fun _ => lowBits_sub) h
  · exact atTy_lanes1 (fun _ => (- ·)) (fun _ => lowBits_neg) h
  · exact atTy_lanes2 (fun _ => (· * ·)) (fun _ => lowBits_mul) h
  · rw [aluImad, lanes3, h, if_neg Bool.false_ne_true, atTy_extendTo]
    exact lowBits_mul_add (atTy o a) (atTy o b) (atTy o d)
  · rw [atTy_aluImulh]
    unfold Ty.value
    split
    · rfl
    · rw [← BitVec.ofInt_natCast]; push_cast; rfl
  · exact elem16_lanes2 (fun _ => (· + ·)) (fun _ => lowBits_add) h hi
  · exact elem16_lanes2 (fun _ => (· - ·)) (fun _ => lowBits_sub) h hi
  · exact elem16_lanes1 (fun _ => (- ·)) (fun _ => lowBits_neg) h hi
  · exact elem16_lanes2 (fun _ => (· * ·)) (fun _ => lowBits_mul) h hi

/-! ### Quotients and remainders (R355) -/

section

variable {n : Nat} (x y : BitVec n)

theorem ofInt_tdiv_toInt : BitVec.ofInt n (x.toInt.tdiv y.toInt) = x.sdiv y := by
  rw [← BitVec.toInt_inj, BitVec.toInt_ofInt, BitVec.toInt_sdiv]

theorem ofInt_tmod_toInt : BitVec.ofInt n (x.toInt.tmod y.toInt) = x.srem y := by
  rw [← BitVec.toInt_srem, BitVec.ofInt_toInt]

theorem ofInt_tdiv_toNat : BitVec.ofInt n ((x.toNat : Int).tdiv y.toNat) = x / y := by
  rw [← Int.ofNat_tdiv, BitVec.ofInt_natCast, ← BitVec.toNat_udiv, BitVec.ofNat_toNat, BitVec.setWidth_eq]

theorem ofInt_tmod_toNat : BitVec.ofInt n ((x.toNat : Int).tmod y.toNat) = x % y := by
  rw [← Int.ofNat_tmod, BitVec.ofInt_natCast, ← BitVec.toNat_umod, BitVec.ofNat_toNat, BitVec.setWidth_eq]

end

section

variable {o : Ops} {a b : Nat}

theorem intVal_eq_zero_iff : o.ty.intVal b = 0 ↔ atTy o b = 0 := by
  rw [intVal_eq_value]; exact Ty.value_eq_zero_iff ..

theorem atTy_aluIdiv_zero (h : atTy o b = 0) : atTy o (aluIdiv o a b) = BitVec.allOnes o.ty.bits := by
  simp only [aluIdiv, intVal_eq_zero_iff.mpr h, if_true, atTy_extendTo]
  exact BitVec.eq_of_toNat_eq (by simp)

theorem atTy_aluIrem_zero (h : atTy o b = 0) : atTy o (aluIrem o a b) = atTy o a := by
  simp only [aluIrem, intVal_eq_zero_iff.mpr h, if_true, atTy_extendTo, ofNat_lowBits]
  rfl

theorem atTy_aluIdiv (h : atTy o b ≠ 0) :
    atTy o (aluIdiv o a b) = BitVec.ofInt _ ((o.ty.value (atTy o a)).tdiv (o.ty.value (atTy o b))) := by
  rw [aluIdiv, atTy_extendTo, if_neg (mt intVal_eq_zero_iff.mp h), ofNat_ofSigned, intVal_eq_value, intVal_eq_value]

theorem atTy_aluIrem (h : atTy o b ≠ 0) :
    atTy o (aluIrem o a b) = BitVec.ofInt _ ((o.ty.value (atTy o a)).tmod (o.ty.value (atTy o b))) := by
  rw [aluIrem, atTy_extendTo, if_neg (mt intVal_eq_zero_iff.mp h), ofNat_ofSigned, intVal_eq_value, intVal_eq_value]

end

theorem division : Division := by
  intro o a b _
  refine ⟨fun zero => ⟨atTy_aluIdiv_zero zero, atTy_aluIrem_zero zero⟩, fun nonzero signed => ?_, fun nonzero unsigned => ?_⟩
  · rw [atTy_aluIdiv nonzero, atTy_aluIrem nonzero]
    simp only [Ty.value, signed, if_true, ofInt_tdiv_toInt, ofInt_tmod_toInt, and_self]
  · rw [atTy_aluIdiv nonzero, atTy_aluIrem nonzero]
    simp only [Ty.value, unsigned, Bool.false_eq_true, if_false, ofInt_tdiv_toNat, ofInt_tmod_toNat, and_self]

/-! ### Comparisons (R356, R357) -/

theorem aluIcmp_of_code {o : Ops} {code : Nat} (h : o.aux.toNat % 8 = code) (a b : Nat) :
    aluIcmp o a b = if intCompare o.ty code a b = true then 1 else 0 := by
  rw [aluIcmp, h]; rfl

/-- Choosing by ≤ is choosing by <, where equal operands give the same choice. -/
theorem ite_elemVal_le {α : Type} {n : Nat} {x y : BitVec n} {p q : α} (o : Ops) (same : x = y → p = q) :
    (if elemVal o n x.toNat ≤ elemVal o n y.toNat then p else q) = if o.ty.less x y then p else q := by
  simp only [elemVal_eq_value, Ty.value_le_iff]
  by_cases equal : x = y
  · rw [same equal, ite_self, ite_self]
  · simp only [equal, or_false]

theorem atTy_aluImin {o : Ops} (h : o.x2 = false) (a b : Nat) :
    atTy o (aluImin o a b) = if o.ty.less (atTy o a) (atTy o b) then atTy o a else atTy o b := by
  refine atTy_lanes2 (fun _ x y => if o.ty.less x y then x else y) (fun n x y => ?_) h
  rw [ite_elemVal_le o (congrArg BitVec.toNat), apply_ite (BitVec.ofNat n)]
  simp

theorem atTy_aluImax {o : Ops} (h : o.x2 = false) (a b : Nat) :
    atTy o (aluImax o a b) = if o.ty.less (atTy o a) (atTy o b) then atTy o b else atTy o a := by
  refine atTy_lanes2 (fun _ x y => if o.ty.less x y then y else x) (fun n x y => ?_) h
  rw [ite_elemVal_le o fun same => (congrArg BitVec.toNat same).symm, apply_ite (BitVec.ofNat n)]
  simp

theorem comparisons : Comparisons := by
  intro o a b _ x y lt
  have equal : o.ty.intVal a = o.ty.intVal b ↔ x = y := by
    rw [intVal_eq_value, intVal_eq_value]; exact Ty.value_eq_iff ..
  have below : o.ty.intVal a < o.ty.intVal b ↔ lt = true := by
    rw [intVal_eq_value, intVal_eq_value]; exact Ty.value_lt_iff ..
  have upTo : o.ty.intVal a ≤ o.ty.intVal b ↔ lt = true ∨ x = y := by rw [Int.le_iff_lt_or_eq, below, equal]
  refine ⟨fun code => ?_, fun code => ?_, fun code => ?_, fun code => ?_, fun code => ?_, fun code => ?_,
    fun h => ⟨atTy_aluImin h a b, atTy_aluImax h a b⟩⟩
  all_goals simp only [aluIcmp_of_code code, intCompare, decide_eq_true_eq]
  · simp only [equal]
  · simp only [ne_eq, equal, ite_not]
  · simp only [below]
  · simp only [upTo]
  · simp only [← Int.not_le, upTo, ite_not]
  · simp only [← Int.not_lt, below, ite_not]

/-- Settles O8: the arithmetic of each width, the quotients and remainders as integers that truncate, and the order of the TYPE. -/
theorem arithmeticInstructions : Obligations.ArithmeticInstructions := ⟨integerArithmetic, division, comparisons⟩

end Sys2Proof
end

section
/-!
The logic, shift and bit-count instructions (R359, R360, R362): what each computes at every width, and the obligation from these.
-/
namespace Sys2Proof

/-! ### Logic (R359) -/

section

variable {n : Nat} (x y : BitVec n)

theorem ofNat_complement : BitVec.ofNat n (2 ^ n - 1 - x.toNat) = ~~~x := by
  rw [← BitVec.toNat_not, BitVec.ofNat_toNat, BitVec.setWidth_eq]

theorem ofNat_land_complement : BitVec.ofNat n (Nat.land x.toNat (2 ^ n - 1 - y.toNat)) = x &&& ~~~y := by
  refine BitVec.ofNat_and.trans ?_
  rw [ofNat_complement, BitVec.ofNat_toNat, BitVec.setWidth_eq]

end

theorem logic : Logic := by
  intro o a b h
  refine ⟨?_, ?_, ?_, ?_, ?_⟩
  · exact (atTy_extendTo o _).trans BitVec.ofNat_and
  · exact (atTy_extendTo o _).trans BitVec.ofNat_or
  · exact (atTy_extendTo o _).trans BitVec.ofNat_xor
  · exact atTy_lanes2 (fun _ x y => x &&& ~~~y) (fun _ => ofNat_land_complement) h
  · exact atTy_lanes1 (fun _ x => ~~~x) (fun _ => ofNat_complement) h

/-! ### Shifts (R360) -/

section

variable {n : Nat} (x : BitVec n) (c : Nat)

theorem ofNat_mul_two_pow : BitVec.ofNat n (x.toNat * 2 ^ c) = x <<< c := by
  rw [← Nat.shiftLeft_eq]; rfl

theorem ofNat_div_two_pow : BitVec.ofNat n (x.toNat / 2 ^ c) = x >>> c := by
  rw [← Nat.shiftRight_eq_div_pow, ← BitVec.toNat_ushiftRight, BitVec.ofNat_toNat, BitVec.setWidth_eq]

theorem ofNat_shl : BitVec.ofNat n (if n ≤ c then 0 else lowBits n (x.toNat * 2 ^ c)) = x <<< c := by
  split
  next past => exact (BitVec.shiftLeft_eq_zero past).symm
  next => rw [ofNat_lowBits, ofNat_mul_two_pow]

theorem ofNat_shr : BitVec.ofNat n (if n ≤ c then 0 else x.toNat / 2 ^ c) = x >>> c := by
  split
  next past => exact (BitVec.ushiftRight_eq_zero past).symm
  next => exact ofNat_div_two_pow x c

/-- A count of the width or more fills with the sign, as a count of the width does. -/
theorem sshiftRight_past {c : Nat} (h : n ≤ c) : x.sshiftRight n = x.sshiftRight c := by
  ext i hi
  rw [BitVec.getElem_sshiftRight, BitVec.getElem_sshiftRight, dif_neg (by omega), dif_neg (by omega)]

theorem ofNat_sar :
    BitVec.ofNat n (ofSigned n (toSigned n x.toNat / ((2 ^ (if n ≤ c then n else c) : Nat) : Int))) = x.sshiftRight c := by
  rw [ofNat_ofSigned, toSigned_toNat, ← Int.shiftRight_eq_div_pow, ← BitVec.sshiftRight_eq]
  split
  next past => exact sshiftRight_past x past
  next => rfl

/-- The part that leaves at the top and the part that stays meet in no bit, so their sum is the rotation. -/
theorem ofNat_rotl : BitVec.ofNat n (lowBits n (x.toNat * 2 ^ (c % n)) + x.toNat / 2 ^ (n - c % n)) = x.rotateLeft c := by
  have apart : x <<< (c % n) &&& x >>> (n - c % n) = 0#n := by
    ext i hi
    have : c % n < n := Nat.mod_lt _ (by omega)
    simp only [BitVec.getElem_and, BitVec.getElem_shiftLeft, BitVec.getElem_ushiftRight, BitVec.getElem_zero]
    by_cases low : i < c % n
    · simp [low]
    · simp [BitVec.getLsbD_of_ge x (n - c % n + i) (by omega)]
  rw [BitVec.ofNat_add, ofNat_lowBits, ofNat_mul_two_pow, ofNat_div_two_pow, BitVec.add_eq_or_of_and_eq_zero _ _ apart]
  rfl

end

theorem shifts : Shifts := by
  intro o a b h
  rw [← lowBits]
  unfold aluShl aluShr aluSar aluRotl
  generalize lowBits 32 b = c
  refine ⟨?_, ?_, ?_, ?_⟩
  · exact atTy_lanes1 (fun _ x => x <<< c) (fun _ x => ofNat_shl x c) h
  · exact atTy_lanes1 (fun _ x => x >>> c) (fun _ x => ofNat_shr x c) h
  · exact atTy_lanes1 (fun _ x => x.sshiftRight c) (fun _ x => ofNat_sar x c) h
  · exact atTy_lanes1 (fun _ x => x.rotateLeft c) (fun _ x => ofNat_rotl x c) h

/-! ### Bit order and counts (R362) -/

theorem popGo_eq_count (n x : Nat) : popGo n x = ((List.range n).filter x.testBit).length := by
  induction n generalizing x with
  | zero => rfl
  | succ n ih =>
    have rest : (x / 2).testBit = x.testBit ∘ Nat.succ := funext fun i => (Nat.testBit_succ x i).symm
    rw [popGo, ih, List.range_succ_eq_map, List.filter_cons, List.filter_map, rest, Nat.testBit_zero]
    rcases Nat.mod_two_eq_zero_or_one x with even | odd
    · simp [even]
    · simp [odd, Nat.add_comm]

/-- The reversed bits stand below those of the accumulator. -/
theorem testBit_brevGo (n x acc i : Nat) :
    (brevGo n x acc).testBit i = if i < n then x.testBit (n - 1 - i) else acc.testBit (i - n) := by
  induction n generalizing x acc with
  | zero => rfl
  | succ n ih =>
    rw [brevGo, ih]
    rcases Nat.lt_trichotomy i n with low | rfl | high
    · rw [if_pos low, if_pos (by omega), ← Nat.testBit_succ]
      congr 1; omega
    · simp
    · rw [if_neg (by omega), if_neg (by omega), (by omega : i - n = i - (n + 1) + 1), Nat.testBit_succ]
      congr 1; omega

/-- No bit below the count is set, and the bit at the count is, where the count is not the whole width. -/
theorem ctzGo_spec (n x : Nat) :
    ctzGo n x ≤ n ∧ (∀ i, i < ctzGo n x → x.testBit i = false) ∧ (ctzGo n x < n → x.testBit (ctzGo n x) = true) := by
  induction n generalizing x with
  | zero => exact ⟨Nat.le_refl _, nofun, nofun⟩
  | succ n ih =>
    rw [ctzGo]
    split
    next odd => exact ⟨Nat.zero_le _, nofun, fun _ => by rw [Nat.testBit_zero, decide_eq_true odd]⟩
    next even =>
      obtain ⟨le, clear, set⟩ := ih (x / 2)
      rw [Nat.add_comm 1]
      refine ⟨Nat.succ_le_succ le, fun i hi => ?_, fun h => ?_⟩
      · cases i with
        | zero => rw [Nat.testBit_zero, decide_eq_false even]
        | succ i => rw [Nat.testBit_succ]; exact clear i (Nat.lt_of_succ_lt_succ hi)
      · rw [Nat.testBit_succ]; exact set (Nat.lt_of_succ_lt_succ h)

section

variable (o : Ops) (a : Nat)

theorem getLsbD_atTy (i : Nat) : (atTy o a).getLsbD i = (decide (i < o.ty.bits) && a.testBit i) := BitVec.getLsbD_ofNat ..

theorem atTy_aluBrev : atTy o (aluBrev o a) = (atTy o a).reverse := by
  apply BitVec.eq_of_getLsbD_eq
  intro i hi
  rw [BitVec.getLsbD_reverse, BitVec.getMsbD, getLsbD_atTy, getLsbD_atTy, aluBrev, testBit_brevGo, if_pos hi]
  simp [(by omega : o.ty.bits - 1 - i < o.ty.bits)]

theorem aluPopc_eq_count : aluPopc o a = ((List.range o.ty.bits).filter fun i => (atTy o a).getLsbD i).length := by
  rw [aluPopc, popGo_eq_count]
  congr 1
  exact List.filter_congr fun i hi => by rw [getLsbD_atTy, decide_eq_true (List.mem_range.mp hi), Bool.true_and]

theorem aluClz_zero (h : atTy o a = 0) : aluClz o a = o.ty.bits := if_pos (congrArg BitVec.toNat h)

/-- The highest set bit of a nonzero operand is at `topBit`. -/
theorem aluClz_nonzero (h : atTy o a ≠ 0) :
    aluClz o a = o.ty.bits - 1 - topBit (atTy o a).toNat ∧ topBit (atTy o a).toNat < o.ty.bits ∧
    (atTy o a).getLsbD (topBit (atTy o a).toNat) = true ∧
    ∀ i, topBit (atTy o a).toNat < i → (atTy o a).getLsbD i = false := by
  have nonzero : (atTy o a).toNat ≠ 0 := fun zero => h (BitVec.eq_of_toNat_eq zero)
  refine ⟨if_neg nonzero, (Nat.log2_lt nonzero).mpr (atTy o a).isLt, Nat.testBit_log2 nonzero, fun i above => ?_⟩
  exact Nat.testBit_lt_two_pow ((Nat.log2_lt nonzero).mp above)

theorem aluClz_spec : aluClz o a ≤ o.ty.bits ∧ (∀ i, i < aluClz o a → (atTy o a).getMsbD i = false) ∧
    (aluClz o a < o.ty.bits → (atTy o a).getMsbD (aluClz o a) = true) := by
  by_cases h : atTy o a = 0
  · rw [aluClz_zero o a h, h]
    exact ⟨Nat.le_refl _, fun i _ => BitVec.getMsbD_zero, fun below => (Nat.lt_irrefl _ below).elim⟩
  · obtain ⟨count, top, set, clear⟩ := aluClz_nonzero o a h
    rw [count]
    simp only [BitVec.getMsbD]
    refine ⟨by omega, fun i hi => ?_, fun inside => ?_⟩
    · rw [clear _ (by omega), Bool.and_false]
    · rw [decide_eq_true inside, Nat.sub_sub_self (by omega), set, Bool.true_and]

theorem aluCtz_spec : aluCtz o a ≤ o.ty.bits ∧ (∀ i, i < aluCtz o a → (atTy o a).getLsbD i = false) ∧
    (aluCtz o a < o.ty.bits → (atTy o a).getLsbD (aluCtz o a) = true) := by
  obtain ⟨le, clear, set⟩ := ctzGo_spec o.ty.bits a
  refine ⟨le, fun i hi => ?_, fun h => ?_⟩
  · rw [getLsbD_atTy, clear i hi, Bool.and_false]
  · rw [getLsbD_atTy, decide_eq_true h, Bool.true_and]; exact set h

end

theorem bitCounts : BitCounts := fun o a => ⟨atTy_aluBrev o a, aluPopc_eq_count o a, aluClz_spec o a, aluCtz_spec o a⟩

/-- Settles O7: each function of the bits at every width, and the counts by induction on the bits they run over. -/
theorem bitInstructions : Obligations.BitInstructions := ⟨logic, shifts, bitCounts⟩

end Sys2Proof
end
